-- ==== Sys2Proof/Word.lean ====
section
/-! DEFINITION. The units of GBACOMP-DEC: a byte is 8 bits (10_state.md R21); an input address is
`ADDR_W = 32` bits wide (00_scope.md section 4, D19; log 2). -/

namespace Sys2Proof

/-- One byte of a space. -/
abbrev Byte := BitVec 8

/-- An address in `IN`: the type of `IN_POS` and `IN_LEN` (10_state.md R13, R18). -/
abbrev Addr := BitVec 32

end Sys2Proof
end

