-- ==== Sys2Proof/Config.lean ====
section
/-! DEFINITION. What an implementation fixes (00_scope.md section 4) and the free values: what the
spec leaves unspecified is a constant with no body, so no proof can see it. -/

namespace Sys2Proof

/-- The parameters of 00_scope.md section 4 that the decoder reads. They are no machine state
(10_state.md R25); they are carried beside it so that every claim holds for each of their values
(log 1). `LZ_MIN_OFFSET` is an argument of the reference compressor. -/
structure Params where
  /-- `OUT_CAP`, D18: the number of bytes `OUT` holds; at most 0xFFFFFF, the range of `x[OUT_LEN]` (log 2). -/
  outCap : BitVec 24
  /-- `WL4_CTRL16_BE`, the OPEN parameter D15 (20_memory.md R45). -/
  wl4Ctrl16BE : Bool
  /-- `OUT_COMMIT16`, D27 (70_reset_and_hazards.md R228; log 15). -/
  outCommit16 : Bool
  deriving DecidableEq, Repr, Inhabited

/-- The defaults of 00_scope.md section 4. -/
def Params.default : Params where
  outCap := 0xFFFFFF#24
  wl4Ctrl16BE := true
  outCommit16 := false

namespace Config

/-- `ADDR_W`, the width of `IN_POS` and `IN_LEN` (00_scope.md section 4, D19; log 2). -/
def addrW : Nat := 32

/-- The size of the `TREE` RAM: the largest table, `2 * 255 + 1` bytes (10_state.md R22). -/
def treeBytes : Nat := 511

/-- Free values for the registers a fault leaves unspecified (60_exceptions.md R207; log 3):
draw number, register index (16 is `IN_POS`). -/
opaque freeWord : Nat → Nat → BitVec 32

/-- The free contents of unwritten memory (10_state.md R24, 93 U13; log 5): space, era, address. -/
opaque freeByte : Nat → Nat → Nat → Byte

/-- The free value of a byte that an offset-1 backreference copies when `OUT_COMMIT16` is true
(70_reset_and_hazards.md R228, 93 U5; log 15): draw number. -/
opaque freeCopyByte : Nat → Byte

end Config

end Sys2Proof
end

