-- ==== Sys2Proof/Machine/State.lean ====
section
/-! DEFINITION. The state of one GBACOMP-DEC instance (10_state.md R10): control registers, input
cursor, working registers and the three byte spaces, as plain data; the reasons a step can stop;
and the state after reset (R24, 70_reset_and_hazards.md R220). -/

namespace Sys2Proof.Machine

/-- `PHASE`: what the next token is (10_state.md R14). -/
inductive Phase where
  | idle
  | hdr
  | rle
  | diff
  | lzMask
  | lzBlock
  | hufTSize
  | hufTable
  | hufCheck
  | hufBits
  | wl4Type
  | w8
  | w16
  | done
  | fault
  deriving DecidableEq, Repr, Inhabited

/-- `ERR`: the error kind of the last call (10_state.md R16, 60_exceptions.md R200). -/
inductive Err where
  | none
  | invalidFormat
  | outOfBounds
  | truncated
  | unimplemented
  deriving DecidableEq, Repr, Inhabited

/-- One byte space: the written bytes at strictly rising addresses, and the era that names the free
contents of the unwritten ones (10_state.md R24; log 5). -/
structure Memory where
  cells : List Host.Cell
  era : Nat
  deriving DecidableEq, Repr, Inhabited

/-- The sixteen working registers `x[0]` to `x[15]` (10_state.md R12). -/
structure Regs where
  /-- `x[0]` `OUT_LEN`: bytes emitted so far; next write address in `OUT`. -/
  outLen : BitVec 24
  /-- `x[1]` `SIZE`: the declared size; 0 in WL4 mode. -/
  size : BitVec 24
  /-- `x[2]` `TYPE`: header type nibble. -/
  type : BitVec 4
  /-- `x[3]` `PARAM`: header parameter nibble. -/
  param : BitVec 4
  /-- `x[4]` `MASK`: mask byte of the current chunk. -/
  mask : BitVec 8
  /-- `x[5]` `SLOT`: index of the next block in the chunk. -/
  slot : BitVec 4
  /-- `x[6]` `BR_LEN`: length of the last backreference. -/
  brLen : BitVec 5
  /-- `x[7]` `BR_OFF`: offset of the last backreference. -/
  brOff : BitVec 13
  /-- `x[8]` `ACC`: the running sum. -/
  acc : BitVec 16
  /-- `x[9]` `TREE_N`: the tree-size byte. -/
  treeN : BitVec 8
  /-- `x[10]` `NODE`: table offset of the branch the walk stands on. -/
  node : BitVec 10
  /-- `x[11]` `BITWIN`: the bit window; bit 31 is the next bit. -/
  bitWin : BitVec 32
  /-- `x[12]` `BITCNT`: unread bits left in the window. -/
  bitCnt : BitVec 6
  /-- `x[13]` `RUN_LEN`: length of the last run. -/
  runLen : BitVec 15
  /-- `x[14]` `RUN_VAL`: byte of the last repeat run. -/
  runVal : BitVec 8
  /-- `x[15]` `WL4_T`: the WL4 stream type; 0 outside WL4. -/
  wl4T : BitVec 2
  deriving DecidableEq, Repr, Inhabited

/-- Every working register 0, as `CTRL.START` and reset leave them (10_state.md R12). -/
def Regs.zero : Regs where
  outLen := 0#24
  size := 0#24
  type := 0#4
  param := 0#4
  mask := 0#8
  slot := 0#4
  brLen := 0#5
  brOff := 0#13
  acc := 0#16
  treeN := 0#8
  node := 0#10
  bitWin := 0#32
  bitCnt := 0#6
  runLen := 0#15
  runVal := 0#8
  wl4T := 0#2

/-- The complete state (10_state.md R10). `STATUS`, `OUT_LEN` (CR7) and `HDR` (CR8) are computed
from it; `CTRL` stores nothing (R11). -/
structure State where
  /-- The parameters, constant for a machine (log 1). -/
  params : Params
  /-- CR1 `MODE` (R17). -/
  mode : BitVec 4
  /-- CR2 `IN_LEN` (R18). -/
  inLen : Addr
  /-- CR4 `ERR` (R16). -/
  err : Err
  /-- CR5 `PHASE` (R14). -/
  phase : Phase
  /-- CR6 `IN_POS`, alias `pc` (R13). -/
  pc : Addr
  /-- The working registers (R12). -/
  x : Regs
  /-- The `IN` space (R21). -/
  inMem : Memory
  /-- The `OUT` space (R21). -/
  outMem : Memory
  /-- The `TREE` RAM (R21, R22). -/
  treeMem : Memory
  /-- The model's own counter of free values drawn (log 4). -/
  draws : Nat
  deriving DecidableEq, Repr, Inhabited

/-- The reasons a step stops. None is an error kind of the spec: those are next states with
`PHASE = P_FAULT` (60_exceptions.md R206). Each marks an access or a selection the spec does not
define, in a state no run reaches, so each is safe (log 14). -/
inductive Fault where
  /-- A write of `OUT` at or above `OUT_CAP` (20_memory.md R51). Raised by every producing token. Safe. -/
  | outBeyondCap
  /-- A read of `TREE` at or above `2 * TREE_N + 1` (20_memory.md R52). Raised by HUF.BR, HUF.WORD,
  HUF.BIT0, HUF.BIT1. Safe. -/
  | treeBeyondTable
  /-- `P_LZ_BLOCK` with `SLOT >= 8`: no such mask bit (43_lz77.md R136). Raised by the step, LZ.LIT
  and LZ.REF. Safe. -/
  | noSuchBlock
  /-- `P_DIFF` with `PARAM` neither 1 nor 2 (42_diff.md). Raised by the step. Safe. -/
  | noWordSize
  deriving DecidableEq, Repr

/-- What the model gives no meaning. -/
inductive Refusal where
  /-- A token without a meaning; no arm of exec answers it. Safe. -/
  | notModelled (mnemonic : String)
  /-- The host reads or writes `IN`, or reads `OUT`, while `STATUS = BUSY`, or loads a call then: raised
  by the host acts, never by a step (10_state.md R21, 20_memory.md R55, 70_reset_and_hazards.md R224,
  92 D26, 93 U3; logs 16, 17). Safe. -/
  | hostBufferAccessWhileBusy
  deriving DecidableEq, Repr

/-- The answer of a meaning. -/
abbrev Answer := Host.Outcome State Fault Refusal

/-- The state right after reset (10_state.md R24, 70_reset_and_hazards.md R220): every register 0,
`PHASE = P_IDLE`, nothing written in any space. -/
def State.reset : State where
  params := Params.default
  mode := 0#4
  inLen := 0#32
  err := .none
  phase := .idle
  pc := 0#32
  x := Regs.zero
  inMem := ⟨[], 0⟩
  outMem := ⟨[], 0⟩
  treeMem := ⟨[], 0⟩
  draws := 1

end Sys2Proof.Machine
end

