-- ==== Sys2Proof/Machine/Flags.lean ====
section
/-! DEFINITION. Status and the register views. `STATUS` is the only flag of the hardware
(10_state.md R15): there is no carry, overflow or zero flag, and additions wrap silently
(42_diff.md R123). -/

namespace Sys2Proof.Machine

/-- The value of `PHASE` (10_state.md R14). -/
def Phase.code : Phase → BitVec 4
  | .idle => 0#4
  | .hdr => 1#4
  | .rle => 2#4
  | .diff => 3#4
  | .lzMask => 4#4
  | .lzBlock => 5#4
  | .hufTSize => 6#4
  | .hufTable => 7#4
  | .hufCheck => 8#4
  | .hufBits => 9#4
  | .wl4Type => 10#4
  | .w8 => 11#4
  | .w16 => 12#4
  | .done => 13#4
  | .fault => 14#4

/-- The value of `ERR` (10_state.md R16). -/
def Err.code : Err → BitVec 3
  | .none => 0#3
  | .invalidFormat => 1#3
  | .outOfBounds => 2#3
  | .truncated => 3#3
  | .unimplemented => 4#3

/-- The values of `STATUS` (10_state.md R11, R15). -/
inductive Status where
  | idle
  | busy
  | done
  | fault
  deriving DecidableEq, Repr

/-- The value of `STATUS`. -/
def Status.code : Status → BitVec 2
  | .idle => 0#2
  | .busy => 1#2
  | .done => 2#2
  | .fault => 3#2

/-- `STATUS` as a function of `PHASE` (R15). -/
def Phase.status : Phase → Status
  | .idle => .idle
  | .done => .done
  | .fault => .fault
  | .hdr | .rle | .diff | .lzMask | .lzBlock | .hufTSize | .hufTable | .hufCheck | .hufBits
  | .wl4Type | .w8 | .w16 => .busy

/-- `STATUS` (CR3). -/
def State.status (s : State) : Status := s.phase.status

/-- Whether a call is running. -/
def State.busy (s : State) : Bool := s.status == .busy

/-- `HDR` (CR8): `x[TYPE] || x[PARAM] || x[SIZE]` (R11). -/
def Regs.hdr (x : Regs) : BitVec 32 := x.type ++ (x.param ++ x.size)

/-- Working register `x[i]` as an unsigned number (10_state.md R12). -/
def Regs.read (x : Regs) (i : Fin 16) : Nat :=
  match i.val with
  | 0 => x.outLen.toNat
  | 1 => x.size.toNat
  | 2 => x.type.toNat
  | 3 => x.param.toNat
  | 4 => x.mask.toNat
  | 5 => x.slot.toNat
  | 6 => x.brLen.toNat
  | 7 => x.brOff.toNat
  | 8 => x.acc.toNat
  | 9 => x.treeN.toNat
  | 10 => x.node.toNat
  | 11 => x.bitWin.toNat
  | 12 => x.bitCnt.toNat
  | 13 => x.runLen.toNat
  | 14 => x.runVal.toNat
  | _ => x.wl4T.toNat

end Sys2Proof.Machine
end

