-- ==== Sys2Proof/Syntax.lean ====
section
/-! DEFINITION. The tokens of GBACOMP-DEC, one constructor per row of spec/opcode_table.json.
A token holds the fields of its control bytes; the payload a run announces is data that its
meaning reads from `IN`, since the run's length is tested before the payload is fetched
(92 D6; log 10). -/

namespace Sys2Proof

/-- The stream tokens (30_encoding.md R76, R77). -/
inductive Instr where
  /-- HDR.LZ77, format H (R94). -/
  | hdrLz77 (param : BitVec 4) (size : BitVec 24)
  /-- HDR.HUF, format H (R95). -/
  | hdrHuf (param : BitVec 4) (size : BitVec 24)
  /-- HDR.RLE, format H (R96). -/
  | hdrRle (param : BitVec 4) (size : BitVec 24)
  /-- HDR.DIFF8, first byte 0x81 (R97). -/
  | hdrDiff8 (size : BitVec 24)
  /-- HDR.DIFF16, first byte 0x82 (R98). -/
  | hdrDiff16 (size : BitVec 24)
  /-- HDR.ILLEGAL, every other first byte (R99). -/
  | hdrIllegal (first : Byte) (size : BitVec 24)
  /-- WL4.T8, type byte 1 (R166). -/
  | wl4T8
  /-- WL4.T16, type byte 2 (R167). -/
  | wl4T16
  /-- WL4.TILLEGAL, any other type byte, or none (R168). -/
  | wl4TIllegal (streamType : Option Byte)
  /-- RLE.LIT: a literal run of `count + 1` bytes (R111). -/
  | rleLit (count : BitVec 7)
  /-- RLE.REP: a repeat run of `count + 3` bytes (R112). -/
  | rleRep (count : BitVec 7)
  /-- D8.W: one 8-bit delta word (R121). -/
  | d8W (word : Byte)
  /-- D16.W: one 16-bit delta word (R122). -/
  | d16W (word : BitVec 16)
  /-- LZ.MASK: the mask byte of a chunk (R131). -/
  | lzMask (mask : Byte)
  /-- LZ.LIT: a literal block (R132). -/
  | lzLit (byte : Byte)
  /-- LZ.REF: a backreference, `len3 = length - 3`, `disp = offset - 1` (R133). -/
  | lzRef (len3 : BitVec 4) (disp : BitVec 12)
  /-- HUF.TSIZE: the tree-size byte (R146). -/
  | hufTSize (n : Byte)
  /-- HUF.TABLE: the `2n+1` table bytes (R147). -/
  | hufTable
  /-- HUF.BR: a table byte read as a branch (R148). -/
  | hufBr (leaf0 leaf1 : Bool) (base : BitVec 6)
  /-- HUF.LEAF: a table byte read as a leaf (R149). -/
  | hufLeaf (value : Byte)
  /-- HUF.CHECK: validating the tree (R150). -/
  | hufCheck
  /-- HUF.WORD: the word that refills the bit window (R151). -/
  | hufWord (word : BitVec 32)
  /-- HUF.BIT0 (R152). -/
  | hufBit0
  /-- HUF.BIT1 (R153). -/
  | hufBit1
  /-- W8.END: control byte 0x00 (R169). -/
  | w8End
  /-- W8.RSV: control byte 0x80 (R172). -/
  | w8Rsv
  /-- W8.LIT: a literal run of `len` bytes (R170). -/
  | w8Lit (len : BitVec 7)
  /-- W8.REP: a repeat run of `len` bytes (R171). -/
  | w8Rep (len : BitVec 7)
  /-- W16.END: control word 0x0000 (R174). -/
  | w16End
  /-- W16.RSV: control word 0x8000 (R177). -/
  | w16Rsv
  /-- W16.LIT: a literal run of `len` bytes (R175). -/
  | w16Lit (len : BitVec 15)
  /-- W16.REP: a repeat run of `len` bytes (R176). -/
  | w16Rep (len : BitVec 15)
  deriving DecidableEq, Repr

end Sys2Proof
end

