-- ==== Sys2Proof/WellFormed.lean ====
section
/-! DEFINITION. When a token is one that some bytes encode: the exclusions of 30_encoding.md R76. -/

namespace Sys2Proof

/-- First header bytes that the five legal header rows match (30_encoding.md R76). -/
def legalHeaderByte (b : Byte) : Bool :=
  b.extractLsb' 4 4 == 1#4 || b.extractLsb' 4 4 == 2#4 || b.extractLsb' 4 4 == 3#4
    || b == 0x81#8 || b == 0x82#8

/-- Well-formed tokens. HDR.ILLEGAL takes a first byte no other header row matches (R99),
WL4.TILLEGAL a type byte other than 1 and 2 or none (R168), and a WL4 run has a length other than
zero (R170, R171, R175, R176); all other fields may hold any value (R74). -/
def Instr.wf : Instr → Bool
  | .hdrIllegal b _ => !legalHeaderByte b
  | .wl4TIllegal (some t) => t != 1#8 && t != 2#8
  | .w8Lit len | .w8Rep len => len != 0#7
  | .w16Lit len | .w16Rep len => len != 0#15
  | .hdrLz77 _ _ | .hdrHuf _ _ | .hdrRle _ _ | .hdrDiff8 _ | .hdrDiff16 _
  | .wl4T8 | .wl4T16 | .wl4TIllegal none | .rleLit _ | .rleRep _ | .d8W _ | .d16W _
  | .lzMask _ | .lzLit _ | .lzRef _ _ | .hufTSize _ | .hufTable | .hufBr _ _ _ | .hufLeaf _
  | .hufCheck | .hufWord _ | .hufBit0 | .hufBit1 | .w8End | .w8Rsv | .w16End | .w16Rsv => true

end Sys2Proof
end

