-- ==== Sys2Proof/Decode.lean ====
section
/-! DEFINITION. From bytes to tokens and back (30_encoding.md). The same byte means different things
in different phases (R60), so the decoder takes the reading context; in every context it is total:
a token, or a rejection by name. The encoder is written from the format rules R61 to R73 and the
assembler notation R84. -/

namespace Sys2Proof

/-! ## Byte order (00_scope.md section 7, 20_memory.md R43) -/

/-- `le16(b0, b1)`: the first byte is the less significant. -/
def le16 (b0 b1 : Byte) : BitVec 16 := b1 ++ b0

/-- `be16(b0, b1)`: the first byte is the more significant. -/
def be16 (b0 b1 : Byte) : BitVec 16 := b0 ++ b1

/-- `le24(b0, b1, b2)`. -/
def le24 (b0 b1 b2 : Byte) : BitVec 24 := b2 ++ (b1 ++ b0)

/-- `le32(b0, b1, b2, b3)`. -/
def le32 (b0 b1 b2 b3 : Byte) : BitVec 32 := b3 ++ (b2 ++ (b1 ++ b0))

/-- The WL4 16-bit control word in the order of `WL4_CTRL16_BE` (R45, R73). -/
def ctrl16 (be : Bool) (b0 b1 : Byte) : BitVec 16 := if be then be16 b0 b1 else le16 b0 b1

/-! ## Reading contexts (R60, R76) -/

/-- What decides the next token's format: the phase, the mask bit in `P_LZ_BLOCK`, `PARAM` in
`P_DIFF`, the window in `P_HUF_BITS`; and, inside the tree, the parent's leaf flag. -/
inductive Ctx where
  | hdr
  | wl4Type
  | rle
  | diff8
  | diff16
  | lzMask
  | lzLit
  | lzRef
  | hufTSize
  | hufTable
  | hufCheck
  /-- `P_HUF_BITS` with `BITCNT = 0`. -/
  | hufWord
  /-- `P_HUF_BITS` with bits left; `top` is `BITWIN[31]`. -/
  | hufBit (top : Bool)
  | w8
  /-- `be` is `WL4_CTRL16_BE`. -/
  | w16 (be : Bool)
  /-- A `TREE` byte reached as a branch. -/
  | treeBranch
  /-- A `TREE` byte reached as a leaf. -/
  | treeLeaf
  deriving DecidableEq, Repr

/-- Why no token could be read. -/
inductive DecodeReject where
  /-- Fewer than the 4 bytes of a header (40_header_dispatch.md R92). -/
  | headerShort
  /-- Fewer bytes than the token's control field has (20_memory.md R42). -/
  | short
  deriving DecidableEq, Repr

/-- A decoding: the token and the bytes after its control field, or a rejection. -/
inductive Decoded where
  | token (i : Instr) (rest : List Byte)
  | reject (r : DecodeReject)
  deriving DecidableEq, Repr

/-! ## Decoding -/

/-- The header token of a first byte and a size (R61, R76, R77). -/
def decodeHeader (b0 : Byte) (size : BitVec 24) : Instr :=
  if b0.extractLsb' 4 4 = 1#4 then .hdrLz77 (b0.extractLsb' 0 4) size
  else if b0.extractLsb' 4 4 = 2#4 then .hdrHuf (b0.extractLsb' 0 4) size
  else if b0.extractLsb' 4 4 = 3#4 then .hdrRle (b0.extractLsb' 0 4) size
  else if b0 = 0x81#8 then .hdrDiff8 size
  else if b0 = 0x82#8 then .hdrDiff16 size
  else .hdrIllegal b0 size

/-- The WL4 type token (R62, R77). -/
def decodeWl4Type (t : Byte) : Instr :=
  if t = 1#8 then .wl4T8 else if t = 2#8 then .wl4T16 else .wl4TIllegal (some t)

/-- The RLE token of a control byte (R63). -/
def decodeRle (c : Byte) : Instr :=
  if c.msb then .rleRep (c.extractLsb' 0 7) else .rleLit (c.extractLsb' 0 7)

/-- The WL4 8-bit token of a control byte (R72, R76); the exact values are tested first (R180). -/
def decodeW8 (c : Byte) : Instr :=
  if c = 0x00#8 then .w8End
  else if c = 0x80#8 then .w8Rsv
  else if c.msb then .w8Rep (c.extractLsb' 0 7) else .w8Lit (c.extractLsb' 0 7)

/-- The WL4 16-bit token of a control word (R73, R76); the exact values are tested first (R173). -/
def decodeW16 (c : BitVec 16) : Instr :=
  if c = 0x0000#16 then .w16End
  else if c = 0x8000#16 then .w16Rsv
  else if c.msb then .w16Rep (c.extractLsb' 0 15) else .w16Lit (c.extractLsb' 0 15)

/-- The backreference of two bytes in stream order (R67): `len3 = b0[7:4]`,
`disp = b0[3:0] || b1`. -/
def decodeRef (b0 b1 : Byte) : Instr :=
  .lzRef (b0.extractLsb' 4 4) (b0.extractLsb' 0 4 ++ b1)

/-- A table byte read as a branch (R69, D11): bit 7 is `leaf0`, bit 6 is `leaf1`. -/
def decodeBranch (b : Byte) : Instr :=
  .hufBr (b.getLsbD 7) (b.getLsbD 6) (b.extractLsb' 0 6)

/-- The token of a context with a one-byte control field. -/
def decodeOne (f : Byte → Instr) : List Byte → Decoded
  | b :: rest => .token (f b) rest
  | [] => .reject .short

/-- The token of a context with a two-byte control field. -/
def decodeTwo (f : Byte → Byte → Instr) : List Byte → Decoded
  | b0 :: b1 :: rest => .token (f b0 b1) rest
  | _ => .reject .short

/-- The decoder, total in every context. HUF.TABLE, HUF.CHECK and the bit tokens have no control
bytes (R75): the table is payload, the bit stands in the window. -/
def decode : Ctx → List Byte → Decoded
  | .hdr, b0 :: b1 :: b2 :: b3 :: rest => .token (decodeHeader b0 (le24 b1 b2 b3)) rest
  | .hdr, _ => .reject .headerShort
  | .wl4Type, [] => .token (.wl4TIllegal none) []
  | .wl4Type, t :: rest => .token (decodeWl4Type t) rest
  | .rle, bs => decodeOne decodeRle bs
  | .diff8, bs => decodeOne .d8W bs
  | .diff16, bs => decodeTwo (fun b0 b1 => .d16W (le16 b0 b1)) bs
  | .lzMask, bs => decodeOne .lzMask bs
  | .lzLit, bs => decodeOne .lzLit bs
  | .lzRef, bs => decodeTwo decodeRef bs
  | .hufTSize, bs => decodeOne .hufTSize bs
  | .hufTable, bs => .token .hufTable bs
  | .hufCheck, bs => .token .hufCheck bs
  | .hufWord, b0 :: b1 :: b2 :: b3 :: rest => .token (.hufWord (le32 b0 b1 b2 b3)) rest
  | .hufWord, _ => .reject .short
  | .hufBit top, bs => .token (if top then .hufBit1 else .hufBit0) bs
  | .w8, bs => decodeOne decodeW8 bs
  | .w16 be, bs => decodeTwo (fun b0 b1 => decodeW16 (ctrl16 be b0 b1)) bs
  | .treeBranch, bs => decodeOne decodeBranch bs
  | .treeLeaf, bs => decodeOne .hufLeaf bs

/-! ## Encoding -/

/-- Byte `i` of a bit vector, `i = 0` the least significant. -/
def byteAt {w : Nat} (v : BitVec w) (i : Nat) : Byte := v.extractLsb' (8 * i) 8

/-- The three size bytes of a header (R61). -/
def sizeBytes (size : BitVec 24) : List Byte := [byteAt size 0, byteAt size 1, byteAt size 2]

/-- A 16-bit word, low byte first (R43). -/
def bytes16 (w : BitVec 16) : List Byte := [byteAt w 0, byteAt w 1]

/-- A 32-bit word, low byte first (R43). -/
def bytes32 (w : BitVec 32) : List Byte := [byteAt w 0, byteAt w 1, byteAt w 2, byteAt w 3]

/-- A WL4 16-bit control word in the order of `WL4_CTRL16_BE` (R73). -/
def ctrlBytes (be : Bool) (c : BitVec 16) : List Byte :=
  if be then [byteAt c 1, byteAt c 0] else [byteAt c 0, byteAt c 1]

/-- The control bytes of a token (R61 to R73). `be` is `WL4_CTRL16_BE`. -/
def encode (be : Bool) : Instr → List Byte
  | .hdrLz77 p size => (1#4 ++ p) :: sizeBytes size
  | .hdrHuf p size => (2#4 ++ p) :: sizeBytes size
  | .hdrRle p size => (3#4 ++ p) :: sizeBytes size
  | .hdrDiff8 size => 0x81#8 :: sizeBytes size
  | .hdrDiff16 size => 0x82#8 :: sizeBytes size
  | .hdrIllegal b size => b :: sizeBytes size
  | .wl4T8 => [0x01#8]
  | .wl4T16 => [0x02#8]
  | .wl4TIllegal t => t.toList
  | .rleLit count => [0#1 ++ count]
  | .rleRep count => [1#1 ++ count]
  | .d8W w => [w]
  | .d16W w => bytes16 w
  | .lzMask m => [m]
  | .lzLit v => [v]
  | .lzRef len3 disp => [len3 ++ disp.extractLsb' 8 4, disp.extractLsb' 0 8]
  | .hufTSize n => [n]
  | .hufTable => []
  | .hufBr leaf0 leaf1 base => [BitVec.ofBool leaf0 ++ (BitVec.ofBool leaf1 ++ base)]
  | .hufLeaf v => [v]
  | .hufCheck => []
  | .hufWord w => bytes32 w
  | .hufBit0 => []
  | .hufBit1 => []
  | .w8End => [0x00#8]
  | .w8Rsv => [0x80#8]
  | .w8Lit len => [0#1 ++ len]
  | .w8Rep len => [1#1 ++ len]
  | .w16End => ctrlBytes be 0x0000#16
  | .w16Rsv => ctrlBytes be 0x8000#16
  | .w16Lit len => ctrlBytes be (0#1 ++ len)
  | .w16Rep len => ctrlBytes be (1#1 ++ len)

/-- The context in which a token is read (R76, column "phase"). -/
def ctxOf (be : Bool) : Instr → Ctx
  | .hdrLz77 _ _ | .hdrHuf _ _ | .hdrRle _ _ | .hdrDiff8 _ | .hdrDiff16 _ | .hdrIllegal _ _ => .hdr
  | .wl4T8 | .wl4T16 | .wl4TIllegal _ => .wl4Type
  | .rleLit _ | .rleRep _ => .rle
  | .d8W _ => .diff8
  | .d16W _ => .diff16
  | .lzMask _ => .lzMask
  | .lzLit _ => .lzLit
  | .lzRef _ _ => .lzRef
  | .hufTSize _ => .hufTSize
  | .hufTable => .hufTable
  | .hufBr _ _ _ => .treeBranch
  | .hufLeaf _ => .treeLeaf
  | .hufCheck => .hufCheck
  | .hufWord _ => .hufWord
  | .hufBit0 => .hufBit false
  | .hufBit1 => .hufBit true
  | .w8End | .w8Rsv | .w8Lit _ | .w8Rep _ => .w8
  | .w16End | .w16Rsv | .w16Lit _ | .w16Rep _ => .w16 be

/-! ## Assembler notation (R84) -/

/-- One line of the notation of R84; the byte lists and lengths stand as they are written. -/
inductive AsmLine where
  | hdrLz77 (size : BitVec 24)
  | hdrHuf (p : BitVec 4) (size : BitVec 24)
  | hdrRle (size : BitVec 24)
  | hdrDiff8 (size : BitVec 24)
  | hdrDiff16 (size : BitVec 24)
  | hdrRaw (b : Byte) (size : BitVec 24)
  | wl4T8
  | wl4T16
  | rleLit (vs : List Byte)
  | rleRep (k : Nat) (v : Byte)
  | d8W (v : Byte)
  | d16W (v : BitVec 16)
  | lzMask (m : Byte)
  | lzLit (v : Byte)
  | lzRef (off len : Nat)
  | hufTSize (n : Byte)
  | hufBr (leaf0 leaf1 : Bool) (base : BitVec 6)
  | hufLeaf (v : Byte)
  /-- The bits first to last, the first in bit 31. -/
  | hufWord (bits : BitVec 32)
  | w8End
  | w8Lit (vs : List Byte)
  | w8Rep (k : Nat) (v : Byte)
  | w16End
  | w16Lit (vs : List Byte)
  | w16Rep (k : Nat) (v : Byte)
  | byte (b : Byte)
  deriving DecidableEq, Repr

/-- The ranges the notation gives a line's operands (R84). -/
def AsmLine.legal : AsmLine → Bool
  | .rleLit vs => 1 ≤ vs.length && vs.length ≤ 128
  | .rleRep k _ => 3 ≤ k && k ≤ 130
  | .lzRef off len => 1 ≤ off && off ≤ 4096 && 3 ≤ len && len ≤ 18
  | .w8Lit vs => 1 ≤ vs.length && vs.length ≤ 127
  | .w8Rep k _ => 1 ≤ k && k ≤ 127
  | .w16Lit vs => 1 ≤ vs.length && vs.length ≤ 32767
  | .w16Rep k _ => 1 ≤ k && k ≤ 32767
  | .hdrLz77 _ | .hdrHuf _ _ | .hdrRle _ | .hdrDiff8 _ | .hdrDiff16 _ | .hdrRaw _ _ | .wl4T8
  | .wl4T16 | .d8W _ | .d16W _ | .lzMask _ | .lzLit _ | .hufTSize _ | .hufBr _ _ _ | .hufLeaf _
  | .hufWord _ | .w8End | .w16End | .byte _ => true

/-- The bytes a line assembles to (R84). -/
def assemble (be : Bool) : AsmLine → List Byte
  | .hdrLz77 size => 0x10#8 :: sizeBytes size
  | .hdrHuf p size => (0x20#8 ||| p.setWidth 8) :: sizeBytes size
  | .hdrRle size => 0x30#8 :: sizeBytes size
  | .hdrDiff8 size => 0x81#8 :: sizeBytes size
  | .hdrDiff16 size => 0x82#8 :: sizeBytes size
  | .hdrRaw b size => b :: sizeBytes size
  | .wl4T8 => [0x01#8]
  | .wl4T16 => [0x02#8]
  | .rleLit vs => BitVec.ofNat 8 (vs.length - 1) :: vs
  | .rleRep k v => [0x80#8 ||| BitVec.ofNat 8 (k - 3), v]
  | .d8W v => [v]
  | .d16W v => [byteAt v 0, byteAt v 1]
  | .lzMask m => [m]
  | .lzLit v => [v]
  | .lzRef off len =>
    [BitVec.ofNat 8 (len - 3) <<< 4 ||| BitVec.ofNat 8 ((off - 1) / 256), BitVec.ofNat 8 (off - 1)]
  | .hufTSize n => [n]
  | .hufBr leaf0 leaf1 base =>
    [(BitVec.ofBool leaf0).setWidth 8 <<< 7 ||| (BitVec.ofBool leaf1).setWidth 8 <<< 6
      ||| base.setWidth 8]
  | .hufLeaf v => [v]
  | .hufWord bits => [byteAt bits 0, byteAt bits 1, byteAt bits 2, byteAt bits 3]
  | .w8End => [0x00#8]
  | .w8Lit vs => BitVec.ofNat 8 vs.length :: vs
  | .w8Rep k v => [0x80#8 ||| BitVec.ofNat 8 k, v]
  | .w16End => [0x00#8, 0x00#8]
  | .w16Lit vs => ctrlBytes be (BitVec.ofNat 16 vs.length) ++ vs
  | .w16Rep k v => ctrlBytes be (0x8000#16 ||| BitVec.ofNat 16 k) ++ [v]
  | .byte b => [b]

/-- The token a line stands for, and the payload after its control field; a raw line stands for none. -/
def AsmLine.token : AsmLine → Option (Instr × List Byte)
  | .hdrLz77 size => some (.hdrLz77 0#4 size, [])
  | .hdrHuf p size => some (.hdrHuf p size, [])
  | .hdrRle size => some (.hdrRle 0#4 size, [])
  | .hdrDiff8 size => some (.hdrDiff8 size, [])
  | .hdrDiff16 size => some (.hdrDiff16 size, [])
  | .hdrRaw _ _ => none
  | .wl4T8 => some (.wl4T8, [])
  | .wl4T16 => some (.wl4T16, [])
  | .rleLit vs => some (.rleLit (BitVec.ofNat 7 (vs.length - 1)), vs)
  | .rleRep k v => some (.rleRep (BitVec.ofNat 7 (k - 3)), [v])
  | .d8W v => some (.d8W v, [])
  | .d16W v => some (.d16W v, [])
  | .lzMask m => some (.lzMask m, [])
  | .lzLit v => some (.lzLit v, [])
  | .lzRef off len => some (.lzRef (BitVec.ofNat 4 (len - 3)) (BitVec.ofNat 12 (off - 1)), [])
  | .hufTSize n => some (.hufTSize n, [])
  | .hufBr leaf0 leaf1 base => some (.hufBr leaf0 leaf1 base, [])
  | .hufLeaf v => some (.hufLeaf v, [])
  | .hufWord bits => some (.hufWord bits, [])
  | .w8End => some (.w8End, [])
  | .w8Lit vs => some (.w8Lit (BitVec.ofNat 7 vs.length), vs)
  | .w8Rep k v => some (.w8Rep (BitVec.ofNat 7 k), [v])
  | .w16End => some (.w16End, [])
  | .w16Lit vs => some (.w16Lit (BitVec.ofNat 15 vs.length), vs)
  | .w16Rep k v => some (.w16Rep (BitVec.ofNat 15 k), [v])
  | .byte _ => none

/-! ## Words numbered as spec/opcode_table.json numbers them (log 9) -/

/-- The context a bare table word is read in. A table row names its phase and the word does not,
so one word matches several rows: the row with the most fixed bits is taken, the first of the
table on a tie. A row with no bits at all is HUF.CHECK, one of less than a byte is a bit token, one
of 16 bits is a WL4 control word, and one of more is a HUF.WORD. -/
def tableCtx (be : Bool) (nbits w : Nat) : Ctx :=
  let b := BitVec.ofNat 8 w
  if nbits = 0 then .hufCheck
  else if nbits < 8 then .hufBit (b.getLsbD 0)
  else if nbits ≤ 8 then
    if legalHeaderByte b then .hdr
    else if b = 1#8 ∨ b = 2#8 then .wl4Type
    else if b = 0x00#8 ∨ b = 0x80#8 then .w8
    else .rle
  else if nbits ≤ 16 then .w16 be
  else .hufWord

/-- The bytes of a table word as the stream stores them, four of them. The 16-bit rows of the table
are over the assembled control word (R76). -/
def tableBytes (be : Bool) (nbits w : Nat) : List Byte :=
  let v := BitVec.ofNat 32 (w % 2 ^ nbits)
  if 8 < nbits ∧ nbits ≤ 16 then ctrlBytes be (v.setWidth 16) ++ [0#8, 0#8] else bytes32 v

/-- The token the decoder reads from a table word, at the default `WL4_CTRL16_BE`. -/
def decodeTableWord (nbits w : Nat) : Option Instr :=
  match decode (tableCtx true nbits (w % 2 ^ nbits)) (tableBytes true nbits w) with
  | .token i _ => some i
  | .reject _ => none

end Sys2Proof
end

