-- ==== Sys2Proof/Machine/Operands.lean ====
section
/-! DEFINITION. Operand assembly (30_encoding.md R74) and token lengths (R75), over the naturals:
every immediate is unsigned and zero-extended; the biases +1 and +3 are part of the format. -/

namespace Sys2Proof.Machine

/-- RLE.LIT run length, 1 to 128 (R74). -/
def rleLitLen (count : BitVec 7) : Nat := count.toNat + 1

/-- RLE.REP run length, 3 to 130 (R74). -/
def rleRepLen (count : BitVec 7) : Nat := count.toNat + 3

/-- LZ.REF length, 3 to 18 (R74). -/
def refLen (len3 : BitVec 4) : Nat := len3.toNat + 3

/-- LZ.REF offset, 1 to 4096 (R74). -/
def refOff (disp : BitVec 12) : Nat := disp.toNat + 1

/-- HUF.TABLE length `2n + 1`, 1 to 511 (R74). -/
def tableLen (n : Byte) : Nat := 2 * n.toNat + 1

/-- The table offset of `node0` of the branch at offset `o` (44_huffman.md R148):
`((o + 3) & ~1) - 1 + 2 * base`. -/
def child0 (o : Nat) (base : BitVec 6) : Nat := (o + 3) / 2 * 2 - 1 + 2 * base.toNat

/-- The child that bit `bit` selects: `node0` for 0, `node1 = node0 + 1` for 1 (R148, R152). -/
def childOf (o : Nat) (base : BitVec 6) (bit : Bool) : Nat := child0 o base + bit.toNat

/-- The base field of a table byte read as a branch (30_encoding.md R69). -/
def branchBase (b : Byte) : BitVec 6 := b.extractLsb' 0 6

/-- The leaf flag of the child that bit `bit` selects (R69, D11): bit 7 for `node0`, bit 6 for `node1`. -/
def branchLeaf (b : Byte) (bit : Bool) : Bool := if bit then b.getLsbD 6 else b.getLsbD 7

/-- The flag of block `slot` of a chunk: mask bit `7 - slot` (43_lz77.md R136). -/
def maskBit (mask : Byte) (slot : Nat) : Bool := mask.getLsbD (7 - slot)

/-- Bytes of `IN` a token's control field takes (R75). -/
def controlLen : Instr → Nat
  | .hdrLz77 _ _ | .hdrHuf _ _ | .hdrRle _ _ | .hdrDiff8 _ | .hdrDiff16 _ | .hdrIllegal _ _ => 4
  | .wl4T8 | .wl4T16 => 1
  | .wl4TIllegal t => t.toList.length
  | .rleLit _ | .rleRep _ | .d8W _ | .lzMask _ | .lzLit _ | .hufTSize _ => 1
  | .w8End | .w8Rsv | .w8Lit _ | .w8Rep _ => 1
  | .d16W _ | .lzRef _ _ | .w16End | .w16Rsv | .w16Lit _ | .w16Rep _ => 2
  | .hufWord _ => 4
  | .hufTable | .hufCheck | .hufBit0 | .hufBit1 => 0
  /- A table byte is read from `TREE`, not from `IN` (44_huffman.md R148, R149). -/
  | .hufBr _ _ _ | .hufLeaf _ => 0

/-- Bytes of payload after the control field (R75); `treeN` gives the table's length. -/
def payloadLen (treeN : Byte) : Instr → Nat
  | .rleLit count => rleLitLen count
  | .rleRep _ | .w8Rep _ | .w16Rep _ => 1
  | .w8Lit len => len.toNat
  | .w16Lit len => len.toNat
  | .hufTable => tableLen treeN
  | .hdrLz77 _ _ | .hdrHuf _ _ | .hdrRle _ _ | .hdrDiff8 _ | .hdrDiff16 _ | .hdrIllegal _ _
  | .wl4T8 | .wl4T16 | .wl4TIllegal _ | .d8W _ | .d16W _ | .lzMask _ | .lzLit _ | .lzRef _ _
  | .hufTSize _ | .hufBr _ _ _ | .hufLeaf _ | .hufCheck | .hufWord _ | .hufBit0 | .hufBit1
  | .w8End | .w8Rsv | .w16End | .w16Rsv => 0

/-- The length of a token in bytes of `IN` (R75). -/
def tokenLen (treeN : Byte) (i : Instr) : Nat := controlLen i + payloadLen treeN i

end Sys2Proof.Machine
end

