-- ==== Sys2Proof/Machine/Ops.lean ====
section
/-! DEFINITION. The shared operations (00_scope.md section 7): memory, `need`, `emit`, `raise`,
`finish_or`, and the start of a call. -/

namespace Sys2Proof.Machine

/-! ## Memory -/

/-- The three spaces (10_state.md R21). -/
inductive Space where
  | inp
  | out
  | tree
  deriving DecidableEq, Repr

/-- The number that names a space to the free contents. -/
def Space.code : Space → Nat
  | .inp => 0
  | .out => 1
  | .tree => 2

/-- The written byte at an address, if one is. -/
def cellsGet : List Host.Cell → Nat → Option Byte
  | [], _ => none
  | (a, v) :: rest, b => if a = b then some v else cellsGet rest b

/-- Write a byte, keeping the addresses strictly rising. -/
def cellsPut : List Host.Cell → Nat → Byte → List Host.Cell
  | [], b, w => [(b, w)]
  | (a, v) :: rest, b, w =>
    if b < a then (b, w) :: (a, v) :: rest
    else if b = a then (b, w) :: rest
    else (a, v) :: cellsPut rest b w

/-- Strictly rising addresses, all above a bound. -/
def cellsRisingFrom : Nat → List Host.Cell → Bool
  | _, [] => true
  | lo, (a, _) :: rest => lo ≤ a && cellsRisingFrom (a + 1) rest

/-- The canonical form of a space: strictly rising addresses. An unlisted address reads as no
written value, and no entry equals that (log 5). -/
def Memory.wf (m : Memory) : Bool := cellsRisingFrom 0 m.cells

/-- The byte written at an address, if one is. -/
def Memory.get (m : Memory) (a : Nat) : Option Byte := cellsGet m.cells a

/-- What an unwritten address reads as: a free value (10_state.md R24, 93 U13; log 5). -/
def Memory.unwritten (m : Memory) (sp : Space) (a : Nat) : Byte := Config.freeByte sp.code m.era a

/-- Read one byte. -/
def Memory.read (m : Memory) (sp : Space) (a : Nat) : Byte := (m.get a).getD (m.unwritten sp a)

/-- Write one byte. -/
def Memory.write (m : Memory) (a : Nat) (v : Byte) : Memory := ⟨cellsPut m.cells a v, m.era⟩

/-- Write a list of bytes at rising addresses, the last one first. -/
def Memory.writeList (m : Memory) (a : Nat) : List Byte → Memory
  | [] => m
  | v :: vs => (m.writeList (a + 1) vs).write a v

/-- A space whose contents are unspecified: nothing written, in a fresh era (log 5). -/
def Memory.unspecified (era : Nat) : Memory := ⟨[], era⟩

/-- `MemRead(IN, a, 1)`. -/
def State.inAt (s : State) (a : Nat) : Byte := s.inMem.read .inp a

/-- `MemRead(OUT, a, 1)`. -/
def State.outAt (s : State) (a : Nat) : Byte := s.outMem.read .out a

/-- `MemRead(TREE, o, 1)`. -/
def State.treeAt (s : State) (o : Nat) : Byte := s.treeMem.read .tree o

/-- `MemRead(IN, a, n)`, as a list. -/
def State.inBytes (s : State) (a : Nat) : Nat → List Byte
  | 0 => []
  | n + 1 => s.inAt a :: s.inBytes (a + 1) n

/-- The output bytes `OUT[0 .. OUT_LEN-1]` (60_exceptions.md R209). -/
def State.outBytesFrom (s : State) (a : Nat) : Nat → List Byte
  | 0 => []
  | n + 1 => s.outAt a :: s.outBytesFrom (a + 1) n

/-- The output of a call. -/
def State.output (s : State) : List Byte := s.outBytesFrom 0 s.x.outLen.toNat

/-! ## The cursor (10_state.md R13) -/

/-- `need(n)`: whether `pc + n <= IN_LEN` (20_memory.md R42). -/
def State.has (s : State) (n : Nat) : Bool := s.pc.toNat + n ≤ s.inLen.toNat

/-- `pc <- pc + n`. -/
def State.advance (s : State) (n : Nat) : State := { s with pc := s.pc + BitVec.ofNat 32 n }

/-- `pc <- t`. -/
def State.setPc (s : State) (t : Addr) : State := { s with pc := t }

/-- `PHASE <- p`. -/
def State.setPhase (s : State) (p : Phase) : State := { s with phase := p }

/-- Write working registers. -/
def State.setX (s : State) (x : Regs) : State := { s with x := x }

/-! ## Producing output (20_memory.md R49) -/

/-- `emit(v)`: write `v` at `OUT[x[OUT_LEN]]`, then add 1 to `x[OUT_LEN]`. The byte is in `OUT` at once, in
either configuration: with `OUT_COMMIT16` true the spec says nothing of when a byte at an even address
whose odd neighbour is never produced reaches `OUT` (70_reset_and_hazards.md R228), and that it does is
the model's choice (log 26). -/
def State.emit (s : State) (v : Byte) : State :=
  { s with outMem := s.outMem.write s.x.outLen.toNat v, x := { s.x with outLen := s.x.outLen + 1#24 } }

/-- Emit a list of bytes in order. -/
def State.emitAll (s : State) : List Byte → State
  | [] => s
  | v :: vs => (s.emit v).emitAll vs

/-- The number of bytes `OUT` can still take. -/
def State.room (s : State) : Nat := s.params.outCap.toNat - s.x.outLen.toNat

/-- Emit `n` bytes: only inside `OUT` (20_memory.md R51; log 14). `s` is the state before the bytes
are written, `t` the state after. -/
def produce (s : State) (n : Nat) (t : State) : Answer :=
  if s.x.outLen.toNat + n ≤ s.params.outCap.toNat then .next t else .fault .outBeyondCap

/-- The byte a backreference copies: `OUT[x[OUT_LEN] - off]`; with the 16-bit output bus an
offset-1 read gives a free value (43_lz77.md R133, 70_reset_and_hazards.md R228; log 15). -/
def State.copySource (s : State) (off : Nat) : Byte :=
  if s.params.outCommit16 && off == 1 then Config.freeCopyByte s.draws
  else s.outAt (s.x.outLen.toNat - off)

/-- One iteration of the copy loop of 43_lz77.md R133. A drawn free value is not drawn again. -/
def State.copyOne (s : State) (off : Nat) : State :=
  let t := s.emit (s.copySource off)
  if s.params.outCommit16 && off == 1 then { t with draws := s.draws + 1 } else t

/-- The copy loop: each byte is written before the next is read (R134, 20_memory.md R50). -/
def State.copyBack (s : State) (off : Nat) : Nat → State
  | 0 => s
  | n + 1 => (s.copyOne off).copyBack off n

/-- `finish_or(P)`. -/
def State.finishOr (s : State) (p : Phase) : State :=
  s.setPhase (if s.x.outLen = s.x.size then .done else p)

/-! ## Taking an error, and starting a call -/

/-- The registers a fault leaves: free values (60_exceptions.md R207; log 3). -/
def freeRegs (d : Nat) : Regs where
  outLen := (Config.freeWord d 0).setWidth 24
  size := (Config.freeWord d 1).setWidth 24
  type := (Config.freeWord d 2).setWidth 4
  param := (Config.freeWord d 3).setWidth 4
  mask := (Config.freeWord d 4).setWidth 8
  slot := (Config.freeWord d 5).setWidth 4
  brLen := (Config.freeWord d 6).setWidth 5
  brOff := (Config.freeWord d 7).setWidth 13
  acc := (Config.freeWord d 8).setWidth 16
  treeN := (Config.freeWord d 9).setWidth 8
  node := (Config.freeWord d 10).setWidth 10
  bitWin := (Config.freeWord d 11).setWidth 32
  bitCnt := (Config.freeWord d 12).setWidth 6
  runLen := (Config.freeWord d 13).setWidth 15
  runVal := (Config.freeWord d 14).setWidth 8
  wl4T := (Config.freeWord d 15).setWidth 2

/-- `raise K` (60_exceptions.md R206): `PHASE <- P_FAULT; ERR <- code(K)`. `MODE`, `IN_LEN` and `IN`
are unchanged; `OUT`, `TREE`, `IN_POS` and the working registers are unspecified afterwards (R207):
free values (log 3). So nothing a step did before its `raise` can be seen. -/
def State.raise (s : State) (k : Err) : State :=
  { s with
    phase := .fault
    err := k
    pc := Config.freeWord s.draws 16
    x := freeRegs s.draws
    outMem := .unspecified s.draws
    treeMem := .unspecified s.draws
    draws := s.draws + 1 }

/-- The phase a call starts in, by `MODE` (10_state.md R17, 40_header_dispatch.md R90). -/
def startPhase (mode : BitVec 4) : Option Phase :=
  if mode = 0#4 ∨ mode = 1#4 ∨ mode = 2#4 ∨ mode = 3#4 ∨ mode = 8#4 then some .hdr
  else if mode = 4#4 then some .wl4Type
  else none

/-- `CTRL.START` (40_header_dispatch.md R90, 10_state.md R19): the one way out of `P_DONE` and
`P_FAULT` beside reset (60_exceptions.md R212); ignored while `STATUS = BUSY`. -/
def State.start (s : State) : State :=
  if s.busy then s
  else
    match startPhase s.mode with
    | some p => { s with x := Regs.zero, pc := 0#32, err := .none, phase := p }
    | none => s.raise .invalidFormat

end Sys2Proof.Machine
end

