-- ==== Sys2Proof/Machine/Diff.lean ====
section
/-! DEFINITION. The delta filter (42_diff.md). Additions are modulo 2^8 or 2^16; no flag (R123). -/

namespace Sys2Proof.Machine

/-- The accumulator after an 8-bit word (R121): the first word is copied. -/
def accNext8 (x : Regs) (w : Byte) : BitVec 16 :=
  if x.outLen = 0#24 then w.setWidth 16 else (x.acc.setWidth 8 + w).setWidth 16

/-- The accumulator after a 16-bit word (R122): the first word is copied. -/
def accNext16 (x : Regs) (w : BitVec 16) : BitVec 16 :=
  if x.outLen = 0#24 then w else x.acc + w

/-- D8.W (R121). -/
def execD8W (w : Byte) (s : State) : Answer :=
  if !s.has 1 then .next (s.raise .truncated)
  else
    let acc := accNext8 s.x w
    produce s 1
      ((((s.setX { s.x with acc := acc }).advance 1).emit (byteAt acc 0)).finishOr .diff)

/-- D16.W (R122): low byte first. -/
def execD16W (w : BitVec 16) (s : State) : Answer :=
  if !s.has 2 then .next (s.raise .truncated)
  else
    let acc := accNext16 s.x w
    produce s 2
      ((((s.setX { s.x with acc := acc }).advance 2).emitAll (bytes16 acc)).finishOr .diff)

end Sys2Proof.Machine
end

