-- ==== Sys2Proof/Machine/Header.lean ====
section
/-! DEFINITION. The header tokens (40_header_dispatch.md). Checks in the order of R101, first failure
wins: length, type known, type against `MODE`, DiffFilter parameter, 16-bit parity, capacity. -/

namespace Sys2Proof.Machine

/-- Checks 1 and 3 of R101 for a header of known type `t`: at least 4 bytes, and `MODE` is `AUTO` or
`t` (R92, R93). -/
def headerAccepted (s : State) (t : BitVec 4) : Bool :=
  4 ≤ s.inLen.toNat && (s.mode == 0#4 || s.mode == t)

/-- `x[TYPE] <- t; x[PARAM] <- p; x[SIZE] <- s; pc <- 4` (R92; log 13). -/
def headerLatch (s : State) (t p : BitVec 4) (size : BitVec 24) : State :=
  (s.setX { s.x with type := t, param := p, size := size }).setPc 4#32

/-- `size <= OUT_CAP`, check 6 of R101. -/
def fitsCap (s : State) (size : BitVec 24) : Bool := size.toNat ≤ s.params.outCap.toNat

/-- HDR.LZ77 (R94). The parameter nibble is ignored. -/
def execHdrLz77 (param : BitVec 4) (size : BitVec 24) (s : State) : Answer :=
  if !headerAccepted s 1#4 then .next (s.raise .invalidFormat)
  else if !fitsCap s size then .next (s.raise .outOfBounds)
  else .next ((headerLatch s 1#4 param size).finishOr .lzMask)

/-- HDR.HUF (R95): the tree is read even when the size is 0. -/
def execHdrHuf (param : BitVec 4) (size : BitVec 24) (s : State) : Answer :=
  if !headerAccepted s 2#4 then .next (s.raise .invalidFormat)
  else if !fitsCap s size then .next (s.raise .outOfBounds)
  else .next ((headerLatch s 2#4 param size).setPhase .hufTSize)

/-- HDR.RLE (R96). The parameter nibble is ignored. -/
def execHdrRle (param : BitVec 4) (size : BitVec 24) (s : State) : Answer :=
  if !headerAccepted s 3#4 then .next (s.raise .invalidFormat)
  else if !fitsCap s size then .next (s.raise .outOfBounds)
  else .next ((headerLatch s 3#4 param size).finishOr .rle)

/-- HDR.DIFF8 (R97). -/
def execHdrDiff8 (size : BitVec 24) (s : State) : Answer :=
  if !headerAccepted s 8#4 then .next (s.raise .invalidFormat)
  else if !fitsCap s size then .next (s.raise .outOfBounds)
  else .next ((headerLatch s 8#4 1#4 size).finishOr .diff)

/-- HDR.DIFF16 (R98): an odd size fails before the capacity check. -/
def execHdrDiff16 (size : BitVec 24) (s : State) : Answer :=
  if !headerAccepted s 8#4 then .next (s.raise .invalidFormat)
  else if size.getLsbD 0 then .next (s.raise .invalidFormat)
  else if !fitsCap s size then .next (s.raise .outOfBounds)
  else .next ((headerLatch s 8#4 2#4 size).finishOr .diff)

/-- HDR.ILLEGAL (R99): an unknown type, or a DiffFilter parameter other than 1 and 2, whatever the
size bytes are. -/
def execHdrIllegal (_first : Byte) (_size : BitVec 24) (s : State) : Answer :=
  .next (s.raise .invalidFormat)

end Sys2Proof.Machine
end

