-- ==== Sys2Proof/Machine/Huffman.lean ====
section
/-! DEFINITION. The Huffman decoder (44_huffman.md). A bit step is one atomic step: a refill when
the window is empty, then one bit, then one branch of the tree, then perhaps a leaf. -/

namespace Sys2Proof.Machine

/-- The table length `T = 2 * x[TREE_N] + 1` (R147, R150). -/
def State.tableLen (s : State) : Nat := Machine.tableLen s.x.treeN

/-- HUF.TSIZE (R146). -/
def execHufTSize (n : Byte) (s : State) : Answer :=
  if !s.has 1 then .next (s.raise .truncated)
  else .next (((s.setX { s.x with treeN := n }).advance 1).setPhase .hufTable)

/-- `TREE[0 .. T-1] <- IN[pc .. pc+T-1]` (R147, 20_memory.md R52). -/
def State.loadTree (s : State) (n : Nat) : State :=
  { s with treeMem := s.treeMem.writeList 0 (s.inBytes s.pc.toNat n) }

/-- HUF.TABLE (R147). -/
def execHufTable (s : State) : Answer :=
  if !s.has s.tableLen then .next (s.raise .truncated)
  else .next (((s.loadTree s.tableLen).advance s.tableLen).setPhase .hufCheck)

/-- `check(o)` of R150 over a table `tab` of `T` bytes: `TREE[o]` is read as a branch, both children
lie in the table, and so on below each child that is a branch. The first argument bounds the
depth; every child offset is greater than its parent's, so `T` is enough (R150 (a), R155; log 18). -/
def treeCheck (tab : Nat → Byte) (T : Nat) : Nat → Nat → Bool
  | 0, _ => false
  | fuel + 1, o =>
    let c0 := child0 o (branchBase (tab o))
    c0 < T && c0 + 1 < T
      && (branchLeaf (tab o) false || treeCheck tab T fuel c0)
      && (branchLeaf (tab o) true || treeCheck tab T fuel (c0 + 1))

/-- The tree in `TREE` passes the check from the root. -/
def State.treeOk (s : State) : Bool := treeCheck s.treeAt s.tableLen s.tableLen 0

/-- HUF.CHECK (R150): consumes no input. -/
def execHufCheck (s : State) : Answer :=
  if !s.treeOk then .next (s.raise .outOfBounds)
  else .next ((s.setX { s.x with node := 0#10, bitCnt := 0#6 }).finishOr .hufBits)

/-- The effect of HUF.LEAF: emit the value and return to the root (R149, R152). -/
def leafStep (v : Byte) (s : State) : Answer :=
  produce s 1 (((s.setX { s.x with node := 0#10 }).emit v).finishOr .hufBits)

/-- The walk at a branch (R148, R152): to the child that `bit` selects; a leaf is emitted in the same
step. `TREE` is read inside the table only (20_memory.md R52; log 14). -/
def branchStep (leaf0 leaf1 : Bool) (base : BitVec 6) (bit : Bool) (s : State) : Answer :=
  let child := childOf s.x.node.toNat base bit
  if s.tableLen ≤ s.x.node.toNat then .fault .treeBeyondTable
  else if if bit then leaf1 else leaf0 then
    if child < s.tableLen then leafStep (s.treeAt child) s else .fault .treeBeyondTable
  else .next ((s.setX { s.x with node := BitVec.ofNat 10 child }).setPhase .hufBits)

/-- `BITWIN <- (BITWIN << 1) mod 2^32; BITCNT <- BITCNT - 1` (R152). -/
def State.takeBit (s : State) : State :=
  s.setX { s.x with bitWin := s.x.bitWin <<< 1, bitCnt := s.x.bitCnt - 1#6 }

/-- The refill of R151 with a word: `pc <- pc + 4; BITWIN <- w; BITCNT <- 32`. -/
def State.refill (s : State) (w : BitVec 32) : State :=
  (s.setX { s.x with bitWin := w, bitCnt := 32#6 }).advance 4

/-- The next word of the stream (R71). -/
def State.nextWord (s : State) : BitVec 32 :=
  le32 (s.inAt s.pc.toNat) (s.inAt (s.pc.toNat + 1)) (s.inAt (s.pc.toNat + 2))
    (s.inAt (s.pc.toNat + 3))

/-- The branch byte the walk stands on, taken with a given bit, after any refill (R152). -/
def walkBit (bit : Bool) (s : State) : Answer :=
  let b := s.treeAt s.x.node.toNat
  branchStep (branchLeaf b false) (branchLeaf b true) (branchBase b) bit s.takeBit

/-- Run a bit step after the lazy refill of R151: a word is fetched exactly when no bit is left. -/
def afterRefill (f : State → Answer) (s : State) : Answer :=
  if s.x.bitCnt = 0#6 then
    if !s.has 4 then .next (s.raise .truncated) else f (s.refill s.nextWord)
  else f s

/-- HUF.BIT0 (R152). -/
def execHufBit0 (s : State) : Answer := afterRefill (walkBit false) s

/-- HUF.BIT1 (R153). -/
def execHufBit1 (s : State) : Answer := afterRefill (walkBit true) s

/-- HUF.WORD (R151): the refill, which is the first part of a bit step, and the rest of that step
with the word's first bit (log 11). -/
def execHufWord (w : BitVec 32) (s : State) : Answer :=
  if !s.has 4 then .next (s.raise .truncated) else walkBit w.msb (s.refill w)

/-- HUF.BR (R148): a bit step seen from the branch byte the walk stands on: the next bit of the window
selects the child (log 12). -/
def execHufBr (leaf0 leaf1 : Bool) (base : BitVec 6) (s : State) : Answer :=
  afterRefill (fun t => branchStep leaf0 leaf1 base t.x.bitWin.msb t.takeBit) s

/-- HUF.LEAF (R149; log 12). -/
def execHufLeaf (v : Byte) (s : State) : Answer := leafStep v s

end Sys2Proof.Machine
end

