-- ==== Sys2Proof/Machine/Lz77.lean ====
section
/-! DEFINITION. The LZ77 decoder (43_lz77.md). -/

namespace Sys2Proof.Machine

/-- LZ.MASK (R131). -/
def execLzMask (m : Byte) (s : State) : Answer :=
  if !s.has 1 then .next (s.raise .truncated)
  else .next (((s.setX { s.x with mask := m, slot := 0#4 }).advance 1).setPhase .lzBlock)

/-- The tail of a block (R136): the completion test comes first. -/
def State.blockDone (s : State) : State :=
  let t := s.setX { s.x with slot := s.x.slot + 1#4 }
  t.setPhase
    (if t.x.outLen = t.x.size then .done else if t.x.slot = 8#4 then .lzMask else .lzBlock)

/-- LZ.LIT (R132, R136). -/
def execLzLit (v : Byte) (s : State) : Answer :=
  if 8 ≤ s.x.slot.toNat then .fault .noSuchBlock
  else if !s.has 1 then .next (s.raise .truncated)
  else produce s 1 (((s.advance 1).emit v).blockDone)

/-- LZ.REF (R133, R135, R136). The offset is tested against the output length before the copy. -/
def execLzRef (len3 : BitVec 4) (disp : BitVec 12) (s : State) : Answer :=
  let len := refLen len3
  let off := refOff disp
  if 8 ≤ s.x.slot.toNat then .fault .noSuchBlock
  else if !s.has 2 then .next (s.raise .truncated)
  else if s.x.size.toNat < s.x.outLen.toNat + len then .next (s.raise .outOfBounds)
  else if s.x.outLen.toNat < off then .next (s.raise .outOfBounds)
  else
    produce s len
      ((((s.setX { s.x with brLen := BitVec.ofNat 5 len, brOff := BitVec.ofNat 13 off }).advance
        2).copyBack off len).blockDone)

end Sys2Proof.Machine
end

