-- ==== Sys2Proof/Machine/Rle.lean ====
section
/-! DEFINITION. The RLE expander (41_rle.md). A run's length is tested against `SIZE` before its
payload is fetched (92 D6). -/

namespace Sys2Proof.Machine

/-- RLE.LIT (R110, R111). -/
def execRleLit (count : BitVec 7) (s : State) : Answer :=
  let k := rleLitLen count
  if !s.has 1 then .next (s.raise .truncated)
  else if s.x.size.toNat < s.x.outLen.toNat + k then .next (s.raise .outOfBounds)
  else if !s.has (1 + k) then .next (s.raise .truncated)
  else
    produce s k
      ((((s.setX { s.x with runLen := BitVec.ofNat 15 k }).advance (1 + k)).emitAll
        (s.inBytes (s.pc.toNat + 1) k)).finishOr .rle)

/-- RLE.REP (R110, R112). -/
def execRleRep (count : BitVec 7) (s : State) : Answer :=
  let k := rleRepLen count
  if !s.has 1 then .next (s.raise .truncated)
  else if s.x.size.toNat < s.x.outLen.toNat + k then .next (s.raise .outOfBounds)
  else if !s.has 2 then .next (s.raise .truncated)
  else
    let v := s.inAt (s.pc.toNat + 1)
    produce s k
      ((((s.setX { s.x with runLen := BitVec.ofNat 15 k, runVal := v }).advance 2).emitAll
        (List.replicate k v)).finishOr .rle)

end Sys2Proof.Machine
end

