-- ==== Sys2Proof/Machine/Wl4.lean ====
section
/-! DEFINITION. The WL4 unpacker (45_wl4.md). The run length has no bias; the only output bound is
`OUT_CAP`, tested before the payload is fetched (R170, 92 D6, D18). -/

namespace Sys2Proof.Machine

/-- The type step for a legal type byte (R166): `x[WL4_T] <- t; pc <- 1; PHASE <- p` (log 13). -/
def wl4TypeStep (t : BitVec 2) (p : Phase) (s : State) : Answer :=
  if s.inLen.toNat < 1 then .next (s.raise .invalidFormat)
  else .next (((s.setX { s.x with wl4T := t }).setPc 1#32).setPhase p)

/-- WL4.T8 (R166). -/
def execWl4T8 (s : State) : Answer := wl4TypeStep 1#2 .w8 s

/-- WL4.T16 (R167). -/
def execWl4T16 (s : State) : Answer := wl4TypeStep 2#2 .w16 s

/-- WL4.TILLEGAL (R168): an unknown type byte, or none. -/
def execWl4TIllegal (_t : Option Byte) (s : State) : Answer := .next (s.raise .invalidFormat)

/-- The terminator of a control field of `n` bytes (R169, R174). -/
def wl4End (n : Nat) (s : State) : Answer :=
  if !s.has n then .next (s.raise .truncated) else .next ((s.advance n).setPhase .done)

/-- The reserved control of `n` bytes (R172, R177). -/
def wl4Rsv (n : Nat) (s : State) : Answer :=
  if !s.has n then .next (s.raise .truncated) else .next (s.raise .invalidFormat)

/-- A literal run of `k` bytes after a control field of `n` bytes (R170, R175). -/
def wl4Lit (n k : Nat) (p : Phase) (s : State) : Answer :=
  if !s.has n then .next (s.raise .truncated)
  else if s.params.outCap.toNat < s.x.outLen.toNat + k then .next (s.raise .outOfBounds)
  else if !s.has (n + k) then .next (s.raise .truncated)
  else
    produce s k
      ((((s.setX { s.x with runLen := BitVec.ofNat 15 k }).advance (n + k)).emitAll
        (s.inBytes (s.pc.toNat + n) k)).setPhase p)

/-- A repeat run of `k` copies after a control field of `n` bytes (R171, R176). -/
def wl4Rep (n k : Nat) (p : Phase) (s : State) : Answer :=
  if !s.has n then .next (s.raise .truncated)
  else if s.params.outCap.toNat < s.x.outLen.toNat + k then .next (s.raise .outOfBounds)
  else if !s.has (n + 1) then .next (s.raise .truncated)
  else
    let v := s.inAt (s.pc.toNat + n)
    produce s k
      ((((s.setX { s.x with runLen := BitVec.ofNat 15 k, runVal := v }).advance (n + 1)).emitAll
        (List.replicate k v)).setPhase p)

/-- W8.END (R169). -/
def execW8End (s : State) : Answer := wl4End 1 s

/-- W8.RSV (R172). -/
def execW8Rsv (s : State) : Answer := wl4Rsv 1 s

/-- W8.LIT (R170, R180). -/
def execW8Lit (len : BitVec 7) (s : State) : Answer := wl4Lit 1 len.toNat .w8 s

/-- W8.REP (R171, R180). -/
def execW8Rep (len : BitVec 7) (s : State) : Answer := wl4Rep 1 len.toNat .w8 s

/-- W16.END (R174). -/
def execW16End (s : State) : Answer := wl4End 2 s

/-- W16.RSV (R177). -/
def execW16Rsv (s : State) : Answer := wl4Rsv 2 s

/-- W16.LIT (R173, R175). -/
def execW16Lit (len : BitVec 15) (s : State) : Answer := wl4Lit 2 len.toNat .w16 s

/-- W16.REP (R173, R176). -/
def execW16Rep (len : BitVec 15) (s : State) : Answer := wl4Rep 2 len.toNat .w16 s

end Sys2Proof.Machine
end

