-- ==== Sys2Proof/Machine/Dispatch.lean ====
section
/-! DEFINITION. One arm per token of spec/opcode_table.json. -/

namespace Sys2Proof.Machine

def exec (i : Instr) (s : State) : Host.Outcome State Fault Refusal :=
  match i with
  -- the header and the dispatcher (40_header_dispatch.md)
  | .hdrLz77 param size => Sys2Proof.Machine.execHdrLz77 param size s
  | .hdrHuf param size => Sys2Proof.Machine.execHdrHuf param size s
  | .hdrRle param size => Sys2Proof.Machine.execHdrRle param size s
  | .hdrDiff8 size => Sys2Proof.Machine.execHdrDiff8 size s
  | .hdrDiff16 size => Sys2Proof.Machine.execHdrDiff16 size s
  | .hdrIllegal first size => Sys2Proof.Machine.execHdrIllegal first size s
  -- the WL4 type byte (45_wl4.md)
  | .wl4T8 => Sys2Proof.Machine.execWl4T8 s
  | .wl4T16 => Sys2Proof.Machine.execWl4T16 s
  | .wl4TIllegal streamType => Sys2Proof.Machine.execWl4TIllegal streamType s
  -- RLE (41_rle.md)
  | .rleLit count => Sys2Proof.Machine.execRleLit count s
  | .rleRep count => Sys2Proof.Machine.execRleRep count s
  -- the delta filter (42_diff.md)
  | .d8W word => Sys2Proof.Machine.execD8W word s
  | .d16W word => Sys2Proof.Machine.execD16W word s
  -- LZ77 (43_lz77.md)
  | .lzMask mask => Sys2Proof.Machine.execLzMask mask s
  | .lzLit byte => Sys2Proof.Machine.execLzLit byte s
  | .lzRef len3 disp => Sys2Proof.Machine.execLzRef len3 disp s
  -- Huffman (44_huffman.md)
  | .hufTSize n => Sys2Proof.Machine.execHufTSize n s
  | .hufTable => Sys2Proof.Machine.execHufTable s
  | .hufBr leaf0 leaf1 base => Sys2Proof.Machine.execHufBr leaf0 leaf1 base s
  | .hufLeaf value => Sys2Proof.Machine.execHufLeaf value s
  | .hufCheck => Sys2Proof.Machine.execHufCheck s
  | .hufWord word => Sys2Proof.Machine.execHufWord word s
  | .hufBit0 => Sys2Proof.Machine.execHufBit0 s
  | .hufBit1 => Sys2Proof.Machine.execHufBit1 s
  -- WL4 runs (45_wl4.md)
  | .w8End => Sys2Proof.Machine.execW8End s
  | .w8Rsv => Sys2Proof.Machine.execW8Rsv s
  | .w8Lit len => Sys2Proof.Machine.execW8Lit len s
  | .w8Rep len => Sys2Proof.Machine.execW8Rep len s
  | .w16End => Sys2Proof.Machine.execW16End s
  | .w16Rsv => Sys2Proof.Machine.execW16Rsv s
  | .w16Lit len => Sys2Proof.Machine.execW16Lit len s
  | .w16Rep len => Sys2Proof.Machine.execW16Rep len s

end Sys2Proof.Machine
end

