-- ==== Sys2Proof/Machine/Fetch.lean ====
section
/-! DEFINITION. Which token the state reads next (30_encoding.md R60), its bytes, and how a table
word is placed so that the next step runs it (log 9). -/

namespace Sys2Proof.Machine

/-- What the state does next. -/
inductive Fetch where
  /-- No token: `STATUS` is not `BUSY` (10_state.md R14). -/
  | nothing
  /-- The state selects no token format; no run reaches it (log 14). -/
  | stop (f : Fault)
  /-- The format of the next token. -/
  | ctx (c : Ctx)
  deriving DecidableEq, Repr

/-- The next token's format, by `PHASE`, mask bit, word size and bit window (R14, R60, R76). -/
def State.nextCtx (s : State) : Fetch :=
  match s.phase with
  | .idle | .done | .fault => .nothing
  | .hdr => .ctx .hdr
  | .rle => .ctx .rle
  | .diff =>
    if s.x.param = 1#4 then .ctx .diff8
    else if s.x.param = 2#4 then .ctx .diff16
    else .stop .noWordSize
  | .lzMask => .ctx .lzMask
  | .lzBlock =>
    if 8 ≤ s.x.slot.toNat then .stop .noSuchBlock
    else if maskBit s.x.mask s.x.slot.toNat then .ctx .lzRef
    else .ctx .lzLit
  | .hufTSize => .ctx .hufTSize
  | .hufTable => .ctx .hufTable
  | .hufCheck => .ctx .hufCheck
  | .hufBits => if s.x.bitCnt = 0#6 then .ctx .hufWord else .ctx (.hufBit s.x.bitWin.msb)
  | .wl4Type => .ctx .wl4Type
  | .w8 => .ctx .w8
  | .w16 => .ctx (.w16 s.params.wl4Ctrl16BE)

/-- The address of the next token: the cursor; the header and the WL4 type byte stand at 0
(40_header_dispatch.md R92, 45_wl4.md R166; log 13). -/
def State.fetchAddr (s : State) : Nat :=
  match s.phase with
  | .hdr | .wl4Type => 0
  | .idle | .rle | .diff | .lzMask | .lzBlock | .hufTSize | .hufTable | .hufCheck | .hufBits
  | .w8 | .w16 | .done | .fault => s.pc.toNat

/-- The bytes at the next token's address that are inside `IN_LEN`, at most the four of the longest
control field. -/
def State.fetchBytes (s : State) : List Byte :=
  s.inBytes s.fetchAddr (min 4 (s.inLen.toNat - s.fetchAddr))

/-- The error kind of a token that is cut short (20_memory.md R42, 40_header_dispatch.md R92). -/
def rejectKind : DecodeReject → Err
  | .headerShort => .invalidFormat
  | .short => .truncated

/-- Run the next token: nothing when no call runs, the error of a token cut short, or the decoded
token's meaning. -/
def runNext (s : State) : Answer :=
  match s.nextCtx with
  | .nothing => .next s
  | .stop f => .fault f
  | .ctx c =>
    match decode c s.fetchBytes with
    | .token i _ => exec i s
    | .reject r => .next (s.raise (rejectKind r))

/-! ## Placing a table word (log 9) -/

/-- A declared size that leaves output owed, which every body phase of a headered format implies. -/
def State.owing (s : State) : State := s.setX { s.x with outLen := 0#24, size := s.params.outCap }

/-- A loaded tree of one branch and two leaves, at its root, which the later Huffman phases imply. -/
def State.withTree (s : State) : State :=
  { s with
    treeMem := s.treeMem.writeList 0 [0xC0#8, 0x00#8, 0x00#8]
    x := { s.x with treeN := 1#8, node := 0#10 } }

/-- Enter a reading context: the phase and what the phase implies. -/
def State.enter (s : State) (c : Ctx) : State :=
  match c with
  | .hdr => s.setPhase .hdr
  | .wl4Type => s.setPhase .wl4Type
  | .rle => s.owing.setPhase .rle
  | .diff8 => (s.owing.setX { s.owing.x with param := 1#4 }).setPhase .diff
  | .diff16 => (s.owing.setX { s.owing.x with param := 2#4 }).setPhase .diff
  | .lzMask => s.owing.setPhase .lzMask
  | .lzLit => (s.owing.setX { s.owing.x with mask := 0x00#8, slot := 0#4 }).setPhase .lzBlock
  | .lzRef => (s.owing.setX { s.owing.x with mask := 0x80#8, slot := 0#4 }).setPhase .lzBlock
  | .hufTSize => s.owing.setPhase .hufTSize
  | .hufTable => s.owing.setPhase .hufTable
  | .hufCheck => s.owing.withTree.setPhase .hufCheck
  | .hufWord =>
    (s.owing.withTree.setX { s.owing.withTree.x with bitCnt := 0#6 }).setPhase .hufBits
  | .hufBit top =>
    (s.owing.withTree.setX
      { s.owing.withTree.x with bitCnt := 1#6, bitWin := BitVec.ofBool top ++ 0#31 }).setPhase
      .hufBits
  | .w8 => s.setPhase .w8
  | .w16 _ => s.setPhase .w16
  | .treeBranch | .treeLeaf => s

/-- The payload a decoding announces. -/
def decodedPayload (treeN : Byte) : Decoded → Nat
  | .token i _ => payloadLen treeN i
  | .reject _ => 0

/-- Place a table word and a payload of zeros where the next step fetches, in the word's context. -/
def State.placeWord (s : State) (nbits w : Nat) : State :=
  let be := s.params.wl4Ctrl16BE
  let c := tableCtx be nbits (w % 2 ^ nbits)
  let bs := tableBytes be nbits w
  let t := s.enter c
  let zeros := List.replicate (decodedPayload t.x.treeN (decode c bs)) 0#8
  { t with
    inMem := t.inMem.writeList t.fetchAddr (bs ++ zeros)
    inLen := BitVec.ofNat 32 (max t.inLen.toNat (t.fetchAddr + (bs ++ zeros).length)) }

end Sys2Proof.Machine
end

