-- ==== Sys2Proof/Machine/Step.lean ====
section
/-! DEFINITION. The step: one application of exactly one token rule (00_scope.md section 7). -/

namespace Sys2Proof.Machine

/-- One atomic step. While `STATUS` is not `BUSY` the block does nothing (60_exceptions.md R219,
70_reset_and_hazards.md R225; log 7). -/
def step (s : State) : Host.Outcome State Fault Refusal := runNext s

/-- `s` with a table word stored where `step` fetches its next token (log 9). -/
def State.withFetchWord (s : State) (nbits w : Nat) : State := s.placeWord nbits w

end Sys2Proof.Machine
end

