-- ==== Sys2Proof/Machine/Functions.lean ====
section
/-! DEFINITION. The five decoders and the dispatcher as functions over byte lists: 41_rle.md R114,
42_diff.md R125, 43_lz77.md R138, 44_huffman.md R156, R157, 45_wl4.md R179, 40_header_dispatch.md
R102. They do not use the machine; the claims relate the two. The capacity check of D18, which
these functions of the spec leave out for the headered formats, is not in them. -/

namespace Sys2Proof.Machine

/-- The result of a decoder function. -/
abbrev DecodeResult := Except Err (List Byte)

/-- Byte `i` of a list; every use is bounds-checked. -/
def byteOf (b : List Byte) (i : Nat) : Byte := b.getD i 0#8

/-- The type nibble, the parameter nibble and the size of a header (40_header_dispatch.md R92);
`none` when fewer than 4 bytes are there. -/
def headerOf (b : List Byte) : Option (BitVec 4 × BitVec 4 × BitVec 24) :=
  if b.length < 4 then none
  else some ((byteOf b 0).extractLsb' 4 4, (byteOf b 0).extractLsb' 0 4,
    le24 (byteOf b 1) (byteOf b 2) (byteOf b 3))

/-- The `n` bytes from a position. -/
def sliceOf (b : List Byte) (pos n : Nat) : List Byte := (b.drop pos).take n

/-- The loop of R114. The first argument bounds the turns; each emits at least one byte. -/
def rleLoop (b : List Byte) (size : Nat) : Nat → Nat → List Byte → DecodeResult
  | 0, _, out => .ok out
  | n + 1, pos, out =>
    if size ≤ out.length then .ok out
    else if b.length ≤ pos then .error .truncated
    else
      let c := (byteOf b pos).toNat
      if c < 128 then
        if size < out.length + (c + 1) then .error .outOfBounds
        else if b.length < pos + 1 + (c + 1) then .error .truncated
        else rleLoop b size n (pos + 1 + (c + 1)) (out ++ sliceOf b (pos + 1) (c + 1))
      else
        if size < out.length + (c - 128 + 3) then .error .outOfBounds
        else if b.length ≤ pos + 1 then .error .truncated
        else rleLoop b size n (pos + 2)
          (out ++ List.replicate (c - 128 + 3) (byteOf b (pos + 1)))

/-- `rle_decompress(b)` (R114). -/
def rleDecompress (b : List Byte) : DecodeResult :=
  match headerOf b with
  | none => .error .invalidFormat
  | some (t, _, size) =>
    if t = 3#4 then rleLoop b size.toNat size.toNat 4 [] else .error .invalidFormat

/-- `out[i] = out[i-1] + words[i]`, from the previous output word (R120). -/
def prefixSumFrom {w : Nat} (prev : BitVec w) : List (BitVec w) → List (BitVec w)
  | [] => []
  | v :: vs => (prev + v) :: prefixSumFrom (prev + v) vs

/-- The running sum, first word unchanged (R120). -/
def prefixSum {w : Nat} : List (BitVec w) → List (BitVec w)
  | [] => []
  | v :: vs => v :: prefixSumFrom v vs

/-- Bytes as little-endian 16-bit words. -/
def wordsOf : List Byte → List (BitVec 16)
  | b0 :: b1 :: rest => le16 b0 b1 :: wordsOf rest
  | [_] => []
  | [] => []

/-- 16-bit words as bytes, low byte first. -/
def bytesOfWords : List (BitVec 16) → List Byte
  | [] => []
  | w :: ws => byteAt w 0 :: byteAt w 1 :: bytesOfWords ws

/-- `diff_decompress(b)` (R125). -/
def diffDecompress (b : List Byte) : DecodeResult :=
  match headerOf b with
  | none => .error .invalidFormat
  | some (t, p, size) =>
    if t ≠ 8#4 then .error .invalidFormat
    else if p ≠ 1#4 ∧ p ≠ 2#4 then .error .invalidFormat
    else if p = 2#4 ∧ size.toNat % 2 = 1 then .error .invalidFormat
    else if b.length < 4 + size.toNat then .error .truncated
    else if p = 1#4 then .ok (prefixSum (sliceOf b 4 size.toNat))
    else .ok (bytesOfWords (prefixSum (wordsOf (sliceOf b 4 size.toNat))))

/-- `n` bytes appended one at a time from `off` behind the end (R133, R138). -/
def copyList (out : List Byte) (off : Nat) : Nat → List Byte
  | 0 => out
  | n + 1 => copyList (out ++ [byteOf out (out.length - off)]) off n

/-- The blocks of a chunk (R138): the first argument counts the slots left; block `i` has mask bit
`7 - i`. -/
def lzChunk (b : List Byte) (size : Nat) (m : Byte) :
    Nat → Nat → List Byte → Except Err (Nat × List Byte)
  | 0, pos, out => .ok (pos, out)
  | k + 1, pos, out =>
    if size ≤ out.length then .ok (pos, out)
    else if m.getLsbD k = false then
      if b.length ≤ pos then .error .truncated
      else lzChunk b size m k (pos + 1) (out ++ [byteOf b pos])
    else if b.length < pos + 2 then .error .truncated
    else
      let len := (byteOf b pos).toNat / 16 + 3
      let off := (byteOf b pos).toNat % 16 * 256 + (byteOf b (pos + 1)).toNat + 1
      if size < out.length + len then .error .outOfBounds
      else if out.length < off then .error .outOfBounds
      else lzChunk b size m k (pos + 2) (copyList out off len)

/-- The chunks (R138). The first argument bounds the turns; each emits at least one byte. -/
def lzLoop (b : List Byte) (size : Nat) : Nat → Nat → List Byte → DecodeResult
  | 0, _, out => .ok out
  | n + 1, pos, out =>
    if size ≤ out.length then .ok out
    else if b.length ≤ pos then .error .truncated
    else
      match lzChunk b size (byteOf b pos) 8 (pos + 1) out with
      | .error e => .error e
      | .ok (pos', out') => lzLoop b size n pos' out'

/-- `lz77_decompress(b)` (R138). -/
def lz77Decompress (b : List Byte) : DecodeResult :=
  match headerOf b with
  | none => .error .invalidFormat
  | some (t, _, size) =>
    if t = 1#4 then lzLoop b size.toNat size.toNat 4 [] else .error .invalidFormat

/-- The bit loop of R157. The first argument bounds the bits. -/
def hufLoop (b : List Byte) (size : Nat) (tab : Nat → Byte) :
    Nat → Nat → Nat → BitVec 32 → Nat → List Byte → DecodeResult
  | 0, _, _, _, _, out => .ok out
  | n + 1, pos, node, win, cnt, out =>
    if size ≤ out.length then .ok out
    else if cnt = 0 ∧ b.length < pos + 4 then .error .truncated
    else
      let fresh := le32 (byteOf b pos) (byteOf b (pos + 1)) (byteOf b (pos + 2)) (byteOf b (pos + 3))
      let win' := if cnt = 0 then fresh else win
      let pos' := if cnt = 0 then pos + 4 else pos
      let cnt' := (if cnt = 0 then 32 else cnt) - 1
      let c := childOf node (branchBase (tab node)) win'.msb
      if branchLeaf (tab node) win'.msb then
        hufLoop b size tab n pos' 0 (win' <<< 1) cnt' (out ++ [tab c])
      else hufLoop b size tab n pos' c (win' <<< 1) cnt' out

/-- `huffman_decompress(b)` (R157). A code has at most 510 bits (R155). -/
def huffmanDecompress (b : List Byte) : DecodeResult :=
  match headerOf b with
  | none => .error .invalidFormat
  | some (t, _, size) =>
    if t ≠ 2#4 then .error .invalidFormat
    else if b.length < 5 then .error .truncated
    else
      let T := tableLen (byteOf b 4)
      if b.length < 5 + T then .error .truncated
      else
        let tab := fun o => byteOf b (5 + o)
        if !treeCheck tab T T 0 then .error .outOfBounds
        else hufLoop b size.toNat tab (510 * size.toNat) (5 + T) 0 0#32 0 []

/-- A deserialised Huffman tree (00_scope.md section 8, HuffmanNode). -/
inductive HufTree where
  | leaf (value : Byte)
  | branch (node0 node1 : HufTree)
  deriving DecidableEq, Repr

/-- Deserialise the branch at offset `o` of a table of `T` bytes (R150, R156); `none` when an offset
leaves the table. -/
def deserialise (tab : Nat → Byte) (T : Nat) : Nat → Nat → Option HufTree
  | 0, _ => none
  | fuel + 1, o =>
    let c0 := child0 o (branchBase (tab o))
    if T ≤ c0 ∨ T ≤ c0 + 1 then none
    else
      let child (bit : Bool) : Option HufTree :=
        if branchLeaf (tab o) bit then some (.leaf (tab (c0 + bit.toNat)))
        else deserialise tab T fuel (c0 + bit.toNat)
      match child false, child true with
      | some l, some r => some (.branch l r)
      | _, _ => none

/-- Follow bits from a node of the tree: the leaf reached and the bits left, if one is reached. -/
def HufTree.follow : HufTree → List Bool → Option (Byte × List Bool)
  | .leaf v, bits => some (v, bits)
  | .branch _ _, [] => none
  | .branch l r, bit :: bits => (if bit then r else l).follow bits

/-- Follow bits from the branch at offset `o` by walking the table (R152): the leaf reached and the
bits left, if one is reached. -/
def walkTable (tab : Nat → Byte) : Nat → List Bool → Option (Byte × List Bool)
  | _, [] => none
  | o, bit :: bits =>
    let c := childOf o (branchBase (tab o)) bit
    if branchLeaf (tab o) bit then some (tab c, bits) else walkTable tab c bits

/-- The loop of R179 for control words of `W` bytes. The first argument bounds the turns; each
consumes at least one byte. -/
def wl4Loop (be : Bool) (cap : Nat) (b : List Byte) (W : Nat) : Nat → Nat → List Byte → DecodeResult
  | 0, _, _ => .error .truncated
  | n + 1, pos, out =>
    if b.length < pos + W then .error .truncated
    else
      let c := if W = 1 then (byteOf b pos).toNat
        else (ctrl16 be (byteOf b pos) (byteOf b (pos + 1))).toNat
      let top := if W = 1 then 128 else 32768
      if c = 0 then .ok out
      else if c = top then .error .invalidFormat
      else
        let k := c % top
        if cap < out.length + k then .error .outOfBounds
        else if c < top then
          if b.length < pos + W + k then .error .truncated
          else wl4Loop be cap b W n (pos + W + k) (out ++ sliceOf b (pos + W) k)
        else if b.length ≤ pos + W then .error .truncated
        else wl4Loop be cap b W n (pos + W + 1) (out ++ List.replicate k (byteOf b (pos + W)))

/-- `wl4_decompress(b)` (R179). -/
def wl4Decompress (be : Bool) (cap : Nat) (b : List Byte) : DecodeResult :=
  if b.length < 1 then .error .invalidFormat
  else if byteOf b 0 = 1#8 then wl4Loop be cap b 1 b.length 1 []
  else if byteOf b 0 = 2#8 then wl4Loop be cap b 2 b.length 1 []
  else .error .invalidFormat

/-- `decode(MODE, input)` by the decoders' functions (R102): modes 1, 2, 3, 8 are the per-codec entry
points, 4 is WL4, 0 dispatches on the header's type nibble, the rest are reserved (R17). -/
def decompress (be : Bool) (cap : Nat) (mode : BitVec 4) (b : List Byte) : DecodeResult :=
  let headered (t : BitVec 4) : DecodeResult :=
    if t = 1#4 then lz77Decompress b
    else if t = 2#4 then huffmanDecompress b
    else if t = 3#4 then rleDecompress b
    else if t = 8#4 then diffDecompress b
    else .error .invalidFormat
  if mode = 4#4 then wl4Decompress be cap b
  else if mode = 0#4 then
    match headerOf b with
    | none => .error .invalidFormat
    | some (t, _, _) => headered t
  else headered mode

end Sys2Proof.Machine
end

