-- ==== Sys2Proof/Machine/HostPort.lean ====
section
/-! DEFINITION. What the host can do to the block between steps (10_state.md R11,
70_reset_and_hazards.md R220 to R224). These acts are no tokens and no part of the step (log 8). -/

namespace Sys2Proof.Machine

/-- The host-visible registers CR0 to CR8 (10_state.md R11). -/
inductive CtrlReg where
  | ctrl
  | mode
  | inLen
  | status
  | err
  | phase
  | inPos
  | outLen
  | hdr
  deriving DecidableEq, Repr

/-- The register's number (R11). -/
def CtrlReg.number : CtrlReg → Nat
  | .ctrl => 0
  | .mode => 1
  | .inLen => 2
  | .status => 3
  | .err => 4
  | .phase => 5
  | .inPos => 6
  | .outLen => 7
  | .hdr => 8

/-- The answer of a host read: the spec gives a value, or says that it is unspecified, or forbids
the read. -/
inductive HostRead (α : Type) where
  | value (v : α)
  | unspecified
  | refused (r : Refusal)
  deriving DecidableEq, Repr

/-- A host write of a control register (R11, R19, 70 R223): `MODE` and `IN_LEN` while not `BUSY`,
`CTRL.START`; writes of read-only registers, and of 0 to `CTRL`, do nothing. -/
def State.hostWrite (s : State) (r : CtrlReg) (v : BitVec 32) : State :=
  match r with
  | .ctrl => if v.getLsbD 0 then s.start else s
  | .mode => if s.busy then s else { s with mode := v.setWidth 4 }
  | .inLen => if s.busy then s else { s with inLen := v }
  | .status | .err | .phase | .inPos | .outLen | .hdr => s

/-- Whether the header step of the running call is over (70 R223: "`HDR` during `BUSY` after the
header step"). -/
def Phase.afterHeader : Phase → Bool
  | .rle | .diff | .lzMask | .lzBlock | .hufTSize | .hufTable | .hufCheck | .hufBits => true
  | .idle | .hdr | .wl4Type | .w8 | .w16 | .done | .fault => false

/-- A host read of a control register (R11, 70 R223; log 21). -/
def State.hostRead (s : State) (r : CtrlReg) : HostRead (BitVec 32) :=
  match r with
  | .ctrl => .value 0#32
  | .mode => .value (s.mode.setWidth 32)
  | .inLen => .value s.inLen
  | .status => .value (s.status.code.setWidth 32)
  | .err => .value (s.err.code.setWidth 32)
  | .phase => .value (s.phase.code.setWidth 32)
  | .inPos => if s.status = .fault then .unspecified else .value s.pc
  | .outLen =>
    if s.status = .done ∨ s.status = .idle then .value (s.x.outLen.setWidth 32) else .unspecified
  | .hdr =>
    if s.status = .done ∨ s.status = .idle ∨ s.phase.afterHeader then .value s.x.hdr
    else .unspecified

/-- A host write of `IN[a]`: while `BUSY` the model gives it no meaning (10_state.md R21, 70 R224;
log 17). -/
def State.hostWriteIn (s : State) (a : Addr) (v : Byte) : Answer :=
  if s.busy then .refused .hostBufferAccessWhileBusy
  else .next { s with inMem := s.inMem.write a.toNat v }

/-- What `IN[a]` holds for the host: defined always (the row `IN[a]` of 70 R223). -/
def State.inputView (s : State) (a : Addr) : HostRead Byte := .value (s.inAt a.toNat)

/-- A host read of `IN[a]`: the host may read while not `BUSY` (10_state.md R21), and a run in which it
touches `IN` during `BUSY` is refused (92 D26), although the value is defined then too (log 16). -/
def State.hostReadIn (s : State) (a : Addr) : HostRead Byte :=
  if s.busy then .refused .hostBufferAccessWhileBusy else s.inputView a

/-- A host read of `OUT[a]`: defined at `DONE` below `OUT_LEN` (20_memory.md R48, 70 R223). -/
def State.hostReadOut (s : State) (a : Nat) : HostRead Byte :=
  if s.busy then .refused .hostBufferAccessWhileBusy
  else if s.status = .done ∧ a < s.x.outLen.toNat then .value (s.outAt a)
  else .unspecified

/-- Reset, in any state (70 R220): registers as in `State.reset`, the three spaces unspecified. -/
def State.hostReset (s : State) : State :=
  { State.reset with
    params := s.params
    inMem := .unspecified s.draws
    outMem := .unspecified s.draws
    treeMem := .unspecified s.draws
    draws := s.draws + 1 }

/-- Host writes of a list of bytes to `IN` at rising addresses. Their order is free (70 R222); the last
byte is written first. -/
def State.hostWriteBytes (s : State) (a : Nat) : List Byte → Answer
  | [] => .next s
  | v :: vs =>
    match s.hostWriteBytes (a + 1) vs with
    | .next t => t.hostWriteIn (BitVec.ofNat 32 a) v
    | .fault f => .fault f
    | .refused r => .refused r

/-- Steps 1 to 3 of 70 R222, each the host's own act: write `IN`, `IN_LEN`, `MODE`. A launch while a call
runs has no meaning (20_memory.md R55): it is refused (log 17). -/
def State.loadCall (s : State) (mode : BitVec 4) (input : List Byte) : Answer :=
  if s.busy then .refused .hostBufferAccessWhileBusy
  else
    match s.hostWriteBytes 0 input with
    | .next t =>
      .next ((t.hostWrite .inLen (BitVec.ofNat 32 input.length)).hostWrite .mode (mode.setWidth 32))
    | .fault f => .fault f
    | .refused r => .refused r

/-- Steps 1 to 4 of 70 R222: the load, then `CTRL.START = 1`. -/
def State.beginCall (s : State) (mode : BitVec 4) (input : List Byte) : Answer :=
  match s.loadCall mode input with
  | .next t => .next (t.hostWrite .ctrl 1#32)
  | .fault f => .fault f
  | .refused r => .refused r

end Sys2Proof.Machine
end

