-- ==== Sys2Proof/Machine/Call.lean ====
section
/-! DEFINITION. A decode call as a whole: `decode(MODE, input)` (00_scope.md R1, R2;
70_reset_and_hazards.md R225). -/

namespace Sys2Proof.Machine

/-- The result of a call (R2): the output at `DONE`, the error kind at `FAULT`, nothing before. -/
def State.result (s : State) : Option (Except Err (List Byte)) :=
  match s.phase with
  | .done => some (.ok s.output)
  | .fault => some (.error s.err)
  | .idle | .hdr | .rle | .diff | .lzMask | .lzBlock | .hufTSize | .hufTable | .hufCheck | .hufBits
  | .wl4Type | .w8 | .w16 => none

/-- Steps until `STATUS` is not `BUSY`, at most `n`. -/
def runCall : Nat → State → Answer
  | 0, s => .next s
  | n + 1, s =>
    if s.busy then
      match step s with
      | .next t => runCall n t
      | .fault f => .fault f
      | .refused r => .refused r
    else .next s

/-- The result of an answer. -/
def answerResult : Answer → Option (Except Err (List Byte))
  | .next t => t.result
  | .fault _ | .refused _ => none

/-- The body's row of 70 R231, by header type and parameter, with `S = x[SIZE]`. An illegal header has no
body. -/
def bodyStepBound (type param : BitVec 4) (size : Nat) : Nat :=
  if type = 3#4 then size
  else if type = 8#4 then if param = 1#4 then size else size / 2
  else if type = 1#4 then size + (size + 7) / 8
  else if type = 2#4 then 3 + 255 * size
  else 0

/-- The table of 70 R231 as it stands, for the whole call, with `L = IN_LEN`; `L - 1` is a difference of
natural numbers, 0 for the empty input (00_scope.md section 7). The headered rows bound every step; the
WL4 row is one short of what the token rules take when the input runs out (log 24). -/
def stepBound (mode : BitVec 4) (input : List Byte) : Nat :=
  if mode = 4#4 then 1 + (input.length - 1)
  else
    match headerOf input with
    | some (t, p, n) => 1 + bodyStepBound t p n.toNat
    | none => 1

/-- Whether the next application of `step` applies a token rule. It does not where the bytes of the next
token's control field are not all there: `need` raises before a token is selected (30_encoding.md R60,
45_wl4.md R173, R180). -/
def State.appliesToken (s : State) : Bool :=
  match s.nextCtx with
  | .nothing | .stop _ => false
  | .ctx c =>
    match decode c s.fetchBytes with
    | .token _ _ => true
    | .reject _ => false

/-- The applications of `step` that `counted` picks, of the running call's first `n`. -/
def countSteps (counted : State → Bool) : Nat → State → Nat
  | 0, _ => 0
  | n + 1, s =>
    if s.busy then
      (if counted s then 1 else 0) +
        match step s with
        | .next t => countSteps counted n t
        | .fault _ | .refused _ => 0
    else 0

/-- The steps of a call that select and apply a token, without a last step that finds its control field
cut short: what the WL4 row of 70 R231 does bound (log 24). -/
def tokenSteps (n : Nat) (s : State) : Nat := countSteps State.appliesToken n s

/-- The steps of a call, a last step that raises included (60_exceptions.md R206): what 70 R231 counts. -/
def callSteps (n : Nat) (s : State) : Nat := countSteps (fun _ => true) n s

/-- The answer of a whole call: the host's acts of 70 R222, then steps until `STATUS` is not `BUSY`: those of
70 R231's table, and the one step by which its WL4 row is short (log 24). -/
def runDecode (s : State) (mode : BitVec 4) (input : List Byte) : Answer :=
  match s.beginCall mode input with
  | .next t => runCall (stepBound mode input + 1) t
  | .fault f => .fault f
  | .refused r => .refused r

/-- `decode(MODE, input)`, begun in a state; no result where the launch is refused, that is while a call
runs (20_memory.md R55). -/
def decodeCall (s : State) (mode : BitVec 4) (input : List Byte) :
    Option (Except Err (List Byte)) :=
  answerResult (runDecode s mode input)

end Sys2Proof.Machine
end

