-- ==== Sys2Proof/Machine/Encoders.lean ====
section
/-! DEFINITION. The reference encoders (48_reference_encoders.md): software functions over byte
lists, no part of the hardware block (00_scope.md section 3; log 23). -/

namespace Sys2Proof.Machine

/-- `write_header(type, parameter, size)` (R182). -/
def writeHeader (type : BitVec 4) (parameter size : Nat) : DecodeResult :=
  if 0xF < parameter ∨ 0xFFFFFF < size then .error .invalidFormat
  else .ok ((type ++ BitVec.ofNat 4 parameter) :: sizeBytes (BitVec.ofNat 24 size))

/-- A header followed by a body (R183 to R186). -/
def withHeader (type : BitVec 4) (parameter size : Nat) (body : List Byte) : DecodeResult :=
  match writeHeader type parameter size with
  | .ok h => .ok (h ++ body)
  | .error e => .error e

/-- How many leading bytes equal `v`, counted up to a limit. -/
def countEq (v : Byte) : Nat → List Byte → Nat
  | 0, _ => 0
  | _ + 1, [] => 0
  | n + 1, w :: ws => if w = v then countEq v n ws + 1 else 0

/-- `run(q)`: the length of the run at the head, up to 130 (R183). -/
def runAt : List Byte → Nat
  | [] => 0
  | v :: vs => countEq v 129 vs + 1

/-- The length of the literal run at the head, up to a limit: bytes at which no run of 3 starts
(R183). -/
def literalAt : Nat → List Byte → Nat
  | 0, _ => 0
  | _ + 1, [] => 0
  | n + 1, v :: vs => if runAt (v :: vs) < 3 then literalAt n vs + 1 else 0

/-- The runs of R183. The first argument bounds the runs; each covers at least one byte. -/
def rleRuns : Nat → List Byte → List Byte
  | 0, _ => []
  | _ + 1, [] => []
  | n + 1, v :: vs =>
    let d := v :: vs
    let r := runAt d
    if 3 ≤ r then (0x80#8 ||| BitVec.ofNat 8 (r - 3)) :: v :: rleRuns n (d.drop r)
    else
      let l := literalAt 128 d
      BitVec.ofNat 8 (l - 1) :: (d.take l ++ rleRuns n (d.drop l))

/-- `rle_compress(d)` (R183). -/
def rleCompress (d : List Byte) : DecodeResult := withHeader 3#4 0 d.length (rleRuns d.length d)

/-- `out[i] = in[i] - in[i-1]`, from the previous input word (R184). -/
def deltasFrom {w : Nat} (prev : BitVec w) : List (BitVec w) → List (BitVec w)
  | [] => []
  | v :: vs => (v - prev) :: deltasFrom v vs

/-- The delta words, first word unchanged (R184). -/
def deltas {w : Nat} : List (BitVec w) → List (BitVec w)
  | [] => []
  | v :: vs => v :: deltasFrom v vs

/-- `diff_compress(d, 1)` (R184). -/
def diffCompress8 (d : List Byte) : DecodeResult := withHeader 8#4 1 d.length (deltas d)

/-- `diff_compress(d, 2)` (R184): an odd length fails. -/
def diffCompress16 (d : List Byte) : DecodeResult :=
  if d.length % 2 = 1 then .error .invalidFormat
  else withHeader 8#4 2 d.length (bytesOfWords (deltas (wordsOf d)))

/-- An LZ77 block: a literal or a backreference (00_scope.md section 8). -/
inductive Block where
  | lit (v : Byte)
  | ref (off len : Nat)
  deriving DecidableEq, Repr

/-- The largest `l` up to a limit with `d[p - off + k] = d[p + k]` for all `k < l` (R185), from
index `k` on. -/
def matchFrom (d : List Byte) (p off : Nat) : Nat → Nat → Nat
  | 0, _ => 0
  | n + 1, k => if byteOf d (p - off + k) = byteOf d (p + k) then matchFrom d p off n (k + 1) + 1 else 0

/-- The match length at position `p` and offset `off`, at most 18 and at most the bytes left (R185). -/
def matchLen (d : List Byte) (p off : Nat) : Nat := matchFrom d p off (min 18 (d.length - p)) 0

/-- The nearest longest match among `n` offsets from `off` upward; a later one must be strictly
longer (R185). -/
def bestMatch (d : List Byte) (p : Nat) : Nat → Nat → Nat × Nat → Nat × Nat
  | 0, _, best => best
  | n + 1, off, best =>
    bestMatch d p n (off + 1)
      (if best.2 < matchLen d p off then (off, matchLen d p off) else best)

/-- The blocks of R185 from position `p`. The first argument bounds the blocks; each covers at least
one byte. -/
def lzBlocks (d : List Byte) (minOff : Nat) : Nat → Nat → List Block
  | 0, _ => []
  | n + 1, p =>
    if d.length ≤ p then []
    else
      let best := bestMatch d p (min 4096 p + 1 - minOff) minOff (0, 0)
      if 3 ≤ best.2 then .ref best.1 best.2 :: lzBlocks d minOff n (p + best.2)
      else .lit (byteOf d p) :: lzBlocks d minOff n (p + 1)

/-- The bytes of a block (R186). -/
def Block.bytes : Block → List Byte
  | .lit v => [v]
  | .ref off len =>
    [BitVec.ofNat 4 (len - 3) ++ BitVec.ofNat 4 ((off - 1) / 256), BitVec.ofNat 8 (off - 1)]

/-- Whether a block is a backreference. -/
def Block.isRef : Block → Bool
  | .lit _ => false
  | .ref _ _ => true

/-- The mask byte of a group of at most 8 blocks: bit `7 - i` for block `i`, unused bits 0 (R186). -/
def groupMask (g : List Block) : Byte :=
  let flag (i : Nat) : BitVec 1 := BitVec.ofBool ((g.map Block.isRef).getD i false)
  flag 0 ++ (flag 1 ++ (flag 2 ++ (flag 3 ++ (flag 4 ++ (flag 5 ++ (flag 6 ++ flag 7))))))

/-- The groups of R186. The first argument bounds the groups. -/
def lzGroups : Nat → List Block → List Byte
  | 0, _ => []
  | _ + 1, [] => []
  | n + 1, b :: bs =>
    let g := (b :: bs).take 8
    groupMask g :: (g.flatMap Block.bytes ++ lzGroups n ((b :: bs).drop 8))

/-- The stream of a block sequence for `size` bytes of data (R186). -/
def lzStream (size : Nat) (bs : List Block) : DecodeResult :=
  withHeader 1#4 0 size (lzGroups bs.length bs)

/-- `lz77_compress(d, LZ_MIN_OFFSET)` with the reference policy (R185, R186). -/
def lz77Compress (d : List Byte) (minOff : Nat) : DecodeResult :=
  lzStream d.length (lzBlocks d minOff d.length 0)

/-- What every legal LZ77 compressor's blocks satisfy (R187): offsets and lengths in range, and the
blocks expand from position `p` to `d`. -/
def lzLegal (d : List Byte) (minOff : Nat) : Nat → List Block → Bool
  | p, [] => p == d.length
  | p, .lit v :: bs => p < d.length && byteOf d p == v && lzLegal d minOff (p + 1) bs
  | p, .ref off len :: bs =>
    minOff ≤ off && off ≤ min 4096 p && 3 ≤ len && len ≤ 18 && p + len ≤ d.length
      && matchFrom d p off len 0 == len && lzLegal d minOff (p + len) bs

/-- A WL4 run (45_wl4.md R170, R171, R175, R176). -/
inductive Wl4Run where
  | lit (vs : List Byte)
  | rep (k : Nat) (v : Byte)
  deriving DecidableEq, Repr

/-- The number of bytes a run stands for. -/
def Wl4Run.len : Wl4Run → Nat
  | .lit vs => vs.length
  | .rep k _ => k

/-- The bytes a run stands for. -/
def Wl4Run.expand : Wl4Run → List Byte
  | .lit vs => vs
  | .rep k v => List.replicate k v

/-- A run's 8-bit form. -/
def Wl4Run.bytes8 : Wl4Run → List Byte
  | .lit vs => BitVec.ofNat 8 vs.length :: vs
  | .rep k v => [0x80#8 ||| BitVec.ofNat 8 k, v]

/-- A run's 16-bit form, in the byte order of `WL4_CTRL16_BE`. -/
def Wl4Run.bytes16 (be : Bool) : Wl4Run → List Byte
  | .lit vs => ctrlBytes be (BitVec.ofNat 16 vs.length) ++ vs
  | .rep k v => ctrlBytes be (0x8000#16 ||| BitVec.ofNat 16 k) ++ [v]

/-- `wl4_compress8(d)` as a relation (R190): any legal cut of `d` into runs of 1 to 127. A WL4 stream
has no header, so the limit that R182 puts on every compressor through `write_header` is not applied:
no length fails (log 25). -/
def Wl4Compressed8 (d out : List Byte) : Prop :=
  ∃ runs : List Wl4Run, (∀ r ∈ runs, 1 ≤ r.len ∧ r.len ≤ 127) ∧ runs.flatMap Wl4Run.expand = d ∧
    out = 0x01#8 :: (runs.flatMap Wl4Run.bytes8 ++ [0x00#8])

/-- `wl4_compress16(d)` as a relation (R190): any legal cut of `d` into runs of 1 to 32767, for `d` of
any length (log 25). -/
def Wl4Compressed16 (be : Bool) (d out : List Byte) : Prop :=
  ∃ runs : List Wl4Run, (∀ r ∈ runs, 1 ≤ r.len ∧ r.len ≤ 32767) ∧
    runs.flatMap Wl4Run.expand = d ∧
    out = 0x02#8 :: (runs.flatMap (Wl4Run.bytes16 be) ++ [0x00#8, 0x00#8])

/-- `wl4_compress(d)` as a relation (R191): the smaller of the two, the 8-bit one on a tie, for `d`
of any length (log 25). -/
def Wl4Compressed (be : Bool) (d out : List Byte) : Prop :=
  ∃ o8 o16, Wl4Compressed8 d o8 ∧ Wl4Compressed16 be d o16 ∧
    out = if o8.length ≤ o16.length then o8 else o16

/-- `huffman_compress(d)` (R192): always `Unimplemented`. -/
def huffmanCompress (_d : List Byte) : DecodeResult := .error .unimplemented

end Sys2Proof.Machine
end

