-- ==== Sys2Proof/Machine/RoundTrip.lean ====
section
/-! DEFINITION. The round trip of 48_reference_encoders.md R193, `decode(mode, compress(d)) = Ok(d)`: the
codec pairs, each with the mode of its decode call, and the property itself. -/

namespace Sys2Proof.Machine

/-- The codec pairs of R193. There is no Huffman pair. -/
inductive CodecPair where
  | rle
  | diff8
  | diff16
  | lz77 (minOff : Nat)
  | wl4In8
  | wl4In16
  | wl4
  deriving DecidableEq, Repr

/-- The `MODE` that decodes a pair's streams (R193). -/
def CodecPair.mode : CodecPair → BitVec 4
  | .rle => 3#4
  | .diff8 | .diff16 => 8#4
  | .lz77 _ => 1#4
  | .wl4In8 | .wl4In16 | .wl4 => 4#4

/-- `b` is a compression of `d` (R183 to R186, R190, R191): the result of the reference compressor, or
any legal WL4 stream. -/
def CodecPair.Compresses (be : Bool) (c : CodecPair) (d b : List Byte) : Prop :=
  match c with
  | .rle => rleCompress d = .ok b
  | .diff8 => diffCompress8 d = .ok b
  | .diff16 => diffCompress16 d = .ok b
  | .lz77 minOff => lz77Compress d minOff = .ok b
  | .wl4In8 => Wl4Compressed8 d b
  | .wl4In16 => Wl4Compressed16 be d b
  | .wl4 => Wl4Compressed be d b

/-- The round trip of R193 for one buffer, begun in a state: `d` compresses, and the decode call of every
compression of `d` gives `d` back. R193 speaks of every `d` of at most 0xFFFFFF and at most `OUT_CAP` bytes,
of even length for `diff16`, and of `LZ_MIN_OFFSET` 1 and 2. -/
def State.RoundTrips (s : State) (c : CodecPair) (d : List Byte) : Prop :=
  (∃ b, c.Compresses s.params.wl4Ctrl16BE d b) ∧
    ∀ b, c.Compresses s.params.wl4Ctrl16BE d b → decodeCall s c.mode b = some (.ok d)

end Sys2Proof.Machine
end

