-- ==== Sys2Proof/Safety.lean ====
section
/-! DEFINITION. What claims are stated in: the invariant of a machine that only tokens and host acts
have driven (10_state.md R27), and what a token leaves unchanged. -/

namespace Sys2Proof.Machine

/-! ## The tree -/

/-- Table offset `o` is reached from the root through branch links (44_huffman.md R150). -/
inductive BranchReach (tab : Nat → Byte) : Nat → Prop where
  | root : BranchReach tab 0
  | child {o : Nat} (bit : Bool) : BranchReach tab o → branchLeaf (tab o) bit = false →
      BranchReach tab (childOf o (branchBase (tab o)) bit)

/-- `o` is an offset of the table that the walk may stand on: inside the table and reached as a
branch (R27). -/
def State.onBranch (s : State) (o : Nat) : Prop := o < s.tableLen ∧ BranchReach s.treeAt o

/-! ## The invariant (10_state.md R27) -/

/-- The three spaces are canonical and hold no byte outside their size (R21). -/
structure MemInv (s : State) : Prop where
  inWf : s.inMem.wf = true
  outWf : s.outMem.wf = true
  treeWf : s.treeMem.wf = true
  inInside : ∀ a, (s.inMem.get a).isSome → a < 2 ^ Config.addrW
  outInside : ∀ a, (s.outMem.get a).isSome → a < s.params.outCap.toNat
  treeInside : ∀ a, (s.treeMem.get a).isSome → a < Config.treeBytes

/-- The registers of a headered call: a known type, and a declared size that fits (R27). -/
structure Headered (s : State) (t : BitVec 4) : Prop where
  type : s.x.type = t
  wl4T : s.x.wl4T = 0#2
  fits : s.x.size.toNat ≤ s.params.outCap.toNat
  mode : s.mode = 0#4 ∨ s.mode = t

/-- The table is loaded: every byte of it has been written in this call (20_memory.md R52). -/
def State.tableLoaded (s : State) : Prop := ∀ o, o < s.tableLen → (s.treeMem.get o).isSome

/-- The registers of a WL4 call. -/
structure Wl4Call (s : State) (t : BitVec 2) : Prop where
  wl4T : s.x.wl4T = t
  type : s.x.type = 0#4
  size : s.x.size = 0#24
  mode : s.mode = 4#4

/-- What each phase implies (R14, R27 and the token rules). -/
def PhaseInv (s : State) : Prop :=
  match s.phase with
  | .idle | .fault => True
  | .hdr => s.pc = 0#32 ∧ s.x = Regs.zero ∧ startPhase s.mode = some .hdr
  | .wl4Type => s.pc = 0#32 ∧ s.x = Regs.zero ∧ s.mode = 4#4
  | .rle => Headered s 3#4 ∧ s.x.outLen.toNat < s.x.size.toNat
  | .diff => Headered s 8#4 ∧ s.x.outLen.toNat < s.x.size.toNat ∧
      ((s.x.param = 1#4 ∧ s.x.acc.toNat < 256) ∨
        (s.x.param = 2#4 ∧ s.x.size.toNat % 2 = 0 ∧ s.x.outLen.toNat % 2 = 0))
  | .lzMask => Headered s 1#4 ∧ s.x.outLen.toNat < s.x.size.toNat
  | .lzBlock => Headered s 1#4 ∧ s.x.outLen.toNat < s.x.size.toNat ∧ s.x.slot.toNat < 8
  | .hufTSize | .hufTable => Headered s 2#4 ∧ s.x.outLen = 0#24
  | .hufCheck => Headered s 2#4 ∧ s.x.outLen = 0#24 ∧ s.tableLoaded
  | .hufBits => Headered s 2#4 ∧ s.x.outLen.toNat < s.x.size.toNat ∧ s.tableLoaded ∧
      s.treeOk = true ∧ s.onBranch s.x.node.toNat
  | .w8 => Wl4Call s 1#2
  | .w16 => Wl4Call s 2#2
  | .done =>
      (s.x.wl4T = 0#2 ∧ s.x.outLen = s.x.size ∧
        (s.x.type = 1#4 ∨ s.x.type = 2#4 ∨ s.x.type = 3#4 ∨ s.x.type = 8#4)) ∨
      ((s.x.wl4T = 1#2 ∨ s.x.wl4T = 2#2) ∧ s.x.size = 0#24 ∧ s.x.type = 0#4)

/-- What holds while `STATUS` is `BUSY` or `DONE` (R27), with the ranges of R12. -/
structure CallInv (s : State) : Prop where
  outCap : s.x.outLen.toNat ≤ s.params.outCap.toNat
  slot : s.x.slot.toNat ≤ 8
  bitCnt : s.x.bitCnt.toNat ≤ 32
  node : s.x.node.toNat ≤ 510
  brLen : s.x.brLen = 0#5 ∨ (3 ≤ s.x.brLen.toNat ∧ s.x.brLen.toNat ≤ 18)
  brOff : s.x.brOff = 0#13 ∨ (1 ≤ s.x.brOff.toNat ∧ s.x.brOff.toNat ≤ 4096)
  written : ∀ a, a < s.x.outLen.toNat → (s.outMem.get a).isSome
  phase : PhaseInv s

/-- The invariant. -/
structure Inv (s : State) : Prop where
  mem : MemInv s
  /-- `ERR != 0` exactly when `PHASE = P_FAULT` (R16), and never code 4 (60_exceptions.md R204). -/
  err : s.err ≠ .none ↔ s.phase = .fault
  noUnimplemented : s.err ≠ .unimplemented
  /-- `pc <= IN_LEN` (R13); the host may change `IN_LEN` once the call is over. -/
  cursor : s.busy = true → s.pc.toNat ≤ s.inLen.toNat
  call : s.status = .busy ∨ s.status = .done → CallInv s

/-! ## Frames -/

/-- No byte of `OUT` changes. -/
def SameOut (s t : State) : Prop := ∀ a, t.outAt a = s.outAt a

/-- No byte of `TREE` changes. -/
def SameTree (s t : State) : Prop := ∀ o, t.treeAt o = s.treeAt o

/-- What no token changes: the parameters, `MODE`, `IN_LEN`, and every byte of `IN` (20_memory.md R40). -/
structure SameHost (s t : State) : Prop where
  params : t.params = s.params
  mode : t.mode = s.mode
  inLen : t.inLen = s.inLen
  inp : ∀ a, t.inAt a = s.inAt a

/-- `vs` is appended to the output: `OUT[OUT_LEN ..]` takes the bytes of `vs`, `x[OUT_LEN]` grows by
their number, and every other byte of `OUT` reads as before (20_memory.md R49). -/
structure Appends (s t : State) (vs : List Byte) : Prop where
  outLen : t.x.outLen.toNat = s.x.outLen.toNat + vs.length
  new : ∀ i (h : i < vs.length), t.outAt (s.x.outLen.toNat + i) = vs[i]
  old : ∀ a, a < s.x.outLen.toNat ∨ s.x.outLen.toNat + vs.length ≤ a → t.outAt a = s.outAt a

/-- The phase after a producing token of a headered call: `P_DONE` when the declared size is
reached (60_exceptions.md R209). -/
def phaseAfter (t : State) (p : Phase) : Phase :=
  if t.x.outLen.toNat = t.x.size.toNat then .done else p

/-- What every token that does not raise leaves alone beside its own effect. -/
structure Quiet (s t : State) : Prop where
  host : SameHost s t
  err : t.err = s.err

/-- A producing token: `taken` bytes of `IN` consumed, `vs` appended to the output, the registers
those of `x` but for `x[OUT_LEN]`, `TREE` unchanged. -/
structure Produced (s t : State) (taken : Nat) (vs : List Byte) (x : Regs) : Prop where
  quiet : Quiet s t
  tree : SameTree s t
  pc : t.pc.toNat = s.pc.toNat + taken
  out : Appends s t vs
  regs : t.x = { x with outLen := t.x.outLen }

/-- A token that produces nothing: `taken` bytes of `IN` consumed, the registers `x`, the next phase
`p`, no byte of `OUT` or `TREE` changed. -/
structure Silent (s t : State) (taken : Nat) (x : Regs) (p : Phase) : Prop where
  quiet : Quiet s t
  out : SameOut s t
  tree : SameTree s t
  pc : t.pc.toNat = s.pc.toNat + taken
  regs : t.x = x
  phase : t.phase = p

/-- What a bit step does with bit `bit`, once the window holds `win` with `cnt` bits and `taken`
bytes have been consumed for it, at a branch with leaf flag `leaf` and child `child` for that bit
(44_huffman.md R152, R153). -/
structure BitStep (s t : State) (win : BitVec 32) (cnt taken : Nat) (leaf : Bool) (child : Nat) :
    Prop where
  quiet : Quiet s t
  tree : SameTree s t
  pc : t.pc.toNat = s.pc.toNat + taken
  bitWin : t.x.bitWin = win <<< 1
  bitCnt : t.x.bitCnt.toNat + 1 = cnt
  /-- A leaf: its byte is emitted and the walk is at the root. -/
  atLeaf : leaf = true → Appends s t [s.treeAt child] ∧ t.x.node.toNat = 0 ∧
    t.phase = phaseAfter t .hufBits
  /-- A branch: nothing is emitted and the walk stands on the child. -/
  atBranch : leaf = false → SameOut s t ∧ t.x.outLen = s.x.outLen ∧ t.x.node.toNat = child ∧
    t.phase = .hufBits
  /-- No other register changes. -/
  regs : t.x = { s.x with
    outLen := t.x.outLen, node := t.x.node, bitWin := t.x.bitWin, bitCnt := t.x.bitCnt }

/-- The state a `raise` leaves: `PHASE = P_FAULT`, `ERR` the kind, `MODE`, `IN_LEN` and `IN` as they
were (60_exceptions.md R206, R207). All else is unspecified. -/
structure Raised (s t : State) (k : Err) : Prop where
  host : SameHost s t
  phase : t.phase = .fault
  err : t.err = k

end Sys2Proof.Machine
end

