-- ==== Sys2Proof/Certificates/Slice0/Obligations.lean ====
section
/-! DEFINITION. The statements for the provers, from the numbered rules of spec/. Each docstring
names its rules; OBLIGATIONS.json quotes them. -/

open Sys2Proof Sys2Proof.Machine

/-! ## Encoding -/

/-- 30_encoding.md R61 to R73: words written out from the format rules decode to their tokens, one or
more of every family. -/
def Obligations.SpecWordsDecodeToTheirTokens : Prop :=
  decode .hdr [0x10#8, 0x0B#8, 0x00#8, 0x00#8] = .token (.hdrLz77 0#4 11#24) [] ∧
  decode .hdr [0x28#8, 0x08#8, 0x00#8, 0x00#8] = .token (.hdrHuf 8#4 8#24) [] ∧
  decode .hdr [0x82#8, 0x06#8, 0x01#8, 0x02#8] = .token (.hdrDiff16 0x020106#24) [] ∧
  decode .hdr [0x83#8, 0x00#8, 0x00#8, 0x00#8] = .token (.hdrIllegal 0x83#8 0#24) [] ∧
  decode .wl4Type [0x02#8] = .token .wl4T16 [] ∧
  decode .rle [0x03#8] = .token (.rleLit 3#7) [] ∧
  decode .rle [0xFF#8] = .token (.rleRep 127#7) [] ∧
  decode .diff16 [0xFF#8, 0x01#8] = .token (.d16W 0x01FF#16) [] ∧
  decode .lzRef [0x30#8, 0x02#8] = .token (.lzRef 3#4 2#12) [] ∧
  decode .lzRef [0x0F#8, 0xFE#8] = .token (.lzRef 0#4 0xFFE#12) [] ∧
  decode .hufWord [0x00#8, 0x00#8, 0xC0#8, 0x59#8] = .token (.hufWord 0x59C00000#32) [] ∧
  decode .treeBranch [0x81#8] = .token (.hufBr true false 1#6) [] ∧
  decode .w8 [0x80#8] = .token .w8Rsv [] ∧
  decode .w8 [0x84#8] = .token (.w8Rep 4#7) [] ∧
  decode (.w16 true) [0x80#8, 0x03#8] = .token (.w16Rep 3#15) [] ∧
  decode (.w16 false) [0x03#8, 0x80#8] = .token (.w16Rep 3#15) []

/-- 30_encoding.md R61 to R73, R76: the bytes a well-formed token is encoded to, read in the token's
context with any bytes after them, decode to that token and leave those bytes. (A missing WL4 type
byte, 45_wl4.md R168, is read only where no byte follows.) -/
def Obligations.DecodeOfEncodeIsTheToken : Prop :=
  ∀ (be : Bool) (i : Instr) (rest : List Byte), i.wf = true →
    (i = .wl4TIllegal none → rest = []) →
    decode (ctxOf be i) (encode be i ++ rest) = .token i rest

/-- 30_encoding.md R60, R76: every token the decoder gives is well-formed, belongs to the context it
was read in, and encodes to the very bytes it was read from: no bit of a control field is dropped. -/
def Obligations.DecodedTokensReencodeToTheirBytes : Prop :=
  ∀ (be : Bool) (c : Ctx) (bs : List Byte) (i : Instr) (rest : List Byte),
    (∀ b, c = .w16 b → b = be) → decode c bs = .token i rest →
    i.wf = true ∧ ctxOf be i = c ∧ encode be i ++ rest = bs

/-- 30_encoding.md R84: a legal line of the assembler notation that stands for a token assembles to
that token's encoding followed by its payload. The other two lines stand for bytes: HDR.RAW assembles to
its first byte and the size, low byte first, which for an illegal first byte is HDR.ILLEGAL's encoding,
and `.byte b` to `b`. No other line is without a token. -/
def Obligations.AssemblerLinesAssembleToTheirTokens : Prop :=
  (∀ (be : Bool) (l : AsmLine) (i : Instr) (payload : List Byte),
    l.legal = true → l.token = some (i, payload) →
    i.wf = true ∧ assemble be l = encode be i ++ payload) ∧
  (∀ (be : Bool) (b b0 b1 b2 : Byte),
    assemble be (.hdrRaw b (b2 ++ (b1 ++ b0))) = [b, b0, b1, b2]) ∧
  (∀ (be : Bool) (b : Byte) (size : BitVec 24), Instr.wf (.hdrIllegal b size) = true →
    assemble be (.hdrRaw b size) = encode be (.hdrIllegal b size)) ∧
  (∀ (be : Bool) (b : Byte), assemble be (.byte b) = [b]) ∧
  (∀ l : AsmLine, l.token = none → (∃ b size, l = .hdrRaw b size) ∨ ∃ b, l = .byte b)

/-! ## The step -/

/-- 00_scope.md section 7, 30_encoding.md R60: when the bytes at the fetch address decode, in the
context the state selects, to a token, the token is well-formed and the step is that token's meaning
at that state. The fetch address is the cursor, but 0 for the header and the WL4 type byte. -/
def Obligations.StepRunsTheDecodedToken : Prop :=
  ∀ (s : State) (c : Ctx) (i : Instr) (rest : List Byte),
    s.nextCtx = .ctx c → decode c s.fetchBytes = .token i rest →
    i.wf = true ∧ step s = exec i s ∧
      s.fetchAddr = (if s.phase = .hdr ∨ s.phase = .wl4Type then 0 else s.pc.toNat)

/-- 60_exceptions.md R209, R219: while no call runs, a step changes nothing. -/
def Obligations.IdleBlockDoesNothing : Prop :=
  ∀ s : State, (s.phase = .idle ∨ s.phase = .done ∨ s.phase = .fault) → step s = .next s

/-- 41_rle.md R110, 45_wl4.md R180, R173: in `P_RLE`, `P_W8` and `P_W16` a step reads one control byte
or word, raises Truncated when it is not all there, and executes the run token its value selects; the
16-bit word is read in the order of `WL4_CTRL16_BE`. -/
def Obligations.ControlFieldsSelectTheRunToken : Prop :=
  (∀ s : State, s.phase = .rle →
    (s.inLen.toNat < s.pc.toNat + 1 → step s = .next (s.raise .truncated)) ∧
    (s.pc.toNat + 1 ≤ s.inLen.toNat →
      let c := s.inAt s.pc.toNat
      step s = if c.getLsbD 7 = false then exec (.rleLit (c.extractLsb' 0 7)) s
        else exec (.rleRep (c.extractLsb' 0 7)) s)) ∧
  (∀ s : State, s.phase = .w8 →
    (s.inLen.toNat < s.pc.toNat + 1 → step s = .next (s.raise .truncated)) ∧
    (s.pc.toNat + 1 ≤ s.inLen.toNat →
      let c := s.inAt s.pc.toNat
      step s = if c = 0x00#8 then exec .w8End s
        else if c = 0x80#8 then exec .w8Rsv s
        else if c.getLsbD 7 = false then exec (.w8Lit (c.extractLsb' 0 7)) s
        else exec (.w8Rep (c.extractLsb' 0 7)) s)) ∧
  (∀ s : State, s.phase = .w16 →
    (s.inLen.toNat < s.pc.toNat + 2 → step s = .next (s.raise .truncated)) ∧
    (s.pc.toNat + 2 ≤ s.inLen.toNat →
      let b0 := s.inAt s.pc.toNat
      let b1 := s.inAt (s.pc.toNat + 1)
      let c := if s.params.wl4Ctrl16BE then b0 ++ b1 else b1 ++ b0
      step s = if c = 0x0000#16 then exec .w16End s
        else if c = 0x8000#16 then exec .w16Rsv s
        else if c.getLsbD 15 = false then exec (.w16Lit (c.extractLsb' 0 15)) s
        else exec (.w16Rep (c.extractLsb' 0 15)) s))

/-- 43_lz77.md R136, 42_diff.md R121, R122, 43 R131, 44_huffman.md R146, R150, R151 to R153: which token the
other body phases read: block `SLOT` of a chunk is a backreference when mask bit `7 - SLOT` is 1, the
delta word's size is `PARAM`, a bit step refills the window exactly when no bit is left. -/
def Obligations.BodyPhasesReadTheirTokens : Prop :=
  (∀ s : State, s.phase = .lzMask → s.pc.toNat + 1 ≤ s.inLen.toNat →
    step s = exec (.lzMask (s.inAt s.pc.toNat)) s) ∧
  (∀ s : State, s.phase = .lzBlock → s.x.slot.toNat < 8 →
    s.x.mask.getLsbD (7 - s.x.slot.toNat) = false → s.pc.toNat + 1 ≤ s.inLen.toNat →
    step s = exec (.lzLit (s.inAt s.pc.toNat)) s) ∧
  (∀ s : State, s.phase = .lzBlock → s.x.slot.toNat < 8 →
    s.x.mask.getLsbD (7 - s.x.slot.toNat) = true → s.pc.toNat + 2 ≤ s.inLen.toNat →
    step s = exec (.lzRef ((s.inAt s.pc.toNat).extractLsb' 4 4)
      ((s.inAt s.pc.toNat).extractLsb' 0 4 ++ s.inAt (s.pc.toNat + 1))) s) ∧
  (∀ s : State, s.phase = .diff → s.x.param = 1#4 → s.pc.toNat + 1 ≤ s.inLen.toNat →
    step s = exec (.d8W (s.inAt s.pc.toNat)) s) ∧
  (∀ s : State, s.phase = .diff → s.x.param = 2#4 → s.pc.toNat + 2 ≤ s.inLen.toNat →
    step s = exec (.d16W (s.inAt (s.pc.toNat + 1) ++ s.inAt s.pc.toNat)) s) ∧
  (∀ s : State, s.phase = .hufTSize → s.pc.toNat + 1 ≤ s.inLen.toNat →
    step s = exec (.hufTSize (s.inAt s.pc.toNat)) s) ∧
  (∀ s : State, s.phase = .hufTable → step s = exec .hufTable s) ∧
  (∀ s : State, s.phase = .hufCheck → step s = exec .hufCheck s) ∧
  (∀ s : State, s.phase = .hufBits → s.x.bitCnt = 0#6 → s.pc.toNat + 4 ≤ s.inLen.toNat →
    step s = exec (.hufWord (s.inAt (s.pc.toNat + 3) ++ (s.inAt (s.pc.toNat + 2) ++
      (s.inAt (s.pc.toNat + 1) ++ s.inAt s.pc.toNat)))) s) ∧
  (∀ s : State, s.phase = .hufBits → s.x.bitCnt ≠ 0#6 →
    step s = exec (if s.x.bitWin.getLsbD 31 = false then .hufBit0 else .hufBit1) s)

/-- 20_memory.md R42, 60_exceptions.md R203: in every other phase that reads a control field too, a
field that is not all there raises Truncated and nothing of it is used. -/
def Obligations.CutFieldsRaiseTruncated : Prop :=
  ∀ s : State,
    ((s.phase = .lzMask ∨ s.phase = .hufTSize) ∧ s.inLen.toNat < s.pc.toNat + 1) ∨
    (s.phase = .lzBlock ∧ s.x.slot.toNat < 8 ∧ s.inLen.toNat <
      s.pc.toNat + if s.x.mask.getLsbD (7 - s.x.slot.toNat) then 2 else 1) ∨
    (s.phase = .diff ∧ (s.x.param = 1#4 ∨ s.x.param = 2#4) ∧
      s.inLen.toNat < s.pc.toNat + s.x.param.toNat) ∨
    (s.phase = .hufTable ∧ s.inLen.toNat < s.pc.toNat + (2 * s.x.treeN.toNat + 1)) ∨
    (s.phase = .hufBits ∧ s.x.bitCnt = 0#6 ∧ s.inLen.toNat < s.pc.toNat + 4) →
    step s = .next (s.raise .truncated)

/-! ## Errors -/

/-- 60_exceptions.md R206, R207: `raise K` enters `P_FAULT` with `ERR` the kind; `MODE`, `IN_LEN` and `IN`
are unchanged; and no further step happens. -/
def Obligations.RaiseEntersTheFaultState : Prop :=
  ∀ (s : State) (k : Err), Raised s (s.raise k) k ∧ (s.raise k).status = .fault ∧
    (s.raise k).phase.code = 14#4 ∧ (s.raise k).err.code = k.code ∧
    step (s.raise k) = .next (s.raise k)

/-- 60_exceptions.md R206, R208, R204: whatever token faults, the answer is a `raise` of the state
before the token: nothing the token did is left, no token both writes output and raises, and the kind
is InvalidFormat, OutOfBounds or Truncated, never Unimplemented. -/
def Obligations.FaultingTokensLeaveOnlyTheRaise : Prop :=
  ∀ (i : Instr) (s t : State), exec i s = .next t → t.phase = .fault →
    ∃ k, (k = .invalidFormat ∨ k = .outOfBounds ∨ k = .truncated) ∧ t = s.raise k

/-! ## The host's side -/

/-- 40_header_dispatch.md R90: `CTRL.START` outside `BUSY` zeroes every working register, `pc` and `ERR`
and enters `P_HDR` (`MODE` 0, 1, 2, 3, 8) or `P_WL4_TYPE` (`MODE` 4), leaves the spaces, `MODE` and
`IN_LEN` as they are, and raises InvalidFormat for every other `MODE`; in `BUSY` it is ignored. -/
def Obligations.StartBeginsACall : Prop :=
  ∀ s : State,
    (s.status = .busy → s.start = s) ∧
    (s.status ≠ .busy →
      ((s.mode = 0#4 ∨ s.mode = 1#4 ∨ s.mode = 2#4 ∨ s.mode = 3#4 ∨ s.mode = 8#4) →
        s.start.phase = .hdr) ∧
      (s.mode = 4#4 → s.start.phase = .wl4Type) ∧
      ((s.mode = 0#4 ∨ s.mode = 1#4 ∨ s.mode = 2#4 ∨ s.mode = 3#4 ∨ s.mode = 4#4 ∨ s.mode = 8#4) →
        s.start.status = .busy ∧ s.start.pc = 0#32 ∧ s.start.err = .none ∧
        (∀ i, s.start.x.read i = 0) ∧ s.start.mode = s.mode ∧ s.start.inLen = s.inLen ∧
        s.start.inMem = s.inMem ∧ s.start.outMem = s.outMem ∧ s.start.treeMem = s.treeMem) ∧
      ((s.mode = 5#4 ∨ s.mode = 6#4 ∨ s.mode = 7#4 ∨ 9 ≤ s.mode.toNat) →
        Raised s s.start .invalidFormat))

/-- 10_state.md R11, R19, R21, 70_reset_and_hazards.md R222, R223: a host write of a register while `BUSY`
changes nothing; outside `BUSY`, `MODE` and `IN_LEN` take the value written and nothing else changes, 1 in
bit 0 of `CTRL` begins a call, 0 does nothing; a read-only register never changes. Outside `BUSY` a write
of `IN[a]` changes that byte alone, and loading a call leaves its bytes in `IN` from address 0, its length
in `IN_LEN` and its mode in `MODE`, every other byte and register as it was, and the launch is
`CTRL.START` from there. While `BUSY` both are refused, the model's form of the host's duty (log 17). -/
def Obligations.HostWritesObeyTheAccessRules : Prop :=
  ∀ s : State,
    (∀ v : BitVec 32,
      (s.status = .busy → ∀ r, s.hostWrite r v = s) ∧
      (s.status ≠ .busy →
        s.hostWrite .mode v = { s with mode := v.setWidth 4 } ∧
        s.hostWrite .inLen v = { s with inLen := v } ∧
        (v.getLsbD 0 = true → s.hostWrite .ctrl v = s.start) ∧
        (v.getLsbD 0 = false → s.hostWrite .ctrl v = s)) ∧
      (∀ r, r = .status ∨ r = .err ∨ r = .phase ∨ r = .inPos ∨ r = .outLen ∨ r = .hdr →
        s.hostWrite r v = s)) ∧
    (∀ (a : Addr) (v : Byte),
      (s.status = .busy → s.hostWriteIn a v = .refused .hostBufferAccessWhileBusy) ∧
      (s.status ≠ .busy → ∃ t, s.hostWriteIn a v = .next t ∧ t = { s with inMem := t.inMem } ∧
        t.inAt a.toNat = v ∧ ∀ b, b ≠ a.toNat → t.inAt b = s.inAt b)) ∧
    (∀ (mode : BitVec 4) (input : List Byte), input.length < 2 ^ 32 →
      (s.status = .busy → s.loadCall mode input = .refused .hostBufferAccessWhileBusy ∧
        decodeCall s mode input = none) ∧
      (s.status ≠ .busy → ∃ t, s.loadCall mode input = .next t ∧
        t = { s with mode := mode, inLen := t.inLen, inMem := t.inMem } ∧
        t.inLen.toNat = input.length ∧
        (∀ i, i < input.length → some (t.inAt i) = input[i]?) ∧
        (∀ a, input.length ≤ a → t.inAt a = s.inAt a) ∧
        s.beginCall mode input = .next t.start))

/-- 70_reset_and_hazards.md R223, R224, 10_state.md R11, R20, R21, 20_memory.md R48: what the host reads, row
by row. The host's own registers, `STATUS`, `ERR`, `PHASE` and the contents of `IN` have a value always;
`IN_POS` in every status but `FAULT`; `OUT_LEN` and `HDR` at `DONE`, and `HDR` during `BUSY` once the header step
is over; `OUT[a]` at `DONE` below `OUT_LEN`. What the table leaves open is unspecified. The model's own:
`OUT_LEN` and `HDR` read as their registers at `IDLE` (log 21), and a read of `IN` or `OUT` while `BUSY` is
refused (logs 16, 17). -/
def Obligations.HostReadsFollowTheInteractionTable : Prop :=
  ∀ s : State,
    s.hostRead .ctrl = .value 0#32 ∧ s.hostRead .mode = .value (s.mode.setWidth 32) ∧
    s.hostRead .inLen = .value s.inLen ∧
    s.hostRead .status = .value (s.status.code.setWidth 32) ∧
    s.hostRead .err = .value (s.err.code.setWidth 32) ∧
    s.hostRead .phase = .value (s.phase.code.setWidth 32) ∧
    (∀ a, s.inputView a = .value (s.inAt a.toNat)) ∧
    (s.status ≠ .busy → ∀ a, s.hostReadIn a = .value (s.inAt a.toNat)) ∧
    (s.status ≠ .fault → s.hostRead .inPos = .value s.pc) ∧
    (s.status = .idle → s.hostRead .outLen = .value (s.x.outLen.setWidth 32) ∧
      s.hostRead .hdr = .value (s.x.type ++ (s.x.param ++ s.x.size)) ∧
      ∀ a, s.hostReadOut a = .unspecified) ∧
    (s.status = .done →
      s.hostRead .outLen = .value (s.x.outLen.setWidth 32) ∧
      s.hostRead .hdr = .value (s.x.type ++ (s.x.param ++ s.x.size)) ∧
      (∀ a, a < s.x.outLen.toNat → s.hostReadOut a = .value (s.outAt a)) ∧
      (∀ a, s.x.outLen.toNat ≤ a → s.hostReadOut a = .unspecified)) ∧
    (s.status = .fault → s.hostRead .inPos = .unspecified ∧ s.hostRead .outLen = .unspecified ∧
      s.hostRead .hdr = .unspecified ∧ ∀ a, s.hostReadOut a = .unspecified) ∧
    (s.status = .busy → s.hostRead .outLen = .unspecified ∧
      (∀ a, s.hostReadIn a = .refused .hostBufferAccessWhileBusy) ∧
      (∀ a, s.hostReadOut a = .refused .hostBufferAccessWhileBusy)) ∧
    (s.phase ∈ [.rle, .diff, .lzMask, .lzBlock, .hufTSize, .hufTable, .hufCheck, .hufBits] →
      s.hostRead .hdr = .value (s.x.type ++ (s.x.param ++ s.x.size))) ∧
    (s.phase ∈ [.hdr, .wl4Type, .w8, .w16] → s.hostRead .hdr = .unspecified)

/-- 10_state.md R24, 70_reset_and_hazards.md R220: the registers after reset, from `State.reset` and from
a reset in any state, with the reads of 10_state.md R11's reset column (95_test_vectors.md V-F-1). (That
nothing is listed in the spaces is the model's way to leave their contents unspecified, log 5; that the
host reads `OUT_LEN` and `HDR` at `IDLE`, where R20 and R223 define no read, is the model's, log 21.) -/
def Obligations.ResetLeavesTheSpecifiedRegisters : Prop :=
  ∀ r : State, (r = State.reset ∨ ∃ s : State, r = s.hostReset) →
    r.phase = .idle ∧ r.status = .idle ∧ r.err = .none ∧ r.mode = 0#4 ∧ r.inLen = 0#32 ∧
    r.pc = 0#32 ∧ (∀ i, r.x.read i = 0) ∧ r.hostRead .ctrl = .value 0#32 ∧
    r.hostRead .outLen = .value 0#32 ∧ r.hostRead .hdr = .value 0#32 ∧
    r.inMem.cells = [] ∧ r.outMem.cells = [] ∧ r.treeMem.cells = []

/-- 10_state.md R15: `STATUS` is a function of `PHASE`: `BUSY` for phases 1 to 12. -/
def Obligations.StatusIsAFunctionOfPhase : Prop :=
  ∀ s : State,
    (s.status = .idle ↔ s.phase.code.toNat = 0) ∧
    (s.status = .busy ↔ 1 ≤ s.phase.code.toNat ∧ s.phase.code.toNat ≤ 12) ∧
    (s.status = .done ↔ s.phase.code.toNat = 13) ∧
    (s.status = .fault ↔ s.phase.code.toNat = 14)

/-! ## The header -/

/-- 40_header_dispatch.md R92, R94 to R98: a header that passes every check is latched, `pc` is 4, and the
phase is the codec's, or `P_DONE` at once when the declared size is reached; HDR.HUF goes on to the
tree even then. The parameter nibble of HDR.LZ77, HDR.HUF and HDR.RLE may be anything. -/
def Obligations.HeaderTokensComplete : Prop :=
  ∀ (s : State) (p : BitVec 4) (n : BitVec 24), 4 ≤ s.inLen.toNat →
    n.toNat ≤ s.params.outCap.toNat →
    let latched (t : State) (ty pa : BitVec 4) (ph : Phase) : Prop :=
      Quiet s t ∧ SameOut s t ∧ SameTree s t ∧ t.pc.toNat = 4 ∧
      t.x = { s.x with type := ty, param := pa, size := n } ∧ t.phase = ph
    let orDone (ph : Phase) : Phase := if s.x.outLen.toNat = n.toNat then .done else ph
    (s.mode = 0#4 ∨ s.mode = 1#4 →
      ∃ t, exec (.hdrLz77 p n) s = .next t ∧ latched t 1#4 p (orDone .lzMask)) ∧
    (s.mode = 0#4 ∨ s.mode = 2#4 →
      ∃ t, exec (.hdrHuf p n) s = .next t ∧ latched t 2#4 p .hufTSize) ∧
    (s.mode = 0#4 ∨ s.mode = 3#4 →
      ∃ t, exec (.hdrRle p n) s = .next t ∧ latched t 3#4 p (orDone .rle)) ∧
    (s.mode = 0#4 ∨ s.mode = 8#4 →
      ∃ t, exec (.hdrDiff8 n) s = .next t ∧ latched t 8#4 1#4 (orDone .diff)) ∧
    (s.mode = 0#4 ∨ s.mode = 8#4 → n.toNat % 2 = 0 →
      ∃ t, exec (.hdrDiff16 n) s = .next t ∧ latched t 8#4 2#4 (orDone .diff))

/-- 40_header_dispatch.md R101, R93, R98: the header checks, first failure wins. In `P_HDR`: fewer than 4
bytes, an unknown type or a type other than an explicit `MODE`, a DiffFilter parameter other than 1 and
2, and an odd 16-bit size raise InvalidFormat, whatever the size; only a header that passes all of
these can raise OutOfBounds, and does when its size passes `OUT_CAP`. -/
def Obligations.HeaderChecksInOrder : Prop :=
  ∀ s : State, s.phase = .hdr →
    let t := (s.inAt 0).toNat / 16
    let p := (s.inAt 0).toNat % 16
    let n := (s.inAt 1).toNat + 256 * (s.inAt 2).toNat + 65536 * (s.inAt 3).toNat
    let badFormat : Prop := s.inLen.toNat < 4 ∨ (t ≠ 1 ∧ t ≠ 2 ∧ t ≠ 3 ∧ t ≠ 8) ∨
      (s.mode.toNat ≠ 0 ∧ s.mode.toNat ≠ t) ∨ (t = 8 ∧ p ≠ 1 ∧ p ≠ 2) ∨
      (t = 8 ∧ p = 2 ∧ n % 2 = 1)
    (badFormat → step s = .next (s.raise .invalidFormat)) ∧
    (¬ badFormat → s.params.outCap.toNat < n → step s = .next (s.raise .outOfBounds)) ∧
    (¬ badFormat → n ≤ s.params.outCap.toNat →
      ∃ u, step s = .next u ∧ u.phase ≠ .fault ∧ u.x.type.toNat = t ∧ u.x.param.toNat = p ∧
        u.x.size.toNat = n ∧ u.pc.toNat = 4)

/-- 40_header_dispatch.md R99: an illegal header raises InvalidFormat in every state: type nibble 0, 4,
5, 6, 7 or 9 to 15, or first byte 0x80 or 0x83 to 0x8F; and these are the first bytes that decode to
HDR.ILLEGAL. -/
def Obligations.IllegalHeadersRaiseInvalidFormat : Prop :=
  (∀ (b : Byte) (n : BitVec 24) (s : State),
    exec (.hdrIllegal b n) s = .next (s.raise .invalidFormat)) ∧
  (∀ b0 b1 b2 b3 : Byte,
    ((∃ b n, decode .hdr [b0, b1, b2, b3] = .token (.hdrIllegal b n) []) ↔
      (b0.toNat / 16 ≠ 1 ∧ b0.toNat / 16 ≠ 2 ∧ b0.toNat / 16 ≠ 3 ∧ b0.toNat / 16 ≠ 8) ∨
      b0.toNat = 0x80 ∨ (0x83 ≤ b0.toNat ∧ b0.toNat ≤ 0x8F)))

/-! ## RLE -/

/-- 41_rle.md R111: RLE.LIT, control bytes 0x00 to 0x7F, copies `k = c[6:0] + 1` payload bytes, or raises:
Truncated without a control byte, OutOfBounds when the run passes `SIZE`, then Truncated when the
payload is cut short. -/
def Obligations.RleLiteralRun : Prop :=
  (∀ b : Byte, b.toNat ≤ 0x7F → decode .rle [b] = .token (.rleLit (b.setWidth 7)) []) ∧
  ∀ (c : BitVec 7) (s : State),
    let k := c.toNat + 1
    (s.pc.toNat + 1 + k ≤ s.inLen.toNat → s.x.outLen.toNat + k ≤ s.x.size.toNat →
      s.x.size.toNat ≤ s.params.outCap.toNat →
      ∃ t, exec (.rleLit c) s = .next t ∧
        Produced s t (1 + k) (s.inBytes (s.pc.toNat + 1) k)
          { s.x with runLen := BitVec.ofNat 15 k } ∧
        t.phase = phaseAfter t .rle) ∧
    (s.inLen.toNat < s.pc.toNat + 1 → exec (.rleLit c) s = .next (s.raise .truncated)) ∧
    (s.pc.toNat + 1 ≤ s.inLen.toNat → s.x.size.toNat < s.x.outLen.toNat + k →
      exec (.rleLit c) s = .next (s.raise .outOfBounds)) ∧
    (s.inLen.toNat < s.pc.toNat + 1 + k → s.x.outLen.toNat + k ≤ s.x.size.toNat →
      exec (.rleLit c) s = .next (s.raise .truncated))

/-- 41_rle.md R112: RLE.REP, control bytes 0x80 to 0xFF, emits `k = c[6:0] + 3` copies of the payload
byte, or raises in the order of R111. -/
def Obligations.RleRepeatRun : Prop :=
  (∀ b : Byte, 0x80 ≤ b.toNat → decode .rle [b] = .token (.rleRep (b.setWidth 7)) []) ∧
  ∀ (c : BitVec 7) (s : State),
    let k := c.toNat + 3
    let v := s.inAt (s.pc.toNat + 1)
    (s.pc.toNat + 2 ≤ s.inLen.toNat → s.x.outLen.toNat + k ≤ s.x.size.toNat →
      s.x.size.toNat ≤ s.params.outCap.toNat →
      ∃ t, exec (.rleRep c) s = .next t ∧
        Produced s t 2 (List.replicate k v) { s.x with runLen := BitVec.ofNat 15 k, runVal := v } ∧
        t.phase = phaseAfter t .rle) ∧
    (s.inLen.toNat < s.pc.toNat + 1 → exec (.rleRep c) s = .next (s.raise .truncated)) ∧
    (s.pc.toNat + 1 ≤ s.inLen.toNat → s.x.size.toNat < s.x.outLen.toNat + k →
      exec (.rleRep c) s = .next (s.raise .outOfBounds)) ∧
    (s.inLen.toNat < s.pc.toNat + 2 → s.x.outLen.toNat + k ≤ s.x.size.toNat →
      exec (.rleRep c) s = .next (s.raise .truncated))

/-! ## The delta filter -/

/-- 42_diff.md R121: D8.W: the first word is copied, every later one added modulo 256 to the last output
word; that byte is emitted. Any byte is a word. -/
def Obligations.Delta8Word : Prop :=
  (∀ b : Byte, decode .diff8 [b] = .token (.d8W b) []) ∧
  ∀ (w : Byte) (s : State),
    (s.pc.toNat + 1 ≤ s.inLen.toNat → s.x.outLen.toNat + 1 ≤ s.params.outCap.toNat →
      let acc := if s.x.outLen.toNat = 0 then w.toNat else (s.x.acc.toNat + w.toNat) % 256
      ∃ t, exec (.d8W w) s = .next t ∧
        Produced s t 1 [BitVec.ofNat 8 acc] { s.x with acc := BitVec.ofNat 16 acc } ∧
        t.phase = phaseAfter t .diff) ∧
    (s.inLen.toNat < s.pc.toNat + 1 → exec (.d8W w) s = .next (s.raise .truncated))

/-- 42_diff.md R122: D16.W: as R121 modulo 65536 over the 16-bit word; the sum is emitted low byte
first, and the carry into the high byte is kept. -/
def Obligations.Delta16Word : Prop :=
  (∀ b0 b1 : Byte, ∃ w, decode .diff16 [b0, b1] = .token (.d16W w) [] ∧
    w.toNat = b0.toNat + 256 * b1.toNat) ∧
  ∀ (w : BitVec 16) (s : State),
    (s.pc.toNat + 2 ≤ s.inLen.toNat → s.x.outLen.toNat + 2 ≤ s.params.outCap.toNat →
      let acc := if s.x.outLen.toNat = 0 then w.toNat else (s.x.acc.toNat + w.toNat) % 65536
      ∃ t, exec (.d16W w) s = .next t ∧
        Produced s t 2 [BitVec.ofNat 8 acc, BitVec.ofNat 8 (acc / 256)]
          { s.x with acc := BitVec.ofNat 16 acc } ∧
        t.phase = phaseAfter t .diff) ∧
    (s.inLen.toNat < s.pc.toNat + 2 → exec (.d16W w) s = .next (s.raise .truncated))

/-! ## LZ77 -/

/-- 43_lz77.md R131: LZ.MASK sets `MASK` to the byte, `SLOT` to 0 and enters `P_LZ_BLOCK`, or raises
Truncated. -/
def Obligations.LzMaskByte : Prop :=
  (∀ b : Byte, decode .lzMask [b] = .token (.lzMask b) []) ∧
  ∀ (m : Byte) (s : State),
    (s.pc.toNat + 1 ≤ s.inLen.toNat →
      ∃ t, exec (.lzMask m) s = .next t ∧
        Silent s t 1 { s.x with mask := m, slot := 0#4 } .lzBlock) ∧
    (s.inLen.toNat < s.pc.toNat + 1 → exec (.lzMask m) s = .next (s.raise .truncated))

/-- 43_lz77.md R132, R136: LZ.LIT emits its byte and moves to the next block; the completion test comes
first, then the end of the chunk. -/
def Obligations.LzLiteralBlock : Prop :=
  (∀ b : Byte, decode .lzLit [b] = .token (.lzLit b) []) ∧
  ∀ (v : Byte) (s : State), s.x.slot.toNat < 8 →
    (s.pc.toNat + 1 ≤ s.inLen.toNat → s.x.outLen.toNat + 1 ≤ s.params.outCap.toNat →
      ∃ t, exec (.lzLit v) s = .next t ∧
        Produced s t 1 [v] { s.x with slot := BitVec.ofNat 4 (s.x.slot.toNat + 1) } ∧
        t.phase = phaseAfter t (if t.x.slot.toNat = 8 then .lzMask else .lzBlock)) ∧
    (s.inLen.toNat < s.pc.toNat + 1 → exec (.lzLit v) s = .next (s.raise .truncated))

/-- 43_lz77.md R133, R134, R135, R136: LZ.REF appends `len = len3 + 3` bytes, byte `i` of them
`OUT[L - off + (i mod off)]` with `L` the output length before the token and `off = disp + 1`, even
where the copy overlaps itself; or raises Truncated, then OutOfBounds when the length overshoots `SIZE`
or the offset exceeds `L`. `len3` is the high nibble of the first byte, `disp` the low nibble and the
second byte. With `OUT_COMMIT16` and offset 1 (70_reset_and_hazards.md R228) the token completes too and
all of this but the copied bytes holds: the model's choice, where R228 lets a model refuse (log 15). -/
def Obligations.LzBackreference : Prop :=
  (∀ b0 b1 : Byte, ∃ l d, decode .lzRef [b0, b1] = .token (.lzRef l d) [] ∧
    l.toNat = b0.toNat / 16 ∧ d.toNat = b0.toNat % 16 * 256 + b1.toNat) ∧
  ∀ (len3 : BitVec 4) (disp : BitVec 12) (s : State), s.x.slot.toNat < 8 →
    let len := len3.toNat + 3
    let off := disp.toNat + 1
    let l := s.x.outLen.toNat
    (s.pc.toNat + 2 ≤ s.inLen.toNat → l + len ≤ s.x.size.toNat → off ≤ l →
      s.x.size.toNat ≤ s.params.outCap.toNat →
      ∃ (t : State) (vs : List Byte), exec (.lzRef len3 disp) s = .next t ∧ vs.length = len ∧
        Produced s t 2 vs
          { s.x with brLen := BitVec.ofNat 5 len, brOff := BitVec.ofNat 13 off,
                     slot := BitVec.ofNat 4 (s.x.slot.toNat + 1) } ∧
        t.phase = phaseAfter t (if t.x.slot.toNat = 8 then .lzMask else .lzBlock) ∧
        ((s.params.outCommit16 = false ∨ off ≠ 1) →
          ∀ i, i < len → vs[i]? = some (s.outAt (l - off + i % off)))) ∧
    (s.inLen.toNat < s.pc.toNat + 2 → exec (.lzRef len3 disp) s = .next (s.raise .truncated)) ∧
    (s.pc.toNat + 2 ≤ s.inLen.toNat → (s.x.size.toNat < l + len ∨ l < off) →
      exec (.lzRef len3 disp) s = .next (s.raise .outOfBounds))

/-! ## Huffman -/

/-- 44_huffman.md R146: HUF.TSIZE latches `n` and enters `P_HUF_TABLE`, or raises Truncated. -/
def Obligations.HufTreeSizeByte : Prop :=
  (∀ b : Byte, decode .hufTSize [b] = .token (.hufTSize b) []) ∧
  ∀ (n : Byte) (s : State),
    (s.pc.toNat + 1 ≤ s.inLen.toNat →
      ∃ t, exec (.hufTSize n) s = .next t ∧ Silent s t 1 { s.x with treeN := n } .hufTable) ∧
    (s.inLen.toNat < s.pc.toNat + 1 → exec (.hufTSize n) s = .next (s.raise .truncated))

/-- 44_huffman.md R147: HUF.TABLE copies the `T = 2n + 1` table bytes to `TREE[0 .. T-1]`, changes no other
byte of `TREE` and none of `OUT`, and enters `P_HUF_CHECK`, or raises Truncated. -/
def Obligations.HufTableLoad : Prop :=
  ∀ s : State,
    let T := 2 * s.x.treeN.toNat + 1
    (s.pc.toNat + T ≤ s.inLen.toNat →
      ∃ t, exec .hufTable s = .next t ∧ Quiet s t ∧ SameOut s t ∧ t.x = s.x ∧
        t.pc.toNat = s.pc.toNat + T ∧ t.phase = .hufCheck ∧
        (∀ o, o < T → t.treeAt o = s.inAt (s.pc.toNat + o)) ∧
        (∀ o, T ≤ o → t.treeAt o = s.treeAt o)) ∧
    (s.inLen.toNat < s.pc.toNat + T → exec .hufTable s = .next (s.raise .truncated))

/-- 44_huffman.md R150: HUF.CHECK completes exactly when every branch reached from the root through
branch links has both children inside the table; it then sets `NODE` and `BITCNT` to 0, consumes no
input, and enters `P_HUF_BITS`, or `P_DONE` when no output is owed. Otherwise it raises OutOfBounds. -/
def Obligations.HufCheckVisitsEveryReachableBranch : Prop :=
  ∀ s : State,
    let T := 2 * s.x.treeN.toNat + 1
    let good : Prop := ∀ o, BranchReach s.treeAt o →
      child0 o (branchBase (s.treeAt o)) < T ∧ child0 o (branchBase (s.treeAt o)) + 1 < T
    (good → ∃ t, exec .hufCheck s = .next t ∧
      Silent s t 0 { s.x with node := 0#10, bitCnt := 0#6 } (phaseAfter t .hufBits)) ∧
    (¬ good → exec .hufCheck s = .next (s.raise .outOfBounds))

/-- 44_huffman.md R148, R155: the child offsets: `child0` is `o + 1 + 2 * base` for even `o`,
`o + 2 + 2 * base` for odd `o`, always odd and greater than `o`, and at most 637 inside the largest
table; the two nodes of a pair share their children when their bases agree. -/
def Obligations.HufChildOffsets : Prop :=
  ∀ (o : Nat) (base : BitVec 6),
    (o % 2 = 0 → child0 o base = o + 1 + 2 * base.toNat) ∧
    (o % 2 = 1 → child0 o base = o + 2 + 2 * base.toNat) ∧
    child0 o base % 2 = 1 ∧ o + 1 ≤ child0 o base ∧
    (o < Config.treeBytes → child0 o base ≤ 637) ∧
    (∀ k, o = 2 * k + 1 → child0 (o + 1) base = child0 o base) ∧
    childOf o base false = child0 o base ∧ childOf o base true = child0 o base + 1

/-- 44_huffman.md R152, R153, R151: HUF.BIT0 and HUF.BIT1: the window is refilled first, exactly when it
is empty (Truncated when the word is cut short); then the bit selects a child of the branch the walk
stands on, and a leaf is emitted in the same step. The walk position survives a refill. (R152 takes the
bit from the window. A token run where the next bit is the other one, or with the window empty, takes
the branch its name says: the model's reading, log 11.) -/
def Obligations.HufBitTokens : Prop :=
  ∀ (bit : Bool) (s : State),
    let i : Instr := if bit then .hufBit1 else .hufBit0
    let b := s.treeAt s.x.node.toNat
    let c := ((s.x.node.toNat + 3) / 2 * 2 - 1 + 2 * (b.extractLsb' 0 6).toNat) + bit.toNat
    let leaf := if bit then b.getLsbD 6 else b.getLsbD 7
    let empty : Prop := s.x.bitCnt = 0#6
    (s.x.node.toNat < 2 * s.x.treeN.toNat + 1 → c < 2 * s.x.treeN.toNat + 1 →
      s.x.outLen.toNat + 1 ≤ s.params.outCap.toNat →
      (empty → s.pc.toNat + 4 ≤ s.inLen.toNat →
        ∃ t, exec i s = .next t ∧
          BitStep s t (le32 (s.inAt s.pc.toNat) (s.inAt (s.pc.toNat + 1))
            (s.inAt (s.pc.toNat + 2)) (s.inAt (s.pc.toNat + 3))) 32 4 leaf c) ∧
      (¬ empty → ∃ t, exec i s = .next t ∧
          BitStep s t s.x.bitWin s.x.bitCnt.toNat 0 leaf c)) ∧
    (empty → s.inLen.toNat < s.pc.toNat + 4 → exec i s = .next (s.raise .truncated))

/-- 44_huffman.md R151, R152: HUF.WORD: the word fills the window and its bit 31 is taken in the same
step (the model runs the rest of the bit step as part of this token, log 11), or Truncated. -/
def Obligations.HufWordRefillsAndTakesItsFirstBit : Prop :=
  ∀ (w : BitVec 32) (s : State),
    let bit := w.getLsbD 31
    let b := s.treeAt s.x.node.toNat
    let c := childOf s.x.node.toNat (branchBase b) bit
    (s.x.node.toNat < 2 * s.x.treeN.toNat + 1 → c < 2 * s.x.treeN.toNat + 1 →
      s.x.outLen.toNat + 1 ≤ s.params.outCap.toNat → s.pc.toNat + 4 ≤ s.inLen.toNat →
      ∃ t, exec (.hufWord w) s = .next t ∧ BitStep s t w 32 4 (branchLeaf b bit) c) ∧
    (s.inLen.toNat < s.pc.toNat + 4 → exec (.hufWord w) s = .next (s.raise .truncated))

/-- 44_huffman.md R148, R149, R152 (log 12): HUF.BR takes the next bit of the stream, after the refill
of R151 when the window is empty, as a bit step at that branch; HUF.LEAF emits its value and returns
the walk to the root. -/
def Obligations.HufTreeBytesAct : Prop :=
  (∀ (l0 l1 : Bool) (base : BitVec 6) (s : State),
    let word := le32 (s.inAt s.pc.toNat) (s.inAt (s.pc.toNat + 1)) (s.inAt (s.pc.toNat + 2))
      (s.inAt (s.pc.toNat + 3))
    let empty : Prop := s.x.bitCnt = 0#6
    s.x.node.toNat < 2 * s.x.treeN.toNat + 1 → s.x.outLen.toNat + 1 ≤ s.params.outCap.toNat →
    (¬ empty →
      let bit := s.x.bitWin.getLsbD 31
      let c := childOf s.x.node.toNat base bit
      c < 2 * s.x.treeN.toNat + 1 →
      ∃ t, exec (.hufBr l0 l1 base) s = .next t ∧
        BitStep s t s.x.bitWin s.x.bitCnt.toNat 0 (if bit then l1 else l0) c) ∧
    (empty → s.pc.toNat + 4 ≤ s.inLen.toNat →
      let bit := word.getLsbD 31
      let c := childOf s.x.node.toNat base bit
      c < 2 * s.x.treeN.toNat + 1 →
      ∃ t, exec (.hufBr l0 l1 base) s = .next t ∧
        BitStep s t word 32 4 (if bit then l1 else l0) c) ∧
    (empty → s.inLen.toNat < s.pc.toNat + 4 →
      exec (.hufBr l0 l1 base) s = .next (s.raise .truncated))) ∧
  (∀ (v : Byte) (s : State), s.x.outLen.toNat + 1 ≤ s.params.outCap.toNat →
    ∃ t, exec (.hufLeaf v) s = .next t ∧ Produced s t 0 [v] { s.x with node := 0#10 } ∧
      t.phase = phaseAfter t .hufBits)

/-- 44_huffman.md R148, R152: a bit token with bits left in the window is the HUF.BR that the table byte
at `NODE` decodes to. -/
def Obligations.BitStepsAreTheBranchTokenAtNode : Prop :=
  ∀ (s : State) (i : Instr) (rest : List Byte), s.x.bitCnt ≠ 0#6 →
    decode .treeBranch [s.treeAt s.x.node.toNat] = .token i rest →
    exec i s = exec (if s.x.bitWin.getLsbD 31 then .hufBit1 else .hufBit0) s

/-- 44_huffman.md R156: walking the table equals deserialising it: deserialising fails exactly when the
check does, and following any bits from the root of the deserialised tree reaches the same leaf with
the same bits left as walking the table. -/
def Obligations.TableWalkEqualsDeserialisedTree : Prop :=
  ∀ (tab : Nat → Byte) (n : Byte),
    let T := tableLen n
    (deserialise tab T T 0 = none ↔ treeCheck tab T T 0 = false) ∧
    ∀ tree, deserialise tab T T 0 = some tree →
      ∀ bits, tree.follow bits = walkTable tab 0 bits

/-! ## WL4 -/

/-- 45_wl4.md R166, R167, R168: the WL4 type byte: 1 and 2 set `WL4_T`, `pc` to 1 and the phase; every other
byte and an empty input raise InvalidFormat. -/
def Obligations.Wl4TypeBytes : Prop :=
  ∀ s : State,
    (1 ≤ s.inLen.toNat →
      (∃ t, exec .wl4T8 s = .next t ∧ Quiet s t ∧ SameOut s t ∧ SameTree s t ∧
        t.pc.toNat = 1 ∧ t.x = { s.x with wl4T := 1#2 } ∧ t.phase = .w8) ∧
      (∃ t, exec .wl4T16 s = .next t ∧ Quiet s t ∧ SameOut s t ∧ SameTree s t ∧
        t.pc.toNat = 1 ∧ t.x = { s.x with wl4T := 2#2 } ∧ t.phase = .w16)) ∧
    (∀ b, exec (.wl4TIllegal b) s = .next (s.raise .invalidFormat)) ∧
    (s.phase = .wl4Type →
      (s.inLen.toNat = 0 → step s = .next (s.raise .invalidFormat)) ∧
      (1 ≤ s.inLen.toNat →
        step s = if s.inAt 0 = 1#8 then exec .wl4T8 s else if s.inAt 0 = 2#8 then exec .wl4T16 s
          else .next (s.raise .invalidFormat)))

/-- 45_wl4.md R169, R174, R172, R177: the terminators complete the call with the output produced so
far, and the reserved controls 0x80 and 0x8000 raise InvalidFormat; a control field that is cut short
raises Truncated. -/
def Obligations.Wl4TerminatorsAndReservedControls : Prop :=
  (decode .w8 [0x00#8] = .token .w8End [] ∧ decode .w8 [0x80#8] = .token .w8Rsv [] ∧
    (∀ be, decode (.w16 be) [0x00#8, 0x00#8] = .token .w16End []) ∧
    decode (.w16 true) [0x80#8, 0x00#8] = .token .w16Rsv [] ∧
    decode (.w16 false) [0x00#8, 0x80#8] = .token .w16Rsv []) ∧
  ∀ s : State,
    (s.pc.toNat + 1 ≤ s.inLen.toNat →
      (∃ t, exec .w8End s = .next t ∧ Silent s t 1 s.x .done) ∧
      exec .w8Rsv s = .next (s.raise .invalidFormat)) ∧
    (s.pc.toNat + 2 ≤ s.inLen.toNat →
      (∃ t, exec .w16End s = .next t ∧ Silent s t 2 s.x .done) ∧
      exec .w16Rsv s = .next (s.raise .invalidFormat)) ∧
    (s.inLen.toNat < s.pc.toNat + 1 →
      exec .w8End s = .next (s.raise .truncated) ∧ exec .w8Rsv s = .next (s.raise .truncated)) ∧
    (s.inLen.toNat < s.pc.toNat + 2 →
      exec .w16End s = .next (s.raise .truncated) ∧ exec .w16Rsv s = .next (s.raise .truncated))

/-- 45_wl4.md R170, R175: a WL4 literal run copies `k` bytes, with no bias, or raises OutOfBounds when the
output would pass `OUT_CAP`, then Truncated when the payload is cut short. -/
def Obligations.Wl4LiteralRuns : Prop :=
  (∀ b : Byte, 1 ≤ b.toNat → b.toNat ≤ 0x7F →
    decode .w8 [b] = .token (.w8Lit (b.setWidth 7)) []) ∧
  (∀ hi lo : Byte, 1 ≤ 256 * hi.toNat + lo.toNat → 256 * hi.toNat + lo.toNat ≤ 0x7FFF →
    decode (.w16 true) [hi, lo] = .token (.w16Lit ((hi ++ lo).setWidth 15)) [] ∧
    decode (.w16 false) [lo, hi] = .token (.w16Lit ((hi ++ lo).setWidth 15)) []) ∧
  (∀ (len : BitVec 7) (s : State),
    let k := len.toNat
    (s.pc.toNat + 1 + k ≤ s.inLen.toNat → s.x.outLen.toNat + k ≤ s.params.outCap.toNat →
      ∃ t, exec (.w8Lit len) s = .next t ∧ t.phase = .w8 ∧
        Produced s t (1 + k) (s.inBytes (s.pc.toNat + 1) k)
          { s.x with runLen := BitVec.ofNat 15 k }) ∧
    (s.pc.toNat + 1 ≤ s.inLen.toNat → s.params.outCap.toNat < s.x.outLen.toNat + k →
      exec (.w8Lit len) s = .next (s.raise .outOfBounds)) ∧
    (s.inLen.toNat < s.pc.toNat + 1 + k → s.x.outLen.toNat + k ≤ s.params.outCap.toNat →
      exec (.w8Lit len) s = .next (s.raise .truncated))) ∧
  (∀ (len : BitVec 15) (s : State),
    let k := len.toNat
    (s.pc.toNat + 2 + k ≤ s.inLen.toNat → s.x.outLen.toNat + k ≤ s.params.outCap.toNat →
      ∃ t, exec (.w16Lit len) s = .next t ∧ t.phase = .w16 ∧
        Produced s t (2 + k) (s.inBytes (s.pc.toNat + 2) k)
          { s.x with runLen := BitVec.ofNat 15 k }) ∧
    (s.pc.toNat + 2 ≤ s.inLen.toNat → s.params.outCap.toNat < s.x.outLen.toNat + k →
      exec (.w16Lit len) s = .next (s.raise .outOfBounds)) ∧
    (s.inLen.toNat < s.pc.toNat + 2 + k → s.x.outLen.toNat + k ≤ s.params.outCap.toNat →
      exec (.w16Lit len) s = .next (s.raise .truncated)))

/-- 45_wl4.md R171, R176: a WL4 repeat run emits `k` copies of one byte, `k` from 1, or raises in the
order of R170. -/
def Obligations.Wl4RepeatRuns : Prop :=
  (∀ b : Byte, 0x81 ≤ b.toNat → decode .w8 [b] = .token (.w8Rep (b.setWidth 7)) []) ∧
  (∀ hi lo : Byte, 0x8001 ≤ 256 * hi.toNat + lo.toNat →
    decode (.w16 true) [hi, lo] = .token (.w16Rep ((hi ++ lo).setWidth 15)) [] ∧
    decode (.w16 false) [lo, hi] = .token (.w16Rep ((hi ++ lo).setWidth 15)) []) ∧
  (∀ (len : BitVec 7) (s : State),
    let k := len.toNat
    let v := s.inAt (s.pc.toNat + 1)
    (s.pc.toNat + 2 ≤ s.inLen.toNat → s.x.outLen.toNat + k ≤ s.params.outCap.toNat →
      ∃ t, exec (.w8Rep len) s = .next t ∧ t.phase = .w8 ∧
        Produced s t 2 (List.replicate k v)
          { s.x with runLen := BitVec.ofNat 15 k, runVal := v }) ∧
    (s.pc.toNat + 1 ≤ s.inLen.toNat → s.params.outCap.toNat < s.x.outLen.toNat + k →
      exec (.w8Rep len) s = .next (s.raise .outOfBounds)) ∧
    (s.inLen.toNat < s.pc.toNat + 2 → s.x.outLen.toNat + k ≤ s.params.outCap.toNat →
      exec (.w8Rep len) s = .next (s.raise .truncated))) ∧
  (∀ (len : BitVec 15) (s : State),
    let k := len.toNat
    let v := s.inAt (s.pc.toNat + 2)
    (s.pc.toNat + 3 ≤ s.inLen.toNat → s.x.outLen.toNat + k ≤ s.params.outCap.toNat →
      ∃ t, exec (.w16Rep len) s = .next t ∧ t.phase = .w16 ∧
        Produced s t 3 (List.replicate k v)
          { s.x with runLen := BitVec.ofNat 15 k, runVal := v }) ∧
    (s.pc.toNat + 2 ≤ s.inLen.toNat → s.params.outCap.toNat < s.x.outLen.toNat + k →
      exec (.w16Rep len) s = .next (s.raise .outOfBounds)) ∧
    (s.inLen.toNat < s.pc.toNat + 3 → s.x.outLen.toNat + k ≤ s.params.outCap.toNat →
      exec (.w16Rep len) s = .next (s.raise .truncated)))

/-! ## Invariants -/

/-- The invariant of Safety.lean (10_state.md R27) holds after reset. -/
def Obligations.ResetMeetsTheInvariant : Prop := Inv State.reset

/-- 10_state.md R27: every step keeps the invariant: canonical spaces with nothing outside their size;
`ERR != 0` exactly in `P_FAULT`; `pc <= IN_LEN`; `OUT_LEN <= SIZE <= OUT_CAP` in the headered formats;
`SLOT <= 8`, `BITCNT <= 32`; in `P_HUF_BITS` the walk stands on a branch inside a checked table; every
output byte written; and at `P_DONE` of a headered call exactly the declared size (00_scope.md R2). -/
def Obligations.StepKeepsTheInvariant : Prop :=
  ∀ s t : State, Inv s → step s = .next t → Inv t

/-- 70_reset_and_hazards.md R227, 60_exceptions.md R216: under the invariant every step answers a next
state: no access falls outside its space and no token is without a meaning. -/
def Obligations.StepNeverStops : Prop := ∀ s : State, Inv s → ∃ t, step s = .next t

/-- 70_reset_and_hazards.md R222 to R224: what the host may do keeps the invariant: writing a register,
writing `IN` outside `BUSY`, `CTRL.START`, and reset in any state. -/
def Obligations.HostActsKeepTheInvariant : Prop :=
  ∀ s : State, Inv s →
    (∀ r v, Inv (s.hostWrite r v)) ∧ Inv s.start ∧ Inv s.hostReset ∧
    (∀ a v, s.status ≠ .busy → ∃ t, s.hostWriteIn a v = .next t ∧ Inv t)

/-- 20_memory.md R40, R49, R52, 00_scope.md R3, 10_state.md R25: in any state, no token writes `IN`,
`MODE`, `IN_LEN` or a parameter; a token that does not raise never shortens the output and changes no
byte below the output length; and of the tokens that do not raise only HUF.TABLE writes `TREE`. -/
def Obligations.TokensLeaveTheSpacesAsTheRulesSay : Prop :=
  ∀ (i : Instr) (s t : State), exec i s = .next t →
    (t.inMem = s.inMem ∧ t.mode = s.mode ∧ t.inLen = s.inLen ∧ t.params = s.params) ∧
    (t.phase ≠ .fault →
      (s.x.outLen.toNat ≤ t.x.outLen.toNat ∧ ∀ a, a < s.x.outLen.toNat → t.outAt a = s.outAt a) ∧
      (i ≠ .hufTable → t.treeMem = s.treeMem))

/-- 10_state.md R13, 70_reset_and_hazards.md R231: under the invariant a step that does not raise never
moves the cursor backwards, and leaves it within `IN_LEN`. A step after which the call goes on moves it
forward, but for a bit step, which emits a byte or goes down to a branch, and HUF.CHECK (log 24). -/
def Obligations.CursorOnlyMovesForward : Prop :=
  ∀ s t : State, Inv s → s.status = .busy → step s = .next t → t.phase ≠ .fault →
    s.pc.toNat ≤ t.pc.toNat ∧ t.pc.toNat ≤ t.inLen.toNat ∧
    (t.status = .busy → s.phase ≠ .hufCheck →
      (s.phase ≠ .hufBits → s.pc.toNat < t.pc.toNat) ∧
      (s.phase = .hufBits →
        s.x.outLen.toNat < t.x.outLen.toNat ∨ s.x.node.toNat < t.x.node.toNat))

/-! ## Calls -/

/-- 00_scope.md R4, 70_reset_and_hazards.md R231: from `CTRL.START` every call reaches `DONE` or `FAULT`, for
every `MODE`, input and state it is begun from. Counting every step, the one that raises included, the headered
rows of R231's table hold as they stand. R231's WL4 row does not: a WL4 call takes at most `L + 1` steps,
and the row bounds those of them that select a token (log 24). -/
def Obligations.EveryCallEnds : Prop :=
  ∀ (s : State) (mode : BitVec 4) (input : List Byte), s.status ≠ .busy →
    input.length < 2 ^ 32 →
    (decodeCall s mode input).isSome ∧
    ∀ t, s.beginCall mode input = .next t → ∀ n,
      tokenSteps n t ≤ stepBound mode input ∧
      (mode ≠ 4#4 → callSteps n t ≤ stepBound mode input) ∧
      (mode = 4#4 → callSteps n t ≤ input.length + 1)

/-- 00_scope.md R2: a headered call that succeeds has produced exactly the declared number of bytes. -/
def Obligations.SuccessHasExactlyTheDeclaredSize : Prop :=
  ∀ (s : State) (mode : BitVec 4) (input out : List Byte), s.status ≠ .busy →
    input.length < 2 ^ 32 → mode ≠ 4#4 → decodeCall s mode input = some (.ok out) →
    ∃ t p size, headerOf input = some (t, p, size) ∧ out.length = size.toNat

/-- 00_scope.md R1 (in the normative configuration `OUT_COMMIT16 = false`): a call is a function of the
input bytes, `MODE` and the parameters: whatever two states it is begun from, the result is the same. -/
def Obligations.ResultDependsOnTheInputOnly : Prop :=
  ∀ (s t : State) (mode : BitVec 4) (input : List Byte), s.status ≠ .busy → t.status ≠ .busy →
    s.params = t.params → s.params.outCommit16 = false → input.length < 2 ^ 32 →
    decodeCall s mode input = decodeCall t mode input

/-- 20_memory.md R41 (in the normative configuration): bytes at and after the position where a call
completes are not read and do not affect it: two inputs that agree below the `IN_POS` at which the first
call completes give the same output and the same `IN_POS`. In particular a stream may be followed by any
bytes. -/
def Obligations.TrailingInputIsIgnored : Prop :=
  ∀ (s : State) (mode : BitVec 4) (input : List Byte), s.status ≠ .busy →
    s.params.outCommit16 = false → input.length < 2 ^ 32 →
    (∀ (other : List Byte) (t : State), other.length < 2 ^ 32 →
      runDecode s mode input = .next t → t.status = .done →
      (∀ i, i < t.pc.toNat → other[i]? = input[i]?) →
      ∃ u, runDecode s mode other = .next u ∧ u.status = .done ∧ u.pc = t.pc ∧
        u.output = t.output) ∧
    (∀ junk out : List Byte, (input ++ junk).length < 2 ^ 32 →
      decodeCall s mode input = some (.ok out) →
      decodeCall s mode (input ++ junk) = some (.ok out))

/-- 41_rle.md R114: an RLE call computes `rle_decompress`, when the declared size fits `OUT_CAP` (D18). -/
def Obligations.RleCallComputesItsFunction : Prop :=
  ∀ (s : State) (input : List Byte), s.status ≠ .busy → input.length < 2 ^ 32 →
    (∀ t p n, headerOf input = some (t, p, n) → n.toNat ≤ s.params.outCap.toNat) →
    decodeCall s 3#4 input = some (rleDecompress input)

/-- 42_diff.md R125, R124: a DiffFilter call computes `diff_decompress`: adding each word as it arrives
equals reading all words and then summing, with the same error. -/
def Obligations.DiffCallComputesItsFunction : Prop :=
  ∀ (s : State) (input : List Byte), s.status ≠ .busy → input.length < 2 ^ 32 →
    (∀ t p n, headerOf input = some (t, p, n) → n.toNat ≤ s.params.outCap.toNat) →
    decodeCall s 8#4 input = some (diffDecompress input)

/-- 43_lz77.md R138 (in the normative configuration): an LZ77 call computes `lz77_decompress`. -/
def Obligations.LzCallComputesItsFunction : Prop :=
  ∀ (s : State) (input : List Byte), s.status ≠ .busy → input.length < 2 ^ 32 →
    s.params.outCommit16 = false →
    (∀ t p n, headerOf input = some (t, p, n) → n.toNat ≤ s.params.outCap.toNat) →
    decodeCall s 1#4 input = some (lz77Decompress input)

/-- 44_huffman.md R157: a Huffman call computes `huffman_decompress`. -/
def Obligations.HuffmanCallComputesItsFunction : Prop :=
  ∀ (s : State) (input : List Byte), s.status ≠ .busy → input.length < 2 ^ 32 →
    (∀ t p n, headerOf input = some (t, p, n) → n.toNat ≤ s.params.outCap.toNat) →
    decodeCall s 2#4 input = some (huffmanDecompress input)

/-- 45_wl4.md R179: a WL4 call computes `wl4_decompress`, for both values of `WL4_CTRL16_BE` and every
`OUT_CAP`. -/
def Obligations.Wl4CallComputesItsFunction : Prop :=
  ∀ (s : State) (input : List Byte), s.status ≠ .busy → input.length < 2 ^ 32 →
    decodeCall s 4#4 input =
      some (wl4Decompress s.params.wl4Ctrl16BE s.params.outCap.toNat input)

/-- 40_header_dispatch.md R102, R93: `AUTO` gives what the codec of the header's type gives, and
InvalidFormat where the header is missing or its type unknown. -/
def Obligations.AutoModeDispatchesOnTheType : Prop :=
  ∀ (s : State) (input : List Byte), s.status ≠ .busy → input.length < 2 ^ 32 →
    (∀ t p n, headerOf input = some (t, p, n) → (t = 1#4 ∨ t = 2#4 ∨ t = 3#4 ∨ t = 8#4) →
      decodeCall s 0#4 input = decodeCall s t input) ∧
    ((∀ t p n, headerOf input = some (t, p, n) → ¬ (t = 1#4 ∨ t = 2#4 ∨ t = 3#4 ∨ t = 8#4)) →
      decodeCall s 0#4 input = some (.error .invalidFormat))

/-! ## Round trips (48_reference_encoders.md R193) -/

/-- R193 for RLE: decompressing what the reference compressor of R183 emits gives the data back, and so
does the decode call. -/
def Obligations.RleRoundTrip : Prop :=
  ∀ d : List Byte, d.length ≤ 0xFFFFFF →
    (∃ b, rleCompress d = .ok b ∧ rleDecompress b = .ok d) ∧
    ∀ s : State, s.status ≠ .busy → d.length ≤ s.params.outCap.toNat → s.RoundTrips .rle d

/-- R193 for the delta filter of both word sizes (R184), as functions and as decode calls; an odd length
fails to compress at 16 bits. -/
def Obligations.DiffRoundTrip : Prop :=
  ∀ d : List Byte, d.length ≤ 0xFFFFFF →
    (∃ b, diffCompress8 d = .ok b ∧ diffDecompress b = .ok d) ∧
    (d.length % 2 = 0 → ∃ b, diffCompress16 d = .ok b ∧ diffDecompress b = .ok d) ∧
    (d.length % 2 = 1 → diffCompress16 d = .error .invalidFormat) ∧
    ∀ s : State, s.status ≠ .busy → d.length ≤ s.params.outCap.toNat →
      s.RoundTrips .diff8 d ∧ (d.length % 2 = 0 → s.RoundTrips .diff16 d)

/-- R193, R187 for LZ77: every legal block sequence, of any match policy, decompresses to the data, as a
function and (in the normative configuration) as a decode call; so do the blocks of the reference
compressor, at both minimum offsets. -/
def Obligations.LzRoundTripForEveryLegalPolicy : Prop :=
  (∀ (d : List Byte) (m : Nat) (bs : List Block), d.length ≤ 0xFFFFFF → 1 ≤ m →
    lzLegal d m 0 bs = true →
    ∃ b, lzStream d.length bs = .ok b ∧ lz77Decompress b = .ok d ∧
      ∀ s : State, s.status ≠ .busy → d.length ≤ s.params.outCap.toNat →
        s.params.outCommit16 = false → decodeCall s 1#4 b = some (.ok d)) ∧
  (∀ (d : List Byte) (m : Nat) (s : State), d.length ≤ 0xFFFFFF → (m = 1 ∨ m = 2) →
    s.status ≠ .busy → d.length ≤ s.params.outCap.toNat → s.params.outCommit16 = false →
    s.RoundTrips (.lz77 m) d)

/-- R194, R187: the blocks of the reference LZ77 compressor (R185) are legal, at both minimum offsets. -/
def Obligations.ReferenceLzBlocksAreLegal : Prop :=
  ∀ (d : List Byte) (m : Nat), (m = 1 ∨ m = 2) → lzLegal d m 0 (lzBlocks d m d.length 0) = true

/-- R193 for WL4: every legal stream of R190 and R191 decompresses to the data, in both sub-formats and
both byte orders, as a function and as a decode call. (No length fails to compress, log 25; a call takes
at most `OUT_CAP` bytes.) -/
def Obligations.Wl4RoundTrip : Prop :=
  (∀ (be : Bool) (cap : Nat) (d out : List Byte), d.length ≤ cap →
    (Wl4Compressed8 d out ∨ Wl4Compressed16 be d out ∨ Wl4Compressed be d out) →
    wl4Decompress be cap out = .ok d) ∧
  (∀ (s : State) (d : List Byte), s.status ≠ .busy → d.length ≤ s.params.outCap.toNat →
    s.RoundTrips .wl4In8 d ∧ s.RoundTrips .wl4In16 d ∧ s.RoundTrips .wl4 d)
end

