-- ==== Sys2Proof/Laws/Memory.lean ====
section
/-! SUPPORT. Memory: a read after a write, and the canonical form, kept by every operation. -/

namespace Sys2Proof.Machine

theorem cellsGet_cellsPut_same (cs : List Host.Cell) (a : Nat) (v : Byte) :
    cellsGet (cellsPut cs a v) a = some v := by
  induction cs with
  | nil => simp [cellsPut, cellsGet]
  | cons c rest ih =>
    obtain ⟨b, w⟩ := c
    unfold cellsPut
    split
    · simp [cellsGet]
    · split
      · simp [cellsGet]
      · have h : ¬ b = a := fun h => by omega
        simp [cellsGet, h, ih]

theorem cellsGet_cellsPut_other (cs : List Host.Cell) {a b : Nat} (v : Byte) (h : b ≠ a) :
    cellsGet (cellsPut cs a v) b = cellsGet cs b := by
  induction cs with
  | nil => simp [cellsPut, cellsGet, h.symm]
  | cons c rest ih =>
    obtain ⟨d, w⟩ := c
    unfold cellsPut
    split
    · simp [cellsGet, h.symm]
    · split
      · subst_vars
        simp [cellsGet, h.symm]
      · by_cases hd : d = b <;> simp [cellsGet, hd, ih]

theorem cellsRisingFrom_mono {lo lo' : Nat} (h : lo' ≤ lo) {cs : List Host.Cell}
    (hc : cellsRisingFrom lo cs = true) : cellsRisingFrom lo' cs = true := by
  cases cs with
  | nil => rfl
  | cons c rest =>
    simp [cellsRisingFrom] at hc ⊢
    exact ⟨by omega, hc.2⟩

theorem cellsPut_rising (cs : List Host.Cell) (a : Nat) (v : Byte) {lo : Nat} (hlo : lo ≤ a)
    (hc : cellsRisingFrom lo cs = true) : cellsRisingFrom lo (cellsPut cs a v) = true := by
  induction cs generalizing lo with
  | nil => simp [cellsPut, cellsRisingFrom, hlo]
  | cons c rest ih =>
    obtain ⟨b, w⟩ := c
    simp [cellsRisingFrom] at hc
    unfold cellsPut
    split
    · simp only [cellsRisingFrom, Bool.and_eq_true, decide_eq_true_eq]
      exact ⟨hlo, by omega, hc.2⟩
    · split
      · subst_vars
        simp [cellsRisingFrom, hlo, hc.2]
      · simp only [cellsRisingFrom, Bool.and_eq_true, decide_eq_true_eq]
        exact ⟨hc.1, ih (by omega) hc.2⟩

/-- Nothing is listed below the bound of a rising list. -/
theorem cellsGet_below {lo a : Nat} {cs : List Host.Cell} (hc : cellsRisingFrom lo cs = true)
    (h : a < lo) : cellsGet cs a = none := by
  induction cs generalizing lo with
  | nil => rfl
  | cons c rest ih =>
    obtain ⟨b, w⟩ := c
    simp [cellsRisingFrom] at hc
    have hb : ¬ b = a := by omega
    simp [cellsGet, hb, ih hc.2 (by omega)]

/-- Two canonical lists that read alike are equal: equal memories are equal data. -/
theorem cells_ext {lo : Nat} {cs ds : List Host.Cell} (hc : cellsRisingFrom lo cs = true)
    (hd : cellsRisingFrom lo ds = true) (h : ∀ a, cellsGet cs a = cellsGet ds a) : cs = ds := by
  induction cs generalizing ds lo with
  | nil =>
    cases ds with
    | nil => rfl
    | cons d rest => simpa [cellsGet] using h d.1
  | cons c rest ih =>
    obtain ⟨b, w⟩ := c
    cases ds with
    | nil => simpa [cellsGet] using h b
    | cons d rest' =>
      obtain ⟨b', w'⟩ := d
      simp [cellsRisingFrom] at hc hd
      have hbb : b = b' := by
        rcases Nat.lt_trichotomy b b' with hlt | heq | hgt
        · have := h b
          have hne : ¬ b' = b := by omega
          simp [cellsGet, hne, cellsGet_below hd.2 (by omega : b < b' + 1)] at this
        · exact heq
        · have := h b'
          have hne : ¬ b = b' := by omega
          simp [cellsGet, hne, cellsGet_below hc.2 (by omega : b' < b + 1)] at this
      subst hbb
      have hw : w = w' := by simpa [cellsGet] using h b
      subst hw
      congr 1
      refine ih hc.2 hd.2 fun a => ?_
      by_cases ha : a < b + 1
      · rw [cellsGet_below hc.2 ha, cellsGet_below hd.2 ha]
      · have hne : ¬ b = a := by omega
        simpa [cellsGet, hne] using h a

/-! ## The operations on a space -/

@[simp] theorem Memory.write_era (m : Memory) (a : Nat) (v : Byte) : (m.write a v).era = m.era := rfl

@[simp] theorem Memory.get_write_same (m : Memory) (a : Nat) (v : Byte) :
    (m.write a v).get a = some v := cellsGet_cellsPut_same m.cells a v

theorem Memory.get_write_other (m : Memory) {a b : Nat} (v : Byte) (h : b ≠ a) :
    (m.write a v).get b = m.get b := cellsGet_cellsPut_other m.cells v h

@[simp] theorem Memory.read_write_same (m : Memory) (sp : Space) (a : Nat) (v : Byte) :
    (m.write a v).read sp a = v := by simp [Memory.read]

theorem Memory.read_write_other (m : Memory) (sp : Space) {a b : Nat} (v : Byte) (h : b ≠ a) :
    (m.write a v).read sp b = m.read sp b := by
  simp [Memory.read, Memory.get_write_other m v h, Memory.unwritten]

theorem Memory.write_wf {m : Memory} (a : Nat) (v : Byte) (h : m.wf = true) :
    (m.write a v).wf = true := cellsPut_rising m.cells a v (Nat.zero_le a) h

@[simp] theorem Memory.unspecified_wf (e : Nat) : (Memory.unspecified e).wf = true := rfl

@[simp] theorem Memory.unspecified_get (e a : Nat) : (Memory.unspecified e).get a = none := rfl

@[simp] theorem Memory.writeList_era (m : Memory) (a : Nat) (vs : List Byte) :
    (m.writeList a vs).era = m.era := by
  induction vs generalizing a with
  | nil => rfl
  | cons v vs ih => simp [Memory.writeList, ih]

theorem Memory.writeList_wf {m : Memory} (a : Nat) (vs : List Byte) (h : m.wf = true) :
    (m.writeList a vs).wf = true := by
  induction vs generalizing a with
  | nil => exact h
  | cons v vs ih => exact Memory.write_wf a v (ih (a + 1))

/-- What a list write leaves at each address. -/
theorem Memory.get_writeList (m : Memory) (a : Nat) (vs : List Byte) (b : Nat) :
    (m.writeList a vs).get b =
      if a ≤ b ∧ b < a + vs.length then vs[b - a]? else m.get b := by
  induction vs generalizing a with
  | nil =>
    have h : ¬ (a ≤ b ∧ b < a + ([] : List Byte).length) := by simp
    rw [if_neg h]
    rfl
  | cons v vs ih =>
    by_cases hb : b = a
    · subst hb
      simp [Memory.writeList]
    · rw [Memory.writeList, Memory.get_write_other _ _ hb, ih]
      by_cases h : a + 1 ≤ b ∧ b < a + 1 + vs.length
      · have h' : a ≤ b ∧ b < a + (v :: vs).length := by simp; omega
        rw [if_pos h, if_pos h', show b - a = (b - (a + 1)) + 1 by omega, List.getElem?_cons_succ]
      · have h' : ¬ (a ≤ b ∧ b < a + (v :: vs).length) := by simp; omega
        rw [if_neg h, if_neg h']

theorem Memory.wf_ext {m n : Memory} (hm : m.wf = true) (hn : n.wf = true) (he : m.era = n.era)
    (h : ∀ a, m.get a = n.get a) : m = n := by
  obtain ⟨cs, e⟩ := m
  obtain ⟨ds, f⟩ := n
  have hcd : cs = ds := cells_ext hm hn h
  simp only at he
  rw [hcd, he]

/-! ## Byte lists of a space -/

@[simp] theorem inBytes_length (s : State) (a n : Nat) : (s.inBytes a n).length = n := by
  induction n generalizing a with
  | zero => rfl
  | succ n ih => simp [State.inBytes, ih]

theorem inBytes_getElem? (s : State) (a n i : Nat) (h : i < n) :
    (s.inBytes a n)[i]? = some (s.inAt (a + i)) := by
  induction n generalizing a i with
  | zero => omega
  | succ n ih =>
    cases i with
    | zero => simp [State.inBytes]
    | succ i =>
      rw [State.inBytes, List.getElem?_cons_succ, ih (a + 1) i (by omega)]
      congr 2
      omega

@[simp] theorem outBytesFrom_length (s : State) (a n : Nat) : (s.outBytesFrom a n).length = n := by
  induction n generalizing a with
  | zero => rfl
  | succ n ih => simp [State.outBytesFrom, ih]

theorem outBytesFrom_getElem? (s : State) (a n i : Nat) (h : i < n) :
    (s.outBytesFrom a n)[i]? = some (s.outAt (a + i)) := by
  induction n generalizing a i with
  | zero => omega
  | succ n ih =>
    cases i with
    | zero => simp [State.outBytesFrom]
    | succ i =>
      rw [State.outBytesFrom, List.getElem?_cons_succ, ih (a + 1) i (by omega)]
      congr 2
      omega

/-- The bytes read depend on the input only. -/
theorem inBytes_congr {s t : State} (h : t.inMem = s.inMem) (a n : Nat) :
    t.inBytes a n = s.inBytes a n := by
  induction n generalizing a with
  | zero => rfl
  | succ n ih => simp [State.inBytes, State.inAt, h, ih]

end Sys2Proof.Machine
end

