-- ==== Sys2Proof/Laws/State.lean ====
section
/-! SUPPORT. One lemma per field per update of the state, each true by rfl. -/

namespace Sys2Proof.Machine

/-! ## setX -/

@[simp] theorem setX_params (s : State) (x : Regs) : (s.setX x).params = s.params := rfl
@[simp] theorem setX_mode (s : State) (x : Regs) : (s.setX x).mode = s.mode := rfl
@[simp] theorem setX_inLen (s : State) (x : Regs) : (s.setX x).inLen = s.inLen := rfl
@[simp] theorem setX_err (s : State) (x : Regs) : (s.setX x).err = s.err := rfl
@[simp] theorem setX_phase (s : State) (x : Regs) : (s.setX x).phase = s.phase := rfl
@[simp] theorem setX_pc (s : State) (x : Regs) : (s.setX x).pc = s.pc := rfl
@[simp] theorem setX_x (s : State) (x : Regs) : (s.setX x).x = x := rfl
@[simp] theorem setX_inMem (s : State) (x : Regs) : (s.setX x).inMem = s.inMem := rfl
@[simp] theorem setX_outMem (s : State) (x : Regs) : (s.setX x).outMem = s.outMem := rfl
@[simp] theorem setX_treeMem (s : State) (x : Regs) : (s.setX x).treeMem = s.treeMem := rfl
@[simp] theorem setX_draws (s : State) (x : Regs) : (s.setX x).draws = s.draws := rfl

/-! ## setPhase -/

@[simp] theorem setPhase_params (s : State) (p : Phase) : (s.setPhase p).params = s.params := rfl
@[simp] theorem setPhase_mode (s : State) (p : Phase) : (s.setPhase p).mode = s.mode := rfl
@[simp] theorem setPhase_inLen (s : State) (p : Phase) : (s.setPhase p).inLen = s.inLen := rfl
@[simp] theorem setPhase_err (s : State) (p : Phase) : (s.setPhase p).err = s.err := rfl
@[simp] theorem setPhase_phase (s : State) (p : Phase) : (s.setPhase p).phase = p := rfl
@[simp] theorem setPhase_pc (s : State) (p : Phase) : (s.setPhase p).pc = s.pc := rfl
@[simp] theorem setPhase_x (s : State) (p : Phase) : (s.setPhase p).x = s.x := rfl
@[simp] theorem setPhase_inMem (s : State) (p : Phase) : (s.setPhase p).inMem = s.inMem := rfl
@[simp] theorem setPhase_outMem (s : State) (p : Phase) : (s.setPhase p).outMem = s.outMem := rfl
@[simp] theorem setPhase_treeMem (s : State) (p : Phase) : (s.setPhase p).treeMem = s.treeMem := rfl
@[simp] theorem setPhase_draws (s : State) (p : Phase) : (s.setPhase p).draws = s.draws := rfl

/-! ## setPc -/

@[simp] theorem setPc_params (s : State) (a : Addr) : (s.setPc a).params = s.params := rfl
@[simp] theorem setPc_mode (s : State) (a : Addr) : (s.setPc a).mode = s.mode := rfl
@[simp] theorem setPc_inLen (s : State) (a : Addr) : (s.setPc a).inLen = s.inLen := rfl
@[simp] theorem setPc_err (s : State) (a : Addr) : (s.setPc a).err = s.err := rfl
@[simp] theorem setPc_phase (s : State) (a : Addr) : (s.setPc a).phase = s.phase := rfl
@[simp] theorem setPc_pc (s : State) (a : Addr) : (s.setPc a).pc = a := rfl
@[simp] theorem setPc_x (s : State) (a : Addr) : (s.setPc a).x = s.x := rfl
@[simp] theorem setPc_inMem (s : State) (a : Addr) : (s.setPc a).inMem = s.inMem := rfl
@[simp] theorem setPc_outMem (s : State) (a : Addr) : (s.setPc a).outMem = s.outMem := rfl
@[simp] theorem setPc_treeMem (s : State) (a : Addr) : (s.setPc a).treeMem = s.treeMem := rfl
@[simp] theorem setPc_draws (s : State) (a : Addr) : (s.setPc a).draws = s.draws := rfl

/-! ## advance -/

@[simp] theorem advance_params (s : State) (n : Nat) : (s.advance n).params = s.params := rfl
@[simp] theorem advance_mode (s : State) (n : Nat) : (s.advance n).mode = s.mode := rfl
@[simp] theorem advance_inLen (s : State) (n : Nat) : (s.advance n).inLen = s.inLen := rfl
@[simp] theorem advance_err (s : State) (n : Nat) : (s.advance n).err = s.err := rfl
@[simp] theorem advance_phase (s : State) (n : Nat) : (s.advance n).phase = s.phase := rfl
@[simp] theorem advance_pc (s : State) (n : Nat) : (s.advance n).pc = s.pc + BitVec.ofNat 32 n := rfl
@[simp] theorem advance_x (s : State) (n : Nat) : (s.advance n).x = s.x := rfl
@[simp] theorem advance_inMem (s : State) (n : Nat) : (s.advance n).inMem = s.inMem := rfl
@[simp] theorem advance_outMem (s : State) (n : Nat) : (s.advance n).outMem = s.outMem := rfl
@[simp] theorem advance_treeMem (s : State) (n : Nat) : (s.advance n).treeMem = s.treeMem := rfl
@[simp] theorem advance_draws (s : State) (n : Nat) : (s.advance n).draws = s.draws := rfl

/-! ## emit -/

@[simp] theorem emit_params (s : State) (v : Byte) : (s.emit v).params = s.params := rfl
@[simp] theorem emit_mode (s : State) (v : Byte) : (s.emit v).mode = s.mode := rfl
@[simp] theorem emit_inLen (s : State) (v : Byte) : (s.emit v).inLen = s.inLen := rfl
@[simp] theorem emit_err (s : State) (v : Byte) : (s.emit v).err = s.err := rfl
@[simp] theorem emit_phase (s : State) (v : Byte) : (s.emit v).phase = s.phase := rfl
@[simp] theorem emit_pc (s : State) (v : Byte) : (s.emit v).pc = s.pc := rfl
@[simp] theorem emit_x (s : State) (v : Byte) : (s.emit v).x = { s.x with outLen := s.x.outLen + 1#24 } := rfl
@[simp] theorem emit_inMem (s : State) (v : Byte) : (s.emit v).inMem = s.inMem := rfl
@[simp] theorem emit_outMem (s : State) (v : Byte) : (s.emit v).outMem = s.outMem.write s.x.outLen.toNat v := rfl
@[simp] theorem emit_treeMem (s : State) (v : Byte) : (s.emit v).treeMem = s.treeMem := rfl
@[simp] theorem emit_draws (s : State) (v : Byte) : (s.emit v).draws = s.draws := rfl

/-! ## raise -/

@[simp] theorem raise_params (s : State) (k : Err) : (s.raise k).params = s.params := rfl
@[simp] theorem raise_mode (s : State) (k : Err) : (s.raise k).mode = s.mode := rfl
@[simp] theorem raise_inLen (s : State) (k : Err) : (s.raise k).inLen = s.inLen := rfl
@[simp] theorem raise_err (s : State) (k : Err) : (s.raise k).err = k := rfl
@[simp] theorem raise_phase (s : State) (k : Err) : (s.raise k).phase = .fault := rfl
@[simp] theorem raise_pc (s : State) (k : Err) : (s.raise k).pc = Config.freeWord s.draws 16 := rfl
@[simp] theorem raise_x (s : State) (k : Err) : (s.raise k).x = freeRegs s.draws := rfl
@[simp] theorem raise_inMem (s : State) (k : Err) : (s.raise k).inMem = s.inMem := rfl
@[simp] theorem raise_outMem (s : State) (k : Err) : (s.raise k).outMem = .unspecified s.draws := rfl
@[simp] theorem raise_treeMem (s : State) (k : Err) : (s.raise k).treeMem = .unspecified s.draws := rfl
@[simp] theorem raise_draws (s : State) (k : Err) : (s.raise k).draws = s.draws + 1 := rfl

/-! ## finishOr -/

@[simp] theorem finishOr_params (s : State) (p : Phase) : (s.finishOr p).params = s.params := rfl
@[simp] theorem finishOr_mode (s : State) (p : Phase) : (s.finishOr p).mode = s.mode := rfl
@[simp] theorem finishOr_inLen (s : State) (p : Phase) : (s.finishOr p).inLen = s.inLen := rfl
@[simp] theorem finishOr_err (s : State) (p : Phase) : (s.finishOr p).err = s.err := rfl
@[simp] theorem finishOr_phase (s : State) (p : Phase) : (s.finishOr p).phase = if s.x.outLen = s.x.size then .done else p := rfl
@[simp] theorem finishOr_pc (s : State) (p : Phase) : (s.finishOr p).pc = s.pc := rfl
@[simp] theorem finishOr_x (s : State) (p : Phase) : (s.finishOr p).x = s.x := rfl
@[simp] theorem finishOr_inMem (s : State) (p : Phase) : (s.finishOr p).inMem = s.inMem := rfl
@[simp] theorem finishOr_outMem (s : State) (p : Phase) : (s.finishOr p).outMem = s.outMem := rfl
@[simp] theorem finishOr_treeMem (s : State) (p : Phase) : (s.finishOr p).treeMem = s.treeMem := rfl
@[simp] theorem finishOr_draws (s : State) (p : Phase) : (s.finishOr p).draws = s.draws := rfl

/-! ## headerLatch -/

@[simp] theorem headerLatch_params (s : State) (t p : BitVec 4) (n : BitVec 24) : (headerLatch s t p n).params = s.params := rfl
@[simp] theorem headerLatch_mode (s : State) (t p : BitVec 4) (n : BitVec 24) : (headerLatch s t p n).mode = s.mode := rfl
@[simp] theorem headerLatch_inLen (s : State) (t p : BitVec 4) (n : BitVec 24) : (headerLatch s t p n).inLen = s.inLen := rfl
@[simp] theorem headerLatch_err (s : State) (t p : BitVec 4) (n : BitVec 24) : (headerLatch s t p n).err = s.err := rfl
@[simp] theorem headerLatch_phase (s : State) (t p : BitVec 4) (n : BitVec 24) : (headerLatch s t p n).phase = s.phase := rfl
@[simp] theorem headerLatch_pc (s : State) (t p : BitVec 4) (n : BitVec 24) : (headerLatch s t p n).pc = 4#32 := rfl
@[simp] theorem headerLatch_x (s : State) (t p : BitVec 4) (n : BitVec 24) : (headerLatch s t p n).x = { s.x with type := t, param := p, size := n } := rfl
@[simp] theorem headerLatch_inMem (s : State) (t p : BitVec 4) (n : BitVec 24) : (headerLatch s t p n).inMem = s.inMem := rfl
@[simp] theorem headerLatch_outMem (s : State) (t p : BitVec 4) (n : BitVec 24) : (headerLatch s t p n).outMem = s.outMem := rfl
@[simp] theorem headerLatch_treeMem (s : State) (t p : BitVec 4) (n : BitVec 24) : (headerLatch s t p n).treeMem = s.treeMem := rfl
@[simp] theorem headerLatch_draws (s : State) (t p : BitVec 4) (n : BitVec 24) : (headerLatch s t p n).draws = s.draws := rfl

/-! ## loadTree -/

@[simp] theorem loadTree_params (s : State) (n : Nat) : (s.loadTree n).params = s.params := rfl
@[simp] theorem loadTree_mode (s : State) (n : Nat) : (s.loadTree n).mode = s.mode := rfl
@[simp] theorem loadTree_inLen (s : State) (n : Nat) : (s.loadTree n).inLen = s.inLen := rfl
@[simp] theorem loadTree_err (s : State) (n : Nat) : (s.loadTree n).err = s.err := rfl
@[simp] theorem loadTree_phase (s : State) (n : Nat) : (s.loadTree n).phase = s.phase := rfl
@[simp] theorem loadTree_pc (s : State) (n : Nat) : (s.loadTree n).pc = s.pc := rfl
@[simp] theorem loadTree_x (s : State) (n : Nat) : (s.loadTree n).x = s.x := rfl
@[simp] theorem loadTree_inMem (s : State) (n : Nat) : (s.loadTree n).inMem = s.inMem := rfl
@[simp] theorem loadTree_outMem (s : State) (n : Nat) : (s.loadTree n).outMem = s.outMem := rfl
@[simp] theorem loadTree_treeMem (s : State) (n : Nat) : (s.loadTree n).treeMem = s.treeMem.writeList 0 (s.inBytes s.pc.toNat n) := rfl
@[simp] theorem loadTree_draws (s : State) (n : Nat) : (s.loadTree n).draws = s.draws := rfl

/-! ## takeBit -/

@[simp] theorem takeBit_params (s : State) : (s.takeBit).params = s.params := rfl
@[simp] theorem takeBit_mode (s : State) : (s.takeBit).mode = s.mode := rfl
@[simp] theorem takeBit_inLen (s : State) : (s.takeBit).inLen = s.inLen := rfl
@[simp] theorem takeBit_err (s : State) : (s.takeBit).err = s.err := rfl
@[simp] theorem takeBit_phase (s : State) : (s.takeBit).phase = s.phase := rfl
@[simp] theorem takeBit_pc (s : State) : (s.takeBit).pc = s.pc := rfl
@[simp] theorem takeBit_x (s : State) : (s.takeBit).x = { s.x with bitWin := s.x.bitWin <<< 1, bitCnt := s.x.bitCnt - 1#6 } := rfl
@[simp] theorem takeBit_inMem (s : State) : (s.takeBit).inMem = s.inMem := rfl
@[simp] theorem takeBit_outMem (s : State) : (s.takeBit).outMem = s.outMem := rfl
@[simp] theorem takeBit_treeMem (s : State) : (s.takeBit).treeMem = s.treeMem := rfl
@[simp] theorem takeBit_draws (s : State) : (s.takeBit).draws = s.draws := rfl

/-! ## refill -/

@[simp] theorem refill_params (s : State) (w : BitVec 32) : (s.refill w).params = s.params := rfl
@[simp] theorem refill_mode (s : State) (w : BitVec 32) : (s.refill w).mode = s.mode := rfl
@[simp] theorem refill_inLen (s : State) (w : BitVec 32) : (s.refill w).inLen = s.inLen := rfl
@[simp] theorem refill_err (s : State) (w : BitVec 32) : (s.refill w).err = s.err := rfl
@[simp] theorem refill_phase (s : State) (w : BitVec 32) : (s.refill w).phase = s.phase := rfl
@[simp] theorem refill_pc (s : State) (w : BitVec 32) : (s.refill w).pc = s.pc + BitVec.ofNat 32 4 := rfl
@[simp] theorem refill_x (s : State) (w : BitVec 32) : (s.refill w).x = { s.x with bitWin := w, bitCnt := 32#6 } := rfl
@[simp] theorem refill_inMem (s : State) (w : BitVec 32) : (s.refill w).inMem = s.inMem := rfl
@[simp] theorem refill_outMem (s : State) (w : BitVec 32) : (s.refill w).outMem = s.outMem := rfl
@[simp] theorem refill_treeMem (s : State) (w : BitVec 32) : (s.refill w).treeMem = s.treeMem := rfl
@[simp] theorem refill_draws (s : State) (w : BitVec 32) : (s.refill w).draws = s.draws := rfl

/-! ## blockDone -/

@[simp] theorem blockDone_params (s : State) : (s.blockDone).params = s.params := rfl
@[simp] theorem blockDone_mode (s : State) : (s.blockDone).mode = s.mode := rfl
@[simp] theorem blockDone_inLen (s : State) : (s.blockDone).inLen = s.inLen := rfl
@[simp] theorem blockDone_err (s : State) : (s.blockDone).err = s.err := rfl
@[simp] theorem blockDone_phase (s : State) : (s.blockDone).phase = (if s.x.outLen = s.x.size then .done else if s.x.slot + 1#4 = 8#4 then .lzMask else .lzBlock) := rfl
@[simp] theorem blockDone_pc (s : State) : (s.blockDone).pc = s.pc := rfl
@[simp] theorem blockDone_x (s : State) : (s.blockDone).x = { s.x with slot := s.x.slot + 1#4 } := rfl
@[simp] theorem blockDone_inMem (s : State) : (s.blockDone).inMem = s.inMem := rfl
@[simp] theorem blockDone_outMem (s : State) : (s.blockDone).outMem = s.outMem := rfl
@[simp] theorem blockDone_treeMem (s : State) : (s.blockDone).treeMem = s.treeMem := rfl
@[simp] theorem blockDone_draws (s : State) : (s.blockDone).draws = s.draws := rfl

/-! ## Reading memory through an update -/

@[simp] theorem setX_inAt (s : State) (x : Regs) (a : Nat) : (s.setX x).inAt a = s.inAt a := rfl
@[simp] theorem setX_outAt (s : State) (x : Regs) (a : Nat) : (s.setX x).outAt a = s.outAt a := rfl
@[simp] theorem setX_treeAt (s : State) (x : Regs) (a : Nat) : (s.setX x).treeAt a = s.treeAt a := rfl
@[simp] theorem setPhase_inAt (s : State) (p : Phase) (a : Nat) : (s.setPhase p).inAt a = s.inAt a := rfl
@[simp] theorem setPhase_outAt (s : State) (p : Phase) (a : Nat) : (s.setPhase p).outAt a = s.outAt a := rfl
@[simp] theorem setPhase_treeAt (s : State) (p : Phase) (a : Nat) : (s.setPhase p).treeAt a = s.treeAt a := rfl
@[simp] theorem setPc_inAt (s : State) (t : Addr) (a : Nat) : (s.setPc t).inAt a = s.inAt a := rfl
@[simp] theorem setPc_outAt (s : State) (t : Addr) (a : Nat) : (s.setPc t).outAt a = s.outAt a := rfl
@[simp] theorem setPc_treeAt (s : State) (t : Addr) (a : Nat) : (s.setPc t).treeAt a = s.treeAt a := rfl
@[simp] theorem advance_inAt (s : State) (n : Nat) (a : Nat) : (s.advance n).inAt a = s.inAt a := rfl
@[simp] theorem advance_outAt (s : State) (n : Nat) (a : Nat) : (s.advance n).outAt a = s.outAt a := rfl
@[simp] theorem advance_treeAt (s : State) (n : Nat) (a : Nat) : (s.advance n).treeAt a = s.treeAt a := rfl
@[simp] theorem finishOr_inAt (s : State) (p : Phase) (a : Nat) : (s.finishOr p).inAt a = s.inAt a := rfl
@[simp] theorem finishOr_outAt (s : State) (p : Phase) (a : Nat) : (s.finishOr p).outAt a = s.outAt a := rfl
@[simp] theorem finishOr_treeAt (s : State) (p : Phase) (a : Nat) : (s.finishOr p).treeAt a = s.treeAt a := rfl
@[simp] theorem takeBit_inAt (s : State) (a : Nat) : (s.takeBit).inAt a = s.inAt a := rfl
@[simp] theorem takeBit_outAt (s : State) (a : Nat) : (s.takeBit).outAt a = s.outAt a := rfl
@[simp] theorem takeBit_treeAt (s : State) (a : Nat) : (s.takeBit).treeAt a = s.treeAt a := rfl
@[simp] theorem refill_inAt (s : State) (w : BitVec 32) (a : Nat) : (s.refill w).inAt a = s.inAt a := rfl
@[simp] theorem refill_outAt (s : State) (w : BitVec 32) (a : Nat) : (s.refill w).outAt a = s.outAt a := rfl
@[simp] theorem refill_treeAt (s : State) (w : BitVec 32) (a : Nat) : (s.refill w).treeAt a = s.treeAt a := rfl
@[simp] theorem blockDone_inAt (s : State) (a : Nat) : (s.blockDone).inAt a = s.inAt a := rfl
@[simp] theorem blockDone_outAt (s : State) (a : Nat) : (s.blockDone).outAt a = s.outAt a := rfl
@[simp] theorem blockDone_treeAt (s : State) (a : Nat) : (s.blockDone).treeAt a = s.treeAt a := rfl

@[simp] theorem emit_inAt (s : State) (v : Byte) (a : Nat) : (s.emit v).inAt a = s.inAt a := rfl
@[simp] theorem emit_treeAt (s : State) (v : Byte) (a : Nat) : (s.emit v).treeAt a = s.treeAt a := rfl

end Sys2Proof.Machine
end

