-- ==== Sys2Proof/Laws/Output.lean ====
section
/-! SUPPORT. What producing output does: `emit`, a run of bytes, the backreference copy, and the
capacity test. -/

namespace Sys2Proof.Machine

/-- The capacity test answers in exactly two ways. -/
theorem produce_next {s t u : State} {n : Nat} (h : produce s n t = .next u) :
    s.x.outLen.toNat + n ≤ s.params.outCap.toNat ∧ u = t := by
  unfold produce at h
  split at h
  · cases h
    exact ⟨by assumption, rfl⟩
  · cases h

theorem produce_of_le {s t : State} {n : Nat}
    (h : s.x.outLen.toNat + n ≤ s.params.outCap.toNat) : produce s n t = .next t := by
  simp [produce, h]

/-- A state within the capacity has room in the 24-bit counter. -/
theorem outLen_add_lt {s : State} {n : Nat}
    (h : s.x.outLen.toNat + n ≤ s.params.outCap.toNat) : s.x.outLen.toNat + n < 2 ^ 24 := by
  have := s.params.outCap.isLt
  omega

/-! ## One byte -/

theorem emit_outAt_same (s : State) (v : Byte) : (s.emit v).outAt s.x.outLen.toNat = v := by
  simp [State.outAt]

theorem emit_outAt_other (s : State) (v : Byte) {a : Nat} (h : a ≠ s.x.outLen.toNat) :
    (s.emit v).outAt a = s.outAt a := by
  simp [State.outAt, Memory.read_write_other _ _ _ h]

theorem emit_outLen {s : State} (v : Byte) (h : s.x.outLen.toNat + 1 < 2 ^ 24) :
    (s.emit v).x.outLen.toNat = s.x.outLen.toNat + 1 := by
  simp [BitVec.toNat_add]
  omega

/-! ## A run of bytes -/

theorem emitAll_append (s : State) (us vs : List Byte) :
    s.emitAll (us ++ vs) = (s.emitAll us).emitAll vs := by
  induction us generalizing s with
  | nil => rfl
  | cons u us ih => simp [State.emitAll, ih]

@[simp] theorem emitAll_params (s : State) (vs : List Byte) : (s.emitAll vs).params = s.params := by
  induction vs generalizing s with
  | nil => rfl
  | cons v vs ih => simp [State.emitAll, ih]

@[simp] theorem emitAll_mode (s : State) (vs : List Byte) : (s.emitAll vs).mode = s.mode := by
  induction vs generalizing s with
  | nil => rfl
  | cons v vs ih => simp [State.emitAll, ih]

@[simp] theorem emitAll_inLen (s : State) (vs : List Byte) : (s.emitAll vs).inLen = s.inLen := by
  induction vs generalizing s with
  | nil => rfl
  | cons v vs ih => simp [State.emitAll, ih]

@[simp] theorem emitAll_err (s : State) (vs : List Byte) : (s.emitAll vs).err = s.err := by
  induction vs generalizing s with
  | nil => rfl
  | cons v vs ih => simp [State.emitAll, ih]

@[simp] theorem emitAll_phase (s : State) (vs : List Byte) : (s.emitAll vs).phase = s.phase := by
  induction vs generalizing s with
  | nil => rfl
  | cons v vs ih => simp [State.emitAll, ih]

@[simp] theorem emitAll_pc (s : State) (vs : List Byte) : (s.emitAll vs).pc = s.pc := by
  induction vs generalizing s with
  | nil => rfl
  | cons v vs ih => simp [State.emitAll, ih]

@[simp] theorem emitAll_inMem (s : State) (vs : List Byte) : (s.emitAll vs).inMem = s.inMem := by
  induction vs generalizing s with
  | nil => rfl
  | cons v vs ih => simp [State.emitAll, ih]

@[simp] theorem emitAll_treeMem (s : State) (vs : List Byte) :
    (s.emitAll vs).treeMem = s.treeMem := by
  induction vs generalizing s with
  | nil => rfl
  | cons v vs ih => simp [State.emitAll, ih]

@[simp] theorem emitAll_draws (s : State) (vs : List Byte) : (s.emitAll vs).draws = s.draws := by
  induction vs generalizing s with
  | nil => rfl
  | cons v vs ih => simp [State.emitAll, ih]

@[simp] theorem emitAll_era (s : State) (vs : List Byte) :
    (s.emitAll vs).outMem.era = s.outMem.era := by
  induction vs generalizing s with
  | nil => rfl
  | cons v vs ih => simp [State.emitAll, ih]

theorem emitAll_wf {s : State} (vs : List Byte) (h : s.outMem.wf = true) :
    (s.emitAll vs).outMem.wf = true := by
  induction vs generalizing s with
  | nil => exact h
  | cons v vs ih => exact ih (by simpa using Memory.write_wf _ _ h)

/-- A run adds its length to `x[OUT_LEN]` and writes no other register. -/
@[simp] theorem emitAll_x (s : State) (vs : List Byte) :
    (s.emitAll vs).x = { s.x with outLen := s.x.outLen + BitVec.ofNat 24 vs.length } := by
  induction vs generalizing s with
  | nil => simp [State.emitAll]
  | cons v vs ih =>
    simp [State.emitAll, ih, BitVec.ofNat_add]
    rw [BitVec.add_assoc, BitVec.add_comm 1#24]

theorem emitAll_outLen {s : State} (vs : List Byte) (h : s.x.outLen.toNat + vs.length < 2 ^ 24) :
    (s.emitAll vs).x.outLen.toNat = s.x.outLen.toNat + vs.length := by
  simp [BitVec.toNat_add]
  omega

/-- What a run leaves at each address of `OUT`. -/
theorem emitAll_get {s : State} (vs : List Byte) (h : s.x.outLen.toNat + vs.length < 2 ^ 24)
    (a : Nat) :
    (s.emitAll vs).outMem.get a =
      if s.x.outLen.toNat ≤ a ∧ a < s.x.outLen.toNat + vs.length then vs[a - s.x.outLen.toNat]?
      else s.outMem.get a := by
  induction vs generalizing s with
  | nil =>
    rw [if_neg (by simp)]
    rfl
  | cons v vs ih =>
    simp only [List.length_cons] at h
    have hl : (s.emit v).x.outLen.toNat = s.x.outLen.toNat + 1 := emit_outLen v (by omega)
    rw [State.emitAll, ih (by omega), hl]
    by_cases h0 : a = s.x.outLen.toNat
    · subst h0
      simp
    · by_cases h1 : s.x.outLen.toNat + 1 ≤ a ∧ a < s.x.outLen.toNat + 1 + vs.length
      · rw [if_pos h1, if_pos (by simp; omega),
          show a - s.x.outLen.toNat = (a - (s.x.outLen.toNat + 1)) + 1 by omega,
          List.getElem?_cons_succ]
      · rw [if_neg h1, if_neg (by simp; omega), emit_outMem, Memory.get_write_other _ _ h0]

theorem emitAll_outAt_new {s : State} (vs : List Byte)
    (h : s.x.outLen.toNat + vs.length < 2 ^ 24) (i : Nat) (hi : i < vs.length) :
    (s.emitAll vs).outAt (s.x.outLen.toNat + i) = vs[i] := by
  simp [State.outAt, Memory.read, emitAll_get vs h, hi]

theorem emitAll_outAt_old {s : State} (vs : List Byte)
    (h : s.x.outLen.toNat + vs.length < 2 ^ 24) (a : Nat)
    (ha : a < s.x.outLen.toNat ∨ s.x.outLen.toNat + vs.length ≤ a) :
    (s.emitAll vs).outAt a = s.outAt a := by
  have hn : ¬ (s.x.outLen.toNat ≤ a ∧ a < s.x.outLen.toNat + vs.length) := by omega
  simp only [State.outAt, Memory.read, emitAll_get vs h, if_neg hn, Memory.unwritten, emitAll_era]

/-! ## The backreference copy -/

/-- The 16-bit output bus leaves an offset-1 read undefined (70_reset_and_hazards.md R228). -/
def State.hazard (s : State) (off : Nat) : Bool := s.params.outCommit16 && off == 1

theorem copyOne_eq (s : State) (off : Nat) :
    s.copyOne off =
      { s.emit (s.copySource off) with draws := s.draws + (s.hazard off).toNat } := by
  unfold State.copyOne State.hazard
  cases hh : (s.params.outCommit16 && off == 1)
  · rfl
  · rfl

@[simp] theorem copyOne_params (s : State) (off : Nat) : (s.copyOne off).params = s.params := by
  rw [copyOne_eq]; rfl

@[simp] theorem copyOne_x (s : State) (off : Nat) :
    (s.copyOne off).x = { s.x with outLen := s.x.outLen + 1#24 } := by
  rw [copyOne_eq]; rfl

@[simp] theorem copyOne_outMem (s : State) (off : Nat) :
    (s.copyOne off).outMem = s.outMem.write s.x.outLen.toNat (s.copySource off) := by
  rw [copyOne_eq]; rfl

theorem copyBack_succ (s : State) (off n : Nat) :
    s.copyBack off (n + 1) = (s.copyBack off n).copyOne off := by
  induction n generalizing s with
  | zero => rfl
  | succ n ih => rw [State.copyBack, ih]; rfl

/-- A copy changes nothing but `OUT`, `x[OUT_LEN]` and the model's own draw counter. -/
theorem copyBack_frame (s : State) (off n : Nat) :
    ∃ m d, s.copyBack off n =
      { s with outMem := m, x := { s.x with outLen := s.x.outLen + BitVec.ofNat 24 n },
               draws := d } := by
  induction n with
  | zero => exact ⟨s.outMem, s.draws, by simp [State.copyBack]⟩
  | succ n ih =>
    obtain ⟨m, d, h⟩ := ih
    rw [copyBack_succ, copyOne_eq, h]
    exact ⟨_, _, by
      simp [State.emit, BitVec.ofNat_add, BitVec.add_assoc]
      exact ⟨rfl, rfl⟩⟩

@[simp] theorem copyBack_params (s : State) (off n : Nat) :
    (s.copyBack off n).params = s.params := by
  obtain ⟨m, d, h⟩ := copyBack_frame s off n; rw [h]

@[simp] theorem copyBack_mode (s : State) (off n : Nat) : (s.copyBack off n).mode = s.mode := by
  obtain ⟨m, d, h⟩ := copyBack_frame s off n; rw [h]

@[simp] theorem copyBack_inLen (s : State) (off n : Nat) : (s.copyBack off n).inLen = s.inLen := by
  obtain ⟨m, d, h⟩ := copyBack_frame s off n; rw [h]

@[simp] theorem copyBack_err (s : State) (off n : Nat) : (s.copyBack off n).err = s.err := by
  obtain ⟨m, d, h⟩ := copyBack_frame s off n; rw [h]

@[simp] theorem copyBack_phase (s : State) (off n : Nat) : (s.copyBack off n).phase = s.phase := by
  obtain ⟨m, d, h⟩ := copyBack_frame s off n; rw [h]

@[simp] theorem copyBack_pc (s : State) (off n : Nat) : (s.copyBack off n).pc = s.pc := by
  obtain ⟨m, d, h⟩ := copyBack_frame s off n; rw [h]

@[simp] theorem copyBack_inMem (s : State) (off n : Nat) : (s.copyBack off n).inMem = s.inMem := by
  obtain ⟨m, d, h⟩ := copyBack_frame s off n; rw [h]

@[simp] theorem copyBack_treeMem (s : State) (off n : Nat) :
    (s.copyBack off n).treeMem = s.treeMem := by
  obtain ⟨m, d, h⟩ := copyBack_frame s off n; rw [h]

@[simp] theorem copyBack_x (s : State) (off n : Nat) :
    (s.copyBack off n).x = { s.x with outLen := s.x.outLen + BitVec.ofNat 24 n } := by
  obtain ⟨m, d, h⟩ := copyBack_frame s off n; rw [h]

theorem copyBack_outLen {s : State} (off n : Nat) (h : s.x.outLen.toNat + n < 2 ^ 24) :
    (s.copyBack off n).x.outLen.toNat = s.x.outLen.toNat + n := by
  simp [BitVec.toNat_add]
  omega

/-- The draw counter advances once per copied byte under the hazard, and not otherwise. -/
theorem copyBack_draws (s : State) (off n : Nat) :
    (s.copyBack off n).draws = s.draws + n * (s.hazard off).toNat := by
  induction n with
  | zero => simp [State.copyBack]
  | succ n ih =>
    rw [copyBack_succ, copyOne_eq]
    simp [ih, State.hazard, Nat.succ_mul, Nat.add_assoc]

theorem copyBack_wf {s : State} (off n : Nat) (h : s.outMem.wf = true) :
    (s.copyBack off n).outMem.wf = true := by
  induction n with
  | zero => exact h
  | succ n ih => rw [copyBack_succ, copyOne_outMem]; exact Memory.write_wf _ _ ih

@[simp] theorem copyBack_era (s : State) (off n : Nat) :
    (s.copyBack off n).outMem.era = s.outMem.era := by
  induction n with
  | zero => rfl
  | succ n ih => rw [copyBack_succ, copyOne_outMem]; simpa using ih

/-- A copy writes the `n` addresses from `x[OUT_LEN]`, and no other. -/
theorem copyBack_get_old {s : State} (off n : Nat) (h : s.x.outLen.toNat + n < 2 ^ 24) (a : Nat)
    (ha : a < s.x.outLen.toNat ∨ s.x.outLen.toNat + n ≤ a) :
    (s.copyBack off n).outMem.get a = s.outMem.get a := by
  induction n with
  | zero => rfl
  | succ n ih =>
    have hl := copyBack_outLen (s := s) off n (by omega)
    rw [copyBack_succ, copyOne_outMem, Memory.get_write_other _ _ (by omega)]
    exact ih (by omega) (by omega)

theorem copyBack_outAt_old {s : State} (off n : Nat) (h : s.x.outLen.toNat + n < 2 ^ 24) (a : Nat)
    (ha : a < s.x.outLen.toNat ∨ s.x.outLen.toNat + n ≤ a) :
    (s.copyBack off n).outAt a = s.outAt a := by
  simp [State.outAt, Memory.read, copyBack_get_old off n h a ha, Memory.unwritten]

/-- Every address a copy covers is written. -/
theorem copyBack_get_new {s : State} (off n : Nat) (h : s.x.outLen.toNat + n < 2 ^ 24) (i : Nat)
    (hi : i < n) : ((s.copyBack off n).outMem.get (s.x.outLen.toNat + i)).isSome := by
  induction n with
  | zero => omega
  | succ n ih =>
    have hl := copyBack_outLen (s := s) off n (by omega)
    rw [copyBack_succ, copyOne_outMem]
    by_cases hin : i = n
    · subst hin
      rw [hl, Memory.get_write_same]
      rfl
    · rw [Memory.get_write_other _ _ (by omega)]
      exact ih (by omega) (by omega)

/-- Without the hazard, byte `i` of a copy is the byte `off` behind it (43_lz77.md R133). -/
theorem copyBack_source {s : State} (off n : Nat) (h : s.x.outLen.toNat + n < 2 ^ 24)
    (hz : s.hazard off = false) (h1 : 1 ≤ off) (h2 : off ≤ s.x.outLen.toNat) (i : Nat)
    (hi : i < n) :
    (s.copyBack off n).outAt (s.x.outLen.toNat + i) =
      (s.copyBack off n).outAt (s.x.outLen.toNat + i - off) := by
  induction n with
  | zero => omega
  | succ n ih =>
    have hl := copyBack_outLen (s := s) off n (by omega)
    have hz' : ((s.copyBack off n).params.outCommit16 && off == 1) = false := by
      simpa [State.hazard] using hz
    have hold : ∀ a, a ≠ s.x.outLen.toNat + n →
        (s.copyBack off (n + 1)).outAt a = (s.copyBack off n).outAt a := by
      intro a ha
      rw [copyBack_succ]
      simp only [State.outAt, copyOne_outMem]
      exact Memory.read_write_other _ _ _ (by omega)
    by_cases hin : i = n
    · subst hin
      rw [hold (s.x.outLen.toNat + i - off) (by omega), copyBack_succ]
      simp only [State.outAt, copyOne_outMem, hl, Memory.read_write_same]
      rw [State.copySource, hz', if_neg (by simp), hl]
      rfl
    · rw [hold _ (by omega), hold _ (by omega)]
      exact ih (by omega) (by omega)

/-- Without the hazard a copy is the periodic extension of the last `off` bytes (R134). -/
theorem copyBack_periodic {s : State} (off n : Nat) (h : s.x.outLen.toNat + n < 2 ^ 24)
    (hz : s.hazard off = false) (h1 : 1 ≤ off) (h2 : off ≤ s.x.outLen.toNat) (i : Nat)
    (hi : i < n) :
    (s.copyBack off n).outAt (s.x.outLen.toNat + i) =
      s.outAt (s.x.outLen.toNat - off + i % off) := by
  induction i using Nat.strongRecOn with
  | _ i ih =>
    rw [copyBack_source off n h hz h1 h2 i hi]
    by_cases hio : i < off
    · rw [copyBack_outAt_old off n h _ (by omega), Nat.mod_eq_of_lt hio]
      congr 1
      omega
    · have := ih (i - off) (by omega) (by omega)
      rw [show s.x.outLen.toNat + i - off = s.x.outLen.toNat + (i - off) by omega, this,
        Nat.mod_eq_sub_mod (by omega : off ≤ i)]

/-- Under the hazard byte `i` of a copy is a free value of its own (R228). -/
theorem copyBack_free {s : State} (off n : Nat) (h : s.x.outLen.toNat + n < 2 ^ 24)
    (hz : s.hazard off = true) (i : Nat) (hi : i < n) :
    (s.copyBack off n).outAt (s.x.outLen.toNat + i) = Config.freeCopyByte (s.draws + i) := by
  induction n with
  | zero => omega
  | succ n ih =>
    have hl := copyBack_outLen (s := s) off n (by omega)
    have hd := copyBack_draws s off n
    have hz' : ((s.copyBack off n).params.outCommit16 && off == 1) = true := by
      simpa [State.hazard] using hz
    rw [copyBack_succ]
    simp only [State.outAt, copyOne_outMem]
    by_cases hin : i = n
    · subst hin
      rw [hl, Memory.read_write_same, State.copySource, hz', if_pos rfl, hd, hz]
      simp
    · rw [Memory.read_write_other _ _ _ (by omega)]
      exact ih (by omega) (by omega)

end Sys2Proof.Machine
end

