-- ==== Sys2Proof/Laws/Exec.lean ====
section
/-! SUPPORT. Once per meaning, everything it can answer: an error with its cause, or the next state
with the tests it passed. Later proofs cite these and do not unfold a meaning. -/

namespace Sys2Proof.Machine

/-! ## Header -/

theorem execHdrLz77_cases {p : BitVec 4} {n : BitVec 24} {s t : State}
    (h : execHdrLz77 p n s = .next t) :
    (headerAccepted s 1#4 = false ∧ t = s.raise .invalidFormat) ∨
    (headerAccepted s 1#4 = true ∧ fitsCap s n = false ∧ t = s.raise .outOfBounds) ∨
    (headerAccepted s 1#4 = true ∧ fitsCap s n = true ∧
      t = (headerLatch s 1#4 p n).finishOr .lzMask) := by
  unfold execHdrLz77 at h
  cases ha : headerAccepted s 1#4 <;> cases hf : fitsCap s n <;> simp_all

theorem execHdrHuf_cases {p : BitVec 4} {n : BitVec 24} {s t : State}
    (h : execHdrHuf p n s = .next t) :
    (headerAccepted s 2#4 = false ∧ t = s.raise .invalidFormat) ∨
    (headerAccepted s 2#4 = true ∧ fitsCap s n = false ∧ t = s.raise .outOfBounds) ∨
    (headerAccepted s 2#4 = true ∧ fitsCap s n = true ∧
      t = (headerLatch s 2#4 p n).setPhase .hufTSize) := by
  unfold execHdrHuf at h
  cases ha : headerAccepted s 2#4 <;> cases hf : fitsCap s n <;> simp_all

theorem execHdrRle_cases {p : BitVec 4} {n : BitVec 24} {s t : State}
    (h : execHdrRle p n s = .next t) :
    (headerAccepted s 3#4 = false ∧ t = s.raise .invalidFormat) ∨
    (headerAccepted s 3#4 = true ∧ fitsCap s n = false ∧ t = s.raise .outOfBounds) ∨
    (headerAccepted s 3#4 = true ∧ fitsCap s n = true ∧
      t = (headerLatch s 3#4 p n).finishOr .rle) := by
  unfold execHdrRle at h
  cases ha : headerAccepted s 3#4 <;> cases hf : fitsCap s n <;> simp_all

theorem execHdrDiff8_cases {n : BitVec 24} {s t : State} (h : execHdrDiff8 n s = .next t) :
    (headerAccepted s 8#4 = false ∧ t = s.raise .invalidFormat) ∨
    (headerAccepted s 8#4 = true ∧ fitsCap s n = false ∧ t = s.raise .outOfBounds) ∨
    (headerAccepted s 8#4 = true ∧ fitsCap s n = true ∧
      t = (headerLatch s 8#4 1#4 n).finishOr .diff) := by
  unfold execHdrDiff8 at h
  cases ha : headerAccepted s 8#4 <;> cases hf : fitsCap s n <;> simp_all

theorem execHdrDiff16_cases {n : BitVec 24} {s t : State} (h : execHdrDiff16 n s = .next t) :
    ((headerAccepted s 8#4 = false ∨ n.getLsbD 0 = true) ∧ t = s.raise .invalidFormat) ∨
    (headerAccepted s 8#4 = true ∧ n.getLsbD 0 = false ∧ fitsCap s n = false ∧
      t = s.raise .outOfBounds) ∨
    (headerAccepted s 8#4 = true ∧ n.getLsbD 0 = false ∧ fitsCap s n = true ∧
      t = (headerLatch s 8#4 2#4 n).finishOr .diff) := by
  unfold execHdrDiff16 at h
  cases ha : headerAccepted s 8#4 <;> cases hf : fitsCap s n <;> cases ho : n.getLsbD 0 <;>
    simp_all

theorem execHdrIllegal_eq (b : Byte) (n : BitVec 24) (s : State) :
    execHdrIllegal b n s = .next (s.raise .invalidFormat) := rfl

/-! ## RLE -/

theorem execRleLit_cases {c : BitVec 7} {s t : State} (h : execRleLit c s = .next t) :
    (t = s.raise .truncated ∧ (s.has 1 = false ∨
      (s.x.outLen.toNat + rleLitLen c ≤ s.x.size.toNat ∧ s.has (1 + rleLitLen c) = false))) ∨
    (s.has 1 = true ∧ s.x.size.toNat < s.x.outLen.toNat + rleLitLen c ∧
      t = s.raise .outOfBounds) ∨
    (s.has (1 + rleLitLen c) = true ∧ s.x.outLen.toNat + rleLitLen c ≤ s.x.size.toNat ∧
      s.x.outLen.toNat + rleLitLen c ≤ s.params.outCap.toNat ∧
      t = (((s.setX { s.x with runLen := BitVec.ofNat 15 (rleLitLen c) }).advance
        (1 + rleLitLen c)).emitAll (s.inBytes (s.pc.toNat + 1) (rleLitLen c))).finishOr .rle) := by
  unfold execRleLit at h
  dsimp only at h
  split at h
  · simp_all
  · split at h
    · simp_all
    · split at h
      · simp_all
      · obtain ⟨hp, rfl⟩ := produce_next h
        simp_all

theorem execRleRep_cases {c : BitVec 7} {s t : State} (h : execRleRep c s = .next t) :
    (t = s.raise .truncated ∧ (s.has 1 = false ∨
      (s.x.outLen.toNat + rleRepLen c ≤ s.x.size.toNat ∧ s.has 2 = false))) ∨
    (s.has 1 = true ∧ s.x.size.toNat < s.x.outLen.toNat + rleRepLen c ∧
      t = s.raise .outOfBounds) ∨
    (s.has 2 = true ∧ s.x.outLen.toNat + rleRepLen c ≤ s.x.size.toNat ∧
      s.x.outLen.toNat + rleRepLen c ≤ s.params.outCap.toNat ∧
      t = (((s.setX { s.x with runLen := BitVec.ofNat 15 (rleRepLen c),
                               runVal := s.inAt (s.pc.toNat + 1) }).advance 2).emitAll
        (List.replicate (rleRepLen c) (s.inAt (s.pc.toNat + 1)))).finishOr .rle) := by
  unfold execRleRep at h
  dsimp only at h
  split at h
  · simp_all
  · split at h
    · simp_all
    · split at h
      · simp_all
      · obtain ⟨hp, rfl⟩ := produce_next h
        simp_all

/-! ## The delta filter -/

theorem execD8W_cases {w : Byte} {s t : State} (h : execD8W w s = .next t) :
    (s.has 1 = false ∧ t = s.raise .truncated) ∨
    (s.has 1 = true ∧ s.x.outLen.toNat + 1 ≤ s.params.outCap.toNat ∧
      t = (((s.setX { s.x with acc := accNext8 s.x w }).advance 1).emit
        (byteAt (accNext8 s.x w) 0)).finishOr .diff) := by
  unfold execD8W at h
  dsimp only at h
  split at h
  · simp_all
  · obtain ⟨hp, rfl⟩ := produce_next h
    simp_all

theorem execD16W_cases {w : BitVec 16} {s t : State} (h : execD16W w s = .next t) :
    (s.has 2 = false ∧ t = s.raise .truncated) ∨
    (s.has 2 = true ∧ s.x.outLen.toNat + 2 ≤ s.params.outCap.toNat ∧
      t = (((s.setX { s.x with acc := accNext16 s.x w }).advance 2).emitAll
        (bytes16 (accNext16 s.x w))).finishOr .diff) := by
  unfold execD16W at h
  dsimp only at h
  split at h
  · simp_all
  · obtain ⟨hp, rfl⟩ := produce_next h
    simp_all

/-! ## LZ77 -/

theorem execLzMask_cases {m : Byte} {s t : State} (h : execLzMask m s = .next t) :
    (s.has 1 = false ∧ t = s.raise .truncated) ∨
    (s.has 1 = true ∧
      t = ((s.setX { s.x with mask := m, slot := 0#4 }).advance 1).setPhase .lzBlock) := by
  unfold execLzMask at h
  cases hh : s.has 1 <;> simp_all

theorem execLzLit_cases {v : Byte} {s t : State} (h : execLzLit v s = .next t) :
    s.x.slot.toNat < 8 ∧
    ((s.has 1 = false ∧ t = s.raise .truncated) ∨
     (s.has 1 = true ∧ s.x.outLen.toNat + 1 ≤ s.params.outCap.toNat ∧
      t = ((s.advance 1).emit v).blockDone)) := by
  unfold execLzLit at h
  split at h
  · cases h
  · split at h
    · simp_all
    · obtain ⟨hp, rfl⟩ := produce_next h
      simp_all

theorem execLzRef_cases {l : BitVec 4} {d : BitVec 12} {s t : State}
    (h : execLzRef l d s = .next t) :
    s.x.slot.toNat < 8 ∧
    ((s.has 2 = false ∧ t = s.raise .truncated) ∨
     (s.has 2 = true ∧ (s.x.size.toNat < s.x.outLen.toNat + refLen l ∨
       s.x.outLen.toNat < refOff d) ∧ t = s.raise .outOfBounds) ∨
     (s.has 2 = true ∧ s.x.outLen.toNat + refLen l ≤ s.x.size.toNat ∧
      refOff d ≤ s.x.outLen.toNat ∧ s.x.outLen.toNat + refLen l ≤ s.params.outCap.toNat ∧
      t = (((s.setX { s.x with brLen := BitVec.ofNat 5 (refLen l),
                               brOff := BitVec.ofNat 13 (refOff d) }).advance 2).copyBack
        (refOff d) (refLen l)).blockDone)) := by
  unfold execLzRef at h
  dsimp only at h
  split at h
  · cases h
  · split at h
    · simp_all
    · split at h
      · simp_all
      · split at h
        · simp_all
        · obtain ⟨hp, rfl⟩ := produce_next h
          simp_all

/-! ## Huffman -/

theorem execHufTSize_cases {n : Byte} {s t : State} (h : execHufTSize n s = .next t) :
    (s.has 1 = false ∧ t = s.raise .truncated) ∨
    (s.has 1 = true ∧ t = ((s.setX { s.x with treeN := n }).advance 1).setPhase .hufTable) := by
  unfold execHufTSize at h
  cases hh : s.has 1 <;> simp_all

theorem execHufTable_cases {s t : State} (h : execHufTable s = .next t) :
    (s.has s.tableLen = false ∧ t = s.raise .truncated) ∨
    (s.has s.tableLen = true ∧
      t = ((s.loadTree s.tableLen).advance s.tableLen).setPhase .hufCheck) := by
  unfold execHufTable at h
  cases hh : s.has s.tableLen <;> simp_all

theorem execHufCheck_cases {s t : State} (h : execHufCheck s = .next t) :
    (s.treeOk = false ∧ t = s.raise .outOfBounds) ∨
    (s.treeOk = true ∧
      t = (s.setX { s.x with node := 0#10, bitCnt := 0#6 }).finishOr .hufBits) := by
  unfold execHufCheck at h
  cases hh : s.treeOk <;> simp_all

theorem leafStep_cases {v : Byte} {s t : State} (h : leafStep v s = .next t) :
    s.x.outLen.toNat + 1 ≤ s.params.outCap.toNat ∧
      t = ((s.setX { s.x with node := 0#10 }).emit v).finishOr .hufBits := by
  unfold leafStep at h
  exact produce_next h

theorem branchStep_cases {l0 l1 : Bool} {base : BitVec 6} {bit : Bool} {s t : State}
    (h : branchStep l0 l1 base bit s = .next t) :
    s.x.node.toNat < s.tableLen ∧
    (((if bit then l1 else l0) = true ∧ childOf s.x.node.toNat base bit < s.tableLen ∧
      s.x.outLen.toNat + 1 ≤ s.params.outCap.toNat ∧
      t = ((s.setX { s.x with node := 0#10 }).emit
        (s.treeAt (childOf s.x.node.toNat base bit))).finishOr .hufBits) ∨
     ((if bit then l1 else l0) = false ∧
      t = (s.setX { s.x with node := BitVec.ofNat 10 (childOf s.x.node.toNat base bit) }).setPhase
        .hufBits)) := by
  unfold branchStep at h
  dsimp only at h
  by_cases hn : s.tableLen ≤ s.x.node.toNat
  · simp [hn] at h
  · refine ⟨by omega, ?_⟩
    cases hl : (if bit then l1 else l0)
    · simp [hn, hl] at h
      exact .inr ⟨rfl, h.symm⟩
    · by_cases hc : childOf s.x.node.toNat base bit < s.tableLen
      · simp [hn, hl, hc] at h
        exact .inl ⟨rfl, hc, leafStep_cases h⟩
      · simp [hn, hl, hc] at h

/-- The lazy refill: a bit step runs on the state itself when a bit is left, on the refilled state
when none is and four bytes are there, and raises Truncated otherwise. -/
theorem afterRefill_cases {f : State → Answer} {s t : State} (h : afterRefill f s = .next t) :
    (s.x.bitCnt ≠ 0#6 ∧ f s = .next t) ∨
    (s.x.bitCnt = 0#6 ∧ s.has 4 = false ∧ t = s.raise .truncated) ∨
    (s.x.bitCnt = 0#6 ∧ s.has 4 = true ∧ f (s.refill s.nextWord) = .next t) := by
  unfold afterRefill at h
  split at h
  · split at h <;> simp_all
  · exact .inl ⟨by assumption, h⟩

theorem execHufWord_cases {w : BitVec 32} {s t : State} (h : execHufWord w s = .next t) :
    (s.has 4 = false ∧ t = s.raise .truncated) ∨
    (s.has 4 = true ∧ walkBit w.msb (s.refill w) = .next t) := by
  unfold execHufWord at h
  cases hh : s.has 4 <;> simp_all

/-! ## WL4 -/

theorem wl4TypeStep_cases {v : BitVec 2} {p : Phase} {s t : State}
    (h : wl4TypeStep v p s = .next t) :
    (s.inLen.toNat < 1 ∧ t = s.raise .invalidFormat) ∨
    (1 ≤ s.inLen.toNat ∧ t = ((s.setX { s.x with wl4T := v }).setPc 1#32).setPhase p) := by
  unfold wl4TypeStep at h
  split at h
  · cases h; exact .inl ⟨by assumption, rfl⟩
  · cases h; exact .inr ⟨by omega, rfl⟩

theorem execWl4TIllegal_eq (b : Option Byte) (s : State) :
    execWl4TIllegal b s = .next (s.raise .invalidFormat) := rfl

theorem wl4End_cases {n : Nat} {s t : State} (h : wl4End n s = .next t) :
    (s.has n = false ∧ t = s.raise .truncated) ∨
    (s.has n = true ∧ t = (s.advance n).setPhase .done) := by
  unfold wl4End at h
  cases hh : s.has n <;> simp_all

theorem wl4Rsv_cases {n : Nat} {s t : State} (h : wl4Rsv n s = .next t) :
    (s.has n = false ∧ t = s.raise .truncated) ∨
    (s.has n = true ∧ t = s.raise .invalidFormat) := by
  unfold wl4Rsv at h
  cases hh : s.has n <;> simp_all

theorem wl4Lit_cases {n k : Nat} {p : Phase} {s t : State} (h : wl4Lit n k p s = .next t) :
    (t = s.raise .truncated ∧ (s.has n = false ∨
      (s.x.outLen.toNat + k ≤ s.params.outCap.toNat ∧ s.has (n + k) = false))) ∨
    (s.has n = true ∧ s.params.outCap.toNat < s.x.outLen.toNat + k ∧ t = s.raise .outOfBounds) ∨
    (s.has (n + k) = true ∧ s.x.outLen.toNat + k ≤ s.params.outCap.toNat ∧
      t = (((s.setX { s.x with runLen := BitVec.ofNat 15 k }).advance (n + k)).emitAll
        (s.inBytes (s.pc.toNat + n) k)).setPhase p) := by
  unfold wl4Lit at h
  split at h
  · simp_all
  · split at h
    · simp_all
    · split at h
      · simp_all
      · obtain ⟨hp, rfl⟩ := produce_next h
        simp_all

theorem wl4Rep_cases {n k : Nat} {p : Phase} {s t : State} (h : wl4Rep n k p s = .next t) :
    (t = s.raise .truncated ∧ (s.has n = false ∨
      (s.x.outLen.toNat + k ≤ s.params.outCap.toNat ∧ s.has (n + 1) = false))) ∨
    (s.has n = true ∧ s.params.outCap.toNat < s.x.outLen.toNat + k ∧ t = s.raise .outOfBounds) ∨
    (s.has (n + 1) = true ∧ s.x.outLen.toNat + k ≤ s.params.outCap.toNat ∧
      t = (((s.setX { s.x with runLen := BitVec.ofNat 15 k,
                               runVal := s.inAt (s.pc.toNat + n) }).advance (n + 1)).emitAll
        (List.replicate k (s.inAt (s.pc.toNat + n)))).setPhase p) := by
  unfold wl4Rep at h
  dsimp only at h
  split at h
  · simp_all
  · split at h
    · simp_all
    · split at h
      · simp_all
      · obtain ⟨hp, rfl⟩ := produce_next h
        simp_all

/-! ## The step -/

/-- What a step can do, by the next token's format. -/
theorem step_eq (s : State) :
    step s = match s.nextCtx with
      | .nothing => .next s
      | .stop f => .fault f
      | .ctx c => match decode c s.fetchBytes with
        | .token i _ => exec i s
        | .reject r => .next (s.raise (rejectKind r)) := rfl

theorem step_of_token {s : State} {c : Ctx} {i : Instr} {rest : List Byte}
    (hc : s.nextCtx = .ctx c) (hd : decode c s.fetchBytes = .token i rest) : step s = exec i s := by
  simp [step_eq, hc, hd]

theorem step_of_reject {s : State} {c : Ctx} {r : DecodeReject} (hc : s.nextCtx = .ctx c)
    (hd : decode c s.fetchBytes = .reject r) : step s = .next (s.raise (rejectKind r)) := by
  simp [step_eq, hc, hd]

theorem nextCtx_nothing_iff (s : State) : s.nextCtx = .nothing ↔ s.busy = false := by
  unfold State.nextCtx State.busy State.status
  cases s.phase with
  | diff =>
    simp only [Phase.status]
    split
    · simp
    · split <;> simp
  | lzBlock =>
    simp only [Phase.status]
    split
    · simp
    · split <;> simp
  | hufBits =>
    simp only [Phase.status]
    split <;> simp
  | _ => simp [Phase.status]

theorem step_idle {s : State} (h : s.busy = false) : step s = .next s := by
  simp [step_eq, (nextCtx_nothing_iff s).2 h]

/-! ## Cursor arithmetic -/

theorem has_iff (s : State) (n : Nat) : s.has n = true ↔ s.pc.toNat + n ≤ s.inLen.toNat := by
  simp [State.has]

theorem has_false_iff (s : State) (n : Nat) :
    s.has n = false ↔ s.inLen.toNat < s.pc.toNat + n := by
  simp [State.has]

/-- The cursor does not wrap: `IN_LEN < 2^ADDR_W` (10_state.md R13). -/
theorem advance_toNat {s : State} {n : Nat} (h : s.has n = true) :
    (s.pc + BitVec.ofNat 32 n).toNat = s.pc.toNat + n := by
  have h1 := (has_iff s n).1 h
  have h2 := s.inLen.isLt
  simp [BitVec.toNat_add]
  omega

/-- The bytes of the next token's control field. -/
theorem inBytes_add (s : State) (a m n : Nat) :
    s.inBytes a (m + n) = s.inBytes a m ++ s.inBytes (a + m) n := by
  induction m generalizing a with
  | zero => simp [State.inBytes]
  | succ m ih =>
    rw [show m + 1 + n = (m + n) + 1 by omega, State.inBytes, ih]
    simp [State.inBytes, show a + 1 + m = a + (m + 1) by omega]

end Sys2Proof.Machine
end

