-- ==== Sys2Proof/Laws/Fetch.lean ====
section
/-! SUPPORT. What the decoder can answer, context by context, and the bytes a step fetches. -/

namespace Sys2Proof.Machine

/-! ## Decoding -/

theorem decodeOne_token {f : Byte → Instr} {bs rest : List Byte} {i : Instr}
    (h : decodeOne f bs = .token i rest) : ∃ b, bs = b :: rest ∧ i = f b := by
  cases bs with
  | nil => cases h
  | cons b bs => cases h; exact ⟨b, rfl, rfl⟩

theorem decodeTwo_token {f : Byte → Byte → Instr} {bs rest : List Byte} {i : Instr}
    (h : decodeTwo f bs = .token i rest) : ∃ b0 b1, bs = b0 :: b1 :: rest ∧ i = f b0 b1 := by
  match bs, h with
  | [], h => cases h
  | [_], h => cases h
  | b0 :: b1 :: _, h => cases h; exact ⟨b0, b1, rfl, rfl⟩

theorem decodeOne_short {f : Byte → Instr} {bs : List Byte} (h : bs.length < 1) :
    decodeOne f bs = .reject .short := by
  cases bs with
  | nil => rfl
  | cons => simp at h

theorem decodeTwo_short {f : Byte → Byte → Instr} {bs : List Byte} (h : bs.length < 2) :
    decodeTwo f bs = .reject .short := by
  match bs, h with
  | [], _ => rfl
  | [_], _ => rfl

theorem decode_hdr_token {bs rest : List Byte} {i : Instr} (h : decode .hdr bs = .token i rest) :
    ∃ b0 b1 b2 b3, bs = b0 :: b1 :: b2 :: b3 :: rest ∧ i = decodeHeader b0 (le24 b1 b2 b3) := by
  match bs, h with
  | [], h => cases h
  | [_], h => cases h
  | [_, _], h => cases h
  | [_, _, _], h => cases h
  | b0 :: b1 :: b2 :: b3 :: _, h => cases h; exact ⟨b0, b1, b2, b3, rfl, rfl⟩

theorem decode_hdr_short {bs : List Byte} (h : bs.length < 4) :
    decode .hdr bs = .reject .headerShort := by
  match bs, h with
  | [], _ => rfl
  | [_], _ => rfl
  | [_, _], _ => rfl
  | [_, _, _], _ => rfl

theorem decode_hufWord_token {bs rest : List Byte} {i : Instr}
    (h : decode .hufWord bs = .token i rest) :
    ∃ b0 b1 b2 b3, bs = b0 :: b1 :: b2 :: b3 :: rest ∧ i = .hufWord (le32 b0 b1 b2 b3) := by
  match bs, h with
  | [], h => cases h
  | [_], h => cases h
  | [_, _], h => cases h
  | [_, _, _], h => cases h
  | b0 :: b1 :: b2 :: b3 :: _, h => cases h; exact ⟨b0, b1, b2, b3, rfl, rfl⟩

theorem decode_hufWord_short {bs : List Byte} (h : bs.length < 4) :
    decode .hufWord bs = .reject .short := by
  match bs, h with
  | [], _ => rfl
  | [_], _ => rfl
  | [_, _], _ => rfl
  | [_, _, _], _ => rfl

theorem decode_wl4Type_token {bs rest : List Byte} {i : Instr}
    (h : decode .wl4Type bs = .token i rest) :
    (bs = [] ∧ rest = [] ∧ i = .wl4TIllegal none) ∨ ∃ t, bs = t :: rest ∧ i = decodeWl4Type t := by
  cases bs with
  | nil => cases h; exact .inl ⟨rfl, rfl, rfl⟩
  | cons t bs => cases h; exact .inr ⟨t, rfl, rfl⟩

/-! ## The bytes a step fetches -/

theorem fetchBytes_length (s : State) :
    s.fetchBytes.length = min 4 (s.inLen.toNat - s.fetchAddr) := by
  simp [State.fetchBytes]

/-- The first bytes fetched are those of `IN` from the fetch address. -/
theorem fetchBytes_prefix (s : State) (n : Nat) (hn : n ≤ 4)
    (h : s.fetchAddr + n ≤ s.inLen.toNat) :
    ∃ rest, s.fetchBytes = s.inBytes s.fetchAddr n ++ rest := by
  obtain ⟨m, hm⟩ : ∃ m, min 4 (s.inLen.toNat - s.fetchAddr) = n + m :=
    ⟨min 4 (s.inLen.toNat - s.fetchAddr) - n, by omega⟩
  exact ⟨s.inBytes (s.fetchAddr + n) m, by rw [State.fetchBytes, hm, inBytes_add]⟩

/-- Outside `P_HDR` and `P_WL4_TYPE` a step fetches at the cursor. -/
theorem fetchAddr_eq_pc {s : State} (h1 : s.phase ≠ .hdr) (h2 : s.phase ≠ .wl4Type) :
    s.fetchAddr = s.pc.toNat := by
  unfold State.fetchAddr
  cases hp : s.phase <;> simp_all

end Sys2Proof.Machine
end

