-- ==== Sys2Proof/Laws/Frames.lean ====
section
/-! SUPPORT. From a meaning's next state to the frames of Safety.lean: what a run, a copy, a
producing token and a silent token leave. -/

namespace Sys2Proof.Machine

theorem sameHost_of_eq {s t : State} (hp : t.params = s.params) (hm : t.mode = s.mode)
    (hl : t.inLen = s.inLen) (hi : t.inMem = s.inMem) : SameHost s t :=
  ⟨hp, hm, hl, fun a => by simp [State.inAt, hi]⟩

theorem sameOut_of_eq {s t : State} (h : t.outMem = s.outMem) : SameOut s t :=
  fun a => by simp [State.outAt, h]

theorem sameTree_of_eq {s t : State} (h : t.treeMem = s.treeMem) : SameTree s t :=
  fun a => by simp [State.treeAt, h]

/-- A `raise` is a `Raised` state. -/
theorem raised_raise (s : State) (k : Err) : Raised s (s.raise k) k :=
  ⟨sameHost_of_eq rfl rfl rfl rfl, rfl, rfl⟩

/-- A run appends its bytes: `t` is any state with the run's `OUT` and `x[OUT_LEN]`, `u` the state
the run starts from, which has the `OUT` and `x[OUT_LEN]` of `s`. -/
theorem appends_emitAll {s u t : State} (vs : List Byte) (hm : u.outMem = s.outMem)
    (hl : u.x.outLen = s.x.outLen) (htm : t.outMem = (u.emitAll vs).outMem)
    (htl : t.x.outLen = (u.emitAll vs).x.outLen)
    (h : s.x.outLen.toNat + vs.length < 2 ^ 24) : Appends s t vs := by
  have hlt : u.x.outLen.toNat + vs.length < 2 ^ 24 := by rw [hl]; exact h
  refine ⟨?_, fun i hi => ?_, fun a ha => ?_⟩
  · rw [htl, emitAll_outLen vs hlt, hl]
  · have := emitAll_outAt_new vs hlt i hi
    rwa [hl, State.outAt, ← htm] at this
  · have := emitAll_outAt_old vs hlt a (by rw [hl]; exact ha)
    rwa [State.outAt, ← htm, State.outAt, hm] at this

/-- A producing token that runs `vs` out after writing registers and moving the cursor. -/
theorem produced_emitAll {s : State} (x : Regs) (n : Nat) (vs : List Byte) (t : State)
    (hx : x.outLen = s.x.outLen) (hn : s.has n = true)
    (h : s.x.outLen.toNat + vs.length < 2 ^ 24)
    (ht : ∃ p, t = (((s.setX x).advance n).emitAll vs).setPhase p) : Produced s t n vs x := by
  obtain ⟨p, rfl⟩ := ht
  refine ⟨⟨sameHost_of_eq (by simp) (by simp) (by simp) (by simp), by simp⟩,
    sameTree_of_eq (by simp), ?_, ?_, by simp⟩
  · simpa using advance_toNat hn
  · exact appends_emitAll (u := (s.setX x).advance n) vs rfl (by simpa using hx) rfl rfl h

/-- `finish_or` of a state is the phase of `phaseAfter`. -/
theorem finishOr_eq (t : State) (p : Phase) : t.finishOr p = t.setPhase (phaseAfter t p) := by
  simp only [State.finishOr, phaseAfter, BitVec.toNat_inj]

theorem phaseAfter_congr {t u : State} (h : t.x = u.x) (p : Phase) :
    phaseAfter t p = phaseAfter u p := by simp [phaseAfter, h]

/-- A producing token of a headered format. -/
theorem produced_finishOr {s : State} (x : Regs) (n : Nat) (vs : List Byte) (p : Phase)
    (hx : x.outLen = s.x.outLen) (hn : s.has n = true)
    (h : s.x.outLen.toNat + vs.length < 2 ^ 24) :
    Produced s ((((s.setX x).advance n).emitAll vs).finishOr p) n vs x ∧
      ((((s.setX x).advance n).emitAll vs).finishOr p).phase =
        phaseAfter ((((s.setX x).advance n).emitAll vs).finishOr p) p :=
  ⟨produced_emitAll x n vs _ hx hn h ⟨_, finishOr_eq _ p⟩, by rw [finishOr_eq]; simp [phaseAfter]⟩

/-- A silent token: registers written, the cursor moved, the phase set. -/
theorem silent_of_eq {s : State} (x : Regs) (n : Nat) (p : Phase) (hn : s.has n = true) :
    Silent s (((s.setX x).advance n).setPhase p) n x p := by
  refine ⟨⟨sameHost_of_eq rfl rfl rfl rfl, rfl⟩, sameOut_of_eq rfl, sameTree_of_eq rfl, ?_, rfl, rfl⟩
  simpa using advance_toNat hn

end Sys2Proof.Machine
end

