-- ==== Sys2Proof/Laws/Host.lean ====
section
/-! SUPPORT. What the host's acts amount to: the load of a call as one record update, and the launch of
a call from it; and how the steps of a call are counted. -/

namespace Sys2Proof.Machine

theorem busy_eq_false_iff (s : State) : s.busy = false ↔ s.status ≠ .busy := by
  simp [State.busy]

/-- Writing bytes one by one is one list write. -/
theorem hostWriteBytes_eq {s : State} (h : s.busy = false) (a : Nat) (vs : List Byte)
    (hlen : a + vs.length ≤ 2 ^ 32) :
    s.hostWriteBytes a vs = .next { s with inMem := s.inMem.writeList a vs } := by
  induction vs generalizing a with
  | nil => rfl
  | cons v vs ih =>
    simp only [List.length_cons] at hlen
    have ha : (BitVec.ofNat 32 a).toNat = a := by
      rw [BitVec.toNat_ofNat]
      exact Nat.mod_eq_of_lt (by omega)
    rw [State.hostWriteBytes, ih (a + 1) (by omega)]
    change State.hostWriteIn _ _ _ = _
    unfold State.hostWriteIn
    rw [if_neg (by simpa [State.busy, State.status] using h), ha]
    rfl

/-- The load outside `BUSY`. -/
theorem loadCall_eq {s : State} (h : s.busy = false) (mode : BitVec 4) (input : List Byte)
    (hlen : input.length ≤ 2 ^ 32) :
    s.loadCall mode input = .next { s with
      inMem := s.inMem.writeList 0 input
      inLen := BitVec.ofNat 32 input.length
      mode := mode } := by
  have hb : ∀ (m : Memory) (l : Addr), ({ s with inMem := m, inLen := l } : State).busy = false :=
    fun _ _ => h
  have hm : (mode.setWidth 32).setWidth 4 = mode := by
    apply BitVec.eq_of_toNat_eq
    simp only [BitVec.toNat_setWidth]
    have := mode.isLt
    omega
  rw [State.loadCall, h, hostWriteBytes_eq h 0 input (by omega)]
  simp [State.hostWrite, hb, hm]

/-- The load while a call runs. -/
theorem loadCall_busy {s : State} (h : s.busy = true) (mode : BitVec 4) (input : List Byte) :
    s.loadCall mode input = .refused .hostBufferAccessWhileBusy := by simp [State.loadCall, h]

/-- The launch outside `BUSY`. -/
theorem beginCall_eq {s : State} (h : s.busy = false) (mode : BitVec 4) (input : List Byte)
    (hlen : input.length ≤ 2 ^ 32) :
    s.beginCall mode input = .next (State.start { s with
      inMem := s.inMem.writeList 0 input
      inLen := BitVec.ofNat 32 input.length
      mode := mode }) := by
  rw [State.beginCall, loadCall_eq h mode input hlen]
  rfl

/-- A launch while a call runs has no result. -/
theorem decodeCall_busy {s : State} (h : s.busy = true) (mode : BitVec 4) (input : List Byte) :
    decodeCall s mode input = none := by
  simp [decodeCall, runDecode, State.beginCall, loadCall_busy h, answerResult]

@[simp] theorem hostReadIn_idle {s : State} (h : s.busy = false) (a : Addr) :
    s.hostReadIn a = .value (s.inAt a.toNat) := by simp [State.hostReadIn, State.inputView, h]

@[simp] theorem hostReadIn_busy {s : State} (h : s.busy = true) (a : Addr) :
    s.hostReadIn a = .refused .hostBufferAccessWhileBusy := by simp [State.hostReadIn, h]

/-! ## Counting steps -/

@[simp] theorem countSteps_idle (f : State → Bool) (n : Nat) {s : State} (h : s.busy = false) :
    countSteps f n s = 0 := by cases n <;> simp [countSteps, h]

theorem countSteps_next (f : State → Bool) (n : Nat) {s t : State} (h : s.busy = true)
    (hs : step s = .next t) :
    countSteps f (n + 1) s = (if f s then 1 else 0) + countSteps f n t := by
  simp [countSteps, h, hs]

/-- The steps that apply a token rule are among all steps. -/
theorem tokenSteps_le_callSteps (n : Nat) (s : State) : tokenSteps n s ≤ callSteps n s := by
  unfold tokenSteps callSteps
  induction n generalizing s with
  | zero => exact Nat.le_refl 0
  | succ n ih =>
    unfold countSteps
    split
    · refine Nat.add_le_add ?_ ?_
      · split <;> simp
      · split
        · exact ih _
        · exact Nat.le_refl 0
        · exact Nat.le_refl 0
    · exact Nat.le_refl 0

end Sys2Proof.Machine
end

