-- ==== Sys2Proof/Laws/Huffman.lean ====
section
/-! SUPPORT. The tree check (44_huffman.md R150): what it says of each branch it visits, and that it
visits every reachable one. -/

namespace Sys2Proof.Machine

/-- Every child offset is greater than its parent's (R155). -/
theorem child0_gt (o : Nat) (b : BitVec 6) : o < child0 o b := by
  simp [child0]
  omega

/-- A checked branch has both children inside the table. -/
theorem treeCheck_good {tab : Nat → Byte} {T fuel o : Nat} (h : treeCheck tab T fuel o = true) :
    child0 o (branchBase (tab o)) < T ∧ child0 o (branchBase (tab o)) + 1 < T := by
  cases fuel with
  | zero => simp [treeCheck] at h
  | succ n =>
    rw [treeCheck] at h
    simp only [Bool.and_eq_true, decide_eq_true_eq] at h
    exact h.1.1

/-- More depth never makes a check fail. -/
theorem treeCheck_succ {tab : Nat → Byte} {T fuel o : Nat} (h : treeCheck tab T fuel o = true) :
    treeCheck tab T (fuel + 1) o = true := by
  induction fuel generalizing o with
  | zero => simp [treeCheck] at h
  | succ n ih =>
    rw [treeCheck] at h ⊢
    simp only [Bool.and_eq_true, Bool.or_eq_true] at h ⊢
    exact ⟨⟨h.1.1, h.1.2.imp id ih⟩, h.2.imp id ih⟩

/-- A check of the root checks every offset reached through branch links. -/
theorem treeCheck_reach {tab : Nat → Byte} {T fuel o : Nat} (h : treeCheck tab T fuel 0 = true)
    (hr : BranchReach tab o) : treeCheck tab T fuel o = true := by
  induction hr with
  | root => exact h
  | @child o bit _ hl ih =>
    cases fuel with
    | zero => simp [treeCheck] at ih
    | succ n =>
      apply treeCheck_succ
      rw [treeCheck] at ih
      simp only [Bool.and_eq_true, Bool.or_eq_true] at ih
      cases bit
      · rw [hl] at ih
        simpa [childOf] using ih.1.2
      · rw [hl] at ih
        simpa [childOf] using ih.2

/-- A table has at most 511 bytes (10_state.md R22). -/
theorem tableLen_le (s : State) : s.tableLen ≤ Config.treeBytes := by
  have := s.x.treeN.isLt
  simp [State.tableLen, Machine.tableLen, Config.treeBytes]
  omega

/-- What the table load leaves at each offset (R147). -/
theorem loadTree_treeAt (s : State) (n o : Nat) :
    (s.loadTree n).treeAt o = if o < n then s.inAt (s.pc.toNat + o) else s.treeAt o := by
  simp only [State.loadTree, State.treeAt, Memory.read, Memory.get_writeList]
  by_cases h : o < n
  · have := inBytes_getElem? s s.pc.toNat n o h
    simp only [h, Nat.zero_le, true_and, inBytes_length, Nat.zero_add, if_true, Nat.sub_zero, this]
    rfl
  · simp [h, Memory.unwritten]

end Sys2Proof.Machine
end

