-- ==== Sys2Proof/Laws/PerInstr.lean ====
section
/-! SUPPORT. Per token: its encoding has the length of 30_encoding.md R75, in both byte orders. -/

namespace Sys2Proof.Laws.ControlLength

open Sys2Proof Sys2Proof.Machine

/-- Bytes of a table entry, which are read from `TREE` and count as none of `IN` (R75). -/
def treeLen : Instr → Nat
  | .hufBr _ _ _ | .hufLeaf _ => 1
  | .hdrLz77 _ _ | .hdrHuf _ _ | .hdrRle _ _ | .hdrDiff8 _ | .hdrDiff16 _ | .hdrIllegal _ _
  | .wl4T8 | .wl4T16 | .wl4TIllegal _ | .rleLit _ | .rleRep _ | .d8W _ | .d16W _ | .lzMask _
  | .lzLit _ | .lzRef _ _ | .hufTSize _ | .hufTable | .hufCheck | .hufWord _ | .hufBit0 | .hufBit1
  | .w8End | .w8Rsv | .w8Lit _ | .w8Rep _ | .w16End | .w16Rsv | .w16Lit _ | .w16Rep _ => 0

/-- The encoding of a token has its control field's length. -/
def Statement (i : Instr) : Prop := ∀ be, (encode be i).length = controlLen i + treeLen i

theorem hdrLz77 (param : BitVec 4) (size : BitVec 24) : Statement (.hdrLz77 param size) :=
  fun _ => rfl
theorem hdrHuf (param : BitVec 4) (size : BitVec 24) : Statement (.hdrHuf param size) :=
  fun _ => rfl
theorem hdrRle (param : BitVec 4) (size : BitVec 24) : Statement (.hdrRle param size) :=
  fun _ => rfl
theorem hdrDiff8 (size : BitVec 24) : Statement (.hdrDiff8 size) := fun _ => rfl
theorem hdrDiff16 (size : BitVec 24) : Statement (.hdrDiff16 size) := fun _ => rfl
theorem hdrIllegal (first : Byte) (size : BitVec 24) : Statement (.hdrIllegal first size) :=
  fun _ => rfl
theorem wl4T8 : Statement .wl4T8 := fun _ => rfl
theorem wl4T16 : Statement .wl4T16 := fun _ => rfl
theorem wl4TIllegal (streamType : Option Byte) : Statement (.wl4TIllegal streamType) :=
  fun _ => by cases streamType <;> rfl
theorem rleLit (count : BitVec 7) : Statement (.rleLit count) := fun _ => rfl
theorem rleRep (count : BitVec 7) : Statement (.rleRep count) := fun _ => rfl
theorem d8W (word : Byte) : Statement (.d8W word) := fun _ => rfl
theorem d16W (word : BitVec 16) : Statement (.d16W word) := fun _ => rfl
theorem lzMask (mask : Byte) : Statement (.lzMask mask) := fun _ => rfl
theorem lzLit (byte : Byte) : Statement (.lzLit byte) := fun _ => rfl
theorem lzRef (len3 : BitVec 4) (disp : BitVec 12) : Statement (.lzRef len3 disp) := fun _ => rfl
theorem hufTSize (n : Byte) : Statement (.hufTSize n) := fun _ => rfl
theorem hufTable : Statement .hufTable := fun _ => rfl
theorem hufBr (leaf0 leaf1 : Bool) (base : BitVec 6) : Statement (.hufBr leaf0 leaf1 base) :=
  fun _ => rfl
theorem hufLeaf (value : Byte) : Statement (.hufLeaf value) := fun _ => rfl
theorem hufCheck : Statement .hufCheck := fun _ => rfl
theorem hufWord (word : BitVec 32) : Statement (.hufWord word) := fun _ => rfl
theorem hufBit0 : Statement .hufBit0 := fun _ => rfl
theorem hufBit1 : Statement .hufBit1 := fun _ => rfl
theorem w8End : Statement .w8End := fun _ => rfl
theorem w8Rsv : Statement .w8Rsv := fun _ => rfl
theorem w8Lit (len : BitVec 7) : Statement (.w8Lit len) := fun _ => rfl
theorem w8Rep (len : BitVec 7) : Statement (.w8Rep len) := fun _ => rfl
theorem w16End : Statement .w16End := fun be => by cases be <;> rfl
theorem w16Rsv : Statement .w16Rsv := fun be => by cases be <;> rfl
theorem w16Lit (len : BitVec 15) : Statement (.w16Lit len) := fun be => by cases be <;> rfl
theorem w16Rep (len : BitVec 15) : Statement (.w16Rep len) := fun be => by cases be <;> rfl

end Sys2Proof.Laws.ControlLength
end

