-- ==== Sys2Proof/Tests/Slice0.lean ====
section
/-! SUPPORT. Tests on words and results the spec gives, and for every obligation with hypotheses a
concrete state and operands that meet them. Expected values come from the spec's tables and
examples, named at each test; none is the model's own answer. -/

namespace Sys2Proof.Tests

open Sys2Proof Sys2Proof.Machine

/-! ## WellFormed refuses an ill-formed term for each check -/

theorem test_wf_hdrIllegal_lz77 : Instr.wf (.hdrIllegal 0x10#8 0#24) = false := by decide
theorem test_wf_hdrIllegal_huf : Instr.wf (.hdrIllegal 0x2F#8 0#24) = false := by decide
theorem test_wf_hdrIllegal_rle : Instr.wf (.hdrIllegal 0x35#8 0#24) = false := by decide
theorem test_wf_hdrIllegal_diff8 : Instr.wf (.hdrIllegal 0x81#8 0#24) = false := by decide
theorem test_wf_hdrIllegal_diff16 : Instr.wf (.hdrIllegal 0x82#8 0#24) = false := by decide
theorem test_wf_wl4TIllegal_one : Instr.wf (.wl4TIllegal (some 1#8)) = false := by decide
theorem test_wf_wl4TIllegal_two : Instr.wf (.wl4TIllegal (some 2#8)) = false := by decide
theorem test_wf_w8Lit_zero : Instr.wf (.w8Lit 0#7) = false := by decide
theorem test_wf_w8Rep_zero : Instr.wf (.w8Rep 0#7) = false := by decide
theorem test_wf_w16Lit_zero : Instr.wf (.w16Lit 0#15) = false := by decide
theorem test_wf_w16Rep_zero : Instr.wf (.w16Rep 0#15) = false := by decide

/-! ## Every constructor's decoding, by a word written from the spec's encoding (30_encoding.md R61 to
R73, R76, R84) -/

theorem test_decode_hdrLz77 : decode .hdr [0b00010000#8, 0x0B#8, 0x00#8, 0x00#8] =
    .token (.hdrLz77 0#4 11#24) [] := by decide
theorem test_decode_hdrHuf : decode .hdr [0b00101000#8, 0x01#8, 0x02#8, 0x03#8] =
    .token (.hdrHuf 8#4 0x030201#24) [] := by decide
theorem test_decode_hdrRle : decode .hdr [0b00111111#8, 0x08#8, 0x00#8, 0x80#8] =
    .token (.hdrRle 15#4 0x800008#24) [] := by decide
theorem test_decode_hdrDiff8 : decode .hdr [0b10000001#8, 0x10#8, 0x00#8, 0x00#8] =
    .token (.hdrDiff8 16#24) [] := by decide
theorem test_decode_hdrDiff16 : decode .hdr [0b10000010#8, 0x06#8, 0x00#8, 0x00#8] =
    .token (.hdrDiff16 6#24) [] := by decide
theorem test_decode_hdrIllegal_type : decode .hdr [0x40#8, 0x00#8, 0x00#8, 0x00#8] =
    .token (.hdrIllegal 0x40#8 0#24) [] := by decide
theorem test_decode_hdrIllegal_param : decode .hdr [0x80#8, 0x00#8, 0x00#8, 0x00#8] =
    .token (.hdrIllegal 0x80#8 0#24) [] := by decide
theorem test_decode_wl4T8 : decode .wl4Type [0x01#8] = .token .wl4T8 [] := by decide
theorem test_decode_wl4T16 : decode .wl4Type [0x02#8] = .token .wl4T16 [] := by decide
theorem test_decode_wl4TIllegal : decode .wl4Type [0x03#8] = .token (.wl4TIllegal (some 3#8)) [] := by
  decide
theorem test_decode_wl4TIllegal_none : decode .wl4Type [] = .token (.wl4TIllegal none) [] := by decide
theorem test_decode_rleLit : decode .rle [0b01111111#8] = .token (.rleLit 127#7) [] := by decide
theorem test_decode_rleRep : decode .rle [0b10000001#8] = .token (.rleRep 1#7) [] := by decide
theorem test_decode_d8W : decode .diff8 [0xF0#8] = .token (.d8W 0xF0#8) [] := by decide
theorem test_decode_d16W : decode .diff16 [0x34#8, 0x12#8] = .token (.d16W 0x1234#16) [] := by decide
theorem test_decode_lzMask : decode .lzMask [0x10#8] = .token (.lzMask 0x10#8) [] := by decide
theorem test_decode_lzLit : decode .lzLit [0x41#8] = .token (.lzLit 0x41#8) [] := by decide
theorem test_decode_lzRef : decode .lzRef [0b00110001#8, 0b00000010#8] =
    .token (.lzRef 3#4 0x102#12) [] := by decide
theorem test_decode_hufTSize : decode .hufTSize [0xFF#8] = .token (.hufTSize 255#8) [] := by decide
theorem test_decode_hufTable : decode .hufTable [0xC0#8] = .token .hufTable [0xC0#8] := by decide
theorem test_decode_hufBr : decode .treeBranch [0b10000101#8] = .token (.hufBr true false 5#6) [] := by
  decide
theorem test_decode_hufBr_leaf1 : decode .treeBranch [0b01000000#8] =
    .token (.hufBr false true 0#6) [] := by decide
theorem test_decode_hufLeaf : decode .treeLeaf [0x41#8] = .token (.hufLeaf 0x41#8) [] := by decide
theorem test_decode_hufCheck : decode .hufCheck [] = .token .hufCheck [] := by decide
theorem test_decode_hufWord : decode .hufWord [0x01#8, 0x02#8, 0x03#8, 0x50#8] =
    .token (.hufWord 0x50030201#32) [] := by decide
theorem test_decode_hufBit0 : decode (.hufBit false) [] = .token .hufBit0 [] := by decide
theorem test_decode_hufBit1 : decode (.hufBit true) [] = .token .hufBit1 [] := by decide
theorem test_decode_w8End : decode .w8 [0b00000000#8] = .token .w8End [] := by decide
theorem test_decode_w8Rsv : decode .w8 [0b10000000#8] = .token .w8Rsv [] := by decide
theorem test_decode_w8Lit : decode .w8 [0b01111111#8] = .token (.w8Lit 127#7) [] := by decide
theorem test_decode_w8Rep : decode .w8 [0b10000001#8] = .token (.w8Rep 1#7) [] := by decide
theorem test_decode_w16End : decode (.w16 true) [0x00#8, 0x00#8] = .token .w16End [] := by decide
theorem test_decode_w16Rsv : decode (.w16 true) [0x80#8, 0x00#8] = .token .w16Rsv [] := by decide
theorem test_decode_w16Rsv_le : decode (.w16 false) [0x00#8, 0x80#8] = .token .w16Rsv [] := by decide
theorem test_decode_w16Lit : decode (.w16 true) [0x01#8, 0x02#8] = .token (.w16Lit 0x102#15) [] := by
  decide
theorem test_decode_w16Rep : decode (.w16 true) [0xFF#8, 0xFE#8] = .token (.w16Rep 0x7FFE#15) [] := by
  decide
theorem test_decode_w16Rep_le : decode (.w16 false) [0x03#8, 0x80#8] = .token (.w16Rep 3#15) [] := by
  decide
theorem test_decode_header_short : decode .hdr [0x10#8, 0x01#8, 0x00#8] = .reject .headerShort := by
  decide
theorem test_decode_word_short : decode .lzRef [0x30#8] = .reject .short := by decide

/-- The assembler line of 30_encoding.md R84 for 43_lz77.md R133's example. -/
theorem test_assemble_lzRef : assemble true (.lzRef 3 6) = [0x30#8, 0x02#8] := by decide
theorem test_table_word_w16Rep : decodeTableWord 16 0x8003 = some (.w16Rep 3#15) := by decide
theorem test_table_word_rle : decodeTableWord 8 0x84 = some (.rleRep 4#7) := by decide

/-! ## One step of every instruction, on the examples of files 40 to 45 -/

/-- A state in phase `p` with registers `x`, cursor `pc`, the bytes `inp` at the cursor and no more,
the output `out` and the table `tab`. -/
def st (p : Phase) (x : Regs) (pc : Nat) (inp out tab : List Byte) : State :=
  { State.reset with
    phase := p
    x := x
    pc := BitVec.ofNat 32 pc
    inLen := BitVec.ofNat 32 (pc + inp.length)
    inMem := State.reset.inMem.writeList pc inp
    outMem := State.reset.outMem.writeList 0 out
    treeMem := State.reset.treeMem.writeList 0 tab }

/-- Registers with an output length and a declared size. -/
def rg (outLen size : Nat) : Regs :=
  { Regs.zero with outLen := BitVec.ofNat 24 outLen, size := BitVec.ofNat 24 size }

/-- What a test sees of a next state: phase, cursor, output. -/
def view : Answer → Option (Phase × Nat × List Byte)
  | .next t => some (t.phase, t.pc.toNat, t.output)
  | .fault _ | .refused _ => none

/-- What a test sees of the registers. -/
def regs {α : Type} (f : Regs → α) : Answer → Option α
  | .next t => some (f t.x)
  | .fault _ | .refused _ => none

/-- What a test sees of an error. -/
def err : Answer → Option (Phase × Err)
  | .next t => some (t.phase, t.err)
  | .fault _ | .refused _ => none

def hdrSt (inp : List Byte) : State := st .hdr Regs.zero 0 inp [] []

/-- 40_header_dispatch.md R94. -/
theorem test_step_hdrLz77 :
    view (step (hdrSt [0x10#8, 0x0B#8, 0x00#8, 0x00#8])) = some (.lzMask, 4, []) := by decide
theorem test_step_hdrLz77_empty :
    view (step (hdrSt [0x10#8, 0x00#8, 0x00#8, 0x00#8])) = some (.done, 4, []) := by decide
/-- R95. -/
theorem test_step_hdrHuf : regs (fun x => (x.param, x.size))
    (step (hdrSt [0x28#8, 0x08#8, 0x00#8, 0x00#8])) = some (8#4, 8#24) := by decide
theorem test_step_hdrHuf_empty :
    view (step (hdrSt [0x20#8, 0x00#8, 0x00#8, 0x00#8])) = some (.hufTSize, 4, []) := by decide
/-- R96. -/
theorem test_step_hdrRle :
    view (step (hdrSt [0x30#8, 0x08#8, 0x00#8, 0x00#8])) = some (.rle, 4, []) := by decide
theorem test_step_hdrRle_wrong_mode :
    err (step { hdrSt [0x30#8, 0x08#8, 0x00#8, 0x00#8] with mode := 1#4 }) =
      some (.fault, .invalidFormat) := by decide
/-- R97. -/
theorem test_step_hdrDiff8 : regs (fun x => (x.param, x.size))
    (step (hdrSt [0x81#8, 0x10#8, 0x00#8, 0x00#8])) = some (1#4, 16#24) := by decide
/-- R98. -/
theorem test_step_hdrDiff16 :
    view (step (hdrSt [0x82#8, 0x06#8, 0x00#8, 0x00#8])) = some (.diff, 4, []) := by decide
theorem test_step_hdrDiff16_odd :
    err (step (hdrSt [0x82#8, 0x03#8, 0x00#8, 0x00#8])) = some (.fault, .invalidFormat) := by decide
/-- R99. -/
theorem test_step_hdrIllegal_type :
    err (step (hdrSt [0x40#8, 0x00#8, 0x00#8, 0x00#8])) = some (.fault, .invalidFormat) := by decide
theorem test_step_hdrIllegal_param :
    err (step (hdrSt [0x83#8, 0x00#8, 0x00#8, 0x00#8])) = some (.fault, .invalidFormat) := by decide
/-- 45_wl4.md R166 to R168. -/
theorem test_step_wl4T8 :
    view (step (st .wl4Type Regs.zero 0 [0x01#8] [] [])) = some (.w8, 1, []) := by decide
theorem test_step_wl4T16 :
    view (step (st .wl4Type Regs.zero 0 [0x02#8] [] [])) = some (.w16, 1, []) := by decide
theorem test_step_wl4TIllegal :
    err (step (st .wl4Type Regs.zero 0 [0x03#8, 0x00#8] [] [])) = some (.fault, .invalidFormat) := by
  decide
theorem test_step_wl4TIllegal_none :
    err (step (st .wl4Type Regs.zero 0 [] [] [])) = some (.fault, .invalidFormat) := by decide
/-- 41_rle.md R111. -/
theorem test_step_rleLit :
    view (step (st .rle (rg 0 8) 4 [0x03#8, 1#8, 2#8, 3#8, 4#8] [] [])) =
      some (.rle, 9, [1#8, 2#8, 3#8, 4#8]) := by decide
/-- R111: `OutOfBounds` wins over a payload cut short. -/
theorem test_step_rleLit_order :
    err (step (st .rle (rg 0 2) 4 [0x03#8] [] [])) = some (.fault, .outOfBounds) := by decide
/-- R112. -/
theorem test_step_rleRep :
    view (step (st .rle (rg 4 8) 9 [0x81#8, 5#8] [1#8, 2#8, 3#8, 4#8] [])) =
      some (.done, 11, [1#8, 2#8, 3#8, 4#8, 5#8, 5#8, 5#8, 5#8]) := by decide
/-- 42_diff.md R121. -/
theorem test_step_d8W :
    view (step (st .diff { rg 1 3 with param := 1#4, acc := 0xF0#16 } 5 [0x10#8] [0xF0#8] [])) =
      some (.diff, 6, [0xF0#8, 0x00#8]) := by decide
/-- R122. -/
theorem test_step_d16W :
    view (step (st .diff { rg 2 4 with param := 2#4, acc := 0x00FF#16 } 6 [0x01#8, 0x00#8]
      [0xFF#8, 0x00#8] [])) = some (.done, 8, [0xFF#8, 0x00#8, 0x00#8, 0x01#8]) := by decide
/-- 43_lz77.md R131: 0x10 marks block 3 as a backreference. -/
theorem test_step_lzMask :
    regs (fun x => (x.mask, x.slot)) (step (st .lzMask (rg 0 8) 4 [0x10#8] [] [])) =
      some (0x10#8, 0#4) := by decide
theorem test_mask_bits : (List.range 8).map (maskBit 0x10#8) =
    [false, false, false, true, false, false, false, false] := by decide
/-- R132, R136: the last block of a chunk. -/
theorem test_step_lzLit :
    view (step (st .lzBlock { rg 0 8 with slot := 7#4 } 5 [0x41#8] [] [])) =
      some (.lzMask, 6, [0x41#8]) := by decide
/-- R133. -/
theorem test_step_lzRef :
    view (step (st .lzBlock { rg 3 11 with mask := 0x10#8, slot := 3#4 } 8 [0x30#8, 0x02#8]
      [0x41#8, 0x42#8, 0x43#8] [])) = some (.lzBlock, 10,
        [0x41#8, 0x42#8, 0x43#8, 0x41#8, 0x42#8, 0x43#8, 0x41#8, 0x42#8, 0x43#8]) := by decide
/-- R135: a backreference as the first block. -/
theorem test_step_lzRef_first :
    err (step (st .lzBlock { rg 0 8 with mask := 0x80#8 } 5 [0x00#8, 0x00#8] [] [])) =
      some (.fault, .outOfBounds) := by decide
/-- 44_huffman.md R146. -/
theorem test_step_hufTSize :
    regs (fun x => x.treeN) (step (st .hufTSize (rg 0 8) 4 [0x01#8] [] [])) = some 1#8 := by decide

/-- What a test sees of the table. -/
def table (n : Nat) : Answer → Option (Nat × List Byte)
  | .next t => some (t.pc.toNat, (List.range n).map t.treeAt)
  | .fault _ | .refused _ => none

/-- R147. -/
theorem test_step_hufTable :
    table 3 (step (st .hufTable { rg 0 8 with treeN := 1#8 } 5 [0xC0#8, 0x41#8, 0x42#8] [] [])) =
      some (8, [0xC0#8, 0x41#8, 0x42#8]) := by decide
/-- R150. -/
theorem test_step_hufCheck :
    view (step (st .hufCheck { rg 0 8 with treeN := 1#8 } 8 [] [] [0xC0#8, 0x41#8, 0x42#8])) =
      some (.hufBits, 8, []) := by decide
theorem test_step_hufCheck_outside :
    err (step (st .hufCheck { rg 0 8 with treeN := 1#8 } 8 [] [] [0xC1#8, 0x41#8, 0x42#8])) =
      some (.fault, .outOfBounds) := by decide

/-- A state in `P_HUF_BITS`. -/
def bits (win : BitVec 32) (cnt : BitVec 6) (inp tab : List Byte) : State :=
  st .hufBits { rg 0 8 with
    treeN := BitVec.ofNat 8 (tab.length / 2), bitWin := win, bitCnt := cnt } 8 inp [] tab

/-- R151: `00 00 00 50` gives the window 0x50000000, whose first bit, 0, is taken. -/
theorem test_step_hufWord :
    regs (fun x => (x.bitWin, x.bitCnt))
      (step (bits 0#32 0#6 [0x00#8, 0x00#8, 0x00#8, 0x50#8] [0xC0#8, 0x41#8, 0x42#8])) =
      some (0xA0000000#32, 31#6) := by decide
/-- R152. -/
theorem test_step_hufBit0 :
    view (step (bits 0#32 32#6 [] [0xC0#8, 0x41#8, 0x42#8])) = some (.hufBits, 8, [0x41#8]) := by decide
/-- R153. -/
theorem test_step_hufBit1 :
    view (step (bits 0x80000000#32 32#6 [] [0xC0#8, 0x41#8, 0x42#8])) =
      some (.hufBits, 8, [0x42#8]) := by decide
/-- R153: a bit that leads to a branch. -/
theorem test_step_hufBit1_branch :
    regs (fun x => x.node) (step (bits 0x80000000#32 32#6 []
      [0x80#8, 0x41#8, 0xC0#8, 0x42#8, 0x43#8])) = some 2#10 := by decide
/-- R148: `b = 0xC0` at offset 0 has children 1 and 2, both leaves. -/
theorem test_step_hufBr :
    view (exec (.hufBr true true 0#6) (bits 0x80000000#32 32#6 [] [0xC0#8, 0x41#8, 0x42#8])) =
      some (.hufBits, 8, [0x42#8]) := by decide
/-- R149. -/
theorem test_step_hufLeaf :
    view (exec (.hufLeaf 0x41#8) (bits 0#32 31#6 [] [0xC0#8, 0x41#8, 0x42#8])) =
      some (.hufBits, 8, [0x41#8]) := by decide
/-- 45_wl4.md R169. -/
theorem test_step_w8End :
    view (step (st .w8 Regs.zero 1 [0x00#8] [] [])) = some (.done, 2, []) := by decide
/-- R172. -/
theorem test_step_w8Rsv :
    err (step (st .w8 Regs.zero 1 [0x80#8, 0x41#8, 0x00#8] [] [])) = some (.fault, .invalidFormat) := by
  decide
/-- R170. -/
theorem test_step_w8Lit :
    view (step (st .w8 Regs.zero 1 [0x03#8, 0x41#8, 0x42#8, 0x43#8] [] [])) =
      some (.w8, 5, [0x41#8, 0x42#8, 0x43#8]) := by decide
/-- R171. -/
theorem test_step_w8Rep :
    view (step (st .w8 Regs.zero 1 [0x84#8, 0x5A#8] [] [])) =
      some (.w8, 3, [0x5A#8, 0x5A#8, 0x5A#8, 0x5A#8]) := by decide
/-- R174. -/
theorem test_step_w16End :
    view (step (st .w16 Regs.zero 1 [0x00#8, 0x00#8] [] [])) = some (.done, 3, []) := by decide
/-- R177. -/
theorem test_step_w16Rsv :
    err (step (st .w16 Regs.zero 1 [0x80#8, 0x00#8, 0x41#8] [] [])) = some (.fault, .invalidFormat) := by
  decide
/-- R175. -/
theorem test_step_w16Lit :
    view (step (st .w16 Regs.zero 1 [0x00#8, 0x02#8, 0x41#8, 0x42#8] [] [])) =
      some (.w16, 5, [0x41#8, 0x42#8]) := by decide
/-- R176. -/
theorem test_step_w16Rep :
    view (step (st .w16 Regs.zero 1 [0x80#8, 0x03#8, 0x5A#8] [] [])) =
      some (.w16, 4, [0x5A#8, 0x5A#8, 0x5A#8]) := by decide
/-- 60_exceptions.md R204, 48_reference_encoders.md R192. -/
theorem test_huffmanCompress : huffmanCompress [] = .error .unimplemented := rfl

/-! ## Witnesses: states and operands that meet the hypotheses of each obligation, clause by clause -/

theorem witness_DecodeOfEncodeIsTheToken :
    Instr.wf (.w16Rep 0x7FFF#15) = true ∧
    ((Instr.w16Rep 0x7FFF#15 = .wl4TIllegal none) → [0x5A#8] = ([] : List Byte)) := by decide
theorem witness_DecodeOfEncodeIsTheToken_none :
    Instr.wf (.wl4TIllegal none) = true ∧
    ((Instr.wl4TIllegal none = .wl4TIllegal none) → ([] : List Byte) = []) := by decide
theorem witness_DecodedTokensReencodeToTheirBytes :
    (∀ b, Ctx.w16 false = .w16 b → b = false) ∧
    decode (.w16 false) [0x03#8, 0x80#8, 0x5A#8] = .token (.w16Rep 3#15) [0x5A#8] :=
  ⟨fun b h => by cases h; rfl, by decide⟩
theorem witness_AssemblerLinesAssembleToTheirTokens_lzRef :
    (AsmLine.lzRef 4096 18).legal = true ∧
    (AsmLine.lzRef 4096 18).token = some (.lzRef 15#4 0xFFF#12, []) := by decide
theorem witness_AssemblerLinesAssembleToTheirTokens_rleLit :
    (AsmLine.rleLit [7#8]).legal = true ∧
    (AsmLine.rleLit [7#8]).token = some (.rleLit 0#7, [7#8]) := by decide
theorem witness_AssemblerLinesAssembleToTheirTokens_raw :
    Instr.wf (.hdrIllegal 0x83#8 0x030201#24) = true ∧ (AsmLine.byte 7#8).token = none := by decide
/-- 30_encoding.md R84: `HDR.RAW 0x83, 0x030201`. -/
theorem test_assemble_hdrRaw :
    assemble true (.hdrRaw 0x83#8 0x030201#24) = [0x83#8, 0x01#8, 0x02#8, 0x03#8] := by decide

/-- A state in which the next token is an RLE control byte. -/
def rleSt : State := st .rle (rg 0 1) 4 [0x00#8, 0x41#8] [] []

theorem witness_StepRunsTheDecodedToken :
    rleSt.nextCtx = .ctx .rle ∧
    decode .rle rleSt.fetchBytes = .token (.rleLit 0#7) [0x41#8] := by decide
theorem witness_IdleBlockDoesNothing :
    State.reset.phase = .idle ∧ (st .done Regs.zero 2 [] [] []).phase = .done ∧
    (st .fault Regs.zero 2 [] [] []).phase = .fault := by decide

/-- No control byte, one, and two. -/
def cut (p : Phase) (inp : List Byte) : State := st p (rg 0 8) 4 inp [] []

theorem witness_ControlFieldsSelectTheRunToken_cut :
    (cut .rle []).inLen.toNat < (cut .rle []).pc.toNat + 1 ∧
    (cut .w8 []).inLen.toNat < (cut .w8 []).pc.toNat + 1 ∧
    (cut .w16 [0#8]).inLen.toNat < (cut .w16 [0#8]).pc.toNat + 2 := by decide
theorem witness_ControlFieldsSelectTheRunToken_full :
    (cut .rle [0#8]).pc.toNat + 1 ≤ (cut .rle [0#8]).inLen.toNat ∧
    (cut .w8 [0#8]).pc.toNat + 1 ≤ (cut .w8 [0#8]).inLen.toNat ∧
    (cut .w16 [0#8, 0#8]).pc.toNat + 2 ≤ (cut .w16 [0#8, 0#8]).inLen.toNat := by decide

/-- A state in `P_LZ_BLOCK` at a slot of a mask. -/
def lzSt (mask : Byte) (slot : BitVec 4) (inp : List Byte) : State :=
  st .lzBlock { rg 3 21 with mask := mask, slot := slot } 8 inp [0x41#8, 0x42#8, 0x43#8] []
/-- A state in `P_DIFF` with a word size. -/
def diffSt (param : BitVec 4) (inp : List Byte) : State :=
  st .diff { rg 2 4 with param := param, acc := 0xFFFF#16 } 6 inp [0xFF#8, 0xFF#8] []
/-- A state at the start of the bit phase with `n` bits in the window. -/
def bitSt (cnt : BitVec 6) (inp : List Byte) : State :=
  bits 0x80000000#32 cnt inp [0xC0#8, 0x41#8, 0x42#8]

theorem witness_BodyPhasesReadTheirTokens_bytes :
    (cut .lzMask [0#8]).pc.toNat + 1 ≤ (cut .lzMask [0#8]).inLen.toNat ∧
    (cut .hufTSize [0#8]).pc.toNat + 1 ≤ (cut .hufTSize [0#8]).inLen.toNat ∧
    (cut .hufTable []).phase = .hufTable ∧ (cut .hufCheck []).phase = .hufCheck := by decide
theorem witness_BodyPhasesReadTheirTokens_lzLit :
    let s := lzSt 0xFE#8 7#4 [0x41#8]
    s.phase = .lzBlock ∧ s.x.slot.toNat < 8 ∧ s.x.mask.getLsbD (7 - s.x.slot.toNat) = false ∧
    s.pc.toNat + 1 ≤ s.inLen.toNat := by decide
theorem witness_BodyPhasesReadTheirTokens_lzRef :
    let s := lzSt 0x80#8 0#4 [0x30#8, 0x02#8]
    s.phase = .lzBlock ∧ s.x.slot.toNat < 8 ∧ s.x.mask.getLsbD (7 - s.x.slot.toNat) = true ∧
    s.pc.toNat + 2 ≤ s.inLen.toNat := by decide
theorem witness_BodyPhasesReadTheirTokens_diff :
    (diffSt 1#4 [2#8]).x.param = 1#4 ∧
    (diffSt 1#4 [2#8]).pc.toNat + 1 ≤ (diffSt 1#4 [2#8]).inLen.toNat ∧
    (diffSt 2#4 [2#8, 0#8]).x.param = 2#4 ∧
    (diffSt 2#4 [2#8, 0#8]).pc.toNat + 2 ≤ (diffSt 2#4 [2#8, 0#8]).inLen.toNat := by decide
theorem witness_BodyPhasesReadTheirTokens_bits :
    (bitSt 0#6 [0#8, 0#8, 0#8, 0#8]).phase = .hufBits ∧
    (bitSt 0#6 [0#8, 0#8, 0#8, 0#8]).x.bitCnt = 0#6 ∧
    (bitSt 0#6 [0#8, 0#8, 0#8, 0#8]).pc.toNat + 4 ≤ (bitSt 0#6 [0#8, 0#8, 0#8, 0#8]).inLen.toNat ∧
    (bitSt 1#6 []).x.bitCnt ≠ 0#6 := by decide
theorem witness_CutFieldsRaiseTruncated_byte :
    (cut .lzMask []).inLen.toNat < (cut .lzMask []).pc.toNat + 1 ∧
    (cut .hufTSize []).inLen.toNat < (cut .hufTSize []).pc.toNat + 1 := by decide
theorem witness_CutFieldsRaiseTruncated_block :
    let s := lzSt 0x80#8 0#4 [0x30#8]
    s.x.slot.toNat < 8 ∧ s.inLen.toNat <
      s.pc.toNat + if s.x.mask.getLsbD (7 - s.x.slot.toNat) then 2 else 1 := by decide
theorem witness_CutFieldsRaiseTruncated_word :
    let s := diffSt 2#4 [2#8]
    s.phase = .diff ∧ s.x.param = 2#4 ∧ s.inLen.toNat < s.pc.toNat + s.x.param.toNat := by decide
theorem witness_CutFieldsRaiseTruncated_table :
    let s := st .hufTable { rg 0 8 with treeN := 1#8 } 5 [0xC0#8, 0x41#8] [] []
    s.phase = .hufTable ∧ s.inLen.toNat < s.pc.toNat + (2 * s.x.treeN.toNat + 1) := by decide
theorem witness_CutFieldsRaiseTruncated_bits :
    let s := bitSt 0#6 [0#8, 0#8, 0#8]
    s.phase = .hufBits ∧ s.x.bitCnt = 0#6 ∧ s.inLen.toNat < s.pc.toNat + 4 := by decide
theorem witness_FaultingTokensLeaveOnlyTheRaise :
    exec (.hdrIllegal 0x40#8 0#24) rleSt = .next (rleSt.raise .invalidFormat) ∧
    (rleSt.raise .invalidFormat).phase = .fault := ⟨rfl, rfl⟩

/-- A block that is not running, with a mode. -/
def idleSt (mode : BitVec 4) : State := { State.reset with mode := mode }

theorem witness_StartBeginsACall_busy : rleSt.status = .busy := by decide
theorem witness_StartBeginsACall_modes :
    (idleSt 8#4).status ≠ .busy ∧ (idleSt 8#4).mode = 8#4 ∧ (idleSt 4#4).mode = 4#4 := by decide
theorem witness_StartBeginsACall_reserved :
    (idleSt 7#4).status ≠ .busy ∧ (idleSt 7#4).mode = 7#4 ∧ 9 ≤ (idleSt 9#4).mode.toNat ∧
    9 ≤ (idleSt 15#4).mode.toNat := by decide
theorem witness_HostWritesObeyTheAccessRules :
    rleSt.status = .busy ∧ (idleSt 0#4).status ≠ .busy ∧ (1#32).getLsbD 0 = true ∧
    (2#32).getLsbD 0 = false ∧ 4 ≠ (5#32).toNat ∧
    [7#8].length < 2 ^ 32 := by decide
/-- 70_reset_and_hazards.md R223: a byte written to `IN` is read back. -/
theorem test_hostWriteIn :
    (match (idleSt 0#4).hostWriteIn 5#32 0x41#8 with
      | .next t => some (t.hostReadIn 5#32)
      | .fault _ | .refused _ => none) = some (.value 0x41#8) := by decide
theorem witness_HostReadsFollowTheInteractionTable :
    let s := st .done (rg 1 1) 6 [] [0x41#8] []
    s.status = .done ∧ 0 < s.x.outLen.toNat ∧ s.x.outLen.toNat ≤ 1 ∧ rleSt.status = .busy ∧
    (st .fault Regs.zero 0 [] [] []).status = .fault := by decide
theorem witness_HostReadsFollowTheInteractionTable_rows :
    (idleSt 0#4).status = .idle ∧ rleSt.status ≠ .fault ∧
    rleSt.phase ∈ [Phase.rle, .diff, .lzMask, .lzBlock, .hufTSize, .hufTable, .hufCheck, .hufBits] ∧
    (hdrSt []).phase ∈ [Phase.hdr, .wl4Type, .w8, .w16] := by decide
theorem witness_ResetLeavesTheSpecifiedRegisters :
    State.reset = State.reset ∧ ∃ s : State, rleSt.hostReset = s.hostReset := ⟨rfl, rleSt, rfl⟩

theorem witness_HeaderTokensComplete :
    let s := hdrSt [0#8, 0#8, 0#8, 0#8]
    4 ≤ s.inLen.toNat ∧ (0xFFFFFE#24).toNat ≤ s.params.outCap.toNat ∧ s.mode = 0#4 ∧
    (0xFFFFFE#24).toNat % 2 = 0 := by decide
theorem witness_HeaderTokensComplete_modes :
    let s (m : BitVec 4) : State := { hdrSt [0#8, 0#8, 0#8, 0#8] with mode := m }
    (s 1#4).mode = 1#4 ∧ (s 2#4).mode = 2#4 ∧ (s 3#4).mode = 3#4 ∧ (s 8#4).mode = 8#4 ∧
    4 ≤ (s 8#4).inLen.toNat ∧ (0#24).toNat ≤ (s 8#4).params.outCap.toNat := by decide
theorem witness_HeaderChecksInOrder_badFormat :
    (hdrSt [0x10#8, 0#8, 0#8]).phase = .hdr ∧ (hdrSt [0x10#8, 0#8, 0#8]).inLen.toNat < 4 := by decide
/-- A 16-bit delta header with even size, and a capacity below it, or equal to it. -/
def capSt (cap : BitVec 24) : State :=
  { hdrSt [0x82#8, 0x02#8, 0x00#8, 0x00#8] with
    params := { Params.default with outCap := cap }, mode := 8#4 }
theorem witness_HeaderChecksInOrder_tooLarge :
    let s := capSt 1#24
    ¬ s.inLen.toNat < 4 ∧ (s.inAt 0).toNat / 16 = 8 ∧ (s.inAt 0).toNat % 16 = 2 ∧
    s.mode.toNat = 8 ∧ (s.inAt 1).toNat % 2 = 0 ∧ s.params.outCap.toNat < (s.inAt 1).toNat := by decide
theorem witness_HeaderChecksInOrder_accepted :
    let s := capSt 2#24
    ¬ s.inLen.toNat < 4 ∧ (s.inAt 0).toNat / 16 = 8 ∧ (s.inAt 0).toNat % 16 = 2 ∧
    s.mode.toNat = 8 ∧ (s.inAt 1).toNat = 2 ∧ (s.inAt 2).toNat = 0 ∧ (s.inAt 3).toNat = 0 ∧
    2 ≤ s.params.outCap.toNat := by decide

/-- The bounds of the decode clauses of RleLiteralRun and RleRepeatRun. -/
theorem witness_RleRuns_decode : (0x00#8).toNat ≤ 0x7F ∧ (0x7F#8).toNat ≤ 0x7F ∧
    0x80 ≤ (0x80#8).toNat ∧ 0x80 ≤ (0xFF#8).toNat := by decide

/-- The bounds of the decode clauses of Wl4LiteralRuns and Wl4RepeatRuns. -/
theorem witness_Wl4Runs_decode :
    (1 ≤ (0x01#8).toNat ∧ (0x7F#8).toNat ≤ 0x7F ∧ 0x81 ≤ (0x81#8).toNat) ∧
      1 ≤ 256 * (0x00#8).toNat + (0x01#8).toNat ∧
      256 * (0x7F#8).toNat + (0xFF#8).toNat ≤ 0x7FFF ∧
      0x8001 ≤ 256 * (0x80#8).toNat + (0x01#8).toNat := by decide

theorem witness_RleLiteralRun_completes :
    rleSt.pc.toNat + 1 + ((0#7).toNat + 1) ≤ rleSt.inLen.toNat ∧
    rleSt.x.outLen.toNat + ((0#7).toNat + 1) ≤ rleSt.x.size.toNat ∧
    rleSt.x.size.toNat ≤ rleSt.params.outCap.toNat := by decide
theorem witness_RleLiteralRun_errors :
    (cut .rle []).inLen.toNat < (cut .rle []).pc.toNat + 1 ∧
    rleSt.pc.toNat + 1 ≤ rleSt.inLen.toNat ∧
    rleSt.x.size.toNat < rleSt.x.outLen.toNat + ((1#7).toNat + 1) ∧
    (cut .rle [7#8]).inLen.toNat < (cut .rle [7#8]).pc.toNat + 1 + ((7#7).toNat + 1) ∧
    (cut .rle [7#8]).x.outLen.toNat + ((7#7).toNat + 1) ≤ (cut .rle [7#8]).x.size.toNat := by decide
theorem witness_RleRepeatRun_completes :
    let s := st .rle (rg 0 130) 4 [0xFF#8, 0x41#8] [] []
    s.pc.toNat + 2 ≤ s.inLen.toNat ∧
    s.x.outLen.toNat + ((127#7).toNat + 3) ≤ s.x.size.toNat ∧
    s.x.size.toNat ≤ s.params.outCap.toNat := by decide
theorem witness_RleRepeatRun_errors :
    (cut .rle []).inLen.toNat < (cut .rle []).pc.toNat + 1 ∧
    rleSt.pc.toNat + 1 ≤ rleSt.inLen.toNat ∧
    rleSt.x.size.toNat < rleSt.x.outLen.toNat + ((0#7).toNat + 3) ∧
    (cut .rle [0x85#8]).inLen.toNat < (cut .rle [0x85#8]).pc.toNat + 2 ∧
    (cut .rle [0x85#8]).x.outLen.toNat + ((5#7).toNat + 3) ≤ (cut .rle [0x85#8]).x.size.toNat := by
  decide
theorem witness_Delta8Word :
    let s := diffSt 1#4 [2#8]
    s.pc.toNat + 1 ≤ s.inLen.toNat ∧ s.x.outLen.toNat + 1 ≤ s.params.outCap.toNat ∧
    (diffSt 1#4 []).inLen.toNat < (diffSt 1#4 []).pc.toNat + 1 := by decide
theorem witness_Delta16Word :
    let s := diffSt 2#4 [2#8, 0#8]
    s.pc.toNat + 2 ≤ s.inLen.toNat ∧ s.x.outLen.toNat + 2 ≤ s.params.outCap.toNat ∧
    (diffSt 2#4 [2#8]).inLen.toNat < (diffSt 2#4 [2#8]).pc.toNat + 2 := by decide
theorem witness_LzMaskByte :
    (cut .lzMask [0#8]).pc.toNat + 1 ≤ (cut .lzMask [0#8]).inLen.toNat ∧
    (cut .lzMask []).inLen.toNat < (cut .lzMask []).pc.toNat + 1 := by decide
theorem witness_LzLiteralBlock :
    let s := lzSt 0x00#8 7#4 [0x41#8]
    s.x.slot.toNat < 8 ∧ s.pc.toNat + 1 ≤ s.inLen.toNat ∧
    s.x.outLen.toNat + 1 ≤ s.params.outCap.toNat ∧
    (lzSt 0x00#8 7#4 []).inLen.toNat < (lzSt 0x00#8 7#4 []).pc.toNat + 1 := by decide
theorem witness_LzBackreference_completes :
    let s := lzSt 0x80#8 0#4 [0xF0#8, 0x02#8]
    s.x.slot.toNat < 8 ∧ s.pc.toNat + 2 ≤ s.inLen.toNat ∧
    s.x.outLen.toNat + ((15#4).toNat + 3) ≤ s.x.size.toNat ∧ (2#12).toNat + 1 ≤ s.x.outLen.toNat ∧
    s.x.size.toNat ≤ s.params.outCap.toNat ∧ s.params.outCommit16 = false := by decide
theorem witness_LzBackreference_errors :
    let s := lzSt 0x80#8 0#4 [0xF0#8, 0x03#8]
    s.pc.toNat + 2 ≤ s.inLen.toNat ∧ s.x.outLen.toNat < (3#12).toNat + 1 ∧
    (lzSt 0x80#8 0#4 [0xF0#8]).inLen.toNat < (lzSt 0x80#8 0#4 [0xF0#8]).pc.toNat + 2 := by decide
/-- The length overshoots the declared size. -/
theorem witness_LzBackreference_overshoot :
    let s := st .lzBlock { rg 3 5 with mask := 0x80#8 } 5 [0x00#8, 0x00#8] [1#8, 2#8, 3#8] []
    s.x.slot.toNat < 8 ∧ s.pc.toNat + 2 ≤ s.inLen.toNat ∧
    s.x.size.toNat < s.x.outLen.toNat + ((0#4).toNat + 3) ∧
    (0#12).toNat + 1 ≤ s.x.outLen.toNat := by decide
/-- Offset 1 with the 16-bit output bus (log 15). -/
theorem witness_LzBackreference_hazard :
    let s : State := { lzSt 0x80#8 0#4 [0x00#8, 0x00#8] with
      params := { Params.default with outCommit16 := true } }
    s.x.slot.toNat < 8 ∧ s.pc.toNat + 2 ≤ s.inLen.toNat ∧
    s.x.outLen.toNat + ((0#4).toNat + 3) ≤ s.x.size.toNat ∧ (0#12).toNat + 1 ≤ s.x.outLen.toNat ∧
    s.x.size.toNat ≤ s.params.outCap.toNat ∧ s.params.outCommit16 = true := by decide
theorem witness_HufTreeSizeByte :
    (cut .hufTSize [0#8]).pc.toNat + 1 ≤ (cut .hufTSize [0#8]).inLen.toNat ∧
    (cut .hufTSize []).inLen.toNat < (cut .hufTSize []).pc.toNat + 1 := by decide
theorem witness_HufTableLoad :
    let s (inp : List Byte) : State := st .hufTable { rg 0 8 with treeN := 1#8 } 5 inp [] []
    (s [0xC0#8, 0x41#8, 0x42#8]).pc.toNat + (2 * (s []).x.treeN.toNat + 1) ≤
      (s [0xC0#8, 0x41#8, 0x42#8]).inLen.toNat ∧
    (s [0xC0#8, 0x41#8]).inLen.toNat < (s []).pc.toNat + (2 * (s []).x.treeN.toNat + 1) := by decide

/-- A state in `P_HUF_CHECK` with a table. -/
def checkSt (tab : List Byte) : State :=
  st .hufCheck { rg 0 8 with treeN := 1#8 } 8 [] [] tab

theorem witness_HufCheckVisitsEveryReachableBranch_good :
    ∀ o, BranchReach (checkSt [0xC0#8, 0x41#8, 0x42#8]).treeAt o →
      child0 o (branchBase ((checkSt [0xC0#8, 0x41#8, 0x42#8]).treeAt o)) < 3 ∧
      child0 o (branchBase ((checkSt [0xC0#8, 0x41#8, 0x42#8]).treeAt o)) + 1 < 3 := by
  intro o h
  have h0 : o = 0 := by
    induction h with
    | root => rfl
    | child bit _ hl ih =>
      subst ih
      cases bit <;> exact absurd hl (by decide)
  subst h0
  decide
theorem witness_HufCheckVisitsEveryReachableBranch_bad :
    ¬ ∀ o, BranchReach (checkSt [0xC1#8, 0x41#8, 0x42#8]).treeAt o →
      child0 o (branchBase ((checkSt [0xC1#8, 0x41#8, 0x42#8]).treeAt o)) < 3 ∧
      child0 o (branchBase ((checkSt [0xC1#8, 0x41#8, 0x42#8]).treeAt o)) + 1 < 3 :=
  fun h => absurd (h 0 .root).1 (by decide)
theorem witness_HufChildOffsets : 510 % 2 = 0 ∧ 509 % 2 = 1 ∧ 510 < Config.treeBytes ∧
    509 = 2 * 254 + 1 := by decide
theorem witness_HufBitTokens_inside :
    let s := bitSt 1#6 []
    let b := s.treeAt s.x.node.toNat
    s.x.node.toNat < 2 * s.x.treeN.toNat + 1 ∧
    ((s.x.node.toNat + 3) / 2 * 2 - 1 + 2 * (b.extractLsb' 0 6).toNat) + true.toNat <
      2 * s.x.treeN.toNat + 1 ∧
    s.x.outLen.toNat + 1 ≤ s.params.outCap.toNat ∧ s.x.bitCnt ≠ 0#6 := by decide
theorem witness_HufBitTokens_refill :
    let s := bitSt 0#6 [0#8, 0#8, 0#8, 0#8]
    s.x.bitCnt = 0#6 ∧ s.pc.toNat + 4 ≤ s.inLen.toNat ∧
    (bitSt 0#6 [0#8, 0#8, 0#8]).inLen.toNat < (bitSt 0#6 [0#8, 0#8, 0#8]).pc.toNat + 4 := by decide
theorem witness_HufWordRefillsAndTakesItsFirstBit :
    let s := bitSt 0#6 [0#8, 0#8, 0#8, 0x80#8]
    let b := s.treeAt s.x.node.toNat
    s.x.node.toNat < 2 * s.x.treeN.toNat + 1 ∧
    childOf s.x.node.toNat (branchBase b) ((0x80000000#32).getLsbD 31) <
      2 * s.x.treeN.toNat + 1 ∧
    s.x.outLen.toNat + 1 ≤ s.params.outCap.toNat ∧ s.pc.toNat + 4 ≤ s.inLen.toNat ∧
    (bitSt 0#6 [0#8, 0#8, 0#8]).inLen.toNat < (bitSt 0#6 [0#8, 0#8, 0#8]).pc.toNat + 4 := by decide
theorem witness_HufTreeBytesAct :
    let s := bitSt 32#6 []
    s.x.node.toNat < 2 * s.x.treeN.toNat + 1 ∧ s.x.outLen.toNat + 1 ≤ s.params.outCap.toNat ∧
    s.x.bitCnt ≠ 0#6 ∧
    childOf s.x.node.toNat 0#6 (s.x.bitWin.getLsbD 31) < 2 * s.x.treeN.toNat + 1 := by decide
theorem witness_HufTreeBytesAct_refill :
    let s := bitSt 0#6 [0#8, 0#8, 0#8, 0x80#8]
    s.x.bitCnt = 0#6 ∧ s.pc.toNat + 4 ≤ s.inLen.toNat ∧
    childOf s.x.node.toNat 0#6 ((le32 0#8 0#8 0#8 0x80#8).getLsbD 31) < 2 * s.x.treeN.toNat + 1 ∧
    (bitSt 0#6 [0#8, 0#8, 0#8]).inLen.toNat < (bitSt 0#6 [0#8, 0#8, 0#8]).pc.toNat + 4 := by decide
theorem witness_BitStepsAreTheBranchTokenAtNode :
    (bitSt 1#6 []).x.bitCnt ≠ 0#6 ∧
    decode .treeBranch [(bitSt 1#6 []).treeAt (bitSt 1#6 []).x.node.toNat] =
      .token (.hufBr true true 0#6) [] := by decide

/-- The table of 44_huffman.md R152's example. -/
def leafTable (o : Nat) : Byte := [0xC0#8, 0x41#8, 0x42#8].getD o 0#8

theorem witness_TableWalkEqualsDeserialisedTree :
    deserialise leafTable (tableLen 1#8) (tableLen 1#8) 0 =
      some (.branch (.leaf 0x41#8) (.leaf 0x42#8)) := by decide

theorem witness_Wl4TypeBytes :
    1 ≤ (st .wl4Type Regs.zero 0 [0xFF#8] [] []).inLen.toNat ∧
    (st .wl4Type Regs.zero 0 [] [] []).phase = .wl4Type ∧
    (st .wl4Type Regs.zero 0 [] [] []).inLen.toNat = 0 := by decide
theorem witness_Wl4TerminatorsAndReservedControls :
    (cut .w8 [0#8]).pc.toNat + 1 ≤ (cut .w8 [0#8]).inLen.toNat ∧
    (cut .w16 [0#8, 0#8]).pc.toNat + 2 ≤ (cut .w16 [0#8, 0#8]).inLen.toNat ∧
    (cut .w8 []).inLen.toNat < (cut .w8 []).pc.toNat + 1 ∧
    (cut .w16 [0#8]).inLen.toNat < (cut .w16 [0#8]).pc.toNat + 2 := by decide

/-- A WL4 state with a capacity of 3. -/
def wlSt (p : Phase) (inp : List Byte) : State :=
  { st p Regs.zero 1 inp [] [] with params := { Params.default with outCap := 3#24 } }

theorem witness_Wl4LiteralRuns_8 :
    let s := wlSt .w8 [0x03#8, 1#8, 2#8, 3#8]
    let u := wlSt .w8 [0x03#8, 1#8, 2#8]
    s.pc.toNat + 1 + (3#7).toNat ≤ s.inLen.toNat ∧
    s.x.outLen.toNat + (3#7).toNat ≤ s.params.outCap.toNat ∧
    s.params.outCap.toNat < s.x.outLen.toNat + (4#7).toNat ∧
    u.inLen.toNat < u.pc.toNat + 1 + (3#7).toNat := by decide
theorem witness_Wl4LiteralRuns_16 :
    let s := wlSt .w16 [0#8, 0x03#8, 1#8, 2#8, 3#8]
    let u := wlSt .w16 [0#8, 0x03#8, 1#8, 2#8]
    s.pc.toNat + 2 + (3#15).toNat ≤ s.inLen.toNat ∧
    s.x.outLen.toNat + (3#15).toNat ≤ s.params.outCap.toNat ∧
    s.params.outCap.toNat < s.x.outLen.toNat + (32767#15).toNat ∧
    u.inLen.toNat < u.pc.toNat + 2 + (3#15).toNat := by decide
theorem witness_Wl4RepeatRuns_8 :
    let s := wlSt .w8 [0x83#8, 1#8]
    let u := wlSt .w8 [0x83#8]
    s.pc.toNat + 2 ≤ s.inLen.toNat ∧ s.x.outLen.toNat + (3#7).toNat ≤ s.params.outCap.toNat ∧
    s.params.outCap.toNat < s.x.outLen.toNat + (127#7).toNat ∧
    u.pc.toNat + 1 ≤ u.inLen.toNat ∧ u.inLen.toNat < u.pc.toNat + 2 := by decide
theorem witness_Wl4RepeatRuns_16 :
    let s := wlSt .w16 [0x80#8, 0x03#8, 1#8]
    let u := wlSt .w16 [0x80#8, 0x03#8]
    s.pc.toNat + 3 ≤ s.inLen.toNat ∧ s.x.outLen.toNat + (3#15).toNat ≤ s.params.outCap.toNat ∧
    s.params.outCap.toNat < s.x.outLen.toNat + (4#15).toNat ∧
    u.pc.toNat + 2 ≤ u.inLen.toNat ∧ u.inLen.toNat < u.pc.toNat + 3 := by decide

/-! ### The invariant -/

/-- A call just begun in RLE mode on an empty-output stream. -/
def begun : State := State.start { State.reset with
  inMem := State.reset.inMem.writeList 0 [0x30#8, 0#8, 0#8, 0#8]
  inLen := 4#32
  mode := 3#4 }

theorem begun_begins : State.reset.beginCall 3#4 [0x30#8, 0#8, 0#8, 0#8] = .next begun :=
  beginCall_eq (by decide) 3#4 [0x30#8, 0#8, 0#8, 0#8] (by decide)

theorem inside_writeList (vs : List Byte) (bound : Nat) (h : vs.length ≤ bound) (a : Nat)
    (ha : ((Memory.mk [] 0).writeList 0 vs).get a |>.isSome) : a < bound := by
  rw [Memory.get_writeList] at ha
  split at ha
  · omega
  · cases ha

theorem begun_inv : Inv begun where
  mem := by
    refine ⟨by decide, by decide, by decide, fun a h => ?_, fun a h => ?_, fun a h => ?_⟩
    · exact inside_writeList _ _ (by decide) a h
    · cases h
    · cases h
  err := by decide
  noUnimplemented := by decide
  cursor := by decide
  call := fun _ => ⟨by decide, by decide, by decide, by decide, by decide, by decide,
    fun a h => absurd h (Nat.not_lt_zero a), ⟨rfl, rfl, rfl⟩⟩

theorem idle_inv : Inv (idleSt 3#4) where
  mem := by
    refine ⟨rfl, rfl, rfl, fun a h => ?_, fun a h => ?_, fun a h => ?_⟩
    · cases h
    · cases h
    · cases h
  err := by decide
  noUnimplemented := by decide
  cursor := by decide
  call := fun h => absurd h (by decide)

theorem witness_StepKeepsTheInvariant : Inv begun ∧ ∃ t, step begun = .next t :=
  ⟨begun_inv, _, rfl⟩
theorem witness_StepNeverStops : Inv begun := begun_inv
theorem witness_HostActsKeepTheInvariant : Inv (idleSt 3#4) ∧ (idleSt 3#4).status ≠ .busy :=
  ⟨idle_inv, by decide⟩
theorem witness_TokensLeaveTheSpacesAsTheRulesSay :
    ∃ t, exec .hufCheck (checkSt [0xC0#8, 0x41#8, 0x42#8]) = .next t ∧ t.phase ≠ .fault ∧
      Instr.hufCheck ≠ .hufTable := ⟨_, rfl, by decide, by decide⟩
theorem witness_CursorOnlyMovesForward :
    Inv begun ∧ begun.status = .busy ∧ ∃ t, step begun = .next t ∧ t.phase ≠ .fault :=
  ⟨begun_inv, rfl, _, rfl, by decide⟩
/-- A header that owes output: the call goes on (40_header_dispatch.md R96). -/
theorem witness_CursorOnlyMovesForward_goesOn :
    ∃ t, step (hdrSt [0x30#8, 2#8, 0#8, 0#8]) = .next t ∧ t.status = .busy ∧
      (hdrSt [0x30#8, 2#8, 0#8, 0#8]).phase ≠ .hufCheck ∧
      (hdrSt [0x30#8, 2#8, 0#8, 0#8]).phase ≠ .hufBits := ⟨_, rfl, by decide, by decide, by decide⟩

/-! ### Calls -/

/-- An RLE stream of two bytes (30_encoding.md R84's `HDR.RLE 2`, `RLE.LIT 7, 8`). -/
def rleStream : List Byte := [0x30#8, 2#8, 0#8, 0#8, 0x01#8, 7#8, 8#8]

theorem reset_fits (input : List Byte) : ∀ t p n, headerOf input = some (t, p, n) →
    n.toNat ≤ State.reset.params.outCap.toNat := by
  intro t p n _
  have := n.isLt
  show n.toNat ≤ 16777215
  omega

theorem witness_EveryCallEnds :
    State.reset.status ≠ .busy ∧ ([] : List Byte).length < 2 ^ 32 := by decide
theorem witness_EveryCallEnds_begins :
    State.reset.beginCall 3#4 [0x30#8, 0#8, 0#8, 0#8] = .next begun := begun_begins
/-- 45_wl4.md R166, R180, 60_exceptions.md R206: the input `01` takes two steps, the type step and the step
that raises, where 70_reset_and_hazards.md R231's row `1 + (L - 1)` is 1; one of them selects a token
(log 24). -/
theorem test_wl4_steps :
    (match State.reset.beginCall 4#4 [0x01#8] with
      | .next t => (tokenSteps 3 t, stepBound 4#4 [0x01#8], callSteps 3 t)
      | .fault _ | .refused _ => (0, 0, 0)) = (1, 1, 2) := rfl
/-- 45_wl4.md R168: of the empty input the one token is WL4.TILLEGAL. -/
theorem test_wl4_steps_empty :
    (match State.reset.beginCall 4#4 [] with
      | .next t => (tokenSteps 3 t, stepBound 4#4 [], callSteps 3 t)
      | .fault _ | .refused _ => (0, 0, 0)) = (1, 1, 1) := rfl
theorem witness_SuccessHasExactlyTheDeclaredSize :
    State.reset.status ≠ .busy ∧ rleStream.length < 2 ^ 32 ∧ 3#4 ≠ 4#4 ∧
    decodeCall State.reset 3#4 rleStream = some (.ok [7#8, 8#8]) :=
  ⟨by decide, by decide, by decide, rfl⟩
theorem witness_ResultDependsOnTheInputOnly :
    State.reset.status ≠ .busy ∧ (idleSt 15#4).status ≠ .busy ∧
    State.reset.params = (idleSt 15#4).params ∧ State.reset.params.outCommit16 = false ∧
    rleStream.length < 2 ^ 32 := by decide
theorem witness_TrailingInputIsIgnored :
    State.reset.status ≠ .busy ∧ State.reset.params.outCommit16 = false ∧
    (rleStream ++ [0xFF#8]).length < 2 ^ 32 ∧
    decodeCall State.reset 3#4 rleStream = some (.ok [7#8, 8#8]) :=
  ⟨by decide, by decide, by decide, rfl⟩
/-- The two inputs differ only after the call's end. -/
theorem witness_TrailingInputIsIgnored_agree :
    ∃ t, runDecode State.reset 3#4 (rleStream ++ [1#8]) = .next t ∧ t.status = .done ∧
      ∀ i, i < t.pc.toNat → (rleStream ++ [2#8, 3#8])[i]? = (rleStream ++ [1#8])[i]? :=
  ⟨_, rfl, rfl, by decide⟩
theorem witness_CallsComputeTheirFunctions :
    State.reset.status ≠ .busy ∧ State.reset.params.outCommit16 = false ∧
    rleStream.length < 2 ^ 32 ∧ ∀ t p n, headerOf rleStream = some (t, p, n) →
      n.toNat ≤ State.reset.params.outCap.toNat :=
  ⟨by decide, by decide, by decide, reset_fits rleStream⟩
theorem witness_Wl4CallComputesItsFunction :
    State.reset.status ≠ .busy ∧ [0x01#8, 0x00#8].length < 2 ^ 32 := by decide
theorem witness_AutoModeDispatchesOnTheType_known :
    State.reset.status ≠ .busy ∧ rleStream.length < 2 ^ 32 ∧
    headerOf rleStream = some (3#4, 0#4, 2#24) := by decide
theorem witness_AutoModeDispatchesOnTheType_unknown :
    ∀ t p n, headerOf [0x40#8, 0#8, 0#8, 0#8] = some (t, p, n) →
      ¬ (t = 1#4 ∨ t = 2#4 ∨ t = 3#4 ∨ t = 8#4) := by
  intro t p n h
  have ht : t = 4#4 := by
    have h' : headerOf [0x40#8, 0#8, 0#8, 0#8] = some (4#4, 0#4, 0#24) := by decide
    rw [h'] at h
    cases h
    rfl
  subst ht
  decide

/-! ### Round trips -/

theorem witness_RoundTrips : ([] : List Byte).length ≤ 0xFFFFFF ∧
    [1#8, 2#8].length % 2 = 0 ∧ [1#8].length % 2 = 1 := by decide
theorem witness_RoundTrips_calls : State.reset.status ≠ .busy ∧
    ([] : List Byte).length ≤ State.reset.params.outCap.toNat ∧
    State.reset.params.outCommit16 = false ∧ (2 = 1 ∨ 2 = 2) := by decide
/-- 48_reference_encoders.md R183: the empty input gives the header alone, `30 00 00 00`. -/
theorem test_roundTrips_rle_empty : State.reset.RoundTrips .rle [] :=
  ⟨⟨[0x30#8, 0#8, 0#8, 0#8], rfl⟩, fun b h => by
    have hb : b = [0x30#8, 0#8, 0#8, 0#8] := by
      have h' : rleCompress [] = .ok b := h
      have h'' : rleCompress [] = .ok [0x30#8, 0#8, 0#8, 0#8] := rfl
      rw [h''] at h'
      cases h'
      rfl
    subst hb
    rfl⟩
theorem witness_LzRoundTripForEveryLegalPolicy :
    [7#8, 7#8, 7#8, 7#8].length ≤ 0xFFFFFF ∧ 1 ≤ 1 ∧
    lzLegal [7#8, 7#8, 7#8, 7#8] 1 0 [.lit 7#8, .ref 1 3] = true := by decide
theorem witness_ReferenceLzBlocksAreLegal : (1 = 1 ∨ 1 = 2) ∧ (2 = 1 ∨ 2 = 2) := by decide
theorem witness_Wl4RoundTrip_8 :
    [7#8, 7#8].length ≤ 2 ∧
    Wl4Compressed8 [7#8, 7#8] [0x01#8, 0x82#8, 7#8, 0x00#8] :=
  ⟨by decide, [.rep 2 7#8], by decide, by decide, by decide⟩
theorem witness_Wl4RoundTrip_16 :
    Wl4Compressed16 true [7#8] [0x02#8, 0x00#8, 0x01#8, 7#8, 0x00#8, 0x00#8] :=
  ⟨[.lit [7#8]], by decide, by decide, by decide⟩
theorem witness_Wl4RoundTrip_combined :
    Wl4Compressed true [7#8] [0x01#8, 0x01#8, 7#8, 0x00#8] :=
  ⟨_, _, ⟨[.lit [7#8]], by decide, by decide, rfl⟩, ⟨[.lit [7#8]], by decide, by decide, rfl⟩, by decide⟩

end Sys2Proof.Tests
end

section
/-! SUPPORT. The step, phase by phase: which token it reads at which address, and when it raises because
the token's control field is cut short. -/

namespace Sys2Proof.Machine

/-! ## One-byte and two-byte control fields at the cursor -/

theorem inBytes_one (s : State) (a : Nat) : s.inBytes a 1 = [s.inAt a] := rfl

theorem inBytes_two (s : State) (a : Nat) : s.inBytes a 2 = [s.inAt a, s.inAt (a + 1)] := rfl

theorem inBytes_four (s : State) (a : Nat) :
    s.inBytes a 4 = [s.inAt a, s.inAt (a + 1), s.inAt (a + 2), s.inAt (a + 3)] := rfl

/-- With at least `n` bytes of input left at the fetch address, decoding reads those bytes first. -/
theorem fetchBytes_of_has {s : State} {n : Nat} (ha : s.fetchAddr = s.pc.toNat) (hn : n ≤ 4)
    (h : s.has n = true) : ∃ rest, s.fetchBytes = s.inBytes s.pc.toNat n ++ rest := by
  have hle := (has_iff s n).1 h
  rw [← ha] at hle ⊢
  exact fetchBytes_prefix s n hn hle

theorem fetchBytes_length_lt {s : State} {n : Nat} (ha : s.fetchAddr = s.pc.toNat) (hn : 1 ≤ n)
    (h : ¬ s.has n = true) : s.fetchBytes.length < n := by
  rw [fetchBytes_length, ha]
  rw [has_iff] at h
  omega

section OneByte
variable {s : State} {c : Ctx} {f : Byte → Instr} (hc : s.nextCtx = .ctx c)
  (ha : s.fetchAddr = s.pc.toNat) (hd : ∀ bs, decode c bs = decodeOne f bs)
include hc ha hd

theorem step_oneByte :
    step s = if s.has 1 then exec (f (s.inAt s.pc.toNat)) s else .next (s.raise .truncated) := by
  by_cases h : s.has 1 = true
  · obtain ⟨rest, hr⟩ := fetchBytes_of_has ha (by omega) h
    rw [if_pos h]
    exact step_of_token hc (by rw [hd, hr, inBytes_one]; rfl)
  · rw [if_neg h]
    exact step_of_reject hc (by rw [hd, decodeOne_short (fetchBytes_length_lt ha (by omega) h)])

theorem appliesToken_oneByte (h : s.appliesToken = true) : s.has 1 = true := by
  by_contra hn
  simp [State.appliesToken, hc, hd, decodeOne_short (fetchBytes_length_lt ha (by omega) hn)] at h

end OneByte

section TwoBytes
variable {s : State} {c : Ctx} {f : Byte → Byte → Instr} (hc : s.nextCtx = .ctx c)
  (ha : s.fetchAddr = s.pc.toNat) (hd : ∀ bs, decode c bs = decodeTwo f bs)
include hc ha hd

theorem step_twoBytes :
    step s = if s.has 2 then exec (f (s.inAt s.pc.toNat) (s.inAt (s.pc.toNat + 1))) s
      else .next (s.raise .truncated) := by
  by_cases h : s.has 2 = true
  · obtain ⟨rest, hr⟩ := fetchBytes_of_has ha (by omega) h
    rw [if_pos h]
    exact step_of_token hc (by rw [hd, hr, inBytes_two]; rfl)
  · rw [if_neg h]
    exact step_of_reject hc (by rw [hd, decodeTwo_short (fetchBytes_length_lt ha (by omega) h)])

theorem appliesToken_twoBytes (h : s.appliesToken = true) : s.has 2 = true := by
  by_contra hn
  simp [State.appliesToken, hc, hd, decodeTwo_short (fetchBytes_length_lt ha (by omega) hn)] at h

end TwoBytes

/-! ## The phases -/

/-- 40_header_dispatch.md R92: the header is read at address 0. -/
theorem step_hdr {s : State} (hp : s.phase = .hdr) :
    step s = if 4 ≤ s.inLen.toNat then
        exec (decodeHeader (s.inAt 0) (le24 (s.inAt 1) (s.inAt 2) (s.inAt 3))) s
      else .next (s.raise .invalidFormat) := by
  have hc : s.nextCtx = .ctx .hdr := by simp [State.nextCtx, hp]
  have ha : s.fetchAddr = 0 := by simp [State.fetchAddr, hp]
  by_cases h : 4 ≤ s.inLen.toNat
  · obtain ⟨rest, hr⟩ := fetchBytes_prefix s 4 (by omega) (by omega)
    rw [if_pos h]
    exact step_of_token hc (by rw [hr, ha, inBytes_four]; rfl)
  · rw [if_neg h]
    exact step_of_reject hc (decode_hdr_short (by rw [fetchBytes_length, ha]; omega))

/-- 45_wl4.md R166, R168: the type byte is read at address 0, and none is a token too. -/
theorem step_wl4Type {s : State} (hp : s.phase = .wl4Type) :
    step s = exec (if 1 ≤ s.inLen.toNat then decodeWl4Type (s.inAt 0) else .wl4TIllegal none) s := by
  have hc : s.nextCtx = .ctx .wl4Type := by simp [State.nextCtx, hp]
  have ha : s.fetchAddr = 0 := by simp [State.fetchAddr, hp]
  by_cases h : 1 ≤ s.inLen.toNat
  · obtain ⟨rest, hr⟩ := fetchBytes_prefix s 1 (by omega) (by omega)
    rw [if_pos h]
    exact step_of_token hc (by rw [hr, ha, inBytes_one]; rfl)
  · have hr : s.fetchBytes = [] :=
      List.eq_nil_of_length_eq_zero (by rw [fetchBytes_length, ha]; omega)
    rw [if_neg h]
    exact step_of_token hc (by rw [hr]; rfl)

theorem step_rle {s : State} (hp : s.phase = .rle) :
    step s = if s.has 1 then exec (decodeRle (s.inAt s.pc.toNat)) s
      else .next (s.raise .truncated) :=
  step_oneByte (c := .rle) (by simp [State.nextCtx, hp]) (fetchAddr_eq_pc (by simp [hp]) (by simp [hp]))
    fun _ => by simp only [decode]

theorem step_diff8 {s : State} (hp : s.phase = .diff) (h1 : s.x.param = 1#4) :
    step s = if s.has 1 then exec (.d8W (s.inAt s.pc.toNat)) s else .next (s.raise .truncated) :=
  step_oneByte (c := .diff8) (by simp [State.nextCtx, hp, h1])
    (fetchAddr_eq_pc (by simp [hp]) (by simp [hp])) fun _ => by simp only [decode]

theorem step_diff16 {s : State} (hp : s.phase = .diff) (h2 : s.x.param = 2#4) :
    step s = if s.has 2 then
        exec (.d16W (le16 (s.inAt s.pc.toNat) (s.inAt (s.pc.toNat + 1)))) s
      else .next (s.raise .truncated) :=
  step_twoBytes (c := .diff16) (f := fun b0 b1 => .d16W (le16 b0 b1)) (by simp [State.nextCtx, hp, h2])
    (fetchAddr_eq_pc (by simp [hp]) (by simp [hp])) fun _ => by simp only [decode]

/-- A word size other than 1 and 2 selects no token (log 14). -/
theorem step_diff_noWordSize {s : State} (hp : s.phase = .diff) (h1 : s.x.param ≠ 1#4)
    (h2 : s.x.param ≠ 2#4) : step s = .fault .noWordSize := by
  simp [step_eq, State.nextCtx, hp, h1, h2]

theorem step_lzMask {s : State} (hp : s.phase = .lzMask) :
    step s = if s.has 1 then exec (.lzMask (s.inAt s.pc.toNat)) s
      else .next (s.raise .truncated) :=
  step_oneByte (c := .lzMask) (by simp [State.nextCtx, hp]) (fetchAddr_eq_pc (by simp [hp]) (by simp [hp]))
    fun _ => by simp only [decode]

theorem step_lzLit {s : State} (hp : s.phase = .lzBlock) (h8 : s.x.slot.toNat < 8)
    (hm : maskBit s.x.mask s.x.slot.toNat = false) :
    step s = if s.has 1 then exec (.lzLit (s.inAt s.pc.toNat)) s else .next (s.raise .truncated) :=
  step_oneByte (c := .lzLit) (by simp [State.nextCtx, hp, h8, hm])
    (fetchAddr_eq_pc (by simp [hp]) (by simp [hp])) fun _ => by simp only [decode]

theorem step_lzRef {s : State} (hp : s.phase = .lzBlock) (h8 : s.x.slot.toNat < 8)
    (hm : maskBit s.x.mask s.x.slot.toNat = true) :
    step s = if s.has 2 then exec (decodeRef (s.inAt s.pc.toNat) (s.inAt (s.pc.toNat + 1))) s
      else .next (s.raise .truncated) :=
  step_twoBytes (c := .lzRef) (by simp [State.nextCtx, hp, h8, hm])
    (fetchAddr_eq_pc (by simp [hp]) (by simp [hp])) fun _ => by simp only [decode]

/-- A ninth block selects no token (log 14). -/
theorem step_lzBlock_noSuchBlock {s : State} (hp : s.phase = .lzBlock) (h8 : 8 ≤ s.x.slot.toNat) :
    step s = .fault .noSuchBlock := by
  simp [step_eq, State.nextCtx, hp, h8]

theorem step_hufTSize {s : State} (hp : s.phase = .hufTSize) :
    step s = if s.has 1 then exec (.hufTSize (s.inAt s.pc.toNat)) s
      else .next (s.raise .truncated) :=
  step_oneByte (c := .hufTSize) (by simp [State.nextCtx, hp])
    (fetchAddr_eq_pc (by simp [hp]) (by simp [hp])) fun _ => by simp only [decode]

theorem step_hufTable {s : State} (hp : s.phase = .hufTable) : step s = exec .hufTable s :=
  step_of_token (c := .hufTable) (rest := s.fetchBytes) (by simp [State.nextCtx, hp])
    (by simp only [decode])

theorem step_hufCheck {s : State} (hp : s.phase = .hufCheck) : step s = exec .hufCheck s :=
  step_of_token (c := .hufCheck) (rest := s.fetchBytes) (by simp [State.nextCtx, hp])
    (by simp only [decode])

/-- 44_huffman.md R151 to R153: refilled or not, a bit step takes the window's top bit. -/
theorem step_hufBits {s : State} (hp : s.phase = .hufBits) :
    step s = afterRefill (fun u => walkBit u.x.bitWin.msb u) s := by
  have ha : s.fetchAddr = s.pc.toNat := fetchAddr_eq_pc (by simp [hp]) (by simp [hp])
  by_cases hcnt : s.x.bitCnt = 0#6
  · have hc : s.nextCtx = .ctx .hufWord := by simp [State.nextCtx, hp, hcnt]
    by_cases h : s.has 4 = true
    · obtain ⟨rest, hr⟩ := fetchBytes_of_has ha (by omega) h
      have hd : decode .hufWord s.fetchBytes = .token (.hufWord s.nextWord) rest := by
        rw [hr, inBytes_four]
        rfl
      rw [step_of_token hc hd]
      simp [exec, execHufWord, afterRefill, hcnt, h]
    · rw [step_of_reject hc (decode_hufWord_short (fetchBytes_length_lt ha (by omega) h))]
      simp [afterRefill, hcnt, h, rejectKind]
  · have hc : s.nextCtx = .ctx (.hufBit s.x.bitWin.msb) := by simp [State.nextCtx, hp, hcnt]
    rw [step_of_token hc (by simp only [decode]; rfl)]
    cases hb : s.x.bitWin.msb <;> simp [exec, execHufBit0, execHufBit1, afterRefill, hcnt, hb]

theorem nextCtx_w8 {s : State} (hp : s.phase = .w8) : s.nextCtx = .ctx .w8 := by
  simp [State.nextCtx, hp]

theorem nextCtx_w16 {s : State} (hp : s.phase = .w16) :
    s.nextCtx = .ctx (.w16 s.params.wl4Ctrl16BE) := by
  simp [State.nextCtx, hp]

theorem decode_w8 (bs : List Byte) : decode .w8 bs = decodeOne decodeW8 bs := by
  simp only [decode]

theorem decode_w16 (be : Bool) (bs : List Byte) :
    decode (.w16 be) bs = decodeTwo (fun b0 b1 => decodeW16 (ctrl16 be b0 b1)) bs := by
  simp only [decode]

theorem step_w8 {s : State} (hp : s.phase = .w8) :
    step s = if s.has 1 then exec (decodeW8 (s.inAt s.pc.toNat)) s
      else .next (s.raise .truncated) :=
  step_oneByte (nextCtx_w8 hp) (fetchAddr_eq_pc (by simp [hp]) (by simp [hp])) decode_w8

theorem step_w16 {s : State} (hp : s.phase = .w16) :
    step s = if s.has 2 then
        exec (decodeW16 (ctrl16 s.params.wl4Ctrl16BE (s.inAt s.pc.toNat)
          (s.inAt (s.pc.toNat + 1)))) s
      else .next (s.raise .truncated) :=
  step_twoBytes (nextCtx_w16 hp) (fetchAddr_eq_pc (by simp [hp]) (by simp [hp])) (decode_w16 _)

end Sys2Proof.Machine
end

section
/-! SUPPORT. What no token writes: the input, `MODE`, `IN_LEN` and the parameters (10_state.md R25,
20_memory.md R40), and the input bytes of a call as one list. -/

namespace Sys2Proof.Machine

/-- Nothing the host has loaded changes, nor a parameter. -/
def KeepsHost (s t : State) : Prop :=
  t.inMem = s.inMem ∧ t.mode = s.mode ∧ t.inLen = s.inLen ∧ t.params = s.params

theorem KeepsHost.trans {s t u : State} (h : KeepsHost s t) (h' : KeepsHost t u) : KeepsHost s u := by
  obtain ⟨hi, hm, hl, hp⟩ := h
  obtain ⟨hi', hm', hl', hp'⟩ := h'
  exact ⟨hi'.trans hi, hm'.trans hm, hl'.trans hl, hp'.trans hp⟩

theorem keepsHost_raise (s : State) (k : Err) : KeepsHost s (s.raise k) := ⟨rfl, rfl, rfl, rfl⟩

theorem walkBit_keepsHost {bit : Bool} {s t : State} (h : walkBit bit s = .next t) :
    KeepsHost s t := by
  obtain ⟨-, ⟨-, -, -, rfl⟩ | ⟨-, rfl⟩⟩ := branchStep_cases h <;> simp [KeepsHost]

/-- A refill is invisible to what keeps the host's part. -/
theorem afterRefill_keepsHost {f : State → Answer} {s t : State}
    (hf : ∀ u, f u = .next t → KeepsHost u t) (h : afterRefill f s = .next t) : KeepsHost s t := by
  rcases afterRefill_cases h with ⟨-, h⟩ | ⟨-, -, rfl⟩ | ⟨-, -, h⟩
  · exact hf s h
  · exact keepsHost_raise s _
  · exact KeepsHost.trans ⟨rfl, rfl, rfl, rfl⟩ (hf (s.refill s.nextWord) h)

theorem wl4TypeStep_keepsHost {v : BitVec 2} {p : Phase} {s t : State}
    (h : wl4TypeStep v p s = .next t) : KeepsHost s t := by
  rcases wl4TypeStep_cases h with ⟨-, rfl⟩ | ⟨-, rfl⟩ <;> simp [KeepsHost]

theorem wl4End_keepsHost {n : Nat} {s t : State} (h : wl4End n s = .next t) : KeepsHost s t := by
  rcases wl4End_cases h with ⟨-, rfl⟩ | ⟨-, rfl⟩ <;> simp [KeepsHost]

theorem wl4Rsv_keepsHost {n : Nat} {s t : State} (h : wl4Rsv n s = .next t) : KeepsHost s t := by
  rcases wl4Rsv_cases h with ⟨-, rfl⟩ | ⟨-, rfl⟩ <;> simp [KeepsHost]

theorem wl4Lit_keepsHost {n k : Nat} {p : Phase} {s t : State} (h : wl4Lit n k p s = .next t) :
    KeepsHost s t := by
  rcases wl4Lit_cases h with ⟨rfl, -⟩ | ⟨-, -, rfl⟩ | ⟨-, -, rfl⟩ <;> simp [KeepsHost]

theorem wl4Rep_keepsHost {n k : Nat} {p : Phase} {s t : State} (h : wl4Rep n k p s = .next t) :
    KeepsHost s t := by
  rcases wl4Rep_cases h with ⟨rfl, -⟩ | ⟨-, -, rfl⟩ | ⟨-, -, rfl⟩ <;> simp [KeepsHost]

/-- 20_memory.md R40, 10_state.md R25: no token, in any state, writes the host's part. -/
theorem exec_keepsHost {i : Instr} {s t : State} (h : exec i s = .next t) : KeepsHost s t := by
  cases i with
  | hdrLz77 p n =>
    rcases execHdrLz77_cases h with ⟨-, rfl⟩ | ⟨-, -, rfl⟩ | ⟨-, -, rfl⟩ <;> simp [KeepsHost]
  | hdrHuf p n =>
    rcases execHdrHuf_cases h with ⟨-, rfl⟩ | ⟨-, -, rfl⟩ | ⟨-, -, rfl⟩ <;> simp [KeepsHost]
  | hdrRle p n =>
    rcases execHdrRle_cases h with ⟨-, rfl⟩ | ⟨-, -, rfl⟩ | ⟨-, -, rfl⟩ <;> simp [KeepsHost]
  | hdrDiff8 n =>
    rcases execHdrDiff8_cases h with ⟨-, rfl⟩ | ⟨-, -, rfl⟩ | ⟨-, -, rfl⟩ <;> simp [KeepsHost]
  | hdrDiff16 n =>
    rcases execHdrDiff16_cases h with ⟨-, rfl⟩ | ⟨-, -, -, rfl⟩ | ⟨-, -, -, rfl⟩ <;>
      simp [KeepsHost]
  | hdrIllegal b n => cases h; exact keepsHost_raise s _
  | wl4T8 => exact wl4TypeStep_keepsHost h
  | wl4T16 => exact wl4TypeStep_keepsHost h
  | wl4TIllegal b => cases h; exact keepsHost_raise s _
  | rleLit c =>
    rcases execRleLit_cases h with ⟨rfl, -⟩ | ⟨-, -, rfl⟩ | ⟨-, -, -, rfl⟩ <;> simp [KeepsHost]
  | rleRep c =>
    rcases execRleRep_cases h with ⟨rfl, -⟩ | ⟨-, -, rfl⟩ | ⟨-, -, -, rfl⟩ <;> simp [KeepsHost]
  | d8W w => rcases execD8W_cases h with ⟨-, rfl⟩ | ⟨-, -, rfl⟩ <;> simp [KeepsHost]
  | d16W w => rcases execD16W_cases h with ⟨-, rfl⟩ | ⟨-, -, rfl⟩ <;> simp [KeepsHost]
  | lzMask m => rcases execLzMask_cases h with ⟨-, rfl⟩ | ⟨-, rfl⟩ <;> simp [KeepsHost]
  | lzLit v => obtain ⟨-, ⟨-, rfl⟩ | ⟨-, -, rfl⟩⟩ := execLzLit_cases h <;> simp [KeepsHost]
  | lzRef l d =>
    obtain ⟨-, ⟨-, rfl⟩ | ⟨-, -, rfl⟩ | ⟨-, -, -, -, rfl⟩⟩ := execLzRef_cases h <;>
      simp [KeepsHost]
  | hufTSize n => rcases execHufTSize_cases h with ⟨-, rfl⟩ | ⟨-, rfl⟩ <;> simp [KeepsHost]
  | hufTable => rcases execHufTable_cases h with ⟨-, rfl⟩ | ⟨-, rfl⟩ <;> simp [KeepsHost]
  | hufBr l0 l1 base =>
    rw [exec, execHufBr] at h
    refine afterRefill_keepsHost (fun u hu => ?_) h
    obtain ⟨-, ⟨-, -, -, rfl⟩ | ⟨-, rfl⟩⟩ := branchStep_cases hu <;> simp [KeepsHost]
  | hufLeaf v => obtain ⟨-, rfl⟩ := leafStep_cases h; simp [KeepsHost]
  | hufCheck => rcases execHufCheck_cases h with ⟨-, rfl⟩ | ⟨-, rfl⟩ <;> simp [KeepsHost]
  | hufWord w =>
    rcases execHufWord_cases h with ⟨-, rfl⟩ | ⟨-, h⟩
    · exact keepsHost_raise s _
    · exact KeepsHost.trans (t := s.refill w) ⟨rfl, rfl, rfl, rfl⟩ (walkBit_keepsHost h)
  | hufBit0 =>
    rw [exec, execHufBit0] at h
    exact afterRefill_keepsHost (fun _ => walkBit_keepsHost) h
  | hufBit1 =>
    rw [exec, execHufBit1] at h
    exact afterRefill_keepsHost (fun _ => walkBit_keepsHost) h
  | w8End => exact wl4End_keepsHost h
  | w8Rsv => exact wl4Rsv_keepsHost h
  | w8Lit len => exact wl4Lit_keepsHost h
  | w8Rep len => exact wl4Rep_keepsHost h
  | w16End => exact wl4End_keepsHost h
  | w16Rsv => exact wl4Rsv_keepsHost h
  | w16Lit len => exact wl4Lit_keepsHost h
  | w16Rep len => exact wl4Rep_keepsHost h

theorem step_keepsHost {s t : State} (h : step s = .next t) : KeepsHost s t := by
  rw [step_eq] at h
  split at h
  · cases h; exact ⟨rfl, rfl, rfl, rfl⟩
  · cases h
  · split at h
    · exact exec_keepsHost h
    · cases h; exact keepsHost_raise s _

/-! ## The input of a call -/

/-- The bytes of `IN` a call may read: those below `IN_LEN`. -/
def State.inputBytes (s : State) : List Byte := s.inBytes 0 s.inLen.toNat

@[simp] theorem inputBytes_length (s : State) : s.inputBytes.length = s.inLen.toNat :=
  inBytes_length s 0 _

theorem byteOf_inputBytes {s : State} {i : Nat} (h : i < s.inLen.toNat) :
    byteOf s.inputBytes i = s.inAt i := by
  rw [byteOf, List.getD_eq_getElem?_getD, State.inputBytes, inBytes_getElem? s 0 _ i h]
  simp

theorem KeepsHost.inputBytes {s t : State} (h : KeepsHost s t) : t.inputBytes = s.inputBytes := by
  obtain ⟨hi, -, hl, -⟩ := h
  rw [State.inputBytes, hl, inBytes_congr hi]
  rfl

/-- 40_header_dispatch.md R92: the fields of the header that stands in `IN`. -/
theorem headerOf_inputBytes {s : State} (h : 4 ≤ s.inLen.toNat) :
    headerOf s.inputBytes = some ((s.inAt 0).extractLsb' 4 4, (s.inAt 0).extractLsb' 0 4,
      le24 (s.inAt 1) (s.inAt 2) (s.inAt 3)) := by
  rw [headerOf, if_neg (by simpa using h), byteOf_inputBytes (by omega), byteOf_inputBytes (by omega),
    byteOf_inputBytes (by omega), byteOf_inputBytes (by omega)]

/-! ## The launch -/

/-- The state with a call loaded: `IN`, `IN_LEN` and `MODE` written (70_reset_and_hazards.md R222). -/
def State.loaded (s : State) (mode : BitVec 4) (input : List Byte) : State :=
  { s with
    inMem := s.inMem.writeList 0 input
    inLen := BitVec.ofNat 32 input.length
    mode := mode }

theorem beginCall_loaded {s : State} {mode : BitVec 4} {input : List Byte} (h : s.status ≠ .busy)
    (hlen : input.length < 2 ^ 32) :
    s.beginCall mode input = .next (s.loaded mode input).start :=
  beginCall_eq ((busy_eq_false_iff s).2 h) mode input (by omega)

theorem loaded_inLen {s : State} {mode : BitVec 4} {input : List Byte}
    (hlen : input.length < 2 ^ 32) : (s.loaded mode input).inLen.toNat = input.length := by
  rw [State.loaded, BitVec.toNat_ofNat, Nat.mod_eq_of_lt hlen]

theorem loaded_inAt (s : State) (mode : BitVec 4) {input : List Byte} {a : Nat}
    (h : a < input.length) : (s.loaded mode input).inAt a = input[a] := by
  simp [State.loaded, State.inAt, Memory.read, Memory.get_writeList, h]

theorem loaded_inputBytes (s : State) (mode : BitVec 4) {input : List Byte}
    (hlen : input.length < 2 ^ 32) : (s.loaded mode input).inputBytes = input := by
  have hl := loaded_inLen (s := s) (mode := mode) hlen
  refine List.ext_getElem? fun i => ?_
  by_cases h : i < input.length
  · rw [State.inputBytes, inBytes_getElem? _ _ _ _ (by omega), Nat.zero_add, loaded_inAt s mode h,
      List.getElem?_eq_getElem h]
  · rw [List.getElem?_eq_none (by rw [inputBytes_length]; omega), List.getElem?_eq_none (by omega)]

/-- 40_header_dispatch.md R90: a launch of a mode that has a phase to start in. -/
theorem start_of_phase {s : State} {p : Phase} (h : s.status ≠ .busy)
    (hm : startPhase s.mode = some p) :
    s.start = { s with x := Regs.zero, pc := 0#32, err := .none, phase := p } := by
  simp [State.start, (busy_eq_false_iff s).2 h, hm]

theorem start_of_reserved {s : State} (h : s.status ≠ .busy) (hm : startPhase s.mode = none) :
    s.start = s.raise .invalidFormat := by
  simp [State.start, (busy_eq_false_iff s).2 h, hm]

/-- 10_state.md R17: the modes and the phases their calls start in. -/
theorem startPhase_cases (mode : BitVec 4) :
    (startPhase mode = some .hdr ∧ mode ≠ 4#4) ∨ (startPhase mode = some .wl4Type ∧ mode = 4#4) ∨
      (startPhase mode = none ∧ mode ≠ 4#4) := by
  revert mode
  decide

end Sys2Proof.Machine
end

section
/-! SUPPORT. The invariant of the running call and the number of steps it has left: every step of a call
answers a next state that keeps the first and lowers the second (70_reset_and_hazards.md R231). -/

namespace Sys2Proof.Machine

/-! ## What a phase implies, phase by phase -/

theorem phaseInv_rle {s : State} (hp : s.phase = .rle) :
    PhaseInv s ↔ Headered s 3#4 ∧ s.x.outLen.toNat < s.x.size.toNat := by rw [PhaseInv, hp]

theorem phaseInv_diff {s : State} (hp : s.phase = .diff) :
    PhaseInv s ↔ Headered s 8#4 ∧ s.x.outLen.toNat < s.x.size.toNat ∧
      ((s.x.param = 1#4 ∧ s.x.acc.toNat < 256) ∨
        (s.x.param = 2#4 ∧ s.x.size.toNat % 2 = 0 ∧ s.x.outLen.toNat % 2 = 0)) := by
  rw [PhaseInv, hp]

theorem phaseInv_lzMask {s : State} (hp : s.phase = .lzMask) :
    PhaseInv s ↔ Headered s 1#4 ∧ s.x.outLen.toNat < s.x.size.toNat := by rw [PhaseInv, hp]

theorem phaseInv_lzBlock {s : State} (hp : s.phase = .lzBlock) :
    PhaseInv s ↔ Headered s 1#4 ∧ s.x.outLen.toNat < s.x.size.toNat ∧ s.x.slot.toNat < 8 := by
  rw [PhaseInv, hp]

theorem phaseInv_hufTSize {s : State} (hp : s.phase = .hufTSize) :
    PhaseInv s ↔ Headered s 2#4 ∧ s.x.outLen = 0#24 := by rw [PhaseInv, hp]

theorem phaseInv_hufTable {s : State} (hp : s.phase = .hufTable) :
    PhaseInv s ↔ Headered s 2#4 ∧ s.x.outLen = 0#24 := by rw [PhaseInv, hp]

theorem phaseInv_hufCheck {s : State} (hp : s.phase = .hufCheck) :
    PhaseInv s ↔ Headered s 2#4 ∧ s.x.outLen = 0#24 ∧ s.tableLoaded := by rw [PhaseInv, hp]

theorem phaseInv_hufBits {s : State} (hp : s.phase = .hufBits) :
    PhaseInv s ↔ Headered s 2#4 ∧ s.x.outLen.toNat < s.x.size.toNat ∧ s.tableLoaded ∧
      s.treeOk = true ∧ s.onBranch s.x.node.toNat := by rw [PhaseInv, hp]

theorem phaseInv_fault {s : State} (hp : s.phase = .fault) : PhaseInv s := by
  rw [PhaseInv, hp]; trivial

/-! ## The steps a call has left -/

/-- The bytes a headered call still owes. -/
def State.owed (s : State) : Nat := s.x.size.toNat - s.x.outLen.toNat

/-- The steps `r` bytes can take with `k` blocks left in the chunk: one block each, and one mask byte for
each chunk of 8 after this one. -/
def chunkSteps (r k : Nat) : Nat := r + (r - k + 7) / 8

/-- A bound of the steps the running call takes from here on, from the rows of R231: the input bytes left
for WL4, the bytes owed for the headered formats. A code has at most 255 bits, since every branch lies in
a later pair of table offsets than its parent (44_huffman.md R155). -/
def State.stepsLeft (s : State) : Nat :=
  match s.phase with
  | .idle | .done | .fault => 0
  | .hdr => stepBound s.mode s.inputBytes
  | .wl4Type => s.inLen.toNat + 1
  | .rle => s.owed
  | .diff => if s.x.param = 1#4 then s.owed else s.owed / 2
  | .lzMask => chunkSteps s.owed 0
  | .lzBlock => chunkSteps s.owed (8 - s.x.slot.toNat)
  | .hufTSize => 3 + 255 * s.owed
  | .hufTable => 2 + 255 * s.owed
  | .hufCheck => 1 + 255 * s.owed
  | .hufBits => 255 * s.owed - (s.x.node.toNat + 1) / 2
  | .w8 | .w16 => s.inLen.toNat - s.pc.toNat + 1

section StepsLeft
variable {s : State}

theorem stepsLeft_done (hp : s.phase = .done) : s.stepsLeft = 0 := by rw [State.stepsLeft, hp]

theorem stepsLeft_fault (hp : s.phase = .fault) : s.stepsLeft = 0 := by rw [State.stepsLeft, hp]

theorem stepsLeft_hdr (hp : s.phase = .hdr) : s.stepsLeft = stepBound s.mode s.inputBytes := by
  rw [State.stepsLeft, hp]

theorem stepsLeft_wl4Type (hp : s.phase = .wl4Type) : s.stepsLeft = s.inLen.toNat + 1 := by
  rw [State.stepsLeft, hp]

theorem stepsLeft_rle (hp : s.phase = .rle) : s.stepsLeft = s.owed := by rw [State.stepsLeft, hp]

theorem stepsLeft_diff8 (hp : s.phase = .diff) (h1 : s.x.param = 1#4) : s.stepsLeft = s.owed := by
  rw [State.stepsLeft, hp, h1]
  rfl

theorem stepsLeft_diff16 (hp : s.phase = .diff) (h2 : s.x.param = 2#4) :
    s.stepsLeft = s.owed / 2 := by
  rw [State.stepsLeft, hp, h2]
  rfl

theorem stepsLeft_lzMask (hp : s.phase = .lzMask) : s.stepsLeft = chunkSteps s.owed 0 := by
  rw [State.stepsLeft, hp]

theorem stepsLeft_lzBlock (hp : s.phase = .lzBlock) :
    s.stepsLeft = chunkSteps s.owed (8 - s.x.slot.toNat) := by rw [State.stepsLeft, hp]

theorem stepsLeft_hufTSize (hp : s.phase = .hufTSize) : s.stepsLeft = 3 + 255 * s.owed := by
  rw [State.stepsLeft, hp]

theorem stepsLeft_hufTable (hp : s.phase = .hufTable) : s.stepsLeft = 2 + 255 * s.owed := by
  rw [State.stepsLeft, hp]

theorem stepsLeft_hufCheck (hp : s.phase = .hufCheck) : s.stepsLeft = 1 + 255 * s.owed := by
  rw [State.stepsLeft, hp]

theorem stepsLeft_hufBits (hp : s.phase = .hufBits) :
    s.stepsLeft = 255 * s.owed - (s.x.node.toNat + 1) / 2 := by rw [State.stepsLeft, hp]

theorem stepsLeft_w8 (hp : s.phase = .w8) : s.stepsLeft = s.inLen.toNat - s.pc.toNat + 1 := by
  rw [State.stepsLeft, hp]

theorem stepsLeft_w16 (hp : s.phase = .w16) : s.stepsLeft = s.inLen.toNat - s.pc.toNat + 1 := by
  rw [State.stepsLeft, hp]

end StepsLeft

theorem owed_pos {s : State} (h : s.x.outLen.toNat < s.x.size.toNat) : 0 < s.owed :=
  Nat.sub_pos_of_lt h

theorem chunkSteps_pos {r k : Nat} (hr : 0 < r) : 0 < chunkSteps r k := Nat.lt_add_right _ hr

theorem chunkSteps_mono {r r' k k' : Nat} (hr : r' < r) (hk : k ≤ k' + 1) :
    chunkSteps r' k' < chunkSteps r k := by
  unfold chunkSteps
  omega

theorem chunkSteps_mask {r : Nat} (hr : 0 < r) : chunkSteps r 8 < chunkSteps r 0 := by
  unfold chunkSteps
  omega

/-! ## A step of a call's body -/

/-- A step that goes on or completes: what each phase implies holds again, the cursor is inside the input,
the header's fields stand, and fewer steps are left. -/
structure Continues (s t : State) : Prop where
  phase : PhaseInv t
  started : t.phase ≠ .idle ∧ t.phase ≠ .hdr
  cursor : t.pc.toNat ≤ s.inLen.toNat
  header : t.x.type = s.x.type ∧ t.x.param = s.x.param ∧ t.x.size = s.x.size
  fewer : t.stepsLeft < s.stepsLeft

/-- An answer that is a next state, one that raises or one with a property. -/
def Reaches (P : State → Prop) (a : Answer) : Prop := ∃ t, a = .next t ∧ (t.phase = .fault ∨ P t)

/-- The answers of a step of a call's body. -/
abbrev Advances (s : State) (a : Answer) : Prop := Reaches (Continues s) a

theorem reaches_raise {P : State → Prop} (s : State) (k : Err) : Reaches P (.next (s.raise k)) :=
  ⟨_, rfl, .inl rfl⟩

theorem reaches_ite {P : State → Prop} {c : Prop} [Decidable c] {a b : Answer} (ha : c → Reaches P a)
    (hb : ¬ c → Reaches P b) : Reaches P (if c then a else b) := by
  split
  · exact ha (by assumption)
  · exact hb (by assumption)

/-- A producing token whose bytes fit `OUT`. -/
theorem reaches_produce {P : State → Prop} {s t : State} {n : Nat}
    (hn : s.x.outLen.toNat + n ≤ s.params.outCap.toNat) (h : P t) : Reaches P (produce s n t) :=
  ⟨t, produce_of_le hn, .inr h⟩

/-- The types of the headered formats (40_header_dispatch.md R93). -/
def KnownType (t : BitVec 4) : Prop := t = 1#4 ∨ t = 2#4 ∨ t = 3#4 ∨ t = 8#4

/-- 00_scope.md R2: a headered call that has produced the declared size may complete. -/
theorem phaseInv_done_of_headered {s : State} {ty : BitVec 4} (h : Headered s ty)
    (hk : KnownType ty) (hp : s.phase = .done) (hl : s.x.outLen = s.x.size) : PhaseInv s := by
  rw [PhaseInv, hp]
  exact .inl ⟨h.wl4T, hl, by rw [h.type]; exact hk⟩

/-- `x[OUT_LEN]` after `n` more bytes that the declared size has room for. -/
theorem outLen_add_toNat {s : State} {n : Nat} (h : s.x.outLen.toNat + n ≤ s.x.size.toNat) :
    (s.x.outLen + BitVec.ofNat 24 n).toNat = s.x.outLen.toNat + n := by
  have := s.x.size.isLt
  rw [BitVec.toNat_add, BitVec.toNat_ofNat]
  omega

/-- `n` bytes of input taken, `k` bytes of output counted, the header's fields and the host's part kept. -/
structure Grows (s t : State) (n k : Nat) : Prop where
  pc : t.pc = s.pc + BitVec.ofNat 32 n
  outLen : t.x.outLen = s.x.outLen + BitVec.ofNat 24 k
  header : t.x.type = s.x.type ∧ t.x.param = s.x.param ∧ t.x.size = s.x.size
  wl4T : t.x.wl4T = s.x.wl4T
  params : t.params = s.params
  mode : t.mode = s.mode
  inLen : t.inLen = s.inLen

theorem Grows.cursor {s t : State} {n k : Nat} (h : Grows s t n k) (hn : s.has n = true) :
    t.pc.toNat = s.pc.toNat + n := by rw [h.pc, advance_toNat hn]

theorem Grows.headered {s t : State} {n k : Nat} {ty : BitVec 4} (h : Grows s t n k)
    (hs : Headered s ty) : Headered t ty := by
  obtain ⟨hty, -, hsz⟩ := h.header
  exact ⟨hty.trans hs.type, h.wl4T.trans hs.wl4T, by rw [hsz, h.params]; exact hs.fits,
    by rw [h.mode]; exact hs.mode⟩

/-- A step of a headered format that leaves the output within the declared size: it completes at that size,
and else goes on in `p`. -/
theorem continues_of_grows {s t : State} {ty : BitVec 4} {p : Phase} {n k : Nat}
    (h : Headered s ty) (hk : KnownType ty) (hg : Grows s t n k) (hn : s.has n = true)
    (hfit : s.x.outLen.toNat + k ≤ s.x.size.toNat)
    (hp : t.phase = if t.x.outLen = t.x.size then .done else p) (hpos : 0 < s.stepsLeft)
    (hne : p ≠ .idle ∧ p ≠ .hdr)
    (hbody : t.phase = p → Headered t ty → t.x.outLen.toNat < t.x.size.toNat →
      t.owed + k = s.owed → PhaseInv t ∧ t.stepsLeft < s.stepsLeft) : Continues s t := by
  have hcur : t.pc.toNat ≤ s.inLen.toNat := by rw [hg.cursor hn]; exact (has_iff s n).1 hn
  have hsz : t.x.size = s.x.size := hg.header.2.2
  have hlen : t.x.outLen.toNat = s.x.outLen.toNat + k := by rw [hg.outLen, outLen_add_toNat hfit]
  by_cases hl : t.x.outLen = t.x.size
  · rw [if_pos hl] at hp
    exact ⟨phaseInv_done_of_headered (hg.headered h) hk hp hl, by simp [hp], hcur, hg.header,
      by rw [stepsLeft_done hp]; exact hpos⟩
  · rw [if_neg hl] at hp
    have hlt : t.x.outLen.toNat < t.x.size.toNat := by
      refine Nat.lt_of_le_of_ne (by rw [hlen, hsz]; exact hfit) fun he => hl ?_
      exact BitVec.eq_of_toNat_eq he
    have howed : t.owed + k = s.owed := by simp only [State.owed, hlen, hsz]; omega
    obtain ⟨hi, hf⟩ := hbody hp (hg.headered h) hlt howed
    exact ⟨hi, by rwa [hp], hcur, hg.header, hf⟩

/-! ## RLE -/

section Rle
variable {s : State} (hp : s.phase = .rle) (hi : PhaseInv s)
include hp hi

/-- A run of `k ≥ 1` bytes that fits the declared size. -/
theorem rle_continues {t : State} {n k : Nat} (hg : Grows s t n k) (hn : s.has n = true) (hk : 1 ≤ k)
    (hfit : s.x.outLen.toNat + k ≤ s.x.size.toNat)
    (hpt : t.phase = if t.x.outLen = t.x.size then .done else .rle) : Continues s t := by
  obtain ⟨hh, hlt⟩ := (phaseInv_rle hp).1 hi
  have hpos := owed_pos hlt
  rw [← stepsLeft_rle hp] at hpos
  refine continues_of_grows hh (by simp [KnownType]) hg hn hfit hpt hpos (by decide)
    fun hpr hht hltt howed => ⟨(phaseInv_rle hpr).2 ⟨hht, hltt⟩, ?_⟩
  rw [stepsLeft_rle hp, stepsLeft_rle hpr]
  omega

theorem execRleLit_advances (c : BitVec 7) : Advances s (execRleLit c s) := by
  have hfits := ((phaseInv_rle hp).1 hi).1.fits
  unfold execRleLit
  refine reaches_ite (fun _ => reaches_raise s _) fun _ => reaches_ite
    (fun _ => reaches_raise s _) fun hsz => reaches_ite (fun _ => reaches_raise s _) fun hn => ?_
  exact reaches_produce (by omega) (rle_continues hp hi (n := 1 + rleLitLen c) (k := rleLitLen c)
    (by constructor <;> simp) (by simpa using hn) (by simp [rleLitLen]) (by omega) (by simp))

theorem execRleRep_advances (c : BitVec 7) : Advances s (execRleRep c s) := by
  have hfits := ((phaseInv_rle hp).1 hi).1.fits
  unfold execRleRep
  refine reaches_ite (fun _ => reaches_raise s _) fun _ => reaches_ite
    (fun _ => reaches_raise s _) fun hsz => reaches_ite (fun _ => reaches_raise s _) fun hn => ?_
  exact reaches_produce (by omega) (rle_continues hp hi (n := 2) (k := rleRepLen c)
    (by constructor <;> simp) (by simpa using hn) (by simp [rleRepLen]) (by omega) (by simp))

theorem step_rle_advances : Advances s (step s) := by
  rw [step_rle hp]
  refine reaches_ite (fun _ => ?_) fun _ => reaches_raise s _
  unfold decodeRle
  split
  · exact execRleRep_advances hp hi _
  · exact execRleLit_advances hp hi _

end Rle

/-! ## The delta filter -/

section Diff
variable {s : State} (hp : s.phase = .diff) (hi : PhaseInv s)
include hp hi

theorem execD8W_advances (h1 : s.x.param = 1#4) (w : Byte) : Advances s (execD8W w s) := by
  obtain ⟨hh, hlt, -⟩ := (phaseInv_diff hp).1 hi
  have hfits := hh.fits
  have hpos := owed_pos hlt
  rw [← stepsLeft_diff8 hp h1] at hpos
  unfold execD8W
  refine reaches_ite (fun _ => reaches_raise s _) fun hn => reaches_produce (by omega) ?_
  refine continues_of_grows (p := .diff) (n := 1) (k := 1) hh (by simp [KnownType])
    (by constructor <;> simp) (by simpa using hn) (by omega) (finishOr_phase _ _) hpos
    (by decide) fun hpt hht hltt howed =>
      ⟨(phaseInv_diff hpt).2 ⟨hht, hltt, .inl ⟨by simpa using h1, ?_⟩⟩, ?_⟩
  · show (accNext8 s.x w).toNat < 256
    unfold accNext8
    split
    · have := w.isLt
      simp; omega
    · simp; omega
  · rw [stepsLeft_diff8 hp h1, stepsLeft_diff8 hpt (by simpa using h1)]
    omega

theorem execD16W_advances (h2 : s.x.param = 2#4) (w : BitVec 16) : Advances s (execD16W w s) := by
  obtain ⟨hh, hlt, hpar⟩ := (phaseInv_diff hp).1 hi
  have hfits := hh.fits
  obtain ⟨hse, hle⟩ : s.x.size.toNat % 2 = 0 ∧ s.x.outLen.toNat % 2 = 0 := by
    rcases hpar with ⟨h1, -⟩ | ⟨-, h⟩
    · rw [h2] at h1
      exact absurd h1 (by decide)
    · exact h
  have hpos : 0 < s.owed / 2 := by rw [State.owed]; omega
  rw [← stepsLeft_diff16 hp h2] at hpos
  unfold execD16W
  refine reaches_ite (fun _ => reaches_raise s _) fun hn => reaches_produce (by omega) ?_
  refine continues_of_grows (p := .diff) (n := 2) (k := 2) hh (by simp [KnownType])
    (by constructor <;> simp [bytes16]) (by simpa using hn) (by omega) (finishOr_phase _ _) hpos
    (by decide) fun hpt hht hltt howed =>
      ⟨(phaseInv_diff hpt).2 ⟨hht, hltt, .inr ⟨by simpa using h2, by simpa using hse, ?_⟩⟩, ?_⟩
  · have hlen : (s.x.outLen + BitVec.ofNat 24 2).toNat = s.x.outLen.toNat + 2 :=
      outLen_add_toNat (by omega)
    rw [finishOr_x, emitAll_x, show (bytes16 (accNext16 s.x w)).length = 2 from rfl, advance_x, setX_x,
      hlen]
    omega
  · rw [stepsLeft_diff16 hp h2, stepsLeft_diff16 hpt (by simpa using h2)]
    omega

theorem step_diff_advances : Advances s (step s) := by
  obtain ⟨-, -, ⟨h1, -⟩ | ⟨h2, -⟩⟩ := (phaseInv_diff hp).1 hi
  · rw [step_diff8 hp h1]
    exact reaches_ite (fun _ => execD8W_advances hp hi h1 _) fun _ => reaches_raise s _
  · rw [step_diff16 hp h2]
    exact reaches_ite (fun _ => execD16W_advances hp hi h2 _) fun _ => reaches_raise s _

end Diff

/-! ## LZ77 -/

theorem step_lzMask_advances {s : State} (hp : s.phase = .lzMask) (hi : PhaseInv s) :
    Advances s (step s) := by
  obtain ⟨hh, hlt⟩ := (phaseInv_lzMask hp).1 hi
  rw [step_lzMask hp]
  refine reaches_ite (fun hn => ?_) fun _ => reaches_raise s _
  refine reaches_ite (fun _ => reaches_raise s _) fun _ => ⟨_, rfl, .inr ?_⟩
  have hpos := chunkSteps_pos (k := 0) (owed_pos hlt)
  rw [← stepsLeft_lzMask hp] at hpos
  refine continues_of_grows (p := .lzBlock) (n := 1) (k := 0) hh (by simp [KnownType])
    (by constructor <;> simp) hn (by omega) ?_ hpos (by decide) fun hpt hht hltt howed =>
      ⟨(phaseInv_lzBlock hpt).2 ⟨hht, hltt, by simp⟩, ?_⟩
  · have hne : s.x.outLen ≠ s.x.size := fun he => by rw [he] at hlt; omega
    simp [hne]
  · rw [stepsLeft_lzMask hp, stepsLeft_lzBlock hpt]
    exact chunkSteps_mask (owed_pos hlt)

section LzBlock
variable {s : State} (hp : s.phase = .lzBlock) (hi : PhaseInv s)
include hp hi

/-- A block of `k ≥ 1` bytes that fits the declared size (43_lz77.md R136). -/
theorem lzBlock_continues {t : State} {n k : Nat} (hg : Grows s t n k) (hn : s.has n = true)
    (hk : 1 ≤ k) (hfit : s.x.outLen.toNat + k ≤ s.x.size.toNat)
    (hslot : t.x.slot = s.x.slot + 1#4)
    (hpt : t.phase = if t.x.outLen = t.x.size then .done
      else if s.x.slot + 1#4 = 8#4 then .lzMask else .lzBlock) : Continues s t := by
  obtain ⟨hh, hlt, h8⟩ := (phaseInv_lzBlock hp).1 hi
  have hpos := chunkSteps_pos (k := 8 - s.x.slot.toNat) (owed_pos hlt)
  rw [← stepsLeft_lzBlock hp] at hpos
  have hs1 : (s.x.slot + 1#4).toNat = s.x.slot.toNat + 1 := by
    rw [BitVec.toNat_add]
    simp
    omega
  refine continues_of_grows hh (by simp [KnownType]) hg hn hfit hpt hpos (by split <;> decide)
    fun hpr hht hltt howed => ?_
  by_cases hend : s.x.slot + 1#4 = 8#4
  · rw [if_pos hend] at hpr
    have h7 : s.x.slot.toNat = 7 := by rw [hend] at hs1; simp at hs1; omega
    refine ⟨(phaseInv_lzMask hpr).2 ⟨hht, hltt⟩, ?_⟩
    rw [stepsLeft_lzBlock hp, stepsLeft_lzMask hpr]
    exact chunkSteps_mono (by omega) (by omega)
  · rw [if_neg hend] at hpr
    have h7 : s.x.slot.toNat ≠ 7 := fun h => hend (BitVec.eq_of_toNat_eq (by rw [hs1, h]; rfl))
    refine ⟨(phaseInv_lzBlock hpr).2 ⟨hht, hltt, by rw [hslot, hs1]; omega⟩, ?_⟩
    rw [stepsLeft_lzBlock hp, stepsLeft_lzBlock hpr, hslot, hs1]
    exact chunkSteps_mono (by omega) (by omega)

theorem execLzLit_advances (v : Byte) : Advances s (execLzLit v s) := by
  obtain ⟨hh, hlt, h8⟩ := (phaseInv_lzBlock hp).1 hi
  have hfits := hh.fits
  unfold execLzLit
  rw [if_neg (by omega)]
  refine reaches_ite (fun _ => reaches_raise s _) fun hn => reaches_produce (by omega) ?_
  exact lzBlock_continues hp hi (n := 1) (k := 1) (by constructor <;> simp) (by simpa using hn)
    (by omega) (by omega) (by simp) (blockDone_phase _)

theorem execLzRef_advances (l : BitVec 4) (d : BitVec 12) : Advances s (execLzRef l d s) := by
  obtain ⟨hh, hlt, h8⟩ := (phaseInv_lzBlock hp).1 hi
  have hfits := hh.fits
  unfold execLzRef
  dsimp only
  rw [if_neg (by omega)]
  refine reaches_ite (fun _ => reaches_raise s _) fun hn => reaches_ite
    (fun _ => reaches_raise s _) fun hsz => reaches_ite (fun _ => reaches_raise s _) fun _ => ?_
  exact reaches_produce (by omega) (lzBlock_continues hp hi (n := 2) (k := refLen l)
    (by constructor <;> simp) (by simpa using hn) (by simp [refLen]) (by omega) (by simp) (by simp))

theorem step_lzBlock_advances : Advances s (step s) := by
  have h8 := ((phaseInv_lzBlock hp).1 hi).2.2
  cases hm : maskBit s.x.mask s.x.slot.toNat
  · rw [step_lzLit hp h8 hm]
    exact reaches_ite (fun _ => execLzLit_advances hp hi _) fun _ => reaches_raise s _
  · rw [step_lzRef hp h8 hm]
    exact reaches_ite (fun _ => execLzRef_advances hp hi _ _) fun _ => reaches_raise s _

end LzBlock

end Sys2Proof.Machine
end

section
/-! SUPPORT. The body of a Huffman call and of a WL4 call: every step answers a next state, keeps what the
phase implies and leaves fewer steps. -/

namespace Sys2Proof.Machine

/-! ## Huffman: the tree is read -/

theorem step_hufTSize_advances {s : State} (hp : s.phase = .hufTSize) (hi : PhaseInv s) :
    Advances s (step s) := by
  obtain ⟨hh, hl⟩ := (phaseInv_hufTSize hp).1 hi
  rw [step_hufTSize hp]
  refine reaches_ite (fun hn => ?_) fun _ => reaches_raise s _
  refine reaches_ite (fun _ => reaches_raise s _) fun _ => ⟨_, rfl, .inr ?_⟩
  have hg : Grows s (((s.setX { s.x with treeN := s.inAt s.pc.toNat }).advance 1).setPhase .hufTable)
      1 0 := by constructor <;> simp
  refine ⟨(phaseInv_hufTable rfl).2 ⟨hg.headered hh, hl⟩, by simp, ?_, hg.header, ?_⟩
  · rw [hg.cursor hn]
    exact (has_iff s 1).1 hn
  · rw [stepsLeft_hufTSize hp, stepsLeft_hufTable rfl]
    show 2 + 255 * s.owed < 3 + 255 * s.owed
    omega

/-- Every byte of the table has been written once the table is loaded (20_memory.md R52). -/
theorem loadTree_get (s : State) {n o : Nat} (h : o < n) :
    ((s.loadTree n).treeMem.get o).isSome := by
  simp [Memory.get_writeList, h]

theorem step_hufTable_advances {s : State} (hp : s.phase = .hufTable) (hi : PhaseInv s) :
    Advances s (step s) := by
  obtain ⟨hh, hl⟩ := (phaseInv_hufTable hp).1 hi
  rw [step_hufTable hp]
  refine reaches_ite (fun _ => reaches_raise s _) fun hn => ⟨_, rfl, .inr ?_⟩
  have hn' : s.has s.tableLen = true := by simpa using hn
  have hg : Grows s (((s.loadTree s.tableLen).advance s.tableLen).setPhase .hufCheck)
      s.tableLen 0 := by constructor <;> simp
  refine ⟨(phaseInv_hufCheck rfl).2 ⟨hg.headered hh, hl, fun o ho => loadTree_get s ho⟩, by simp, ?_,
    hg.header, ?_⟩
  · rw [hg.cursor hn']
    exact (has_iff s _).1 hn'
  · rw [stepsLeft_hufTable hp, stepsLeft_hufCheck rfl]
    show 1 + 255 * s.owed < 2 + 255 * s.owed
    omega

theorem tableLen_pos (s : State) : 0 < s.tableLen := by simp [State.tableLen, Machine.tableLen]

theorem onBranch_root (s : State) : s.onBranch 0 := ⟨tableLen_pos s, .root⟩

theorem step_hufCheck_advances {s : State} (hp : s.phase = .hufCheck) (hi : PhaseInv s)
    (hcur : s.pc.toNat ≤ s.inLen.toNat) : Advances s (step s) := by
  obtain ⟨hh, hl, htab⟩ := (phaseInv_hufCheck hp).1 hi
  rw [step_hufCheck hp]
  refine reaches_ite (fun _ => reaches_raise s _) fun hok => ⟨_, rfl, .inr ?_⟩
  have hok' : s.treeOk = true := by simpa using hok
  refine continues_of_grows (p := .hufBits) (n := 0) (k := 0) hh (by simp [KnownType])
    (by constructor <;> simp) ((has_iff s 0).2 hcur) (by simp [hl]) (finishOr_phase _ _)
    (by rw [stepsLeft_hufCheck hp]; omega) (by decide) fun hpt hht hltt howed => ⟨?_, ?_⟩
  · exact (phaseInv_hufBits hpt).2 ⟨hht, hltt, htab, hok', onBranch_root _⟩
  · rw [stepsLeft_hufCheck hp, stepsLeft_hufBits hpt, ← howed]
    exact Nat.lt_of_le_of_lt (Nat.sub_le _ _) (by omega)

/-! ## Huffman: the bit steps -/

section HufBits
variable {s : State} (hp : s.phase = .hufBits) (hi : PhaseInv s)
include hp hi

/-- The branch the walk stands on has both children inside the checked table (44_huffman.md R150). -/
theorem node_children_inside :
    child0 s.x.node.toNat (branchBase (s.treeAt s.x.node.toNat)) + 1 < s.tableLen := by
  obtain ⟨-, -, -, hok, -, hreach⟩ := (phaseInv_hufBits hp).1 hi
  exact (treeCheck_good (treeCheck_reach hok hreach)).2

/-- A child lies in a later pair of offsets than its parent, and the table has 255 pairs after the root
(44_huffman.md R148, R155). -/
theorem node_child_bounds (bit : Bool) :
    childOf s.x.node.toNat (branchBase (s.treeAt s.x.node.toNat)) bit < s.tableLen ∧
    (s.x.node.toNat + 1) / 2 <
      (childOf s.x.node.toNat (branchBase (s.treeAt s.x.node.toNat)) bit + 1) / 2 ∧
    (s.x.node.toNat + 1) / 2 < 255 := by
  have hin := node_children_inside hp hi
  have hT := tableLen_le s
  rw [Config.treeBytes] at hT
  have hbit := Bool.toNat_le bit
  simp only [childOf, child0] at hin ⊢
  omega

/-- A bit step that goes down to a branch (44_huffman.md R152). -/
theorem walk_continues (hcur : s.pc.toNat ≤ s.inLen.toNat) {t : State} {bit : Bool}
    (hg : Grows s t 0 0) (hpt : t.phase = .hufBits) (htree : t.treeMem = s.treeMem)
    (hn : t.x.treeN = s.x.treeN) (hleaf : branchLeaf (s.treeAt s.x.node.toNat) bit = false)
    (hnode : t.x.node =
      BitVec.ofNat 10 (childOf s.x.node.toNat (branchBase (s.treeAt s.x.node.toNat)) bit)) :
    Continues s t := by
  obtain ⟨hh, hlt, htab, hok, -, hreach⟩ := (phaseInv_hufBits hp).1 hi
  obtain ⟨hin, hpair, hlast⟩ := node_child_bounds hp hi bit
  have howes := owed_pos hlt
  have hT := tableLen_le s
  rw [Config.treeBytes] at hT
  have hchild : t.x.node.toNat =
      childOf s.x.node.toNat (branchBase (s.treeAt s.x.node.toNat)) bit := by
    rw [hnode, BitVec.toNat_ofNat, Nat.mod_eq_of_lt (by omega)]
  have htl : t.tableLen = s.tableLen := by rw [State.tableLen, hn]; rfl
  have hta : t.treeAt = s.treeAt := funext fun o => by rw [State.treeAt, htree]; rfl
  have hl : t.x.outLen = s.x.outLen := by simpa using hg.outLen
  have hsz : t.x.size = s.x.size := hg.header.2.2
  have howed : t.owed = s.owed := by rw [State.owed, hl, hsz]; rfl
  refine ⟨(phaseInv_hufBits hpt).2 ⟨hg.headered hh, by rw [hl, hsz]; exact hlt, ?_, ?_, ?_⟩,
    by simp [hpt], by rw [hg.cursor ((has_iff s 0).2 hcur)]; exact hcur, hg.header, ?_⟩
  · rw [State.tableLoaded, htl, htree]
    exact htab
  · rw [State.treeOk, hta, htl]
    exact hok
  · rw [State.onBranch, htl, hta, hchild]
    exact ⟨hin, .child bit hreach hleaf⟩
  · rw [stepsLeft_hufBits hp, stepsLeft_hufBits hpt, howed, hchild]
    omega

/-- A bit step at a leaf emits one byte and returns to the root; at a branch it walks to the child. -/
theorem walkBit_advances (hcur : s.pc.toNat ≤ s.inLen.toNat) (bit : Bool) :
    Advances s (walkBit bit s) := by
  obtain ⟨hh, hlt, htab, hok, hnode, hreach⟩ := (phaseInv_hufBits hp).1 hi
  obtain ⟨hin, hpair, hlast⟩ := node_child_bounds hp hi bit
  have hfits := hh.fits
  have howes := owed_pos hlt
  have hn0 : s.has 0 = true := (has_iff s 0).2 hcur
  have hpos : 0 < s.stepsLeft := by rw [stepsLeft_hufBits hp]; omega
  have htl : s.takeBit.tableLen = s.tableLen := rfl
  unfold walkBit branchStep
  dsimp only
  rw [if_neg (by simp only [htl, takeBit_x]; omega)]
  refine reaches_ite (fun hleaf => ?_) fun hbranch => ?_
  · rw [if_pos (by simpa [htl] using hin)]
    refine reaches_produce (s := s) (by omega) ?_
    refine continues_of_grows (p := .hufBits) (n := 0) (k := 1) hh (by simp [KnownType])
      (by constructor <;> simp) hn0 (by omega) (finishOr_phase _ _) hpos (by decide)
      fun hpt hht hltt howed => ⟨?_, ?_⟩
    · exact (phaseInv_hufBits hpt).2 ⟨hht, hltt, htab, hok, onBranch_root _⟩
    · rw [stepsLeft_hufBits hp, stepsLeft_hufBits hpt]
      exact Nat.lt_of_le_of_lt (Nat.sub_le _ _) (by omega)
  · have hleaf : branchLeaf (s.treeAt s.x.node.toNat) bit = false := by
      cases bit <;> simpa using hbranch
    exact ⟨_, rfl, .inr (walk_continues hp hi hcur (by constructor <;> simp) rfl rfl rfl hleaf rfl)⟩

omit hi in
/-- A refill takes no step of its own and changes nothing the bounds speak of (R151). -/
theorem advances_of_refill {w : BitVec 32} {a : Answer} (h : Advances (s.refill w) a) :
    Advances s a := by
  obtain ⟨t, ha, hf | ⟨hph, hst, hcur, hx, hfew⟩⟩ := h
  · exact ⟨t, ha, .inl hf⟩
  · refine ⟨t, ha, .inr ⟨hph, hst, hcur, hx, ?_⟩⟩
    rw [stepsLeft_hufBits (s := s.refill w) hp] at hfew
    rw [stepsLeft_hufBits hp]
    exact hfew

theorem step_hufBits_advances (hcur : s.pc.toNat ≤ s.inLen.toNat) : Advances s (step s) := by
  rw [step_hufBits hp]
  refine reaches_ite (fun _ => reaches_ite (fun _ => reaches_raise s _) fun hn => ?_) fun _ =>
    walkBit_advances hp hi hcur _
  have hn' : s.has 4 = true := by simpa using hn
  obtain ⟨hh, hrest⟩ := (phaseInv_hufBits hp).1 hi
  refine advances_of_refill hp (walkBit_advances (s := s.refill s.nextWord) hp
    ((phaseInv_hufBits (s := s.refill s.nextWord) hp).2
      ⟨⟨hh.type, hh.wl4T, hh.fits, hh.mode⟩, hrest⟩) ?_ _)
  rw [refill_pc, refill_inLen, advance_toNat hn']
  exact (has_iff s 4).1 hn'

end HufBits

/-! ## WL4 -/

/-- The two unpacking phases and the stream types they serve (45_wl4.md R166, R167). -/
def Wl4Phase (p : Phase) (v : BitVec 2) : Prop := (p = .w8 ∧ v = 1#2) ∨ (p = .w16 ∧ v = 2#2)

theorem phaseInv_wl4 {s : State} {v : BitVec 2} (hp : Wl4Phase s.phase v) :
    PhaseInv s ↔ Wl4Call s v := by
  rcases hp with ⟨hp, rfl⟩ | ⟨hp, rfl⟩ <;> rw [PhaseInv, hp]

theorem stepsLeft_wl4 {s : State} {v : BitVec 2} (hp : Wl4Phase s.phase v) :
    s.stepsLeft = s.inLen.toNat - s.pc.toNat + 1 := by
  rcases hp with ⟨hp, -⟩ | ⟨hp, -⟩
  · exact stepsLeft_w8 hp
  · exact stepsLeft_w16 hp

section Wl4
variable {s : State} {p : Phase} {v : BitVec 2} (hv : Wl4Phase p v) (hp : s.phase = p)
  (hi : PhaseInv s)
include hv hp hi

/-- A WL4 token that takes `n ≥ 1` bytes, and ends the call or goes on in its phase. -/
theorem wl4_continues {t : State} {n k : Nat} (hg : Grows s t n k) (hn : s.has n = true)
    (h1 : 1 ≤ n) (hpt : t.phase = .done ∨ t.phase = p) : Continues s t := by
  subst hp
  have hw := (phaseInv_wl4 hv).1 hi
  obtain ⟨hty, -, hsz⟩ := id hg.header
  have hpc := hg.cursor hn
  have hle := (has_iff s n).1 hn
  have hw' : Wl4Call t v := ⟨hg.wl4T.trans hw.wl4T, hty.trans hw.type, hsz.trans hw.size,
    hg.mode.trans hw.mode⟩
  have hcur : t.pc.toNat ≤ s.inLen.toNat := by omega
  rcases hpt with hpt | hpt
  · refine ⟨?_, by simp [hpt], hcur, hg.header, ?_⟩
    · rw [PhaseInv, hpt]
      exact .inr ⟨by rw [hw'.wl4T]; exact hv.imp (·.2) (·.2), hw'.size, hw'.type⟩
    · rw [stepsLeft_done hpt, stepsLeft_wl4 hv]
      omega
  · rw [← hpt] at hv
    refine ⟨(phaseInv_wl4 hv).2 hw', ?_, hcur, hg.header, ?_⟩
    · rcases hv with ⟨h, -⟩ | ⟨h, -⟩ <;> simp [h]
    · rw [stepsLeft_wl4 hv, stepsLeft_wl4 (hpt ▸ hv), hg.inLen]
      omega

theorem wl4End_advances {n : Nat} (h1 : 1 ≤ n) : Advances s (wl4End n s) :=
  reaches_ite (fun _ => reaches_raise s _) fun hn => ⟨_, rfl, .inr <|
    wl4_continues hv hp hi (n := n) (k := 0) (by constructor <;> simp) (by simpa using hn) h1
      (.inl rfl)⟩

omit hv hp hi in
theorem wl4Rsv_advances (n : Nat) : Advances s (wl4Rsv n s) :=
  reaches_ite (fun _ => reaches_raise s _) fun _ => reaches_raise s _

theorem wl4Lit_advances {n : Nat} (h1 : 1 ≤ n) (k : Nat) : Advances s (wl4Lit n k p s) := by
  unfold wl4Lit
  refine reaches_ite (fun _ => reaches_raise s _) fun _ => reaches_ite
    (fun _ => reaches_raise s _) fun hc => reaches_ite (fun _ => reaches_raise s _) fun hn => ?_
  exact reaches_produce (by omega) (wl4_continues hv hp hi (n := n + k) (k := k)
    (by constructor <;> simp) (by simpa using hn) (by omega) (.inr rfl))

theorem wl4Rep_advances {n : Nat} (h1 : 1 ≤ n) (k : Nat) : Advances s (wl4Rep n k p s) := by
  unfold wl4Rep
  refine reaches_ite (fun _ => reaches_raise s _) fun _ => reaches_ite
    (fun _ => reaches_raise s _) fun hc => reaches_ite (fun _ => reaches_raise s _) fun hn => ?_
  exact reaches_produce (by omega) (wl4_continues hv hp hi (n := n + 1) (k := k)
    (by constructor <;> simp) (by simpa using hn) (by omega) (.inr rfl))

end Wl4

theorem step_w8_advances {s : State} (hp : s.phase = .w8) (hi : PhaseInv s) :
    Advances s (step s) := by
  have hv : Wl4Phase .w8 1#2 := .inl ⟨rfl, rfl⟩
  rw [step_w8 hp]
  refine reaches_ite (fun _ => ?_) fun _ => reaches_raise s _
  unfold decodeW8
  split
  · exact wl4End_advances hv hp hi (by omega)
  · split
    · exact wl4Rsv_advances 1
    · split
      · exact wl4Rep_advances hv hp hi (by omega) _
      · exact wl4Lit_advances hv hp hi (by omega) _

theorem step_w16_advances {s : State} (hp : s.phase = .w16) (hi : PhaseInv s) :
    Advances s (step s) := by
  have hv : Wl4Phase .w16 2#2 := .inr ⟨rfl, rfl⟩
  rw [step_w16 hp]
  refine reaches_ite (fun _ => ?_) fun _ => reaches_raise s _
  unfold decodeW16
  split
  · exact wl4End_advances hv hp hi (by omega)
  · split
    · exact wl4Rsv_advances 2
    · split
      · exact wl4Rep_advances hv hp hi (by omega) _
      · exact wl4Lit_advances hv hp hi (by omega) _

end Sys2Proof.Machine
end

section
/-! SUPPORT. A whole call: the header and the type byte open its body, every step keeps the call's
invariant and leaves fewer steps, so every call ends. -/

namespace Sys2Proof.Machine

/-! ## The header opens the body -/

/-- The state a header of type `ty`, parameter `p` and declared size `n` leaves when it is accepted. -/
structure Opens (s : State) (ty p : BitVec 4) (n : BitVec 24) (t : State) : Prop where
  phase : PhaseInv t
  started : t.phase ≠ .idle ∧ t.phase ≠ .hdr
  cursor : t.pc.toNat ≤ s.inLen.toNat
  header : t.x.type = ty ∧ t.x.param = p ∧ t.x.size = n
  known : KnownType ty
  fewer : t.stepsLeft ≤ bodyStepBound ty p n.toNat

section Header
variable {s : State} (hx : s.x = Regs.zero) (h4 : 4 ≤ s.inLen.toNat) {n : BitVec 24}
include hx

theorem headered_latch {ty : BitVec 4} (p : BitVec 4) (q : Phase)
    (ha : headerAccepted s ty = true) (hf : fitsCap s n = true) :
    Headered ((headerLatch s ty p n).setPhase q) ty := by
  refine ⟨rfl, by simp [hx, Regs.zero], by simpa [fitsCap] using hf, ?_⟩
  simp only [headerAccepted, Bool.and_eq_true, Bool.or_eq_true, beq_iff_eq] at ha
  exact ha.2

/-- Nothing has been produced when the header is latched. -/
theorem latch_owed (ty p : BitVec 4) (q : Phase) :
    ((headerLatch s ty p n).setPhase q).owed = n.toNat := by
  simp [State.owed, hx, Regs.zero]

theorem latch_lt (hn : n ≠ 0#24) (ty p : BitVec 4) (q : Phase) :
    ((headerLatch s ty p n).setPhase q).x.outLen.toNat <
      ((headerLatch s ty p n).setPhase q).x.size.toNat := by
  have : n.toNat ≠ 0 := fun h => hn (BitVec.eq_of_toNat_eq h)
  simp [hx, Regs.zero]
  omega

include h4

/-- A header of a format whose header may complete the call (40_header_dispatch.md R94, R96 to R98). -/
theorem opens_finishOr {ty p : BitVec 4} {q : Phase} (hk : KnownType ty)
    (ha : headerAccepted s ty = true) (hf : fitsCap s n = true) (hq : q ≠ .idle ∧ q ≠ .hdr)
    (hbody : n ≠ 0#24 → PhaseInv ((headerLatch s ty p n).setPhase q) ∧
      ((headerLatch s ty p n).setPhase q).stepsLeft ≤ bodyStepBound ty p n.toNat) :
    Opens s ty p n ((headerLatch s ty p n).finishOr q) := by
  by_cases hn : n = 0#24
  · have ht : (headerLatch s ty p n).finishOr q = (headerLatch s ty p n).setPhase .done := by
      simp [State.finishOr, hx, Regs.zero, hn]
    rw [ht]
    exact ⟨phaseInv_done_of_headered (headered_latch hx p _ ha hf) hk rfl (by simp [hx, Regs.zero, hn]),
      by simp, h4, ⟨rfl, rfl, rfl⟩, hk, by rw [stepsLeft_done rfl]; exact Nat.zero_le _⟩
  · have ht : (headerLatch s ty p n).finishOr q = (headerLatch s ty p n).setPhase q := by
      have : (0#24 : BitVec 24) ≠ n := fun h => hn h.symm
      simp [State.finishOr, hx, Regs.zero, this]
    rw [ht]
    obtain ⟨hi, hl⟩ := hbody hn
    exact ⟨hi, hq, h4, ⟨rfl, rfl, rfl⟩, hk, hl⟩

omit hx h4 in
/-- The two tests that the headers share (40_header_dispatch.md R101). -/
theorem reaches_of_accepted {P : State → Prop} {ty : BitVec 4} {t : State}
    (hP : headerAccepted s ty = true → fitsCap s n = true → P t) :
    Reaches P (if !headerAccepted s ty then .next (s.raise .invalidFormat)
      else if !fitsCap s n then .next (s.raise .outOfBounds) else .next t) := by
  cases ha : headerAccepted s ty
  · exact reaches_raise s _
  · cases hf : fitsCap s n
    · exact reaches_raise s _
    · exact ⟨t, rfl, .inr (hP ha hf)⟩

theorem execHdrLz77_opens (p : BitVec 4) : Reaches (Opens s 1#4 p n) (execHdrLz77 p n s) := by
  refine reaches_of_accepted fun ha hf =>
    opens_finishOr hx h4 (.inl rfl) ha hf (by decide) fun hn => ⟨?_, ?_⟩
  · exact (phaseInv_lzMask rfl).2 ⟨headered_latch hx p _ ha hf, latch_lt hx hn _ _ _⟩
  · rw [stepsLeft_lzMask rfl, latch_owed hx]
    exact Nat.le_refl _

theorem execHdrHuf_opens (p : BitVec 4) : Reaches (Opens s 2#4 p n) (execHdrHuf p n s) := by
  refine reaches_of_accepted fun ha hf =>
    ⟨(phaseInv_hufTSize rfl).2 ⟨headered_latch hx p _ ha hf, ?_⟩, by simp, h4, ⟨rfl, rfl, rfl⟩,
      .inr (.inl rfl), ?_⟩
  · simp [hx, Regs.zero]
  · rw [stepsLeft_hufTSize rfl, latch_owed hx]
    exact Nat.le_refl _

theorem execHdrRle_opens (p : BitVec 4) : Reaches (Opens s 3#4 p n) (execHdrRle p n s) := by
  refine reaches_of_accepted fun ha hf =>
    opens_finishOr hx h4 (.inr (.inr (.inl rfl))) ha hf (by decide) fun hn => ⟨?_, ?_⟩
  · exact (phaseInv_rle rfl).2 ⟨headered_latch hx p _ ha hf, latch_lt hx hn _ _ _⟩
  · rw [stepsLeft_rle rfl, latch_owed hx]
    exact Nat.le_refl _

theorem execHdrDiff8_opens : Reaches (Opens s 8#4 1#4 n) (execHdrDiff8 n s) := by
  refine reaches_of_accepted fun ha hf =>
    opens_finishOr hx h4 (.inr (.inr (.inr rfl))) ha hf (by decide) fun hn => ⟨?_, ?_⟩
  · exact (phaseInv_diff rfl).2 ⟨headered_latch hx _ _ ha hf, latch_lt hx hn _ _ _,
      .inl ⟨rfl, by simp [hx, Regs.zero]⟩⟩
  · rw [stepsLeft_diff8 rfl rfl, latch_owed hx]
    exact Nat.le_refl _

theorem execHdrDiff16_opens : Reaches (Opens s 8#4 2#4 n) (execHdrDiff16 n s) := by
  refine reaches_ite (fun _ => reaches_raise s _) fun ha => reaches_ite (fun _ => reaches_raise s _)
    fun hodd => reaches_ite (fun _ => reaches_raise s _) fun hf => ⟨_, rfl, .inr ?_⟩
  have ha' : headerAccepted s 8#4 = true := by simpa using ha
  have hf' : fitsCap s n = true := by simpa using hf
  have heven : n.toNat % 2 = 0 := by
    have h0 : n.toNat.testBit 0 = false := Bool.not_eq_true _ ▸ hodd
    simpa [Nat.testBit_zero] using h0
  refine opens_finishOr hx h4 (.inr (.inr (.inr rfl))) ha' hf' (by decide) fun hn => ⟨?_, ?_⟩
  · exact (phaseInv_diff rfl).2 ⟨headered_latch hx _ _ ha' hf', latch_lt hx hn _ _ _,
      .inr ⟨rfl, heven, by simp [hx, Regs.zero]⟩⟩
  · rw [stepsLeft_diff16 rfl rfl, latch_owed hx]
    exact Nat.le_refl _

/-- 40_header_dispatch.md R92 to R101: a header raises or opens the body of its type. -/
theorem decodeHeader_opens (b : Byte) :
    Reaches (Opens s (b.extractLsb' 4 4) (b.extractLsb' 0 4) n) (exec (decodeHeader b n) s) := by
  unfold decodeHeader
  split
  next h => rw [h]; exact execHdrLz77_opens hx h4 _
  next =>
  split
  next h => rw [h]; exact execHdrHuf_opens hx h4 _
  next =>
  split
  next h => rw [h]; exact execHdrRle_opens hx h4 _
  next =>
  split
  next h => subst h; exact execHdrDiff8_opens hx h4
  next =>
  split
  next h => subst h; exact execHdrDiff16_opens hx h4
  next => exact reaches_raise s _

end Header

/-! ## The type byte opens the body -/

theorem wl4TypeStep_advances {s : State} {p : Phase} {v : BitVec 2} (hv : Wl4Phase p v)
    (hp : s.phase = .wl4Type) (hi : PhaseInv s) : Advances s (wl4TypeStep v p s) := by
  have hw : s.pc = 0#32 ∧ s.x = Regs.zero ∧ s.mode = 4#4 := by rwa [PhaseInv, hp] at hi
  obtain ⟨-, hx, hm⟩ := hw
  refine reaches_ite (fun _ => reaches_raise s _) fun h1 => ⟨_, rfl, .inr ?_⟩
  refine ⟨(phaseInv_wl4 hv).2 ⟨rfl, by simp [hx, Regs.zero], by simp [hx, Regs.zero], hm⟩, ?_,
    Nat.le_of_not_lt h1, ⟨rfl, rfl, rfl⟩, ?_⟩
  · rcases hv with ⟨rfl, -⟩ | ⟨rfl, -⟩ <;> simp
  · rw [stepsLeft_wl4Type hp, stepsLeft_wl4 hv]
    simp
    omega

theorem step_wl4Type_advances {s : State} (hp : s.phase = .wl4Type) (hi : PhaseInv s) :
    Advances s (step s) := by
  rw [step_wl4Type hp]
  unfold decodeWl4Type
  split
  · split
    · exact wl4TypeStep_advances (.inl ⟨rfl, rfl⟩) hp hi
    · split
      · exact wl4TypeStep_advances (.inr ⟨rfl, rfl⟩) hp hi
      · exact reaches_raise s _
  · exact reaches_raise s _

/-! ## A running call has a step left -/

theorem stepBound_pos (mode : BitVec 4) (input : List Byte) : 0 < stepBound mode input := by
  unfold stepBound
  split
  · omega
  · split <;> omega

theorem stepsLeft_pos {s : State} (hi : PhaseInv s) (hb : s.busy = true) : 0 < s.stepsLeft := by
  cases hp : s.phase with
  | idle | done | fault => simp [State.busy, State.status, Phase.status, hp] at hb
  | hdr => rw [stepsLeft_hdr hp]; exact stepBound_pos _ _
  | wl4Type => rw [stepsLeft_wl4Type hp]; omega
  | rle => rw [stepsLeft_rle hp]; exact owed_pos ((phaseInv_rle hp).1 hi).2
  | diff =>
    obtain ⟨-, hlt, ⟨h1, -⟩ | ⟨h2, hs, hl⟩⟩ := (phaseInv_diff hp).1 hi
    · rw [stepsLeft_diff8 hp h1]; exact owed_pos hlt
    · rw [stepsLeft_diff16 hp h2, State.owed]; omega
  | lzMask => rw [stepsLeft_lzMask hp]; exact chunkSteps_pos (owed_pos ((phaseInv_lzMask hp).1 hi).2)
  | lzBlock =>
    rw [stepsLeft_lzBlock hp]; exact chunkSteps_pos (owed_pos ((phaseInv_lzBlock hp).1 hi).2.1)
  | hufTSize => rw [stepsLeft_hufTSize hp]; omega
  | hufTable => rw [stepsLeft_hufTable hp]; omega
  | hufCheck => rw [stepsLeft_hufCheck hp]; omega
  | hufBits =>
    have howes := owed_pos ((phaseInv_hufBits hp).1 hi).2.1
    have hlast := (node_child_bounds hp hi false).2.2
    rw [stepsLeft_hufBits hp]; omega
  | w8 => rw [stepsLeft_w8 hp]; omega
  | w16 => rw [stepsLeft_w16 hp]; omega

/-- Every step after the header's raises or continues, in every phase a call runs in. -/
theorem step_advances {s : State} (hi : PhaseInv s) (hcur : s.pc.toNat ≤ s.inLen.toNat)
    (hb : s.busy = true) (hh : s.phase ≠ .hdr) : Advances s (step s) := by
  cases hp : s.phase with
  | idle | done | fault => simp [State.busy, State.status, Phase.status, hp] at hb
  | hdr => exact absurd hp hh
  | wl4Type => exact step_wl4Type_advances hp hi
  | rle => exact step_rle_advances hp hi
  | diff => exact step_diff_advances hp hi
  | lzMask => exact step_lzMask_advances hp hi
  | lzBlock => exact step_lzBlock_advances hp hi
  | hufTSize => exact step_hufTSize_advances hp hi
  | hufTable => exact step_hufTable_advances hp hi
  | hufCheck => exact step_hufCheck_advances hp hi hcur
  | hufBits => exact step_hufBits_advances hp hi hcur
  | w8 => exact step_w8_advances hp hi
  | w16 => exact step_w16_advances hp hi

/-! ## The invariant of a call -/

/-- What holds in every state of a call `decode(mode, input)`, from its launch on. -/
structure CallOk (mode : BitVec 4) (input : List Byte) (s : State) : Prop where
  mode_eq : s.mode = mode
  input_eq : s.inputBytes = input
  started : s.phase ≠ .idle
  cursor : s.busy = true → s.pc.toNat ≤ s.inLen.toNat
  phase : PhaseInv s
  /-- After the header step of a headered call the registers hold the header's fields (R92). -/
  declared : mode ≠ 4#4 → s.phase ≠ .hdr → s.phase ≠ .fault →
    headerOf input = some (s.x.type, s.x.param, s.x.size) ∧ KnownType s.x.type

section CallStep
variable {mode : BitVec 4} {input : List Byte} {s t : State}

theorem callOk_of_fault (h : CallOk mode input s) (hk : KeepsHost s t) (hf : t.phase = .fault) :
    CallOk mode input t where
  mode_eq := hk.2.1.trans h.mode_eq
  input_eq := hk.inputBytes.trans h.input_eq
  started := by simp [hf]
  cursor hb := by simp [State.busy, State.status, Phase.status, hf] at hb
  phase := phaseInv_fault hf
  declared _ _ hn := absurd hf hn

theorem callOk_of_opens {n : BitVec 24} {ty p : BitVec 4} (h : CallOk mode input s)
    (hk : KeepsHost s t) (hhd : headerOf input = some (ty, p, n)) (ho : Opens s ty p n t) :
    CallOk mode input t where
  mode_eq := hk.2.1.trans h.mode_eq
  input_eq := hk.inputBytes.trans h.input_eq
  started := ho.started.1
  cursor _ := by rw [hk.2.2.1]; exact ho.cursor
  phase := ho.phase
  declared _ _ _ := by
    obtain ⟨hty, hpar, hsz⟩ := ho.header
    exact ⟨by rw [hty, hpar, hsz, hhd], by rw [hty]; exact ho.known⟩

theorem callOk_of_continues (h : CallOk mode input s) (hk : KeepsHost s t) (hh : s.phase ≠ .hdr)
    (hf : s.phase ≠ .fault) (hc : Continues s t) : CallOk mode input t where
  mode_eq := hk.2.1.trans h.mode_eq
  input_eq := hk.inputBytes.trans h.input_eq
  started := hc.started.1
  cursor _ := by rw [hk.2.2.1]; exact hc.cursor
  phase := hc.phase
  declared hm _ _ := by
    obtain ⟨hty, hpar, hsz⟩ := hc.header
    rw [hty, hpar, hsz]
    exact h.declared hm hh hf

/-- The header step of a call. -/
theorem step_hdr_opens (hi : PhaseInv s) (hp : s.phase = .hdr) :
    Reaches (fun t => ∃ ty p n, headerOf s.inputBytes = some (ty, p, n) ∧ Opens s ty p n t)
      (step s) := by
  have hi' : s.pc = 0#32 ∧ s.x = Regs.zero ∧ startPhase s.mode = some .hdr := by
    rwa [PhaseInv, hp] at hi
  obtain ⟨-, hx, -⟩ := hi'
  rw [step_hdr hp]
  refine reaches_ite (fun h4 => ?_) fun _ => reaches_raise s _
  obtain ⟨t, ht, hf | ho⟩ := decodeHeader_opens hx h4 (n := le24 (s.inAt 1) (s.inAt 2) (s.inAt 3))
    (s.inAt 0)
  · exact ⟨t, ht, .inl hf⟩
  · exact ⟨t, ht, .inr ⟨_, _, _, headerOf_inputBytes h4, ho⟩⟩

/-- The step lemma of a call: a next state that keeps the invariant and has fewer steps left. -/
theorem CallOk.step (h : CallOk mode input s) (hb : s.busy = true) :
    ∃ t, step s = .next t ∧ CallOk mode input t ∧ t.stepsLeft < s.stepsLeft := by
  have hpos := stepsLeft_pos h.phase hb
  by_cases hp : s.phase = .hdr
  · obtain ⟨t, ht, hf | ⟨ty, p, n, hhd, ho⟩⟩ := step_hdr_opens h.phase hp
    · exact ⟨t, ht, callOk_of_fault h (step_keepsHost ht) hf, by rwa [stepsLeft_fault hf]⟩
    · have hm : s.mode ≠ 4#4 := by
        have hi := h.phase
        rw [PhaseInv, hp] at hi
        intro he
        rw [he] at hi
        exact absurd hi.2.2 (by decide)
      have hfew := ho.fewer
      refine ⟨t, ht, callOk_of_opens h (step_keepsHost ht) (by rw [← h.input_eq, hhd]) ho, ?_⟩
      simp only [stepsLeft_hdr hp, stepBound, if_neg hm, hhd]
      omega
  · obtain ⟨t, ht, hf | hc⟩ := step_advances h.phase (h.cursor hb) hb hp
    · exact ⟨t, ht, callOk_of_fault h (step_keepsHost ht) hf, by rwa [stepsLeft_fault hf]⟩
    · have hnf : s.phase ≠ .fault := fun he => by
        simp [State.busy, State.status, Phase.status, he] at hb
      exact ⟨t, ht, callOk_of_continues h (step_keepsHost ht) hp hnf hc, hc.fewer⟩

end CallStep

/-! ## The call as a whole -/

/-- Counting steps by a rank that every step of the call pays for. -/
theorem countSteps_le {P : State → Prop} {f : State → Bool} {rank : State → Nat}
    (hstep : ∀ s, P s → s.busy = true → ∃ t, step s = .next t ∧ P t ∧
      (if f s then 1 else 0) + rank t ≤ rank s) (n : Nat) {s : State} (h : P s) :
    countSteps f n s ≤ rank s := by
  induction n generalizing s with
  | zero => exact Nat.zero_le _
  | succ n ih =>
    cases hb : s.busy
    · rw [countSteps_idle f _ hb]
      exact Nat.zero_le _
    · obtain ⟨t, ht, hP, hr⟩ := hstep s h hb
      rw [countSteps_next f n hb ht]
      exact Nat.le_trans (Nat.add_le_add_left (ih hP) _) hr

section Call
variable {mode : BitVec 4} {input : List Byte}

/-- 70_reset_and_hazards.md R231: all the steps of a call, the one that raises included. -/
theorem callSteps_le {s : State} (h : CallOk mode input s) (n : Nat) :
    callSteps n s ≤ s.stepsLeft :=
  countSteps_le (rank := State.stepsLeft) (fun s hs hb => by
    obtain ⟨t, ht, hok, hlt⟩ := hs.step hb
    exact ⟨t, ht, hok, by simp; omega⟩) n h

/-- 00_scope.md R4: with enough steps the call is over. -/
theorem runCall_ends (n : Nat) {s : State} (h : CallOk mode input s) (hn : s.stepsLeft ≤ n) :
    ∃ t, runCall n s = .next t ∧ CallOk mode input t ∧ t.busy = false := by
  induction n generalizing s with
  | zero =>
    refine ⟨s, rfl, h, ?_⟩
    by_contra hb
    have := stepsLeft_pos h.phase (by simpa using hb)
    omega
  | succ n ih =>
    cases hb : s.busy
    · exact ⟨s, by simp [runCall, hb], h, hb⟩
    · obtain ⟨t, ht, hok, hlt⟩ := h.step hb
      simp only [runCall, hb, ht, if_true]
      exact ih hok (by omega)

/-- A call that is over is at `DONE` or at `FAULT`, and has a result. -/
theorem CallOk.result_of_idle {s : State} (h : CallOk mode input s) (hb : s.busy = false) :
    (s.phase = .done ∧ s.result = some (.ok s.output)) ∨
      (s.phase = .fault ∧ s.result = some (.error s.err)) := by
  have hne := h.started
  unfold State.result
  cases hp : s.phase <;> simp_all [State.busy, State.status, Phase.status]

theorem start_keepsHost (s : State) : KeepsHost s s.start := by
  unfold State.start
  split
  · exact ⟨rfl, rfl, rfl, rfl⟩
  · split <;> exact ⟨rfl, rfl, rfl, rfl⟩

/-- 40_header_dispatch.md R90: the launch establishes the invariant. -/
theorem start_callOk {s : State} (h : s.status ≠ .busy) :
    CallOk s.mode s.inputBytes s.start := by
  have hin := (start_keepsHost s).inputBytes
  rcases startPhase_cases s.mode with ⟨hm, h4⟩ | ⟨hm, h4⟩ | ⟨hm, h4⟩
  · rw [start_of_phase h hm] at hin ⊢
    exact ⟨rfl, hin, by simp, fun _ => Nat.zero_le _, ⟨rfl, rfl, hm⟩, fun _ hn => absurd rfl hn⟩
  · rw [start_of_phase h hm] at hin ⊢
    exact ⟨rfl, hin, by simp, fun _ => Nat.zero_le _, ⟨rfl, rfl, h4⟩, fun hn => absurd h4 hn⟩
  · rw [start_of_reserved h hm] at hin ⊢
    exact ⟨rfl, hin, by simp, fun hb => by simp [State.busy, State.status, Phase.status] at hb,
      phaseInv_fault rfl, fun _ _ hn => absurd rfl hn⟩

/-- The steps of a call launched on `input`. -/
theorem start_stepsLeft_le {s : State} (h : s.status ≠ .busy) :
    (s.mode ≠ 4#4 → s.start.stepsLeft ≤ stepBound s.mode s.inputBytes) ∧
      (s.mode = 4#4 → s.start.stepsLeft = s.inLen.toNat + 1) := by
  have hin := (start_keepsHost s).inputBytes
  rcases startPhase_cases s.mode with ⟨hm, h4⟩ | ⟨hm, h4⟩ | ⟨hm, h4⟩
  · rw [start_of_phase h hm] at hin ⊢
    rw [stepsLeft_hdr rfl, hin]
    exact ⟨fun _ => Nat.le_refl _, fun he => absurd he h4⟩
  · rw [start_of_phase h hm, stepsLeft_wl4Type rfl]
    exact ⟨fun hne => absurd h4 hne, fun _ => rfl⟩
  · rw [start_of_reserved h hm, stepsLeft_fault rfl]
    exact ⟨fun _ => Nat.zero_le _, fun he => absurd he h4⟩

/-- Of a WL4 call with input, a step that applies a token leaves a step in hand: the raise that ends a
stream cut short applies none (log 24). -/
theorem two_le_stepsLeft_of_token {s : State} (h : CallOk 4#4 input s) (hb : s.busy = true)
    (hl : 1 ≤ s.inLen.toNat) (ht : s.appliesToken = true) : 2 ≤ s.stepsLeft := by
  have hi := h.phase
  have hm := h.mode_eq
  have hnot : ∀ ty, KnownType ty → ¬ Headered s ty := fun ty hk hh => by
    have := hh.mode
    rw [hm] at this
    rcases hk with rfl | rfl | rfl | rfl <;> exact absurd this (by decide)
  cases hp : s.phase with
  | idle | done | fault => simp [State.busy, State.status, Phase.status, hp] at hb
  | hdr =>
    rw [PhaseInv, hp, hm] at hi
    exact absurd hi.2.2 (by decide)
  | wl4Type => rw [stepsLeft_wl4Type hp]; omega
  | rle => exact absurd ((phaseInv_rle hp).1 hi).1 (hnot _ (by simp [KnownType]))
  | diff => exact absurd ((phaseInv_diff hp).1 hi).1 (hnot _ (by simp [KnownType]))
  | lzMask => exact absurd ((phaseInv_lzMask hp).1 hi).1 (hnot _ (by simp [KnownType]))
  | lzBlock => exact absurd ((phaseInv_lzBlock hp).1 hi).1 (hnot _ (by simp [KnownType]))
  | hufTSize => exact absurd ((phaseInv_hufTSize hp).1 hi).1 (hnot _ (by simp [KnownType]))
  | hufTable => exact absurd ((phaseInv_hufTable hp).1 hi).1 (hnot _ (by simp [KnownType]))
  | hufCheck => exact absurd ((phaseInv_hufCheck hp).1 hi).1 (hnot _ (by simp [KnownType]))
  | hufBits => exact absurd ((phaseInv_hufBits hp).1 hi).1 (hnot _ (by simp [KnownType]))
  | w8 =>
    have hhas := appliesToken_oneByte (nextCtx_w8 hp) (fetchAddr_eq_pc (by simp [hp]) (by simp [hp]))
      decode_w8 ht
    rw [has_iff] at hhas
    rw [stepsLeft_w8 hp]
    omega
  | w16 =>
    have hhas := appliesToken_twoBytes (nextCtx_w16 hp)
      (fetchAddr_eq_pc (by simp [hp]) (by simp [hp])) (decode_w16 _) ht
    rw [has_iff] at hhas
    rw [stepsLeft_w16 hp]
    omega

/-- 70_reset_and_hazards.md R231's WL4 row bounds the steps that select a token (log 24). -/
theorem tokenSteps_wl4_le {s : State} (h : CallOk 4#4 input s) (hl : 1 ≤ s.inLen.toNat) (n : Nat) :
    tokenSteps n s ≤ s.stepsLeft - 1 := by
  refine countSteps_le (P := fun s => CallOk 4#4 input s ∧ 1 ≤ s.inLen.toNat)
    (rank := fun s => s.stepsLeft - 1) (fun s ⟨hs, hls⟩ hb => ?_) n ⟨h, hl⟩
  obtain ⟨t, ht, hok, hlt⟩ := hs.step hb
  refine ⟨t, ht, ⟨hok, by rw [(step_keepsHost ht).2.2.1]; exact hls⟩, ?_⟩
  cases hf : s.appliesToken
  · simp
    omega
  · have := two_le_stepsLeft_of_token hs hb hls hf
    simp
    omega

end Call

/-! ## The launched call -/

section Launched
variable {s : State} {mode : BitVec 4} {input : List Byte} (h : s.status ≠ .busy)
  (hlen : input.length < 2 ^ 32)
include h hlen

theorem launched_callOk : CallOk mode input (s.loaded mode input).start := by
  have := start_callOk (s := s.loaded mode input) h
  rwa [loaded_inputBytes s mode hlen] at this

theorem launched_stepsLeft :
    (mode ≠ 4#4 → (s.loaded mode input).start.stepsLeft ≤ stepBound mode input) ∧
      (mode = 4#4 → (s.loaded mode input).start.stepsLeft = input.length + 1) := by
  have := start_stepsLeft_le (s := s.loaded mode input) h
  rwa [loaded_inputBytes s mode hlen, loaded_inLen hlen] at this

theorem launched_fuel : (s.loaded mode input).start.stepsLeft ≤ stepBound mode input + 1 := by
  obtain ⟨hh, hw⟩ := launched_stepsLeft (mode := mode) h hlen
  by_cases hm : mode = 4#4
  · rw [hw hm, stepBound, if_pos hm]
    omega
  · exact Nat.le_succ_of_le (hh hm)

/-- Every call ends in a state of the call that is not `BUSY`. -/
theorem runDecode_ends :
    ∃ t, runDecode s mode input = .next t ∧ CallOk mode input t ∧ t.busy = false := by
  obtain ⟨t, ht, hok, hb⟩ := runCall_ends _ (launched_callOk (mode := mode) h hlen)
    (launched_fuel h hlen)
  exact ⟨t, by rw [runDecode, beginCall_loaded h hlen]; exact ht, hok, hb⟩

theorem decodeCall_isSome : (decodeCall s mode input).isSome := by
  obtain ⟨t, ht, hok, hb⟩ := runDecode_ends (mode := mode) h hlen
  rw [decodeCall, ht]
  rcases hok.result_of_idle hb with ⟨-, hr⟩ | ⟨-, hr⟩ <;> simp [answerResult, hr]

theorem launched_callSteps (n : Nat) :
    (mode ≠ 4#4 → callSteps n (s.loaded mode input).start ≤ stepBound mode input) ∧
      (mode = 4#4 → callSteps n (s.loaded mode input).start ≤ input.length + 1) := by
  obtain ⟨hh, hw⟩ := launched_stepsLeft (mode := mode) h hlen
  have hc := callSteps_le (launched_callOk (mode := mode) h hlen) n
  exact ⟨fun hm => hc.trans (hh hm), fun hm => hc.trans (hw hm).le⟩

theorem launched_tokenSteps (n : Nat) :
    tokenSteps n (s.loaded mode input).start ≤ stepBound mode input := by
  obtain ⟨hh, hw⟩ := launched_callSteps (mode := mode) h hlen n
  have htok := tokenSteps_le_callSteps n (s.loaded mode input).start
  by_cases hm : mode = 4#4
  · subst hm
    rw [stepBound, if_pos rfl]
    by_cases hl : 1 ≤ input.length
    · have hin : 1 ≤ (s.loaded 4#4 input).start.inLen.toNat := by
        rw [(start_keepsHost _).2.2.1, loaded_inLen hlen]
        exact hl
      have := tokenSteps_wl4_le (launched_callOk h hlen) hin n
      rw [(launched_stepsLeft h hlen).2 rfl] at this
      omega
    · have := hw rfl
      omega
  · exact htok.trans (hh hm)

end Launched

/-! ## The statements -/

/-- Settles O46, by the rank `State.stepsLeft`, which every step of a call lowers. -/
theorem everyCallEnds : Obligations.EveryCallEnds := by
  intro s mode input h hlen
  refine ⟨decodeCall_isSome h hlen, fun t ht n => ?_⟩
  rw [beginCall_loaded h hlen] at ht
  cases ht
  exact ⟨launched_tokenSteps h hlen n, launched_callSteps h hlen n⟩

/-- 00_scope.md R2: at `DONE` of a headered call the output has the declared size. -/
theorem CallOk.outLen_of_done {s : State} {mode : BitVec 4} {input : List Byte}
    (h : CallOk mode input s) (hm : mode ≠ 4#4) (hp : s.phase = .done) :
    ∃ t p, headerOf input = some (t, p, s.x.size) ∧ s.x.outLen = s.x.size := by
  obtain ⟨hhd, hk⟩ := h.declared hm (by simp [hp]) (by simp [hp])
  have hi := h.phase
  rw [PhaseInv, hp] at hi
  rcases hi with ⟨-, hl, -⟩ | ⟨-, -, hty⟩
  · exact ⟨_, _, hhd, hl⟩
  · rw [hty] at hk
    exact absurd hk (by unfold KnownType; decide)

/-- Settles O47: the invariant of the call ties the size register to the header and, at `DONE`, the output
length to the size register. -/
theorem successHasExactlyTheDeclaredSize : Obligations.SuccessHasExactlyTheDeclaredSize := by
  intro s mode input out h hlen hm hd
  obtain ⟨t, ht, hok, hb⟩ := runDecode_ends (mode := mode) h hlen
  have hr : t.result = some (.ok out) := by rwa [decodeCall, ht] at hd
  rcases hok.result_of_idle hb with ⟨hp, ho⟩ | ⟨-, he⟩
  · obtain ⟨ty, p, hhd, hl⟩ := hok.outLen_of_done hm hp
    rw [ho] at hr
    cases hr
    exact ⟨ty, p, _, hhd, by rw [State.output, outBytesFrom_length, hl]⟩
  · rw [he] at hr
    cases hr

end Sys2Proof.Machine
end

section
/-! SUPPORT. Two runs of one call (00_scope.md R1): states that differ only in bytes no token of the call
may read. Every operation, and so every step, keeps them alike. -/

namespace Sys2Proof.Machine

/-- The phases in which the table stands in `TREE` (44_huffman.md R147 to R153). -/
def Phase.readsTree : Phase → Bool
  | .hufCheck | .hufBits => true
  | .idle | .hdr | .rle | .diff | .lzMask | .lzBlock | .hufTSize | .hufTable | .wl4Type | .w8 | .w16
  | .done | .fault => false

/-- Two states of one call in the normative configuration: the registers agree, and so do the input below
`IN_LEN`, the output below `OUT_LEN`, and the table once it is loaded. Other bytes of the spaces and the
model's own draw counter may differ. -/
structure SameRun (s t : State) : Prop where
  params : t.params = s.params
  normative : s.params.outCommit16 = false
  mode : t.mode = s.mode
  inLen : t.inLen = s.inLen
  err : t.err = s.err
  phase : t.phase = s.phase
  pc : t.pc = s.pc
  x : t.x = s.x
  inp : ∀ a, a < s.inLen.toNat → t.inAt a = s.inAt a
  out : ∀ a, a < s.x.outLen.toNat → t.outAt a = s.outAt a
  tree : s.phase.readsTree = true → ∀ o, o < s.tableLen → t.treeAt o = s.treeAt o

/-- Two answers of one call: alike states, raises of the same kind, or the same stop. -/
inductive SameAnswer : Answer → Answer → Prop where
  | next {s t : State} (h : SameRun s t) : SameAnswer (.next s) (.next t)
  | raise (s t : State) (k : Err) : SameAnswer (.next (s.raise k)) (.next (t.raise k))
  | fault (f : Fault) : SameAnswer (.fault f) (.fault f)

theorem SameAnswer.ite {c : Prop} [Decidable c] {a a' b b' : Answer} (ha : c → SameAnswer a a')
    (hb : ¬ c → SameAnswer b b') : SameAnswer (if c then a else b) (if c then a' else b') := by
  split
  · exact ha (by assumption)
  · exact hb (by assumption)

namespace SameRun

variable {s t : State}

/-! ## What two alike states agree on -/

theorem has (h : SameRun s t) (n : Nat) : t.has n = s.has n := by
  simp only [State.has, h.pc, h.inLen]

theorem tableLen (h : SameRun s t) : t.tableLen = s.tableLen := by
  simp only [State.tableLen, h.x]

theorem headerAccepted (h : SameRun s t) (ty : BitVec 4) :
    headerAccepted t ty = headerAccepted s ty := by
  simp only [Machine.headerAccepted, h.inLen, h.mode]

theorem fitsCap (h : SameRun s t) (n : BitVec 24) : fitsCap t n = fitsCap s n := by
  simp only [Machine.fitsCap, h.params]

/-- Input bytes that `need` has found to be there. -/
theorem inAt_pc (h : SameRun s t) {n i : Nat} (hn : s.has n = true) (hi : i < n) :
    t.inAt (s.pc.toNat + i) = s.inAt (s.pc.toNat + i) :=
  h.inp _ (by rw [has_iff] at hn; omega)

theorem inAt_cursor (h : SameRun s t) {n : Nat} (hn : s.has n = true) (h1 : 1 ≤ n) :
    t.inAt s.pc.toNat = s.inAt s.pc.toNat := h.inAt_pc (i := 0) hn h1

theorem inBytes (h : SameRun s t) {a n : Nat} (hn : a + n ≤ s.inLen.toNat) :
    t.inBytes a n = s.inBytes a n := by
  induction n generalizing a with
  | zero => rfl
  | succ n ih => rw [State.inBytes, State.inBytes, h.inp a (by omega), ih (by omega)]

theorem outBytesFrom (h : SameRun s t) {a n : Nat} (hn : a + n ≤ s.x.outLen.toNat) :
    t.outBytesFrom a n = s.outBytesFrom a n := by
  induction n generalizing a with
  | zero => rfl
  | succ n ih => rw [State.outBytesFrom, State.outBytesFrom, h.out a (by omega), ih (by omega)]

theorem output (h : SameRun s t) : t.output = s.output := by
  rw [State.output, State.output, h.x, h.outBytesFrom (by omega)]

theorem busy (h : SameRun s t) : t.busy = s.busy := by
  simp only [State.busy, State.status, h.phase]

/-! ## What keeps two states alike -/

/-- Register writes that leave `OUT_LEN`, and the table's length once it is loaded. -/
theorem setX (h : SameRun s t) {x : Regs} (hl : x.outLen = s.x.outLen := by rfl)
    (hn : s.phase.readsTree = true → x.treeN = s.x.treeN := by exact fun _ => rfl) :
    SameRun (s.setX x) (t.setX x) where
  params := h.params
  normative := h.normative
  mode := h.mode
  inLen := h.inLen
  err := h.err
  phase := h.phase
  pc := h.pc
  x := rfl
  inp := h.inp
  out a ha := h.out a (by rwa [setX_x, hl] at ha)
  tree hr o ho := h.tree hr o (by rwa [State.tableLen, setX_x, hn hr] at ho)

theorem advance (h : SameRun s t) {n : Nat} : SameRun (s.advance n) (t.advance n) where
  params := h.params
  normative := h.normative
  mode := h.mode
  inLen := h.inLen
  err := h.err
  phase := h.phase
  pc := by rw [advance_pc, advance_pc, h.pc]
  x := h.x
  inp := h.inp
  out := h.out
  tree := h.tree

theorem setPc (h : SameRun s t) {a : Addr} : SameRun (s.setPc a) (t.setPc a) where
  params := h.params
  normative := h.normative
  mode := h.mode
  inLen := h.inLen
  err := h.err
  phase := h.phase
  pc := rfl
  x := h.x
  inp := h.inp
  out := h.out
  tree := h.tree

/-- A change of phase, to one that reads the table only from one that does. -/
theorem setPhase (h : SameRun s t) {p : Phase}
    (hp : p.readsTree = false ∨ s.phase.readsTree = true := by exact .inl rfl) :
    SameRun (s.setPhase p) (t.setPhase p) where
  params := h.params
  normative := h.normative
  mode := h.mode
  inLen := h.inLen
  err := h.err
  phase := rfl
  pc := h.pc
  x := h.x
  inp := h.inp
  out := h.out
  tree hr := h.tree (hp.resolve_left (by simpa using hr))

theorem finishOr (h : SameRun s t) {p : Phase}
    (hp : p.readsTree = false ∨ s.phase.readsTree = true := by exact .inl rfl) :
    SameRun (s.finishOr p) (t.finishOr p) := by
  unfold State.finishOr
  rw [h.x]
  split
  · exact h.setPhase
  · exact h.setPhase hp

theorem emit (h : SameRun s t) {v : Byte} : SameRun (s.emit v) (t.emit v) where
  params := h.params
  normative := h.normative
  mode := h.mode
  inLen := h.inLen
  err := h.err
  phase := h.phase
  pc := h.pc
  x := by rw [emit_x, emit_x, h.x]
  inp := h.inp
  out a ha := by
    by_cases hl : a = s.x.outLen.toNat
    · have ht := emit_outAt_same t v
      rw [h.x] at ht
      rw [hl, ht, emit_outAt_same]
    · have hlt : a < s.x.outLen.toNat := by
        rw [emit_x, BitVec.toNat_add] at ha
        simp at ha
        omega
      rw [emit_outAt_other t v (by rwa [h.x]), emit_outAt_other s v hl, h.out a hlt]
  tree hr o ho := h.tree hr o ho

theorem emitAll (h : SameRun s t) {vs : List Byte} : SameRun (s.emitAll vs) (t.emitAll vs) := by
  induction vs generalizing s t with
  | nil => exact h
  | cons v vs ih => exact ih h.emit

/-- In the normative configuration a backreference copies a byte of the output. -/
theorem copySource (h : SameRun s t) {off : Nat} (h1 : 1 ≤ off) (h2 : off ≤ s.x.outLen.toNat) :
    t.copySource off = s.copySource off := by
  have hs := h.normative
  simp only [State.copySource, h.params, hs, Bool.false_and, Bool.false_eq_true, if_false, h.x]
  exact h.out _ (by omega)

theorem copyOne (h : SameRun s t) {off : Nat} (h1 : 1 ≤ off) (h2 : off ≤ s.x.outLen.toNat) :
    SameRun (s.copyOne off) (t.copyOne off) := by
  have hs := h.normative
  simp only [State.copyOne, h.params, hs, Bool.false_and, Bool.false_eq_true, if_false,
    h.copySource h1 h2]
  exact h.emit

/-- The copy loop reads only bytes the call has produced (43_lz77.md R134, R135). -/
theorem copyBack (h : SameRun s t) {off n : Nat} (h1 : 1 ≤ off) (h2 : off ≤ s.x.outLen.toNat)
    (hn : s.x.outLen.toNat + n < 2 ^ 24) : SameRun (s.copyBack off n) (t.copyBack off n) := by
  induction n generalizing s t with
  | zero => exact h
  | succ n ih =>
    have hl : (s.copyOne off).x.outLen.toNat = s.x.outLen.toNat + 1 := by
      rw [copyOne_x]
      exact emit_outLen (s := s) 0#8 (by omega)
    exact ih (h.copyOne h1 h2) (by omega) (by omega)

/-- The tail of a block: its next phase depends on the registers only (43_lz77.md R136). -/
theorem blockDone (h : SameRun s t) : SameRun s.blockDone t.blockDone := by
  have hph : t.blockDone.phase = s.blockDone.phase := by simp only [blockDone_phase, h.x]
  have hquiet : s.blockDone.phase.readsTree = false := by
    rw [blockDone_phase]
    split
    · rfl
    · split <;> rfl
  have ht : t.blockDone =
      (t.setX { s.x with slot := s.x.slot + 1#4 }).setPhase s.blockDone.phase := by
    rw [← hph, ← h.x]
    rfl
  rw [ht]
  exact (h.setX (x := { s.x with slot := s.x.slot + 1#4 })).setPhase (.inl hquiet)

/-- Loading the table from the input makes it alike, whatever `TREE` held (44_huffman.md R147). -/
theorem loadTree (h : SameRun s t) {n : Nat} (hn : s.has n = true) (o : Nat) (ho : o < n) :
    (t.loadTree n).treeAt o = (s.loadTree n).treeAt o := by
  rw [loadTree_treeAt, loadTree_treeAt, if_pos ho, if_pos ho, h.pc, h.inAt_pc hn ho]

theorem produce (h : SameRun s t) {n : Nat} {u v : State}
    (hp : s.x.outLen.toNat + n ≤ s.params.outCap.toNat → SameRun u v) :
    SameAnswer (produce s n u) (produce t n v) := by
  unfold Machine.produce
  rw [h.x, h.params]
  exact .ite (fun hc => .next (hp hc)) fun _ => .fault _

end SameRun

/-- Two checks of tables that agree below the table's length. -/
theorem treeCheck_congr {tab tab' : Nat → Byte} {T : Nat} (h : ∀ o, o < T → tab' o = tab o)
    (fuel : Nat) {o : Nat} (ho : o < T) :
    treeCheck tab' T fuel o = treeCheck tab T fuel o := by
  induction fuel generalizing o with
  | zero => rfl
  | succ n ih =>
    simp only [treeCheck, h o ho]
    by_cases hc : child0 o (branchBase (tab o)) + 1 < T
    · rw [ih (o := child0 o (branchBase (tab o))) (by omega), ih hc]
    · simp [hc]

theorem SameRun.treeOk {s t : State} (h : SameRun s t) (hr : s.phase.readsTree = true) :
    t.treeOk = s.treeOk := by
  rw [State.treeOk, State.treeOk, h.tableLen]
  exact treeCheck_congr (h.tree hr) _ (tableLen_pos s)

/-! ## The tokens -/

section Tokens
variable {s t : State} (h : SameRun s t)
include h

/-- The latch of every header. -/
theorem latch_sameRun (ty p : BitVec 4) (n : BitVec 24) :
    SameRun (headerLatch s ty p n) (headerLatch t ty p n) := by
  unfold headerLatch
  rw [h.x]
  exact h.setX.setPc

theorem decodeHeader_sameAnswer (b : Byte) (n : BitVec 24) :
    SameAnswer (exec (decodeHeader b n) s) (exec (decodeHeader b n) t) := by
  have hraise : ∀ k, SameAnswer (.next (s.raise k)) (.next (t.raise k)) := SameAnswer.raise s t
  unfold decodeHeader
  split
  · simp only [exec, execHdrLz77, h.headerAccepted, h.fitsCap]
    exact .ite (fun _ => hraise _) fun _ => .ite (fun _ => hraise _) fun _ =>
      .next (latch_sameRun h _ _ _).finishOr
  split
  · simp only [exec, execHdrHuf, h.headerAccepted, h.fitsCap]
    exact .ite (fun _ => hraise _) fun _ => .ite (fun _ => hraise _) fun _ =>
      .next (latch_sameRun h _ _ _).setPhase
  split
  · simp only [exec, execHdrRle, h.headerAccepted, h.fitsCap]
    exact .ite (fun _ => hraise _) fun _ => .ite (fun _ => hraise _) fun _ =>
      .next (latch_sameRun h _ _ _).finishOr
  split
  · simp only [exec, execHdrDiff8, h.headerAccepted, h.fitsCap]
    exact .ite (fun _ => hraise _) fun _ => .ite (fun _ => hraise _) fun _ =>
      .next (latch_sameRun h _ _ _).finishOr
  split
  · simp only [exec, execHdrDiff16, h.headerAccepted, h.fitsCap]
    exact .ite (fun _ => hraise _) fun _ => .ite (fun _ => hraise _) fun _ =>
      .ite (fun _ => hraise _) fun _ => .next (latch_sameRun h _ _ _).finishOr
  · exact hraise _

theorem decodeRle_sameAnswer (c : Byte) :
    SameAnswer (exec (decodeRle c) s) (exec (decodeRle c) t) := by
  unfold decodeRle
  split
  · simp only [exec, execRleRep, h.has, h.x, h.pc]
    refine .ite (fun _ => .raise _ _ _) fun _ => .ite (fun _ => .raise _ _ _) fun _ =>
      .ite (fun _ => .raise _ _ _) fun hn => h.produce fun _ => ?_
    rw [h.inAt_pc (n := 2) (by simpa using hn) (by omega)]
    exact h.setX.advance.emitAll.finishOr
  · simp only [exec, execRleLit, h.has, h.x, h.pc]
    refine .ite (fun _ => .raise _ _ _) fun _ => .ite (fun _ => .raise _ _ _) fun _ =>
      .ite (fun _ => .raise _ _ _) fun hn => h.produce fun _ => ?_
    rw [h.inBytes (by simp [has_iff] at hn; omega)]
    exact h.setX.advance.emitAll.finishOr

theorem execD8W_sameAnswer (w : Byte) : SameAnswer (execD8W w s) (execD8W w t) := by
  simp only [execD8W, h.has, h.x]
  exact .ite (fun _ => .raise _ _ _) fun _ => h.produce fun _ =>
    h.setX.advance.emit.finishOr

theorem execD16W_sameAnswer (w : BitVec 16) : SameAnswer (execD16W w s) (execD16W w t) := by
  simp only [execD16W, h.has, h.x]
  exact .ite (fun _ => .raise _ _ _) fun _ => h.produce fun _ =>
    h.setX.advance.emitAll.finishOr

theorem execLzMask_sameAnswer (m : Byte) : SameAnswer (execLzMask m s) (execLzMask m t) := by
  simp only [execLzMask, h.has, h.x]
  exact .ite (fun _ => .raise _ _ _) fun _ =>
    .next h.setX.advance.setPhase

theorem execLzLit_sameAnswer (v : Byte) : SameAnswer (execLzLit v s) (execLzLit v t) := by
  simp only [execLzLit, h.has, h.x]
  exact .ite (fun _ => .fault _) fun _ => .ite (fun _ => .raise _ _ _) fun _ =>
    h.produce fun _ => h.advance.emit.blockDone

theorem execLzRef_sameAnswer (l : BitVec 4) (d : BitVec 12) :
    SameAnswer (execLzRef l d s) (execLzRef l d t) := by
  simp only [execLzRef, h.has, h.x]
  refine .ite (fun _ => .fault _) fun _ => .ite (fun _ => .raise _ _ _) fun _ =>
    .ite (fun _ => .raise _ _ _) fun _ => .ite (fun _ => .raise _ _ _) fun hoff =>
    h.produce fun hcap => ?_
  refine SameRun.blockDone (h.setX.advance.copyBack (by simp [refOff]) ?_ ?_)
  · simpa using hoff
  · simpa using outLen_add_lt hcap

theorem execHufTSize_sameAnswer (hp : s.phase = .hufTSize) (n : Byte) :
    SameAnswer (execHufTSize n s) (execHufTSize n t) := by
  simp only [execHufTSize, h.has, h.x]
  exact .ite (fun _ => .raise _ _ _) fun _ =>
    .next (h.setX (hn := by simp [hp, Phase.readsTree])).advance.setPhase

theorem execHufTable_sameAnswer : SameAnswer (execHufTable s) (execHufTable t) := by
  simp only [execHufTable, h.has, h.tableLen]
  refine .ite (fun _ => .raise _ _ _) fun hn => .next ?_
  have hn' : s.has s.tableLen = true := by simpa using hn
  exact
    { params := h.params
      normative := h.normative
      mode := h.mode
      inLen := h.inLen
      err := h.err
      phase := rfl
      pc := (h.advance (n := s.tableLen)).pc
      x := h.x
      inp := h.inp
      out := h.out
      tree := fun _ => h.loadTree hn' }

theorem execHufCheck_sameAnswer (hp : s.phase.readsTree = true) :
    SameAnswer (execHufCheck s) (execHufCheck t) := by
  simp only [execHufCheck, h.treeOk hp, h.x]
  exact .ite (fun _ => .raise _ _ _) fun _ =>
    .next (h.setX.finishOr (.inr hp))

/-- 44_huffman.md R152: the walk reads the table at the branch it stands on and at a leaf. -/
theorem walkBit_sameAnswer (hp : s.phase.readsTree = true) (bit : Bool) :
    SameAnswer (walkBit bit s) (walkBit bit t) := by
  unfold walkBit branchStep
  simp only [takeBit_x, takeBit_treeAt, h.x]
  have hbit : SameRun s.takeBit t.takeBit := by
    unfold State.takeBit
    rw [h.x]
    exact h.setX
  rw [hbit.tableLen]
  refine .ite (fun _ => .fault _) fun hnode => ?_
  rw [h.tree hp _ (Nat.lt_of_not_le hnode)]
  refine .ite (fun _ => .ite (fun hchild => ?_) fun _ => .fault _) fun _ => ?_
  · rw [h.tree hp _ hchild]
    unfold leafStep
    simp only [takeBit_x, h.x]
    exact hbit.produce fun _ => hbit.setX.emit.finishOr (.inr hp)
  · exact .next (hbit.setX.setPhase (.inr hp))

/-- A refilled bit step, or one with a bit left. -/
theorem bitStep_sameAnswer (hp : s.phase.readsTree = true) :
    SameAnswer (afterRefill (fun u => walkBit u.x.bitWin.msb u) s)
      (afterRefill (fun u => walkBit u.x.bitWin.msb u) t) := by
  simp only [afterRefill, h.has, h.x]
  refine .ite (fun _ => .ite (fun _ => .raise _ _ _) fun hn => ?_) fun _ =>
    walkBit_sameAnswer h hp _
  have hn' : s.has 4 = true := by simpa using hn
  have hw : t.nextWord = s.nextWord := by
    simp only [State.nextWord, h.pc, h.inAt_cursor hn' (by omega), h.inAt_pc hn' (i := 1) (by omega),
      h.inAt_pc hn' (i := 2) (by omega), h.inAt_pc hn' (i := 3) (by omega)]
  have hr : SameRun (s.refill s.nextWord) (t.refill t.nextWord) := by
    unfold State.refill
    rw [h.x, hw]
    exact h.setX.advance
  rw [hr.x]
  exact walkBit_sameAnswer hr hp _

theorem wl4TypeStep_sameAnswer (v : BitVec 2) {p : Phase} (hp : p.readsTree = false) :
    SameAnswer (wl4TypeStep v p s) (wl4TypeStep v p t) := by
  simp only [wl4TypeStep, h.inLen, h.x]
  exact .ite (fun _ => .raise _ _ _) fun _ =>
    .next (h.setX.setPc.setPhase (.inl hp))

theorem wl4End_sameAnswer (n : Nat) : SameAnswer (wl4End n s) (wl4End n t) := by
  simp only [wl4End, h.has]
  exact .ite (fun _ => .raise _ _ _) fun _ => .next h.advance.setPhase

theorem wl4Rsv_sameAnswer (n : Nat) : SameAnswer (wl4Rsv n s) (wl4Rsv n t) := by
  simp only [wl4Rsv, h.has]
  exact .ite (fun _ => .raise _ _ _) fun _ => .raise _ _ _

theorem wl4Lit_sameAnswer (n k : Nat) {p : Phase} (hp : p.readsTree = false) :
    SameAnswer (wl4Lit n k p s) (wl4Lit n k p t) := by
  simp only [wl4Lit, h.has, h.x, h.pc, h.params]
  refine .ite (fun _ => .raise _ _ _) fun _ => .ite (fun _ => .raise _ _ _) fun _ =>
    .ite (fun _ => .raise _ _ _) fun hn => h.produce fun _ => ?_
  rw [h.inBytes (by simp [has_iff] at hn; omega)]
  exact h.setX.advance.emitAll.setPhase (.inl hp)

theorem wl4Rep_sameAnswer (n k : Nat) {p : Phase} (hp : p.readsTree = false) :
    SameAnswer (wl4Rep n k p s) (wl4Rep n k p t) := by
  simp only [wl4Rep, h.has, h.x, h.pc, h.params]
  refine .ite (fun _ => .raise _ _ _) fun _ => .ite (fun _ => .raise _ _ _) fun _ =>
    .ite (fun _ => .raise _ _ _) fun hn => h.produce fun _ => ?_
  rw [h.inAt_pc (n := n + 1) (by simpa using hn) (by omega)]
  exact h.setX.advance.emitAll.setPhase (.inl hp)

theorem decodeW8_sameAnswer (c : Byte) :
    SameAnswer (exec (decodeW8 c) s) (exec (decodeW8 c) t) := by
  unfold decodeW8
  split
  · exact wl4End_sameAnswer h 1
  split
  · exact wl4Rsv_sameAnswer h 1
  split
  · exact wl4Rep_sameAnswer h 1 _ rfl
  · exact wl4Lit_sameAnswer h 1 _ rfl

theorem decodeW16_sameAnswer (c : BitVec 16) :
    SameAnswer (exec (decodeW16 c) s) (exec (decodeW16 c) t) := by
  unfold decodeW16
  split
  · exact wl4End_sameAnswer h 2
  split
  · exact wl4Rsv_sameAnswer h 2
  split
  · exact wl4Rep_sameAnswer h 2 _ rfl
  · exact wl4Lit_sameAnswer h 2 _ rfl

theorem decodeWl4Type_sameAnswer (b : Byte) :
    SameAnswer (exec (decodeWl4Type b) s) (exec (decodeWl4Type b) t) := by
  unfold decodeWl4Type
  split
  · exact wl4TypeStep_sameAnswer h _ rfl
  split
  · exact wl4TypeStep_sameAnswer h _ rfl
  · exact .raise _ _ _

end Tokens

/-! ## The step -/

section Step
variable {s t : State} (h : SameRun s t)
include h

/-- A step whose control field has one byte. -/
theorem sameAnswer_oneByte {f : Byte → Instr} (hs : step s = if s.has 1 then
      exec (f (s.inAt s.pc.toNat)) s else .next (s.raise .truncated))
    (ht : step t = if t.has 1 then exec (f (t.inAt t.pc.toNat)) t else .next (t.raise .truncated))
    (hf : ∀ b, SameAnswer (exec (f b) s) (exec (f b) t)) : SameAnswer (step s) (step t) := by
  rw [hs, ht, h.has, h.pc]
  refine .ite (fun hn => ?_) fun _ => .raise _ _ _
  rw [h.inAt_cursor hn (by omega)]
  exact hf _

/-- A step whose control field has two bytes. -/
theorem sameAnswer_twoBytes {f : Byte → Byte → Instr} (hs : step s = if s.has 2 then
      exec (f (s.inAt s.pc.toNat) (s.inAt (s.pc.toNat + 1))) s else .next (s.raise .truncated))
    (ht : step t = if t.has 2 then
      exec (f (t.inAt t.pc.toNat) (t.inAt (t.pc.toNat + 1))) t else .next (t.raise .truncated))
    (hf : ∀ b0 b1, SameAnswer (exec (f b0 b1) s) (exec (f b0 b1) t)) :
    SameAnswer (step s) (step t) := by
  rw [hs, ht, h.has, h.pc]
  refine .ite (fun hn => ?_) fun _ => .raise _ _ _
  rw [h.inAt_cursor hn (by omega), h.inAt_pc (i := 1) hn (by omega)]
  exact hf _ _

/-- Alike states of one call step alike. -/
theorem step_sameAnswer : SameAnswer (step s) (step t) := by
  cases hp : s.phase with
  | idle | done | fault =>
    have hb : s.busy = false := by simp [State.busy, State.status, Phase.status, hp]
    rw [step_idle hb, step_idle (h.busy.trans hb)]
    exact .next h
  | hdr =>
    rw [step_hdr hp, step_hdr (h.phase.trans hp), h.inLen]
    refine .ite (fun h4 => ?_) fun _ => .raise _ _ _
    rw [h.inp 0 (by omega), h.inp 1 (by omega), h.inp 2 (by omega), h.inp 3 (by omega)]
    exact decodeHeader_sameAnswer h _ _
  | wl4Type =>
    rw [step_wl4Type hp, step_wl4Type (h.phase.trans hp), h.inLen]
    by_cases h1 : 1 ≤ s.inLen.toNat
    · rw [if_pos h1, if_pos h1, h.inp 0 (by omega)]
      exact decodeWl4Type_sameAnswer h _
    · rw [if_neg h1, if_neg h1]
      exact .raise _ _ _
  | rle =>
    exact sameAnswer_oneByte h (step_rle hp) (step_rle (h.phase.trans hp)) (decodeRle_sameAnswer h)
  | diff =>
    have hp' := h.phase.trans hp
    have hpar : t.x.param = s.x.param := by rw [h.x]
    by_cases h1 : s.x.param = 1#4
    · exact sameAnswer_oneByte h (step_diff8 hp h1) (step_diff8 hp' (hpar.trans h1))
        (execD8W_sameAnswer h)
    · by_cases h2 : s.x.param = 2#4
      · exact sameAnswer_twoBytes (f := fun b0 b1 => .d16W (le16 b0 b1)) h (step_diff16 hp h2)
          (step_diff16 hp' (hpar.trans h2)) fun _ _ => execD16W_sameAnswer h _
      · rw [step_diff_noWordSize hp h1 h2,
          step_diff_noWordSize hp' (by rwa [hpar]) (by rwa [hpar])]
        exact .fault _
  | lzMask =>
    exact sameAnswer_oneByte h (step_lzMask hp) (step_lzMask (h.phase.trans hp))
      (execLzMask_sameAnswer h)
  | lzBlock =>
    have hp' := h.phase.trans hp
    by_cases h8 : s.x.slot.toNat < 8
    · cases hm : maskBit s.x.mask s.x.slot.toNat
      · exact sameAnswer_oneByte h (step_lzLit hp h8 hm)
          (step_lzLit hp' (by rwa [h.x]) (by rwa [h.x])) (execLzLit_sameAnswer h)
      · exact sameAnswer_twoBytes h (step_lzRef hp h8 hm)
          (step_lzRef hp' (by rwa [h.x]) (by rwa [h.x])) fun _ _ => execLzRef_sameAnswer h _ _
    · rw [step_lzBlock_noSuchBlock hp (by omega),
        step_lzBlock_noSuchBlock hp' (by rw [h.x]; omega)]
      exact .fault _
  | hufTSize =>
    exact sameAnswer_oneByte h (step_hufTSize hp) (step_hufTSize (h.phase.trans hp))
      (execHufTSize_sameAnswer h hp)
  | hufTable =>
    rw [step_hufTable hp, step_hufTable (h.phase.trans hp)]
    exact execHufTable_sameAnswer h
  | hufCheck =>
    rw [step_hufCheck hp, step_hufCheck (h.phase.trans hp)]
    exact execHufCheck_sameAnswer h (by rw [hp]; rfl)
  | hufBits =>
    rw [step_hufBits hp, step_hufBits (h.phase.trans hp)]
    exact bitStep_sameAnswer h (by rw [hp]; rfl)
  | w8 => exact sameAnswer_oneByte h (step_w8 hp) (step_w8 (h.phase.trans hp)) (decodeW8_sameAnswer h)
  | w16 =>
    have ht := step_w16 (h.phase.trans hp)
    rw [h.params] at ht
    exact sameAnswer_twoBytes (f := fun b0 b1 => decodeW16 (ctrl16 s.params.wl4Ctrl16BE b0 b1)) h
      (step_w16 hp) ht fun _ _ => decodeW16_sameAnswer h _

end Step

/-! ## The result of a call -/

theorem raise_idle (s : State) (k : Err) : (s.raise k).busy = false := rfl

theorem runCall_idle (n : Nat) {s : State} (h : s.busy = false) : runCall n s = .next s := by
  cases n <;> simp [runCall, h]

theorem SameRun.result {s t : State} (h : SameRun s t) : t.result = s.result := by
  simp only [State.result, h.phase, h.output, h.err]

/-- Alike answers run to the same result. -/
theorem SameAnswer.runCall (n : Nat) {s t : State} (h : SameAnswer (.next s) (.next t)) :
    answerResult (runCall n s) = answerResult (runCall n t) := by
  induction n generalizing s t with
  | zero =>
    cases h with
    | next h => exact h.result.symm
    | raise u v k => rfl
  | succ n ih =>
    cases h with
    | raise u v k => rw [runCall_idle _ (raise_idle u k), runCall_idle _ (raise_idle v k)]; rfl
    | next h =>
      simp only [Machine.runCall, h.busy]
      split
      · have hstep := step_sameAnswer h
        generalize step s = a at hstep
        generalize step t = b at hstep
        cases hstep with
        | next h' => exact ih (.next h')
        | raise u v k => exact ih (.raise u v k)
        | fault f => rfl
      · exact h.result.symm

/-- No call starts with a table in `TREE`. -/
theorem startPhase_readsTree {mode : BitVec 4} {p : Phase} (h : startPhase mode = some p) :
    p.readsTree = false := by
  rcases startPhase_cases mode with ⟨h', -⟩ | ⟨h', -⟩ | ⟨h', -⟩
  · cases h.symm.trans h'
    rfl
  · cases h.symm.trans h'
    rfl
  · cases h.symm.trans h'

/-- 00_scope.md R1: what a launch leaves does not depend on the state it is made in. -/
theorem loaded_sameAnswer {s t : State} {mode : BitVec 4} {input : List Byte}
    (hs : s.status ≠ .busy) (ht : t.status ≠ .busy) (hp : s.params = t.params)
    (hn : s.params.outCommit16 = false) (hlen : input.length < 2 ^ 32) :
    SameAnswer (.next (s.loaded mode input).start) (.next (t.loaded mode input).start) := by
  cases hph : startPhase mode with
  | none =>
    rw [start_of_reserved (s := s.loaded mode input) hs hph,
      start_of_reserved (s := t.loaded mode input) ht hph]
    exact .raise _ _ _
  | some p =>
    rw [start_of_phase (s := s.loaded mode input) hs hph,
      start_of_phase (s := t.loaded mode input) ht hph]
    exact .next
      { params := hp.symm
        normative := hn
        mode := rfl
        inLen := rfl
        err := rfl
        phase := rfl
        pc := rfl
        x := rfl
        inp := fun a ha => by
          have hl : a < input.length := by
            rw [← loaded_inLen (s := s) (mode := mode) hlen]
            exact ha
          exact (loaded_inAt t mode hl).trans (loaded_inAt s mode hl).symm
        out := fun a ha => absurd ha (Nat.not_lt_zero a)
        tree := fun hr => absurd hr (by rw [startPhase_readsTree hph]; decide) }

/-- Settles O48, by the simulation `SameRun` of one run of the call by the other. -/
theorem resultDependsOnTheInputOnly : Obligations.ResultDependsOnTheInputOnly := by
  intro s t mode input hs ht hp hn hlen
  simp only [decodeCall, runDecode, beginCall_loaded hs hlen, beginCall_loaded ht hlen]
  exact (loaded_sameAnswer hs ht hp hn hlen).runCall _

end Sys2Proof.Machine
end

section
/-! SUPPORT. What every token keeps, in whatever state it runs: the spaces stay canonical and inside their
size, every output byte is written, and the registers stay in their ranges (10_state.md R12, R21, R27). -/

namespace Sys2Proof.Machine

/-! ## The spaces -/

/-- The spaces and the output counter: nothing outside a space, and every counted byte written. -/
structure SpacesInv (s : State) : Prop where
  mem : MemInv s
  outCap : s.x.outLen.toNat ≤ s.params.outCap.toNat
  written : ∀ a, a < s.x.outLen.toNat → (s.outMem.get a).isSome

namespace SpacesInv

variable {s t : State}

theorem congr (h : SpacesInv s) (hp : t.params = s.params := by simp)
    (hi : t.inMem = s.inMem := by simp) (ho : t.outMem = s.outMem := by simp)
    (ht : t.treeMem = s.treeMem := by simp) (hl : t.x.outLen = s.x.outLen := by simp) :
    SpacesInv t where
  mem :=
    { inWf := by rw [hi]; exact h.mem.inWf
      outWf := by rw [ho]; exact h.mem.outWf
      treeWf := by rw [ht]; exact h.mem.treeWf
      inInside := by rw [hi]; exact h.mem.inInside
      outInside := by rw [ho, hp]; exact h.mem.outInside
      treeInside := by rw [ht]; exact h.mem.treeInside }
  outCap := by rw [hl, hp]; exact h.outCap
  written := by rw [hl, ho]; exact h.written

/-- 20_memory.md R49: a byte emitted below `OUT_CAP`. -/
theorem emit (h : SpacesInv s) (v : Byte) (hc : s.x.outLen.toNat + 1 ≤ s.params.outCap.toNat) :
    SpacesInv (s.emit v) := by
  have hl := emit_outLen v (outLen_add_lt hc)
  have hat : ∀ a, (s.emit v).outMem.get a =
      if a = s.x.outLen.toNat then some v else s.outMem.get a := fun a => by
    split
    next ha => rw [ha, emit_outMem, Memory.get_write_same]
    next ha => rw [emit_outMem, Memory.get_write_other _ _ ha]
  refine ⟨{ h.mem with outWf := Memory.write_wf _ _ h.mem.outWf, outInside := fun a ha => ?_ },
    by rw [hl]; exact hc, fun a ha => ?_⟩
  · rw [hat] at ha
    split at ha
    · exact Nat.lt_of_lt_of_le (by omega) hc
    · exact h.mem.outInside a ha
  · rw [hl] at ha
    rw [hat]
    split
    · rfl
    · exact h.written a (by omega)

theorem emitAll (vs : List Byte) (h : SpacesInv s)
    (hc : s.x.outLen.toNat + vs.length ≤ s.params.outCap.toNat) : SpacesInv (s.emitAll vs) := by
  induction vs generalizing s with
  | nil => exact h
  | cons v vs ih =>
    simp only [List.length_cons] at hc
    have h1 : s.x.outLen.toNat + 1 ≤ s.params.outCap.toNat := by omega
    refine ih (h.emit v h1) ?_
    rw [emit_outLen v (outLen_add_lt h1), emit_params]
    omega

theorem copyBack (off : Nat) {n : Nat} (h : SpacesInv s)
    (hc : s.x.outLen.toNat + n ≤ s.params.outCap.toNat) : SpacesInv (s.copyBack off n) := by
  induction n with
  | zero => exact h
  | succ n ih =>
    have hl := copyBack_outLen (s := s) off n (outLen_add_lt (by omega))
    rw [copyBack_succ, copyOne_eq]
    exact congr ((ih (by omega)).emit _ (by rw [hl, copyBack_params]; omega)) rfl rfl rfl rfl rfl

/-- 10_state.md R22: a table that fits the `TREE` RAM. -/
theorem loadTree (h : SpacesInv s) {n : Nat} (hn : n ≤ Config.treeBytes) :
    SpacesInv (s.loadTree n) := by
  refine ⟨{ h.mem with treeWf := Memory.writeList_wf _ _ h.mem.treeWf, treeInside := fun a ha => ?_ },
    h.outCap, h.written⟩
  rw [loadTree_treeMem, Memory.get_writeList, inBytes_length] at ha
  split at ha
  · omega
  · exact h.mem.treeInside a ha

end SpacesInv

/-! ## The registers -/

/-- The ranges of the registers that a token alone keeps (10_state.md R12). -/
structure RegRanges (x : Regs) : Prop where
  slot : x.slot.toNat ≤ 8
  bitCnt : x.bitCnt.toNat ≤ 32
  brLen : x.brLen = 0#5 ∨ (3 ≤ x.brLen.toNat ∧ x.brLen.toNat ≤ 18)
  brOff : x.brOff = 0#13 ∨ (1 ≤ x.brOff.toNat ∧ x.brOff.toNat ≤ 4096)

namespace RegRanges

variable {x y : Regs}

theorem congr (h : RegRanges x) (hs : y.slot = x.slot := by simp) (hb : y.bitCnt = x.bitCnt := by simp)
    (hl : y.brLen = x.brLen := by simp) (ho : y.brOff = x.brOff := by simp) : RegRanges y :=
  ⟨by rw [hs]; exact h.slot, by rw [hb]; exact h.bitCnt, by rw [hl]; exact h.brLen,
    by rw [ho]; exact h.brOff⟩

/-- The next block of a chunk (43_lz77.md R136). -/
theorem nextSlot (h : RegRanges x) (h8 : x.slot.toNat < 8) :
    RegRanges { x with slot := x.slot + 1#4 } := by
  refine { h with slot := ?_ }
  simp only [BitVec.toNat_add, BitVec.toNat_ofNat]
  omega

/-- 30_encoding.md R74: a backreference has 3 to 18 bytes at an offset of 1 to 4096. -/
theorem backref (h : RegRanges x) (l : BitVec 4) (d : BitVec 12) :
    RegRanges { x with brLen := BitVec.ofNat 5 (refLen l), brOff := BitVec.ofNat 13 (refOff d) } := by
  have hl := l.isLt
  have hd := d.isLt
  refine { h with brLen := .inr ?_, brOff := .inr ?_ } <;>
    simp only [BitVec.toNat_ofNat, refLen, refOff] <;> omega

/-- 44_huffman.md R152: a bit taken from a window that holds one. -/
theorem takeBit (h : RegRanges x) (h0 : x.bitCnt ≠ 0#6) :
    RegRanges { x with bitWin := x.bitWin <<< 1, bitCnt := x.bitCnt - 1#6 } := by
  have h32 := h.bitCnt
  refine { h with bitCnt := ?_ }
  show (x.bitCnt - 1#6).toNat ≤ 32
  bv_omega

/-- 44_huffman.md R151: a refilled window holds 32 bits. -/
theorem refill (h : RegRanges x) (w : BitVec 32) : RegRanges { x with bitWin := w, bitCnt := 32#6 } :=
  { h with bitCnt := by simp }

end RegRanges
end Sys2Proof.Machine
end

section
/-! SUPPORT. Token by token: one that does not raise keeps the spaces and the ranges, and moves the cursor
to the end of the token (10_state.md R13, 30_encoding.md R75). -/

namespace Sys2Proof.Machine

/-- Where the cursor stands after a token. The header and the WL4 type byte stand at address 0
(40_header_dispatch.md R92, 45_wl4.md R166), and a bit step takes the four bytes of its refill, if any
(44_huffman.md R151). -/
def State.tokenEnd (s : State) : Instr → Nat
  | .hdrLz77 _ _ | .hdrHuf _ _ | .hdrRle _ _ | .hdrDiff8 _ | .hdrDiff16 _ | .hdrIllegal _ _ => 4
  | .wl4T8 | .wl4T16 | .wl4TIllegal _ => 1
  | .hufBr _ _ _ | .hufBit0 | .hufBit1 => s.pc.toNat + if s.x.bitCnt = 0#6 then 4 else 0
  | i => s.pc.toNat + tokenLen s.x.treeN i

theorem tokenEnd_hufTable (s : State) : s.tokenEnd .hufTable = s.pc.toNat + s.tableLen := by
  show s.pc.toNat + (0 + s.tableLen) = _
  rw [Nat.zero_add]

/-- What a token that does not raise leaves, with the cursor at `c`. The walk moves only in
`P_HUF_BITS`, or to the root. -/
structure Completes (s t : State) (c : Nat) : Prop where
  err : t.err = s.err
  phase : t.phase ≠ .fault
  cursor : t.pc.toNat = c
  spaces : SpacesInv t
  ranges : RegRanges t.x
  node : t.x.node = s.x.node ∨ t.x.node = 0#10 ∨ t.phase = .hufBits

/-- The error kinds a token raises (60_exceptions.md R204). -/
def TokenError (k : Err) : Prop := k = .invalidFormat ∨ k = .outOfBounds ∨ k = .truncated

/-- The two ends of a token: an error of the state before it, or its completion. -/
def Ends (s t : State) (c : Nat) : Prop := (∃ k, TokenError k ∧ t = s.raise k) ∨ Completes s t c

theorem ends_invalidFormat (s : State) (c : Nat) : Ends s (s.raise .invalidFormat) c :=
  .inl ⟨_, .inl rfl, rfl⟩

theorem ends_outOfBounds (s : State) (c : Nat) : Ends s (s.raise .outOfBounds) c :=
  .inl ⟨_, .inr (.inl rfl), rfl⟩

theorem ends_truncated (s : State) (c : Nat) : Ends s (s.raise .truncated) c :=
  .inl ⟨_, .inr (.inr rfl), rfl⟩

theorem ite_ne_fault {c : Prop} [Decidable c] {p q : Phase} (hp : p ≠ .fault) (hq : q ≠ .fault) :
    (if c then p else q) ≠ .fault := by split <;> assumption

theorem finishOr_ne_fault (s : State) {p : Phase} (hp : p ≠ .fault) :
    (s.finishOr p).phase ≠ .fault := by
  rw [finishOr_phase]
  exact ite_ne_fault (by decide) hp

theorem blockDone_ne_fault (s : State) : s.blockDone.phase ≠ .fault := by
  rw [blockDone_phase]
  exact ite_ne_fault (by decide) (ite_ne_fault (by decide) (by decide))

section Token
variable {s t : State} (hs : SpacesInv s) (hr : RegRanges s.x)
include hs hr

/-- An accepted header, whatever phase it goes on in. -/
theorem headerLatch_completes {ty p : BitVec 4} {n : BitVec 24} {q : Phase} (hq : q ≠ .fault) :
    Completes s ((headerLatch s ty p n).setPhase q) 4 where
  err := rfl
  phase := hq
  cursor := rfl
  spaces := hs.congr
  ranges := hr.congr
  node := .inl rfl

theorem headerLatch_finishOr_completes {ty p : BitVec 4} {n : BitVec 24} {q : Phase}
    (hq : q ≠ .fault) : Completes s ((headerLatch s ty p n).finishOr q) 4 :=
  headerLatch_completes hs hr (ite_ne_fault (by decide) hq)

omit hs hr in
/-- The three ends of a header token (40_header_dispatch.md R101). -/
theorem header_ends {P Q Q' R R' : Prop} {u : State}
    (h : (P ∧ t = s.raise .invalidFormat) ∨ (Q ∧ R ∧ t = s.raise .outOfBounds) ∨
      (Q' ∧ R' ∧ t = u)) (hu : Completes s u 4) : Ends s t 4 := by
  rcases h with ⟨-, rfl⟩ | ⟨-, -, rfl⟩ | ⟨-, -, rfl⟩
  · exact ends_invalidFormat s _
  · exact ends_outOfBounds s _
  · exact .inr hu

theorem wl4TypeStep_ends {v : BitVec 2} {p : Phase} (hp : p ≠ .fault)
    (h : wl4TypeStep v p s = .next t) : Ends s t 1 := by
  rcases wl4TypeStep_cases h with ⟨-, rfl⟩ | ⟨-, rfl⟩
  · exact ends_invalidFormat s _
  · exact .inr ⟨rfl, hp, rfl, hs.congr, hr.congr, .inl rfl⟩

omit hr in
/-- A run after a control field: the registers `x`, `n` bytes taken, the bytes `vs` emitted. -/
theorem run_completes {x : Regs} {n : Nat} {vs : List Byte} {p : Phase} (hx : RegRanges x)
    (hp : p ≠ .fault) (hn : s.has n = true)
    (hc : s.x.outLen.toNat + vs.length ≤ s.params.outCap.toNat)
    (hl : x.outLen = s.x.outLen := by rfl) (hnode : x.node = s.x.node := by rfl) :
    Completes s ((((s.setX x).advance n).emitAll vs).setPhase p) (s.pc.toNat + n) where
  err := by simp
  phase := hp
  cursor := by simpa using advance_toNat hn
  spaces :=
    have hu : SpacesInv ((s.setX x).advance n) := hs.congr (hl := hl)
    (hu.emitAll vs (by simpa [hl] using hc)).congr
  ranges := hx.congr
  node := .inl (by simpa using hnode)

theorem wl4Lit_ends {n k : Nat} {p : Phase} (hp : p ≠ .fault) (h : wl4Lit n k p s = .next t) :
    Ends s t (s.pc.toNat + (n + k)) := by
  rcases wl4Lit_cases h with ⟨rfl, -⟩ | ⟨-, -, rfl⟩ | ⟨hn, hc, rfl⟩
  · exact ends_truncated s _
  · exact ends_outOfBounds s _
  · exact .inr (run_completes hs hr.congr hp hn (by simpa using hc))

theorem wl4Rep_ends {n k : Nat} {p : Phase} (hp : p ≠ .fault) (h : wl4Rep n k p s = .next t) :
    Ends s t (s.pc.toNat + (n + 1)) := by
  rcases wl4Rep_cases h with ⟨rfl, -⟩ | ⟨-, -, rfl⟩ | ⟨hn, hc, rfl⟩
  · exact ends_truncated s _
  · exact ends_outOfBounds s _
  · exact .inr (run_completes hs hr.congr hp hn (by simpa using hc))

theorem wl4End_ends {n : Nat} (h : wl4End n s = .next t) : Ends s t (s.pc.toNat + n) := by
  rcases wl4End_cases h with ⟨-, rfl⟩ | ⟨hn, rfl⟩
  · exact ends_truncated s _
  · exact .inr ⟨rfl, by simp, advance_toNat hn, hs.congr, hr.congr, .inl rfl⟩

omit hs hr in
theorem wl4Rsv_ends {n c : Nat} (h : wl4Rsv n s = .next t) : Ends s t c := by
  rcases wl4Rsv_cases h with ⟨-, rfl⟩ | ⟨-, rfl⟩
  · exact ends_truncated s _
  · exact ends_invalidFormat s _

omit hr in
/-- A block that copies `n` bytes after writing the registers `x` (43_lz77.md R133, R136). -/
theorem copy_completes {x : Regs} {m off n : Nat} (hx : RegRanges x) (h8 : x.slot.toNat < 8)
    (hn : s.has m = true) (hc : s.x.outLen.toNat + n ≤ s.params.outCap.toNat)
    (hl : x.outLen = s.x.outLen := by rfl) (hnode : x.node = s.x.node := by rfl) :
    Completes s (((s.setX x).advance m).copyBack off n).blockDone (s.pc.toNat + m) where
  err := by simp
  phase := blockDone_ne_fault _
  cursor := by
    rw [blockDone_pc, copyBack_pc]
    exact advance_toNat hn
  spaces :=
    have hu : SpacesInv ((s.setX x).advance m) := hs.congr (hl := hl)
    (hu.copyBack off (by simpa [hl] using hc)).congr
  ranges := (hx.nextSlot h8).congr
  node := .inl (by simpa using hnode)

/-- The table is loaded (44_huffman.md R147). -/
theorem table_completes (hn : s.has s.tableLen = true) :
    Completes s (((s.loadTree s.tableLen).advance s.tableLen).setPhase .hufCheck)
      (s.pc.toNat + s.tableLen) where
  err := by simp
  phase := by simp
  cursor := advance_toNat hn
  spaces := (hs.loadTree (tableLen_le s)).congr
  ranges := hr.congr
  node := .inl (by simp)

/-- A leaf's byte is emitted and the walk returns to the root (44_huffman.md R149). -/
theorem leaf_completes (v : Byte) (hc : s.x.outLen.toNat + 1 ≤ s.params.outCap.toNat) :
    Completes s (((s.setX { s.x with node := 0#10 }).emit v).finishOr .hufBits) s.pc.toNat where
  err := rfl
  phase := finishOr_ne_fault _ (by decide)
  cursor := rfl
  spaces :=
    have hu : SpacesInv (s.setX { s.x with node := 0#10 }) := hs.congr
    (hu.emit v hc).congr
  ranges := hr.congr
  node := .inr (.inl rfl)

theorem branchStep_completes {l0 l1 : Bool} {base : BitVec 6} {bit : Bool}
    (h : branchStep l0 l1 base bit s = .next t) : Completes s t s.pc.toNat := by
  obtain ⟨-, ⟨-, -, hc, rfl⟩ | ⟨-, rfl⟩⟩ := branchStep_cases h
  · exact leaf_completes hs hr _ hc
  · exact ⟨rfl, by simp, rfl, hs.congr, hr.congr, .inr (.inr rfl)⟩

/-- A bit step from a window that holds a bit. -/
theorem branchStep_takeBit_completes {l0 l1 : Bool} {base : BitVec 6} {bit : Bool}
    (h0 : s.x.bitCnt ≠ 0#6) (h : branchStep l0 l1 base bit s.takeBit = .next t) :
    Completes s t s.pc.toNat := by
  have hu : SpacesInv s.takeBit := hs.congr
  obtain ⟨he, hp, hc, hsp, hrg, hn⟩ := branchStep_completes hu (hr.takeBit h0) h
  exact ⟨he, hp, hc, hsp, hrg, hn⟩

/-- The same from the window that a refill leaves. -/
theorem branchStep_refill_completes {l0 l1 : Bool} {base : BitVec 6} {bit : Bool} {w : BitVec 32}
    (h4 : s.has 4 = true) (h : branchStep l0 l1 base bit (s.refill w).takeBit = .next t) :
    Completes s t (s.pc.toNat + 4) := by
  have hu : SpacesInv (s.refill w) := hs.congr
  obtain ⟨he, hp, hc, hsp, hrg, hn⟩ :=
    branchStep_takeBit_completes hu (hr.refill w) (by simp) h
  exact ⟨he, hp, by rw [hc]; exact advance_toNat h4, hsp, hrg, hn⟩

/-- A bit step, refilled or not: `f` is the walk of a window at some branch. -/
theorem afterRefill_ends {f : State → Answer}
    (hf : ∀ u, ∃ l0 l1 base bit, f u = branchStep l0 l1 base bit u.takeBit)
    (h : afterRefill f s = .next t) :
    Ends s t (s.pc.toNat + if s.x.bitCnt = 0#6 then 4 else 0) := by
  rcases afterRefill_cases h with ⟨h0, h⟩ | ⟨-, -, rfl⟩ | ⟨h0, h4, h⟩
  · obtain ⟨l0, l1, base, bit, hb⟩ := hf s
    rw [if_neg h0]
    exact .inr (branchStep_takeBit_completes hs hr h0 (hb.symm.trans h))
  · exact ends_truncated s _
  · obtain ⟨l0, l1, base, bit, hb⟩ := hf (s.refill s.nextWord)
    rw [if_pos h0]
    exact .inr (branchStep_refill_completes hs hr h4 (hb.symm.trans h))

/-- 10_state.md R12, R13, R27: every token that answers a next state raises, or keeps the spaces and the
ranges and moves the cursor to its end. -/
theorem exec_ends {i : Instr} (h : exec i s = .next t) : Ends s t (s.tokenEnd i) := by
  cases i with
  | hdrLz77 p n =>
    exact header_ends (execHdrLz77_cases h) (headerLatch_finishOr_completes hs hr (by decide))
  | hdrHuf p n =>
    exact header_ends (execHdrHuf_cases h) (headerLatch_completes hs hr (by decide))
  | hdrRle p n =>
    exact header_ends (execHdrRle_cases h) (headerLatch_finishOr_completes hs hr (by decide))
  | hdrDiff8 n =>
    exact header_ends (execHdrDiff8_cases h) (headerLatch_finishOr_completes hs hr (by decide))
  | hdrDiff16 n =>
    rcases execHdrDiff16_cases h with ⟨-, rfl⟩ | ⟨-, -, -, rfl⟩ | ⟨-, -, -, rfl⟩
    · exact ends_invalidFormat s _
    · exact ends_outOfBounds s _
    · exact .inr (headerLatch_finishOr_completes hs hr (by decide))
  | hdrIllegal b n => cases h; exact ends_invalidFormat s _
  | wl4T8 => exact wl4TypeStep_ends hs hr (by decide) h
  | wl4T16 => exact wl4TypeStep_ends hs hr (by decide) h
  | wl4TIllegal b => cases h; exact ends_invalidFormat s _
  | rleLit c =>
    rcases execRleLit_cases h with ⟨rfl, -⟩ | ⟨-, -, rfl⟩ | ⟨hn, -, hc, rfl⟩
    · exact ends_truncated s _
    · exact ends_outOfBounds s _
    · exact .inr (run_completes hs hr.congr (ite_ne_fault (by decide) (by decide)) hn
        (by simpa using hc))
  | rleRep c =>
    rcases execRleRep_cases h with ⟨rfl, -⟩ | ⟨-, -, rfl⟩ | ⟨hn, -, hc, rfl⟩
    · exact ends_truncated s _
    · exact ends_outOfBounds s _
    · exact .inr (run_completes hs hr.congr (ite_ne_fault (by decide) (by decide)) hn
        (by simpa using hc))
  | d8W w =>
    rcases execD8W_cases h with ⟨-, rfl⟩ | ⟨hn, hc, rfl⟩
    · exact ends_truncated s _
    · exact .inr (run_completes hs hr.congr (vs := [_]) (ite_ne_fault (by decide) (by decide)) hn hc)
  | d16W w =>
    rcases execD16W_cases h with ⟨-, rfl⟩ | ⟨hn, hc, rfl⟩
    · exact ends_truncated s _
    · exact .inr (run_completes hs hr.congr (ite_ne_fault (by decide) (by decide)) hn hc)
  | lzMask m =>
    rcases execLzMask_cases h with ⟨-, rfl⟩ | ⟨hn, rfl⟩
    · exact ends_truncated s _
    · exact .inr ⟨rfl, by simp, advance_toNat hn, hs.congr, { hr with slot := by simp }, .inl rfl⟩
  | lzLit v =>
    obtain ⟨h8, ⟨-, rfl⟩ | ⟨hn, hc, rfl⟩⟩ := execLzLit_cases h
    · exact ends_truncated s _
    · have hu : SpacesInv (s.advance 1) := hs.congr
      exact .inr ⟨rfl, blockDone_ne_fault _, advance_toNat hn, (hu.emit v hc).congr,
        (hr.nextSlot h8).congr, .inl rfl⟩
  | lzRef l d =>
    obtain ⟨h8, ⟨-, rfl⟩ | ⟨-, -, rfl⟩ | ⟨hn, -, -, hc, rfl⟩⟩ := execLzRef_cases h
    · exact ends_truncated s _
    · exact ends_outOfBounds s _
    · exact .inr (copy_completes hs (hr.backref l d) h8 hn hc)
  | hufTSize n =>
    rcases execHufTSize_cases h with ⟨-, rfl⟩ | ⟨hn, rfl⟩
    · exact ends_truncated s _
    · exact .inr ⟨rfl, by simp, advance_toNat hn, hs.congr, hr.congr, .inl rfl⟩
  | hufTable =>
    rcases execHufTable_cases h with ⟨-, rfl⟩ | ⟨hn, rfl⟩
    · exact ends_truncated s _
    · rw [tokenEnd_hufTable]
      exact .inr (table_completes hs hr hn)
  | hufBr l0 l1 base =>
    rw [exec, execHufBr] at h
    exact afterRefill_ends hs hr (fun _ => ⟨_, _, _, _, rfl⟩) h
  | hufLeaf v =>
    obtain ⟨hc, rfl⟩ := leafStep_cases h
    exact .inr (leaf_completes hs hr v hc)
  | hufCheck =>
    rcases execHufCheck_cases h with ⟨-, rfl⟩ | ⟨-, rfl⟩
    · exact ends_outOfBounds s _
    · exact .inr ⟨rfl, finishOr_ne_fault _ (by decide), rfl, hs.congr, { hr with bitCnt := by simp },
        .inr (.inl rfl)⟩
  | hufWord w =>
    rcases execHufWord_cases h with ⟨-, rfl⟩ | ⟨hn, h⟩
    · exact ends_truncated s _
    · exact .inr (branchStep_refill_completes hs hr hn h)
  | hufBit0 =>
    exact afterRefill_ends (f := walkBit false) hs hr (fun _ => ⟨_, _, _, _, rfl⟩) h
  | hufBit1 =>
    exact afterRefill_ends (f := walkBit true) hs hr (fun _ => ⟨_, _, _, _, rfl⟩) h
  | w8End => exact wl4End_ends hs hr h
  | w8Rsv => exact wl4Rsv_ends h
  | w8Lit len => exact wl4Lit_ends hs hr (by decide) h
  | w8Rep len => exact wl4Rep_ends hs hr (by decide) h
  | w16End => exact wl4End_ends hs hr h
  | w16Rsv => exact wl4Rsv_ends h
  | w16Lit len => exact wl4Lit_ends hs hr (by decide) h
  | w16Rep len => exact wl4Rep_ends hs hr (by decide) h

end Token

end Sys2Proof.Machine
end

section
/-! SUPPORT. The invariant of the machine (10_state.md R27): from the token's own part, Completes, and the
phase's part, PhaseInv, every step keeps it; and how far a step moves the cursor (R13). -/

namespace Sys2Proof.Machine

theorem TokenError.ne_none {k : Err} (h : TokenError k) : k ≠ .none := by
  rcases h with rfl | rfl | rfl <;> decide

theorem TokenError.ne_unimplemented {k : Err} (h : TokenError k) : k ≠ .unimplemented := by
  rcases h with rfl | rfl | rfl <;> decide

theorem rejectKind_tokenError (r : DecodeReject) : TokenError (rejectKind r) := by
  cases r
  · exact .inl rfl
  · exact .inr (.inr rfl)

theorem status_of_busy {s : State} (hb : s.busy = true) : s.status = .busy := by
  simpa [State.busy] using hb

namespace Inv

variable {s t : State}

theorem callInv (h : Inv s) (hb : s.busy = true) : CallInv s := h.call (.inl (status_of_busy hb))

theorem spaces (h : Inv s) (hb : s.busy = true) : SpacesInv s :=
  ⟨h.mem, (h.callInv hb).outCap, (h.callInv hb).written⟩

theorem ranges (h : Inv s) (hb : s.busy = true) : RegRanges s.x :=
  ⟨(h.callInv hb).slot, (h.callInv hb).bitCnt, (h.callInv hb).brLen, (h.callInv hb).brOff⟩

/-- 10_state.md R16: no error stands while a call runs. -/
theorem err_of_busy (h : Inv s) (hb : s.busy = true) : s.err = .none := by
  by_contra he
  simp [State.busy, State.status, Phase.status, h.err.1 he] at hb

/-- 60_exceptions.md R206, R207: a raise frees the spaces and the registers, of which nothing is claimed. -/
theorem raise (h : Inv s) {k : Err} (hk : TokenError k) : Inv (s.raise k) where
  mem :=
    { h.mem with
      outWf := rfl
      treeWf := rfl
      outInside := fun a ha => by simp at ha
      treeInside := fun a ha => by simp at ha }
  err := by simp [hk.ne_none]
  noUnimplemented := hk.ne_unimplemented
  cursor hb := by simp [State.busy, State.status, Phase.status] at hb
  call hc := by simp [State.status, Phase.status] at hc

/-- 44_huffman.md R150: the walk stands inside the table, and so below 511. -/
theorem node_le_of_completes {c : Nat} (h : Inv s) (hb : s.busy = true) (hc : Completes s t c)
    (hi : PhaseInv t) : t.x.node.toNat ≤ 510 := by
  rcases hc.node with hn | hn | hp
  · rw [hn]
    exact (h.callInv hb).node
  · simp [hn]
  · obtain ⟨-, -, -, -, hin, -⟩ := (phaseInv_hufBits hp).1 hi
    have := tableLen_le t
    rw [Config.treeBytes] at this
    omega

/-- The two parts of the invariant meet after a token that does not raise. -/
theorem of_completes {c : Nat} (h : Inv s) (hb : s.busy = true) (hc : Completes s t c)
    (hi : PhaseInv t) (hcur : t.pc.toNat ≤ t.inLen.toNat) : Inv t where
  mem := hc.spaces.mem
  err := by simp [hc.err, h.err_of_busy hb, hc.phase]
  noUnimplemented := by rw [hc.err]; exact h.noUnimplemented
  cursor _ := hcur
  call _ :=
    { outCap := hc.spaces.outCap
      slot := hc.ranges.slot
      bitCnt := hc.ranges.bitCnt
      node := h.node_le_of_completes hb hc hi
      brLen := hc.ranges.brLen
      brOff := hc.ranges.brOff
      written := hc.spaces.written
      phase := hi }

/-- A step of a running call cuts a token short or runs one. -/
theorem step_ends (h : Inv s) (hb : s.busy = true) (hs : step s = .next t) :
    ∃ c, Ends s t c := by
  rw [step_eq] at hs
  split at hs
  next hn => rw [(nextCtx_nothing_iff s).1 hn] at hb; cases hb
  next => cases hs
  next =>
    split at hs
    · exact ⟨_, exec_ends (h.spaces hb) (h.ranges hb) hs⟩
    · cases hs
      exact ⟨0, .inl ⟨_, rejectKind_tokenError _, rfl⟩⟩

/-- What the next phase implies, and the cursor's bound, after a step of a running call that does not
raise. -/
theorem step_phaseInv (h : Inv s) (hb : s.busy = true) (hs : step s = .next t)
    (hf : t.phase ≠ .fault) : PhaseInv t ∧ t.pc.toNat ≤ t.inLen.toNat := by
  have hi := (h.callInv hb).phase
  obtain ⟨-, -, hlen, -⟩ := step_keepsHost hs
  rw [hlen]
  by_cases hp : s.phase = .hdr
  · obtain ⟨u, hu, hr⟩ := step_hdr_opens hi hp
    cases hs.symm.trans hu
    obtain ⟨ty, p, n, -, ho⟩ := hr.resolve_left hf
    exact ⟨ho.phase, ho.cursor⟩
  · obtain ⟨u, hu, hr⟩ := step_advances hi (h.cursor hb) hb hp
    cases hs.symm.trans hu
    have hc := hr.resolve_left hf
    exact ⟨hc.phase, hc.cursor⟩

theorem of_step (h : Inv s) (hs : step s = .next t) : Inv t := by
  cases hb : s.busy
  · rw [step_idle hb] at hs
    cases hs
    exact h
  · obtain ⟨c, ⟨k, hk, rfl⟩ | hc⟩ := h.step_ends hb hs
    · exact h.raise hk
    · obtain ⟨hi, hcur⟩ := h.step_phaseInv hb hs hc.phase
      exact h.of_completes hb hc hi hcur

end Inv

/-- Settles O41: a step raises, or the token's part and the phase's part of the invariant hold after it. -/
theorem stepKeepsTheInvariant : Obligations.StepKeepsTheInvariant := fun _ _ h hs => h.of_step hs

end Sys2Proof.Machine
end

section
/-! SUPPORT. How far a step that does not raise moves the cursor (10_state.md R13, 70_reset_and_hazards.md
R231): to the end of the token that the phase reads, or of a bit step's refill. -/

namespace Sys2Proof.Machine

/-- A token that is there and does not raise is run. -/
theorem exec_of_ite {c : Prop} [Decidable c] {i : Instr} {k : Err} {s t : State}
    (h : (if c then exec i s else .next (s.raise k)) = .next t) (hf : t.phase ≠ .fault) :
    exec i s = .next t := by
  split at h
  · exact h
  · cases h
    exact absurd rfl hf

/-! ## The bit steps -/

/-- A refill changes nothing that `P_HUF_BITS` implies. -/
theorem phaseInv_refill {s : State} (hp : s.phase = .hufBits) (hi : PhaseInv s) (w : BitVec 32) :
    PhaseInv (s.refill w) := by
  obtain ⟨⟨hty, hw, hfits, hm⟩, hrest⟩ := (phaseInv_hufBits hp).1 hi
  exact (phaseInv_hufBits (s := s.refill w) hp).2 ⟨⟨hty, hw, hfits, hm⟩, hrest⟩

/-- A bit step emits a byte or goes down to a branch (44_huffman.md R152, R155). -/
theorem walkBit_progress {bit : Bool} {s t : State} (hp : s.phase = .hufBits) (hi : PhaseInv s)
    (h : walkBit bit s = .next t) :
    t.pc = s.pc ∧ (s.x.outLen.toNat < t.x.outLen.toNat ∨ s.x.node.toNat < t.x.node.toNat) := by
  obtain ⟨-, ⟨-, -, hc, rfl⟩ | ⟨-, rfl⟩⟩ := branchStep_cases h
  · have hl := emit_outLen (s := s.takeBit.setX { s.takeBit.x with node := 0#10 })
      (s.treeAt (childOf s.x.node.toNat (branchBase (s.treeAt s.x.node.toNat)) bit))
      (outLen_add_lt (s := s) hc)
    exact ⟨rfl, .inl (Nat.lt_of_lt_of_eq (Nat.lt_succ_self _) hl.symm)⟩
  · obtain ⟨hin, hpair, -⟩ := node_child_bounds hp hi bit
    have hT := tableLen_le s
    rw [Config.treeBytes] at hT
    refine ⟨rfl, .inr ?_⟩
    show s.x.node.toNat < (BitVec.ofNat 10 (childOf s.x.node.toNat
      (branchBase (s.treeAt s.x.node.toNat)) bit)).toNat
    rw [BitVec.toNat_ofNat, Nat.mod_eq_of_lt (by omega)]
    omega

theorem step_hufBits_progress {s t : State} (hp : s.phase = .hufBits) (hi : PhaseInv s)
    (h : step s = .next t) (hf : t.phase ≠ .fault) :
    s.pc.toNat ≤ t.pc.toNat ∧
      (s.x.outLen.toNat < t.x.outLen.toNat ∨ s.x.node.toNat < t.x.node.toNat) := by
  rw [step_hufBits hp] at h
  rcases afterRefill_cases h with ⟨-, h⟩ | ⟨-, -, rfl⟩ | ⟨-, h4, h⟩
  · obtain ⟨hpc, hgo⟩ := walkBit_progress hp hi h
    exact ⟨by rw [hpc], hgo⟩
  · exact absurd rfl hf
  · obtain ⟨hpc, hgo⟩ := walkBit_progress (s := s.refill s.nextWord) hp (phaseInv_refill hp hi _) h
    refine ⟨?_, hgo⟩
    rw [hpc, refill_pc, advance_toNat h4]
    exact Nat.le_add_right _ _

/-! ## The other tokens end behind the cursor -/

theorem pc_lt_add_tokenLen (s : State) {i : Instr} (h : 0 < controlLen i) :
    s.pc.toNat < s.pc.toNat + tokenLen s.x.treeN i :=
  Nat.lt_add_of_pos_right (Nat.lt_add_right _ h)

theorem tokenEnd_decodeHeader (s : State) (b : Byte) (n : BitVec 24) :
    s.tokenEnd (decodeHeader b n) = 4 := by
  unfold decodeHeader
  split_ifs <;> rfl

theorem tokenEnd_decodeWl4Type (s : State) (b : Byte) : s.tokenEnd (decodeWl4Type b) = 1 := by
  unfold decodeWl4Type
  split_ifs <;> rfl

theorem pc_lt_tokenEnd_decodeRle (s : State) (b : Byte) :
    s.pc.toNat < s.tokenEnd (decodeRle b) := by
  unfold decodeRle
  split_ifs <;> exact pc_lt_add_tokenLen s (Nat.succ_pos _)

theorem pc_lt_tokenEnd_decodeW8 (s : State) (b : Byte) :
    s.pc.toNat < s.tokenEnd (decodeW8 b) := by
  unfold decodeW8
  split_ifs <;> exact pc_lt_add_tokenLen s (Nat.succ_pos _)

theorem pc_lt_tokenEnd_decodeW16 (s : State) (c : BitVec 16) :
    s.pc.toNat < s.tokenEnd (decodeW16 c) := by
  unfold decodeW16
  split_ifs <;> exact pc_lt_add_tokenLen s (Nat.succ_pos _)

/-! ## The step -/

namespace Inv

variable {s t : State}

theorem exec_cursor (h : Inv s) (hb : s.busy = true) {i : Instr} (he : exec i s = .next t)
    (hf : t.phase ≠ .fault) : t.pc.toNat = s.tokenEnd i := by
  rcases exec_ends (h.spaces hb) (h.ranges hb) he with ⟨k, -, rfl⟩ | hc
  · exact absurd rfl hf
  · exact hc.cursor

/-- 70_reset_and_hazards.md R231: outside HUF.CHECK and the bit steps every token consumes input. -/
theorem pc_lt_of_step (h : Inv s) (hb : s.busy = true) (hs : step s = .next t)
    (hf : t.phase ≠ .fault) (hc : s.phase ≠ .hufCheck) (hbits : s.phase ≠ .hufBits) :
    s.pc.toNat < t.pc.toNat := by
  have hi := (h.callInv hb).phase
  have hend : ∀ {i : Instr}, exec i s = .next t → s.pc.toNat < s.tokenEnd i →
      s.pc.toNat < t.pc.toNat := fun he hlt => by rwa [h.exec_cursor hb he hf]
  have hrun : ∀ {c : Prop} [Decidable c] {i : Instr} {k : Err},
      step s = (if c then exec i s else .next (s.raise k)) → s.pc.toNat < s.tokenEnd i →
      s.pc.toNat < t.pc.toNat := fun hstep => hend (exec_of_ite (hstep.symm.trans hs) hf)
  cases hp : s.phase with
  | idle | done | fault => simp [State.busy, State.status, Phase.status, hp] at hb
  | hufCheck => exact absurd hp hc
  | hufBits => exact absurd hp hbits
  | hdr =>
    rw [PhaseInv, hp] at hi
    refine hrun (step_hdr hp) ?_
    rw [tokenEnd_decodeHeader, hi.1]
    decide
  | wl4Type =>
    rw [PhaseInv, hp] at hi
    refine hend ((step_wl4Type hp).symm.trans hs) ?_
    rw [hi.1]
    split
    · rw [tokenEnd_decodeWl4Type]
      decide
    · exact Nat.one_pos
  | rle => exact hrun (step_rle hp) (pc_lt_tokenEnd_decodeRle s _)
  | diff =>
    obtain ⟨-, -, ⟨h1, -⟩ | ⟨h2, -⟩⟩ := (phaseInv_diff hp).1 hi
    · exact hrun (step_diff8 hp h1) (pc_lt_add_tokenLen s (Nat.succ_pos _))
    · exact hrun (step_diff16 hp h2) (pc_lt_add_tokenLen s (Nat.succ_pos _))
  | lzMask => exact hrun (step_lzMask hp) (pc_lt_add_tokenLen s (Nat.succ_pos _))
  | lzBlock =>
    obtain ⟨-, -, h8⟩ := (phaseInv_lzBlock hp).1 hi
    cases hm : maskBit s.x.mask s.x.slot.toNat
    · exact hrun (step_lzLit hp h8 hm) (pc_lt_add_tokenLen s (Nat.succ_pos _))
    · exact hrun (step_lzRef hp h8 hm) (pc_lt_add_tokenLen s (Nat.succ_pos _))
  | hufTSize => exact hrun (step_hufTSize hp) (pc_lt_add_tokenLen s (Nat.succ_pos _))
  | hufTable =>
    refine hend ((step_hufTable hp).symm.trans hs) ?_
    rw [tokenEnd_hufTable]
    exact Nat.lt_add_of_pos_right (tableLen_pos s)
  | w8 => exact hrun (step_w8 hp) (pc_lt_tokenEnd_decodeW8 s _)
  | w16 => exact hrun (step_w16 hp) (pc_lt_tokenEnd_decodeW16 s _)

theorem pc_le_of_step (h : Inv s) (hb : s.busy = true) (hs : step s = .next t)
    (hf : t.phase ≠ .fault) : s.pc.toNat ≤ t.pc.toNat := by
  by_cases hbits : s.phase = .hufBits
  · exact (step_hufBits_progress hbits (h.callInv hb).phase hs hf).1
  · by_cases hc : s.phase = .hufCheck
    · rw [step_hufCheck hc] at hs
      exact Nat.le_of_eq (h.exec_cursor hb hs hf).symm
    · exact Nat.le_of_lt (h.pc_lt_of_step hb hs hf hc hbits)

end Inv

/-- Settles O45: every token but HUF.CHECK and a bit step ends behind the cursor, and a bit step emits a byte
or goes down the tree. -/
theorem cursorOnlyMovesForward : Obligations.CursorOnlyMovesForward := by
  intro s t h hst hs hf
  have hb : s.busy = true := by simp [State.busy, hst]
  exact ⟨h.pc_le_of_step hb hs hf, (h.step_phaseInv hb hs hf).2, fun _ hc =>
    ⟨h.pc_lt_of_step hb hs hf hc, fun hbits =>
      (step_hufBits_progress hbits (h.callInv hb).phase hs hf).2⟩⟩

end Sys2Proof.Machine
end

section
/-! SUPPORT. The host's side of the state: the status, the registers after reset, and what a host write and
the load of a call change (10_state.md R11, R15, R24, 70_reset_and_hazards.md R220 to R223). -/

namespace Sys2Proof.Machine

/-! ## Status and reset -/

/-- Settles O16, phase by phase. -/
theorem statusIsAFunctionOfPhase : Obligations.StatusIsAFunctionOfPhase := by
  intro s
  unfold State.status
  cases s.phase <;> decide

theorem Regs.read_zero (i : Fin 16) : Regs.zero.read i = 0 := by
  revert i
  decide

/-- 10_state.md R11: the reads of the output counter and the header before any call. -/
theorem hostRead_of_zero {r : State} (hp : r.phase = .idle) (hx : r.x = Regs.zero) :
    r.hostRead .outLen = .value 0#32 ∧ r.hostRead .hdr = .value 0#32 := by
  simp [State.hostRead, State.status, Phase.status, hp, hx, Regs.zero, Regs.hdr]

/-- Settles O15: a reset of a running machine differs from `State.reset` in the parameters and in the names
of the spaces' contents alone. -/
theorem resetLeavesTheSpecifiedRegisters : Obligations.ResetLeavesTheSpecifiedRegisters := by
  intro r hr
  obtain ⟨hp, he, hm, hl, hpc, hx, hin, hout, htree⟩ : r.phase = .idle ∧ r.err = .none ∧
      r.mode = 0#4 ∧ r.inLen = 0#32 ∧ r.pc = 0#32 ∧ r.x = Regs.zero ∧ r.inMem.cells = [] ∧
      r.outMem.cells = [] ∧ r.treeMem.cells = [] := by
    rcases hr with rfl | ⟨s, rfl⟩ <;> exact ⟨rfl, rfl, rfl, rfl, rfl, rfl, rfl, rfl, rfl⟩
  obtain ⟨hro, hrh⟩ := hostRead_of_zero hp hx
  exact ⟨hp, by rw [State.status, hp]; rfl, he, hm, hl, hpc, by rw [hx]; exact Regs.read_zero, rfl,
    hro, hrh, hin, hout, htree⟩

/-- Settles O40: nothing is listed in a space, and no call runs. -/
theorem resetMeetsTheInvariant : Obligations.ResetMeetsTheInvariant where
  mem :=
    have hnone : ∀ {n a : Nat}, (Memory.get ⟨[], 0⟩ a).isSome → a < n := fun h => by cases h
    ⟨rfl, rfl, rfl, fun _ => hnone, fun _ => hnone, fun _ => hnone⟩
  err := by simp [State.reset]
  noUnimplemented := by decide
  cursor h := by cases h
  call h := by rcases h with h | h <;> cases h

/-! ## Host writes -/

/-- 10_state.md R11, R19: while a call runs a host write has no effect. -/
theorem hostWrite_busy {s : State} (hb : s.busy = true) (r : CtrlReg) (v : BitVec 32) :
    s.hostWrite r v = s := by
  cases r <;> simp [State.hostWrite, State.start, hb]

/-- 10_state.md R21: outside `BUSY` a write of `IN[a]` changes that byte alone. -/
theorem hostWriteIn_idle {s : State} (hb : s.busy = false) (a : Addr) (v : Byte) :
    ∃ t, s.hostWriteIn a v = .next t ∧ t = { s with inMem := t.inMem } ∧ t.inAt a.toNat = v ∧
      ∀ b, b ≠ a.toNat → t.inAt b = s.inAt b :=
  ⟨{ s with inMem := s.inMem.write a.toNat v }, by simp [State.hostWriteIn, hb], rfl,
    Memory.read_write_same _ _ _ _, fun _ h => Memory.read_write_other _ _ _ h⟩

/-- The bytes of `IN` above a loaded input stay as they were. -/
theorem loaded_inAt_above (s : State) (mode : BitVec 4) {input : List Byte} {a : Nat}
    (h : input.length ≤ a) : (s.loaded mode input).inAt a = s.inAt a := by
  have hn : ¬ a < input.length := by omega
  simp [State.loaded, State.inAt, Memory.read, Memory.get_writeList, hn, Memory.unwritten]

/-- Settles O13: the writes are those of `State.hostWrite`, and the load is `State.loaded`. -/
theorem hostWritesObeyTheAccessRules : Obligations.HostWritesObeyTheAccessRules := by
  refine fun s => ⟨fun v => ⟨fun h r => ?_, fun h => ?_, ?_⟩, fun a v => ⟨fun h => ?_, fun h => ?_⟩,
    fun mode input hlen => ⟨fun h => ?_, fun h => ?_⟩⟩
  · exact hostWrite_busy (by simp [State.busy, h]) r v
  · have hb := (busy_eq_false_iff s).2 h
    simp +contextual [State.hostWrite, hb]
  · rintro r (rfl | rfl | rfl | rfl | rfl | rfl) <;> rfl
  · simp [State.hostWriteIn, State.busy, h]
  · exact hostWriteIn_idle ((busy_eq_false_iff s).2 h) a v
  · have hb : s.busy = true := by simp [State.busy, h]
    exact ⟨loadCall_busy hb mode input, decodeCall_busy hb mode input⟩
  · refine ⟨s.loaded mode input, loadCall_eq ((busy_eq_false_iff s).2 h) mode input (by omega), rfl,
      loaded_inLen hlen, fun i hi => ?_, fun a ha => loaded_inAt_above s mode ha,
      beginCall_loaded h hlen⟩
    rw [loaded_inAt s mode hi, List.getElem?_eq_getElem hi]

end Sys2Proof.Machine
end

section
/-! SUPPORT. A call that succeeds reads nothing at or after the cursor it ends with (20_memory.md R41): `IN_LEN`
may be any value from there on. -/

namespace Sys2Proof.Machine

/-! ## Another `IN_LEN` -/

/-- The state with another `IN_LEN`. -/
def State.limit (s : State) (L : Addr) : State := { s with inLen := L }

section Limit
variable (s : State) (L : Addr)

@[simp] theorem limit_inLen : (s.limit L).inLen = L := rfl
@[simp] theorem limit_params : (s.limit L).params = s.params := rfl
@[simp] theorem limit_mode : (s.limit L).mode = s.mode := rfl
@[simp] theorem limit_pc : (s.limit L).pc = s.pc := rfl
@[simp] theorem limit_x : (s.limit L).x = s.x := rfl
@[simp] theorem limit_inAt (a : Nat) : (s.limit L).inAt a = s.inAt a := rfl
@[simp] theorem limit_treeAt (a : Nat) : (s.limit L).treeAt a = s.treeAt a := rfl
@[simp] theorem limit_tableLen : (s.limit L).tableLen = s.tableLen := rfl
@[simp] theorem limit_fitsCap (n : BitVec 24) : fitsCap (s.limit L) n = fitsCap s n := rfl
@[simp] theorem limit_treeOk : (s.limit L).treeOk = s.treeOk := rfl
@[simp] theorem limit_nextWord : (s.limit L).nextWord = s.nextWord := rfl
@[simp] theorem limit_busy : (s.limit L).busy = s.busy := rfl

@[simp] theorem limit_inBytes (a n : Nat) : (s.limit L).inBytes a n = s.inBytes a n :=
  inBytes_congr (s := s) (t := s.limit L) rfl a n

@[simp] theorem limit_setX (x : Regs) : (s.setX x).limit L = (s.limit L).setX x := rfl
@[simp] theorem limit_setPc (a : Addr) : (s.setPc a).limit L = (s.limit L).setPc a := rfl
@[simp] theorem limit_setPhase (p : Phase) : (s.setPhase p).limit L = (s.limit L).setPhase p := rfl
@[simp] theorem limit_advance (n : Nat) : (s.advance n).limit L = (s.limit L).advance n := rfl
@[simp] theorem limit_emit (v : Byte) : (s.emit v).limit L = (s.limit L).emit v := rfl
@[simp] theorem limit_finishOr (p : Phase) : (s.finishOr p).limit L = (s.limit L).finishOr p := rfl
@[simp] theorem limit_blockDone : s.blockDone.limit L = (s.limit L).blockDone := rfl
@[simp] theorem limit_refill (w : BitVec 32) : (s.refill w).limit L = (s.limit L).refill w := rfl
@[simp] theorem limit_headerLatch (t p : BitVec 4) (n : BitVec 24) :
    (headerLatch s t p n).limit L = headerLatch (s.limit L) t p n := rfl

@[simp] theorem limit_loadTree (n : Nat) : (s.loadTree n).limit L = (s.limit L).loadTree n := by
  rw [State.loadTree, State.loadTree, limit_pc, limit_inBytes]
  rfl

@[simp] theorem limit_emitAll (vs : List Byte) :
    (s.emitAll vs).limit L = (s.limit L).emitAll vs := by
  induction vs generalizing s with
  | nil => rfl
  | cons v vs ih => exact ih (s.emit v)

theorem limit_copyOne (off : Nat) : (s.copyOne off).limit L = (s.limit L).copyOne off := by
  rw [copyOne_eq, copyOne_eq]
  rfl

@[simp] theorem limit_copyBack (off n : Nat) :
    (s.copyBack off n).limit L = (s.limit L).copyBack off n := by
  induction n generalizing s with
  | zero => rfl
  | succ n ih => rw [State.copyBack, ih, limit_copyOne]; rfl

@[simp] theorem limit_raise (k : Err) : (s.raise k).limit L = (s.limit L).raise k := rfl

theorem limit_start : s.start.limit L = (s.limit L).start := by
  unfold State.start
  cases hb : s.busy
  · cases hm : startPhase s.mode with
    | none => simp [hb, hm]
    | some p =>
      simp [hb, hm]
      rfl
  · simp [hb]

@[simp] theorem limit_output : (s.limit L).output = s.output := by
  have hfrom : ∀ a n, (s.limit L).outBytesFrom a n = s.outBytesFrom a n := fun a n => by
    induction n generalizing a with
    | zero => rfl
    | succ n ih => rw [State.outBytesFrom, ih]; rfl
  exact hfrom 0 _

end Limit

/-! ## Acts that read below the cursor they leave -/

/-- What `f` does from `s`, ending in `t`: it takes at least `n` bytes, leaves the cursor within the input, and
does the same with any `IN_LEN` that the cursor it leaves is within. -/
structure ReadsBelow (f : State → Answer) (s t : State) (n : Nat) : Prop where
  taken : s.pc.toNat + n ≤ t.pc.toNat
  inside : s.pc.toNat ≤ s.inLen.toNat → t.pc.toNat ≤ s.inLen.toNat
  limit : ∀ L : Addr, t.pc.toNat ≤ L.toNat → f (s.limit L) = .next (t.limit L)

/-- A token at the cursor that finds its `n` bytes there. -/
theorem readsBelow_of_has {f : State → Answer} {s t : State} {m n : Nat} (hn : s.has n = true)
    (hpc : t.pc = s.pc + BitVec.ofNat 32 n) (hm : m ≤ n)
    (hf : ∀ L : Addr, (∀ k, k ≤ n → (s.limit L).has k = true) → f (s.limit L) = .next (t.limit L)) :
    ReadsBelow f s t m := by
  have hend : t.pc.toNat = s.pc.toNat + n := by rw [hpc, advance_toNat hn]
  refine ⟨by omega, fun _ => by rw [hend]; exact (has_iff s n).1 hn, fun L hL => hf L fun k hk => ?_⟩
  rw [has_iff, limit_pc, limit_inLen]
  omega

/-- An act that moves no cursor and does not look at `IN_LEN`. -/
theorem readsBelow_of_pc_eq {f : State → Answer} {s t : State} (hpc : t.pc = s.pc)
    (hf : ∀ L, f (s.limit L) = .next (t.limit L)) : ReadsBelow f s t 0 :=
  ⟨by rw [hpc]; exact Nat.le_refl _, fun h => by rwa [hpc], fun L _ => hf L⟩

/-- Producing bytes asks for room in `OUT` and not for input. -/
theorem produce_limit {s t : State} {n : Nat} {L : Addr}
    (h : s.x.outLen.toNat + n ≤ s.params.outCap.toNat) : produce (s.limit L) n t = .next t :=
  produce_of_le h

/-- The same act under another name. -/
theorem ReadsBelow.congr {f g : State → Answer} {s t : State} {n : Nat} (h : ReadsBelow f s t n)
    (hg : ∀ L, g (s.limit L) = f (s.limit L)) : ReadsBelow g s t n :=
  ⟨h.taken, h.inside, fun L hL => (hg L).trans (h.limit L hL)⟩

/-! ## The tokens -/

section Tokens
variable {s t : State} (hf : t.phase ≠ .fault)

/-- A header that is accepted stands in the first four bytes of the input (40_header_dispatch.md R92). -/
theorem readsBelow_of_accepted {f : State → Answer} {ty : BitVec 4} (hpc : s.pc = 0#32)
    (ha : headerAccepted s ty = true) (ht : t.pc = 4#32)
    (hfit : ∀ L : Addr, headerAccepted (s.limit L) ty = true → f (s.limit L) = .next (t.limit L)) :
    ReadsBelow f s t 4 := by
  simp only [headerAccepted, Bool.and_eq_true, decide_eq_true_eq] at ha
  refine ⟨by rw [hpc, ht]; decide, fun _ => by rw [ht]; exact ha.1, fun L hL => hfit L ?_⟩
  rw [ht] at hL
  simp only [headerAccepted, Bool.and_eq_true, decide_eq_true_eq]
  exact ⟨hL, ha.2⟩

include hf

theorem execHdrLz77_readsBelow (hpc : s.pc = 0#32) {p : BitVec 4} {n : BitVec 24}
    (h : execHdrLz77 p n s = .next t) : ReadsBelow (execHdrLz77 p n) s t 4 := by
  rcases execHdrLz77_cases h with ⟨-, rfl⟩ | ⟨-, -, rfl⟩ | ⟨ha, hfit, rfl⟩
  · exact absurd rfl hf
  · exact absurd rfl hf
  · exact readsBelow_of_accepted hpc ha rfl fun L hL => by simp [execHdrLz77, hL, hfit]

theorem execHdrHuf_readsBelow (hpc : s.pc = 0#32) {p : BitVec 4} {n : BitVec 24}
    (h : execHdrHuf p n s = .next t) : ReadsBelow (execHdrHuf p n) s t 4 := by
  rcases execHdrHuf_cases h with ⟨-, rfl⟩ | ⟨-, -, rfl⟩ | ⟨ha, hfit, rfl⟩
  · exact absurd rfl hf
  · exact absurd rfl hf
  · exact readsBelow_of_accepted hpc ha rfl fun L hL => by simp [execHdrHuf, hL, hfit]

theorem execHdrRle_readsBelow (hpc : s.pc = 0#32) {p : BitVec 4} {n : BitVec 24}
    (h : execHdrRle p n s = .next t) : ReadsBelow (execHdrRle p n) s t 4 := by
  rcases execHdrRle_cases h with ⟨-, rfl⟩ | ⟨-, -, rfl⟩ | ⟨ha, hfit, rfl⟩
  · exact absurd rfl hf
  · exact absurd rfl hf
  · exact readsBelow_of_accepted hpc ha rfl fun L hL => by simp [execHdrRle, hL, hfit]

theorem execHdrDiff8_readsBelow (hpc : s.pc = 0#32) {n : BitVec 24}
    (h : execHdrDiff8 n s = .next t) : ReadsBelow (execHdrDiff8 n) s t 4 := by
  rcases execHdrDiff8_cases h with ⟨-, rfl⟩ | ⟨-, -, rfl⟩ | ⟨ha, hfit, rfl⟩
  · exact absurd rfl hf
  · exact absurd rfl hf
  · exact readsBelow_of_accepted hpc ha rfl fun L hL => by simp [execHdrDiff8, hL, hfit]

theorem execHdrDiff16_readsBelow (hpc : s.pc = 0#32) {n : BitVec 24}
    (h : execHdrDiff16 n s = .next t) : ReadsBelow (execHdrDiff16 n) s t 4 := by
  rcases execHdrDiff16_cases h with ⟨-, rfl⟩ | ⟨-, -, -, rfl⟩ | ⟨ha, hodd, hfit, rfl⟩
  · exact absurd rfl hf
  · exact absurd rfl hf
  · exact readsBelow_of_accepted hpc ha rfl fun L hL => by
      rw [execHdrDiff16, hL, hodd, limit_fitsCap, hfit]
      rfl

theorem decodeHeader_readsBelow (hpc : s.pc = 0#32) {b : Byte} {n : BitVec 24}
    (h : exec (decodeHeader b n) s = .next t) : ReadsBelow (exec (decodeHeader b n)) s t 4 := by
  revert h
  unfold decodeHeader
  split
  · exact execHdrLz77_readsBelow hf hpc
  split
  · exact execHdrHuf_readsBelow hf hpc
  split
  · exact execHdrRle_readsBelow hf hpc
  split
  · exact execHdrDiff8_readsBelow hf hpc
  split
  · exact execHdrDiff16_readsBelow hf hpc
  · intro h
    cases h
    exact absurd rfl hf

theorem wl4TypeStep_readsBelow (hpc : s.pc = 0#32) {v : BitVec 2} {p : Phase}
    (h : wl4TypeStep v p s = .next t) : ReadsBelow (wl4TypeStep v p) s t 1 := by
  rcases wl4TypeStep_cases h with ⟨-, rfl⟩ | ⟨h1, rfl⟩
  · exact absurd rfl hf
  · refine ⟨by simp [hpc], fun _ => h1, fun L hL => ?_⟩
    have hL1 : 1 ≤ L.toNat := hL
    simp [wl4TypeStep, Nat.not_lt.2 hL1]

theorem decodeWl4Type_readsBelow (hpc : s.pc = 0#32) {b : Byte}
    (h : exec (decodeWl4Type b) s = .next t) : ReadsBelow (exec (decodeWl4Type b)) s t 1 := by
  revert h
  unfold decodeWl4Type
  split
  · exact wl4TypeStep_readsBelow hf hpc
  split
  · exact wl4TypeStep_readsBelow hf hpc
  · intro h
    cases h
    exact absurd rfl hf

theorem decodeRle_readsBelow {c : Byte} (h : exec (decodeRle c) s = .next t) :
    ReadsBelow (exec (decodeRle c)) s t 1 := by
  revert h
  unfold decodeRle
  split <;> intro h
  · rcases execRleRep_cases h with ⟨rfl, -⟩ | ⟨-, -, rfl⟩ | ⟨hn, hsz, hc, rfl⟩
    · exact absurd rfl hf
    · exact absurd rfl hf
    · exact readsBelow_of_has hn (by simp) (by omega) fun L hL => by
        simp [exec, execRleRep, hL, Nat.not_lt.2 hsz, produce_limit hc]
  · rcases execRleLit_cases h with ⟨rfl, -⟩ | ⟨-, -, rfl⟩ | ⟨hn, hsz, hc, rfl⟩
    · exact absurd rfl hf
    · exact absurd rfl hf
    · exact readsBelow_of_has hn (by simp) (by omega) fun L hL => by
        simp [exec, execRleLit, hL, Nat.not_lt.2 hsz, produce_limit hc]

theorem execD8W_readsBelow {w : Byte} (h : execD8W w s = .next t) :
    ReadsBelow (execD8W w) s t 1 := by
  rcases execD8W_cases h with ⟨-, rfl⟩ | ⟨hn, hc, rfl⟩
  · exact absurd rfl hf
  · exact readsBelow_of_has hn (by simp) (by omega) fun L hL => by
      simp [execD8W, hL, produce_limit hc]

theorem execD16W_readsBelow {w : BitVec 16} (h : execD16W w s = .next t) :
    ReadsBelow (execD16W w) s t 2 := by
  rcases execD16W_cases h with ⟨-, rfl⟩ | ⟨hn, hc, rfl⟩
  · exact absurd rfl hf
  · exact readsBelow_of_has hn (by simp) (by omega) fun L hL => by
      simp [execD16W, hL, produce_limit hc]

theorem execLzMask_readsBelow {m : Byte} (h : execLzMask m s = .next t) :
    ReadsBelow (execLzMask m) s t 1 := by
  rcases execLzMask_cases h with ⟨-, rfl⟩ | ⟨hn, rfl⟩
  · exact absurd rfl hf
  · exact readsBelow_of_has hn (by simp) (by omega) fun L hL => by simp [execLzMask, hL]

theorem execLzLit_readsBelow {v : Byte} (h : execLzLit v s = .next t) :
    ReadsBelow (execLzLit v) s t 1 := by
  obtain ⟨h8, ⟨-, rfl⟩ | ⟨hn, hc, rfl⟩⟩ := execLzLit_cases h
  · exact absurd rfl hf
  · exact readsBelow_of_has hn (by simp) (by omega) fun L hL => by
      simp [execLzLit, hL, Nat.not_le.2 h8, produce_limit hc]

theorem execLzRef_readsBelow {l : BitVec 4} {d : BitVec 12} (h : execLzRef l d s = .next t) :
    ReadsBelow (execLzRef l d) s t 2 := by
  obtain ⟨h8, ⟨-, rfl⟩ | ⟨-, -, rfl⟩ | ⟨hn, hsz, hoff, hc, rfl⟩⟩ := execLzRef_cases h
  · exact absurd rfl hf
  · exact absurd rfl hf
  · exact readsBelow_of_has hn (by simp) (by omega) fun L hL => by
      simp [execLzRef, hL, Nat.not_le.2 h8, Nat.not_lt.2 hsz, Nat.not_lt.2 hoff, produce_limit hc]

theorem execHufTSize_readsBelow {n : Byte} (h : execHufTSize n s = .next t) :
    ReadsBelow (execHufTSize n) s t 1 := by
  rcases execHufTSize_cases h with ⟨-, rfl⟩ | ⟨hn, rfl⟩
  · exact absurd rfl hf
  · exact readsBelow_of_has hn (by simp) (by omega) fun L hL => by simp [execHufTSize, hL]

theorem execHufTable_readsBelow (h : execHufTable s = .next t) :
    ReadsBelow execHufTable s t 0 := by
  rcases execHufTable_cases h with ⟨-, rfl⟩ | ⟨hn, rfl⟩
  · exact absurd rfl hf
  · exact readsBelow_of_has hn (by simp) (by omega) fun L hL => by simp [execHufTable, hL]

theorem execHufCheck_readsBelow (h : execHufCheck s = .next t) :
    ReadsBelow execHufCheck s t 0 := by
  rcases execHufCheck_cases h with ⟨-, rfl⟩ | ⟨hok, rfl⟩
  · exact absurd rfl hf
  · exact readsBelow_of_pc_eq rfl fun L => by simp [execHufCheck, hok]

omit hf in
/-- The walk reads the window and `TREE` (44_huffman.md R152). -/
theorem branchStep_limit {l0 l1 : Bool} {base : BitVec 6} {bit : Bool} (L : Addr)
    (h : branchStep l0 l1 base bit s = .next t) :
    t.pc = s.pc ∧ branchStep l0 l1 base bit (s.limit L) = .next (t.limit L) := by
  obtain ⟨hn, ⟨hl, hch, hc, rfl⟩ | ⟨hl, rfl⟩⟩ := branchStep_cases h
  · refine ⟨rfl, ?_⟩
    simp [branchStep, Nat.not_le.2 hn, hl, hch, leafStep, produce_limit hc]
  · refine ⟨rfl, ?_⟩
    simp [branchStep, Nat.not_le.2 hn, hl]

omit hf in
theorem walkBit_limit {bit : Bool} (L : Addr) (h : walkBit bit s = .next t) :
    t.pc = s.pc ∧ walkBit bit (s.limit L) = .next (t.limit L) :=
  branchStep_limit (s := s.takeBit) L h

/-- A bit step, refilled or not (44_huffman.md R151 to R153). -/
theorem bitStep_readsBelow (h : afterRefill (fun u => walkBit u.x.bitWin.msb u) s = .next t) :
    ReadsBelow (afterRefill fun u => walkBit u.x.bitWin.msb u) s t 0 := by
  rcases afterRefill_cases h with ⟨h0, hw⟩ | ⟨-, -, rfl⟩ | ⟨h0, hn, hw⟩
  · refine readsBelow_of_pc_eq (walkBit_limit 0 hw).1 fun L => ?_
    simpa [afterRefill, h0] using (walkBit_limit L hw).2
  · exact absurd rfl hf
  · refine readsBelow_of_has hn (walkBit_limit 0 hw).1 (by omega) fun L hL => ?_
    simpa [afterRefill, h0, hL] using (walkBit_limit L hw).2

theorem wl4End_readsBelow {n : Nat} (h : wl4End n s = .next t) : ReadsBelow (wl4End n) s t n := by
  rcases wl4End_cases h with ⟨-, rfl⟩ | ⟨hn, rfl⟩
  · exact absurd rfl hf
  · exact readsBelow_of_has hn (by simp) (Nat.le_refl _) fun L hL => by simp [wl4End, hL]

theorem wl4Rsv_readsBelow {n : Nat} (h : wl4Rsv n s = .next t) : ReadsBelow (wl4Rsv n) s t n := by
  rcases wl4Rsv_cases h with ⟨-, rfl⟩ | ⟨-, rfl⟩ <;> exact absurd rfl hf

theorem wl4Lit_readsBelow {n k : Nat} {p : Phase} (h : wl4Lit n k p s = .next t) :
    ReadsBelow (wl4Lit n k p) s t n := by
  rcases wl4Lit_cases h with ⟨rfl, -⟩ | ⟨-, -, rfl⟩ | ⟨hn, hc, rfl⟩
  · exact absurd rfl hf
  · exact absurd rfl hf
  · exact readsBelow_of_has hn (by simp) (by omega) fun L hL => by
      simp [wl4Lit, hL, Nat.not_lt.2 hc, produce_limit hc]

theorem wl4Rep_readsBelow {n k : Nat} {p : Phase} (h : wl4Rep n k p s = .next t) :
    ReadsBelow (wl4Rep n k p) s t n := by
  rcases wl4Rep_cases h with ⟨rfl, -⟩ | ⟨-, -, rfl⟩ | ⟨hn, hc, rfl⟩
  · exact absurd rfl hf
  · exact absurd rfl hf
  · exact readsBelow_of_has hn (by simp) (by omega) fun L hL => by
      simp [wl4Rep, hL, Nat.not_lt.2 hc, produce_limit hc]

theorem decodeW8_readsBelow {c : Byte} (h : exec (decodeW8 c) s = .next t) :
    ReadsBelow (exec (decodeW8 c)) s t 1 := by
  revert h
  unfold decodeW8
  split
  · exact wl4End_readsBelow hf
  split
  · exact wl4Rsv_readsBelow hf
  split
  · exact wl4Rep_readsBelow hf
  · exact wl4Lit_readsBelow hf

theorem decodeW16_readsBelow {c : BitVec 16} (h : exec (decodeW16 c) s = .next t) :
    ReadsBelow (exec (decodeW16 c)) s t 2 := by
  revert h
  unfold decodeW16
  split
  · exact wl4End_readsBelow hf
  split
  · exact wl4Rsv_readsBelow hf
  split
  · exact wl4Rep_readsBelow hf
  · exact wl4Lit_readsBelow hf

end Tokens

/-! ## The step -/

section Step
variable {s t : State} (h : step s = .next t) (hf : t.phase ≠ .fault)
include h hf

/-- A step that runs the token `i` where `IN_LEN` passes the test `c`. -/
theorem step_readsBelow_of_test {i : Instr} {k : Err} {n : Nat} {c : Addr → Prop} [DecidablePred c]
    (hstep : ∀ L, step (s.limit L) =
      if c L then exec i (s.limit L) else .next ((s.limit L).raise k))
    (hc : ∀ L : Addr, s.pc.toNat + n ≤ L.toNat → c L)
    (hi : exec i s = .next t → ReadsBelow (exec i) s t n) : ReadsBelow step s t 0 := by
  obtain ⟨htaken, hinside, hlimit⟩ := hi (exec_of_ite ((hstep s.inLen).symm.trans h) hf)
  refine ⟨Nat.le_trans (Nat.le_add_right _ n) htaken, hinside, fun L hL => ?_⟩
  rw [hstep L, if_pos (hc L (htaken.trans hL)), hlimit L hL]

/-- A step that runs the token `i` where the `n` bytes of its control field are there. -/
theorem step_readsBelow_of_need {i : Instr} {n : Nat}
    (hstep : ∀ L, step (s.limit L) = if (s.limit L).has n then exec i (s.limit L)
      else .next ((s.limit L).raise .truncated))
    (hi : exec i s = .next t → ReadsBelow (exec i) s t n) : ReadsBelow step s t 0 :=
  step_readsBelow_of_test h hf hstep (fun L hL => (has_iff (s.limit L) n).2 hL) hi

/-- 20_memory.md R41: a step of a call that does not raise reads below the cursor it leaves. -/
theorem step_readsBelow (hi : PhaseInv s) (hb : s.busy = true) : ReadsBelow step s t 0 := by
  cases hp : s.phase with
  | idle | done | fault => simp [State.busy, State.status, Phase.status, hp] at hb
  | hdr =>
    rw [PhaseInv, hp] at hi
    exact step_readsBelow_of_test h hf (n := 4) (c := fun L => 4 ≤ L.toNat)
      (i := decodeHeader (s.inAt 0) (le24 (s.inAt 1) (s.inAt 2) (s.inAt 3)))
      (fun L => step_hdr (s := s.limit L) hp) (fun L => by simp [hi.1])
      (decodeHeader_readsBelow hf hi.1)
  | wl4Type =>
    rw [PhaseInv, hp] at hi
    rw [step_wl4Type hp] at h
    by_cases h1 : 1 ≤ s.inLen.toNat
    · rw [if_pos h1] at h
      obtain ⟨htaken, hinside, hlimit⟩ := decodeWl4Type_readsBelow hf hi.1 h
      refine ⟨Nat.le_of_succ_le htaken, hinside, fun L hL => ?_⟩
      rw [step_wl4Type (s := s.limit L) hp, if_pos (by simp only [limit_inLen]; omega)]
      exact hlimit L hL
    · rw [if_neg h1] at h
      cases h
      exact absurd rfl hf
  | rle =>
    exact step_readsBelow_of_need h hf (i := decodeRle (s.inAt s.pc.toNat))
      (fun L => step_rle (s := s.limit L) hp)
      (decodeRle_readsBelow hf)
  | diff =>
    obtain ⟨-, -, ⟨h1, -⟩ | ⟨h2, -⟩⟩ := (phaseInv_diff hp).1 hi
    · exact step_readsBelow_of_need h hf (i := .d8W (s.inAt s.pc.toNat))
        (fun L => step_diff8 (s := s.limit L) hp h1)
        (execD8W_readsBelow hf)
    · exact step_readsBelow_of_need h hf (i := .d16W (le16 (s.inAt s.pc.toNat) (s.inAt (s.pc.toNat + 1))))
        (fun L => step_diff16 (s := s.limit L) hp h2)
        (execD16W_readsBelow hf)
  | lzMask =>
    exact step_readsBelow_of_need h hf (i := .lzMask (s.inAt s.pc.toNat))
      (fun L => step_lzMask (s := s.limit L) hp)
      (execLzMask_readsBelow hf)
  | lzBlock =>
    obtain ⟨-, -, h8⟩ := (phaseInv_lzBlock hp).1 hi
    cases hm : maskBit s.x.mask s.x.slot.toNat
    · exact step_readsBelow_of_need h hf (i := .lzLit (s.inAt s.pc.toNat))
        (fun L => step_lzLit (s := s.limit L) hp h8 hm)
        (execLzLit_readsBelow hf)
    · exact step_readsBelow_of_need h hf (i := decodeRef (s.inAt s.pc.toNat) (s.inAt (s.pc.toNat + 1)))
        (fun L => step_lzRef (s := s.limit L) hp h8 hm)
        (execLzRef_readsBelow hf)
  | hufTSize =>
    exact step_readsBelow_of_need h hf (i := .hufTSize (s.inAt s.pc.toNat))
      (fun L => step_hufTSize (s := s.limit L) hp)
      (execHufTSize_readsBelow hf)
  | hufTable =>
    rw [step_hufTable hp] at h
    exact (execHufTable_readsBelow hf h).congr fun L => step_hufTable (s := s.limit L) hp
  | hufCheck =>
    rw [step_hufCheck hp] at h
    exact (execHufCheck_readsBelow hf h).congr fun L => step_hufCheck (s := s.limit L) hp
  | hufBits =>
    rw [step_hufBits hp] at h
    exact (bitStep_readsBelow hf h).congr fun L => step_hufBits (s := s.limit L) hp
  | w8 =>
    exact step_readsBelow_of_need h hf (i := decodeW8 (s.inAt s.pc.toNat))
      (fun L => step_w8 (s := s.limit L) hp)
      (decodeW8_readsBelow hf)
  | w16 =>
    exact step_readsBelow_of_need h hf (i := decodeW16 (ctrl16 s.params.wl4Ctrl16BE
      (s.inAt s.pc.toNat) (s.inAt (s.pc.toNat + 1))))
      (fun L => step_w16 (s := s.limit L) hp)
      (decodeW16_readsBelow hf)

end Step

/-! ## The run of a call -/

theorem runCall_succ {s t : State} (n : Nat) (hb : s.busy = true) (hs : step s = .next t) :
    runCall (n + 1) s = runCall n t := by
  simp [runCall, hb, hs]

theorem busy_of_done {s : State} (h : s.phase = .done) : s.busy = false := by
  simp [State.busy, State.status, Phase.status, h]

theorem busy_of_fault {s : State} (h : s.phase = .fault) : s.busy = false := by
  simp [State.busy, State.status, Phase.status, h]

/-- A call that succeeds reads below the cursor it ends with. -/
theorem runCall_readsBelow {mode : BitVec 4} {input : List Byte} (n : Nat) {s t : State}
    (hok : CallOk mode input s) (h : runCall n s = .next t) (hd : t.phase = .done) :
    ReadsBelow (runCall n) s t 0 := by
  induction n generalizing s with
  | zero =>
    cases h
    exact readsBelow_of_pc_eq rfl fun _ => rfl
  | succ n ih =>
    cases hb : s.busy with
    | false =>
      rw [runCall_idle _ hb] at h
      cases h
      exact readsBelow_of_pc_eq rfl fun L => runCall_idle _ hb
    | true =>
      obtain ⟨u, hu, hok', -⟩ := hok.step hb
      rw [runCall_succ n hb hu] at h
      have hf : u.phase ≠ .fault := fun hf => by
        rw [runCall_idle n (busy_of_fault hf)] at h
        cases h
        cases hf.symm.trans hd
      obtain ⟨htaken, hinside, hlimit⟩ := step_readsBelow hu hf hok.phase hb
      obtain ⟨htaken', hinside', hlimit'⟩ := ih hok' h
      obtain ⟨-, -, hlen, -⟩ := step_keepsHost hu
      rw [hlen] at hinside'
      refine ⟨htaken.trans htaken', fun hs => hinside' (hinside hs), fun L hL => ?_⟩
      rw [runCall_succ (s := s.limit L) n hb (hlimit L (htaken'.trans hL))]
      exact hlimit' L hL

/-- Enough steps end a call in one state only. -/
theorem runCall_unique {m n : Nat} {s t u : State} (ht : runCall m s = .next t)
    (hu : runCall n s = .next u) (htb : t.busy = false) (hub : u.busy = false) : t = u := by
  induction m generalizing n s with
  | zero =>
    cases ht
    rw [runCall_idle n htb] at hu
    cases hu
    rfl
  | succ m ih =>
    cases hb : s.busy with
    | false =>
      rw [runCall_idle _ hb] at ht hu
      cases ht
      cases hu
      rfl
    | true =>
      cases n with
      | zero =>
        cases hu
        rw [hub] at hb
        cases hb
      | succ n =>
        simp only [runCall, hb, if_true] at ht hu
        split at ht
        next v hv =>
          rw [hv] at hu
          exact ih ht hu
        next => cases ht
        next => cases ht

/-- Alike answers run alike. -/
theorem SameAnswer.run (n : Nat) {s t : State} (h : SameAnswer (.next s) (.next t)) :
    SameAnswer (Machine.runCall n s) (Machine.runCall n t) := by
  induction n generalizing s t with
  | zero => exact h
  | succ n ih =>
    cases h with
    | raise u v k =>
      rw [runCall_idle _ (raise_idle u k), runCall_idle _ (raise_idle v k)]
      exact .raise u v k
    | next h =>
      simp only [Machine.runCall, h.busy]
      split
      · have hstep := step_sameAnswer h
        generalize step s = a at hstep
        generalize step t = b at hstep
        cases hstep with
        | next h' => exact ih (.next h')
        | raise u v k => exact ih (.raise u v k)
        | fault f => exact .fault f
      · exact .next h

theorem SameAnswer.of_done {s : State} {b : Answer} (h : SameAnswer (.next s) b)
    (hd : s.phase = .done) : ∃ t, b = .next t ∧ SameRun s t := by
  cases h with
  | next h => exact ⟨_, rfl, h⟩
  | raise u v k => cases hd

/-! ## Two inputs that agree below the end of the first call -/

section Agree
variable {s : State} {mode : BitVec 4} {input other : List Byte} (h : s.status ≠ .busy)
include h

/-- Up to a bound below which they agree, two inputs launch the same call. -/
theorem limited_sameAnswer {P : Addr} (hn : s.params.outCommit16 = false)
    (hin : P.toNat ≤ input.length) (hot : P.toNat ≤ other.length)
    (hag : ∀ i, i < P.toNat → other[i]? = input[i]?) :
    SameAnswer (.next ((s.loaded mode input).limit P).start)
      (.next ((s.loaded mode other).limit P).start) := by
  cases hph : startPhase mode with
  | none =>
    rw [start_of_reserved (s := (s.loaded mode input).limit P) h hph,
      start_of_reserved (s := (s.loaded mode other).limit P) h hph]
    exact .raise _ _ _
  | some p =>
    rw [start_of_phase (s := (s.loaded mode input).limit P) h hph,
      start_of_phase (s := (s.loaded mode other).limit P) h hph]
    exact .next
      { params := rfl
        normative := hn
        mode := rfl
        inLen := rfl
        err := rfl
        phase := rfl
        pc := rfl
        x := rfl
        inp := fun a ha => by
          have hai : a < input.length := Nat.lt_of_lt_of_le ha hin
          have hao : a < other.length := Nat.lt_of_lt_of_le ha hot
          have hbyte := hag a ha
          rw [List.getElem?_eq_getElem hao, List.getElem?_eq_getElem hai, Option.some.injEq] at hbyte
          exact (loaded_inAt s mode hao).trans (hbyte.trans (loaded_inAt s mode hai).symm)
        out := fun a ha => absurd ha (Nat.not_lt_zero a)
        tree := fun hr => absurd hr (by rw [startPhase_readsTree hph]; decide) }

/-- A call that succeeds was launched with the cursor at 0 (40_header_dispatch.md R90). -/
theorem start_pc_of_done {n : Nat} {t : State} (hr : runCall n s.start = .next t)
    (hd : t.phase = .done) : s.start.pc = 0#32 := by
  cases hph : startPhase s.mode with
  | none =>
    rw [start_of_reserved h hph, runCall_idle n (raise_idle s _)] at hr
    cases hr
    cases hd
  | some p => rw [start_of_phase h hph]

/-- A call that succeeds ends with the cursor within its input. -/
theorem runDecode_pc_le (hlen : input.length < 2 ^ 32) {t : State}
    (ht : runDecode s mode input = .next t) (hd : t.phase = .done) : t.pc.toNat ≤ input.length := by
  rw [runDecode, beginCall_loaded h hlen] at ht
  have hinside := (runCall_readsBelow _ (launched_callOk h hlen) ht hd).inside
  rw [start_pc_of_done (s := s.loaded mode input) h ht hd, (start_keepsHost _).2.2.1,
    loaded_inLen hlen] at hinside
  exact hinside (Nat.zero_le _)

/-- 20_memory.md R41: cut the first call's input at the cursor it ends with; the other input's call is that
call, and stays so when its input is given back its length. -/
theorem runDecode_of_agree (hn : s.params.outCommit16 = false) (hlen : input.length < 2 ^ 32)
    (hlen' : other.length < 2 ^ 32) {t : State} (ht : runDecode s mode input = .next t)
    (hd : t.phase = .done) (hag : ∀ i, i < t.pc.toNat → other[i]? = input[i]?) :
    ∃ u, runDecode s mode other = .next u ∧ u.phase = .done ∧ u.pc = t.pc ∧
      u.output = t.output := by
  have hin := runDecode_pc_le h hlen ht hd
  have hot : t.pc.toNat ≤ other.length := by
    by_contra hlt
    have := hag other.length (by omega)
    rw [List.getElem?_eq_none (Nat.le_refl _), List.getElem?_eq_getElem (by omega)] at this
    cases this
  obtain ⟨u, hu, -, hub⟩ := runDecode_ends (mode := mode) h hlen'
  rw [runDecode, beginCall_loaded h hlen] at ht
  have hcut := (runCall_readsBelow _ (launched_callOk h hlen) ht hd).limit t.pc (Nat.le_refl _)
  have hsame := (limited_sameAnswer (mode := mode) h hn hin hot hag).run
    (stepBound mode input + 1)
  rw [← limit_start, hcut] at hsame
  obtain ⟨v, hv, hrun⟩ := hsame.of_done hd
  have hvd : v.phase = .done := hrun.phase.trans hd
  have hvpc : v.pc = t.pc := hrun.pc
  have hfull := (runCall_readsBelow _
    (start_callOk (s := (s.loaded mode other).limit t.pc) h) hv hvd).limit
    (s.loaded mode other).inLen (by rw [hvpc, loaded_inLen hlen']; exact hot)
  rw [limit_start] at hfull
  have huv : u = v.limit (s.loaded mode other).inLen := by
    rw [runDecode, beginCall_loaded h hlen'] at hu
    exact runCall_unique hu hfull hub (busy_of_done hvd)
  subst huv
  refine ⟨_, hu, ?_⟩
  rw [limit_output, hrun.output, limit_output]
  exact ⟨hvd, hvpc, rfl⟩

end Agree

theorem status_done_iff (s : State) : s.status = .done ↔ s.phase = .done := by
  unfold State.status
  cases s.phase <;> simp [Phase.status]

/-- Settles O49: the call on the cut input is simulated by both calls. -/
theorem trailingInputIsIgnored : Obligations.TrailingInputIsIgnored := by
  intro s mode input h hn hlen
  refine ⟨fun other t hlen' ht hd hag => ?_, fun junk out hlen' hd => ?_⟩
  · obtain ⟨u, hu, hud, hpc, hout⟩ :=
      runDecode_of_agree h hn hlen hlen' ht ((status_done_iff t).1 hd) hag
    exact ⟨u, hu, (status_done_iff u).2 hud, hpc, hout⟩
  · obtain ⟨t, ht, hok, hb⟩ := runDecode_ends (mode := mode) h hlen
    rw [decodeCall, ht] at hd
    rcases hok.result_of_idle hb with ⟨hp, hr⟩ | ⟨-, hr⟩
    · have hin := runDecode_pc_le h hlen ht hp
      obtain ⟨u, hu, hud, -, hout⟩ := runDecode_of_agree (other := input ++ junk) h hn hlen hlen' ht hp
        fun i hi => List.getElem?_append_left (Nat.lt_of_lt_of_le hi hin)
      have hur : u.result = some (.ok u.output) := by simp only [State.result, hud]
      rw [decodeCall, hu, ← hd]
      exact (hur.trans (by rw [hout])).trans hr.symm
    · cases hr.symm.trans hd

end Sys2Proof.Machine
end

section
/-! SUPPORT. Control fields that are cut short (20_memory.md R42), and what the tokens leave of the output and of
`TREE` (R49, R52). -/

namespace Sys2Proof.Machine

/-! ## Cut control fields -/

theorem not_has {s : State} {n : Nat} (h : s.inLen.toNat < s.pc.toNat + n) : ¬ s.has n = true := by
  simpa [State.has] using h

/-- Settles O9, phase by phase: `need` fails. -/
theorem cutFieldsRaiseTruncated : Obligations.CutFieldsRaiseTruncated := by
  intro s h
  rcases h with ⟨hp | hp, hcut⟩ | ⟨hp, h8, hcut⟩ | ⟨hp, h1 | h2, hcut⟩ | ⟨hp, hcut⟩ | ⟨hp, h0, hcut⟩
  · rw [step_lzMask hp, if_neg (not_has hcut)]
  · rw [step_hufTSize hp, if_neg (not_has hcut)]
  · cases hm : s.x.mask.getLsbD (7 - s.x.slot.toNat)
    · rw [step_lzLit hp h8 hm, if_neg (not_has (by simpa [hm] using hcut))]
    · rw [step_lzRef hp h8 hm, if_neg (not_has (by simpa [hm] using hcut))]
  · rw [step_diff8 hp h1, if_neg (not_has (by simpa [h1] using hcut))]
  · rw [step_diff16 hp h2, if_neg (not_has (by simpa [h2] using hcut))]
  · rw [step_hufTable hp]
    exact if_pos (by simpa using not_has (n := s.tableLen) hcut)
  · rw [step_hufBits hp, afterRefill, if_pos h0, if_pos (by simpa using not_has hcut)]

/-! ## The output and `TREE` -/

/-- The output is not shortened and no byte of it changes (20_memory.md R49, 00_scope.md R3). -/
structure KeepsOutput (s t : State) : Prop where
  grows : s.x.outLen.toNat ≤ t.x.outLen.toNat
  old : ∀ a, a < s.x.outLen.toNat → t.outAt a = s.outAt a

/-- What a token other than HUF.TABLE keeps when it does not raise. -/
structure KeepsSpaces (s t : State) : Prop where
  output : KeepsOutput s t
  tree : t.treeMem = s.treeMem

section Keeps
variable {s t : State}

theorem keepsOutput_of_eq (ho : t.outMem = s.outMem := by rfl)
    (hl : t.x.outLen = s.x.outLen := by rfl) : KeepsOutput s t :=
  ⟨by rw [hl], fun a _ => by rw [State.outAt, ho, State.outAt]⟩

/-- A token that produces nothing. -/
theorem keepsSpaces_of_eq (ho : t.outMem = s.outMem := by rfl)
    (hl : t.x.outLen = s.x.outLen := by rfl) (ht : t.treeMem = s.treeMem := by rfl) :
    KeepsSpaces s t :=
  ⟨keepsOutput_of_eq ho hl, ht⟩

theorem KeepsSpaces.setPhase {p : Phase} (h : KeepsSpaces s t) : KeepsSpaces s (t.setPhase p) :=
  ⟨⟨h.output.grows, h.output.old⟩, h.tree⟩

theorem KeepsSpaces.blockDone (h : KeepsSpaces s t) : KeepsSpaces s t.blockDone :=
  ⟨⟨h.output.grows, h.output.old⟩, h.tree⟩

/-- A token that runs from a state with the spaces and the output counter of `s`. -/
theorem KeepsSpaces.of_start {u : State} (h : KeepsSpaces u t) (ho : u.outMem = s.outMem := by rfl)
    (hl : u.x.outLen = s.x.outLen := by rfl) (ht : u.treeMem = s.treeMem := by rfl) :
    KeepsSpaces s t := by
  obtain ⟨⟨hgrows, hold⟩, htree⟩ := h
  rw [hl] at hgrows hold
  exact ⟨⟨hgrows, fun a ha => by rw [hold a ha, State.outAt, ho, State.outAt]⟩, htree.trans ht⟩

/-- A run is written after the output; `u` is `s` with registers written and the cursor moved. -/
theorem keepsSpaces_emitAll {u : State} {vs : List Byte}
    (hc : s.x.outLen.toNat + vs.length ≤ s.params.outCap.toNat)
    (hm : u.outMem = s.outMem := by rfl) (hl : u.x.outLen = s.x.outLen := by rfl)
    (ht : u.treeMem = s.treeMem := by rfl) : KeepsSpaces s (u.emitAll vs) := by
  have happ : Appends s (u.emitAll vs) vs :=
    appends_emitAll vs hm hl rfl rfl (outLen_add_lt hc)
  refine ⟨⟨?_, fun a ha => happ.old a (.inl ha)⟩, by rw [emitAll_treeMem, ht]⟩
  rw [happ.outLen]
  exact Nat.le_add_right _ _

/-- A backreference is copied after the output (43_lz77.md R133); `u` is as for a run. -/
theorem keepsSpaces_copyBack {u : State} {off n : Nat}
    (hc : s.x.outLen.toNat + n ≤ s.params.outCap.toNat)
    (hm : u.outMem = s.outMem := by rfl) (hl : u.x.outLen = s.x.outLen := by rfl)
    (ht : u.treeMem = s.treeMem := by rfl) : KeepsSpaces s (u.copyBack off n) := by
  have hlt : u.x.outLen.toNat + n < 2 ^ 24 := by
    rw [hl]
    exact outLen_add_lt hc
  refine ⟨⟨?_, fun a ha => ?_⟩, by rw [copyBack_treeMem, ht]⟩
  · rw [copyBack_outLen off n hlt, hl]
    exact Nat.le_add_right _ _
  · rw [copyBack_outAt_old off n hlt a (.inl (by rwa [hl])), State.outAt, hm, State.outAt]

/-! ## The tokens -/

variable (hf : t.phase ≠ .fault)
include hf

/-- The three ends of a header token (40_header_dispatch.md R101). -/
theorem header_keepsSpaces {P Q Q' R R' : Prop} {u : State}
    (h : (P ∧ t = s.raise .invalidFormat) ∨ (Q ∧ R ∧ t = s.raise .outOfBounds) ∨
      (Q' ∧ R' ∧ t = u)) (hu : KeepsSpaces s u) : KeepsSpaces s t := by
  rcases h with ⟨-, rfl⟩ | ⟨-, -, rfl⟩ | ⟨-, -, rfl⟩
  · exact absurd rfl hf
  · exact absurd rfl hf
  · exact hu

theorem wl4TypeStep_keepsSpaces {v : BitVec 2} {p : Phase} (h : wl4TypeStep v p s = .next t) :
    KeepsSpaces s t := by
  rcases wl4TypeStep_cases h with ⟨-, rfl⟩ | ⟨-, rfl⟩
  · exact absurd rfl hf
  · exact keepsSpaces_of_eq

theorem wl4End_keepsSpaces {n : Nat} (h : wl4End n s = .next t) : KeepsSpaces s t := by
  rcases wl4End_cases h with ⟨-, rfl⟩ | ⟨-, rfl⟩
  · exact absurd rfl hf
  · exact keepsSpaces_of_eq

theorem wl4Rsv_keepsSpaces {n : Nat} (h : wl4Rsv n s = .next t) : KeepsSpaces s t := by
  rcases wl4Rsv_cases h with ⟨-, rfl⟩ | ⟨-, rfl⟩ <;> exact absurd rfl hf

theorem wl4Lit_keepsSpaces {n k : Nat} {p : Phase} (h : wl4Lit n k p s = .next t) :
    KeepsSpaces s t := by
  rcases wl4Lit_cases h with ⟨rfl, -⟩ | ⟨-, -, rfl⟩ | ⟨-, hc, rfl⟩
  · exact absurd rfl hf
  · exact absurd rfl hf
  · exact (keepsSpaces_emitAll (by simpa using hc)).setPhase

theorem wl4Rep_keepsSpaces {n k : Nat} {p : Phase} (h : wl4Rep n k p s = .next t) :
    KeepsSpaces s t := by
  rcases wl4Rep_cases h with ⟨rfl, -⟩ | ⟨-, -, rfl⟩ | ⟨-, hc, rfl⟩
  · exact absurd rfl hf
  · exact absurd rfl hf
  · exact (keepsSpaces_emitAll (by simpa using hc)).setPhase

omit hf in
theorem leafStep_keepsSpaces {v : Byte} (h : leafStep v s = .next t) : KeepsSpaces s t := by
  obtain ⟨hc, rfl⟩ := leafStep_cases h
  exact (keepsSpaces_emitAll (vs := [v]) hc).setPhase

omit hf in
theorem branchStep_keepsSpaces {l0 l1 : Bool} {base : BitVec 6} {bit : Bool}
    (h : branchStep l0 l1 base bit s = .next t) : KeepsSpaces s t := by
  obtain ⟨-, ⟨-, -, hc, rfl⟩ | ⟨-, rfl⟩⟩ := branchStep_cases h
  · exact (keepsSpaces_emitAll (vs := [_]) hc).setPhase
  · exact keepsSpaces_of_eq

omit hf in
theorem walkBit_keepsSpaces {bit : Bool} (h : walkBit bit s = .next t) : KeepsSpaces s t :=
  (branchStep_keepsSpaces (s := s.takeBit) h).of_start

/-- A bit step, refilled or not. -/
theorem afterRefill_keepsSpaces {f : State → Answer}
    (hb : ∀ u, f u = .next t → KeepsSpaces u t) (h : afterRefill f s = .next t) :
    KeepsSpaces s t := by
  rcases afterRefill_cases h with ⟨-, h⟩ | ⟨-, -, rfl⟩ | ⟨-, -, h⟩
  · exact hb s h
  · exact absurd rfl hf
  · exact (hb (s.refill s.nextWord) h).of_start

/-- 20_memory.md R49, R52: of the tokens that do not raise only HUF.TABLE writes `TREE`, and it too keeps the
output. -/
theorem exec_keepsSpaces {i : Instr} (h : exec i s = .next t) :
    KeepsOutput s t ∧ (i ≠ .hufTable → t.treeMem = s.treeMem) := by
  suffices hk : (i = .hufTable ∧ KeepsOutput s t) ∨ KeepsSpaces s t by
    rcases hk with ⟨rfl, hk⟩ | hk
    · exact ⟨hk, fun hne => absurd rfl hne⟩
    · exact ⟨hk.output, fun _ => hk.tree⟩
  cases i with
  | hufTable =>
    rcases execHufTable_cases h with ⟨-, rfl⟩ | ⟨-, rfl⟩
    · exact absurd rfl hf
    · exact .inl ⟨rfl, keepsOutput_of_eq⟩
  | hdrLz77 p n => exact .inr (header_keepsSpaces hf (execHdrLz77_cases h) keepsSpaces_of_eq)
  | hdrHuf p n => exact .inr (header_keepsSpaces hf (execHdrHuf_cases h) keepsSpaces_of_eq)
  | hdrRle p n => exact .inr (header_keepsSpaces hf (execHdrRle_cases h) keepsSpaces_of_eq)
  | hdrDiff8 n => exact .inr (header_keepsSpaces hf (execHdrDiff8_cases h) keepsSpaces_of_eq)
  | hdrDiff16 n =>
    rcases execHdrDiff16_cases h with ⟨-, rfl⟩ | ⟨-, -, -, rfl⟩ | ⟨-, -, -, rfl⟩
    · exact absurd rfl hf
    · exact absurd rfl hf
    · exact .inr keepsSpaces_of_eq
  | hdrIllegal b n => cases h; exact absurd rfl hf
  | wl4T8 => exact .inr (wl4TypeStep_keepsSpaces hf h)
  | wl4T16 => exact .inr (wl4TypeStep_keepsSpaces hf h)
  | wl4TIllegal b => cases h; exact absurd rfl hf
  | rleLit c =>
    rcases execRleLit_cases h with ⟨rfl, -⟩ | ⟨-, -, rfl⟩ | ⟨-, -, hc, rfl⟩
    · exact absurd rfl hf
    · exact absurd rfl hf
    · exact .inr (keepsSpaces_emitAll (by simpa using hc)).setPhase
  | rleRep c =>
    rcases execRleRep_cases h with ⟨rfl, -⟩ | ⟨-, -, rfl⟩ | ⟨-, -, hc, rfl⟩
    · exact absurd rfl hf
    · exact absurd rfl hf
    · exact .inr (keepsSpaces_emitAll (by simpa using hc)).setPhase
  | d8W w =>
    rcases execD8W_cases h with ⟨-, rfl⟩ | ⟨-, hc, rfl⟩
    · exact absurd rfl hf
    · exact .inr (keepsSpaces_emitAll (vs := [_]) hc).setPhase
  | d16W w =>
    rcases execD16W_cases h with ⟨-, rfl⟩ | ⟨-, hc, rfl⟩
    · exact absurd rfl hf
    · exact .inr (keepsSpaces_emitAll hc).setPhase
  | lzMask m =>
    rcases execLzMask_cases h with ⟨-, rfl⟩ | ⟨-, rfl⟩
    · exact absurd rfl hf
    · exact .inr keepsSpaces_of_eq
  | lzLit v =>
    obtain ⟨-, ⟨-, rfl⟩ | ⟨-, hc, rfl⟩⟩ := execLzLit_cases h
    · exact absurd rfl hf
    · exact .inr (keepsSpaces_emitAll (vs := [v]) hc).blockDone
  | lzRef l d =>
    obtain ⟨-, ⟨-, rfl⟩ | ⟨-, -, rfl⟩ | ⟨-, -, -, hc, rfl⟩⟩ := execLzRef_cases h
    · exact absurd rfl hf
    · exact absurd rfl hf
    · exact .inr (keepsSpaces_copyBack hc).blockDone
  | hufTSize n =>
    rcases execHufTSize_cases h with ⟨-, rfl⟩ | ⟨-, rfl⟩
    · exact absurd rfl hf
    · exact .inr keepsSpaces_of_eq
  | hufBr l0 l1 base =>
    rw [exec, execHufBr] at h
    exact .inr (afterRefill_keepsSpaces hf
      (fun u hu => (branchStep_keepsSpaces (s := u.takeBit) hu).of_start) h)
  | hufLeaf v => exact .inr (leafStep_keepsSpaces h)
  | hufCheck =>
    rcases execHufCheck_cases h with ⟨-, rfl⟩ | ⟨-, rfl⟩
    · exact absurd rfl hf
    · exact .inr keepsSpaces_of_eq
  | hufWord w =>
    rcases execHufWord_cases h with ⟨-, rfl⟩ | ⟨-, h⟩
    · exact absurd rfl hf
    · exact .inr (walkBit_keepsSpaces (s := s.refill w) h).of_start
  | hufBit0 =>
    exact .inr (afterRefill_keepsSpaces (f := walkBit false) hf (fun _ => walkBit_keepsSpaces) h)
  | hufBit1 =>
    exact .inr (afterRefill_keepsSpaces (f := walkBit true) hf (fun _ => walkBit_keepsSpaces) h)
  | w8End => exact .inr (wl4End_keepsSpaces hf h)
  | w8Rsv => exact .inr (wl4Rsv_keepsSpaces hf h)
  | w8Lit len => exact .inr (wl4Lit_keepsSpaces hf h)
  | w8Rep len => exact .inr (wl4Rep_keepsSpaces hf h)
  | w16End => exact .inr (wl4End_keepsSpaces hf h)
  | w16Rsv => exact .inr (wl4Rsv_keepsSpaces hf h)
  | w16Lit len => exact .inr (wl4Lit_keepsSpaces hf h)
  | w16Rep len => exact .inr (wl4Rep_keepsSpaces hf h)

end Keeps

/-- Settles O44: every token keeps the host's part, and one that does not raise keeps the output and, but for
HUF.TABLE, `TREE`. -/
theorem tokensLeaveTheSpacesAsTheRulesSay : Obligations.TokensLeaveTheSpacesAsTheRulesSay := by
  intro i s t h
  refine ⟨exec_keepsHost h, fun hf => ?_⟩
  obtain ⟨⟨hlen, hold⟩, htree⟩ := exec_keepsSpaces hf h
  exact ⟨⟨hlen, hold⟩, htree⟩

end Sys2Proof.Machine
end

section
/-! SUPPORT. The decoder and the encoder are inverse (30_encoding.md R60 to R76), and the assembler lines
(R84) are the encoder's bytes. -/

namespace Sys2Proof.Machine

/-! ## The word of its bytes -/

theorem byteAt_append_below {w : Nat} (v : BitVec w) (k : Nat) :
    byteAt v k ++ v.extractLsb' 0 (8 * k) = v.extractLsb' 0 (8 + 8 * k) :=
  BitVec.extractLsb'_append_extractLsb'_eq_extractLsb' (by omega)

theorem le16_byteAt (w : BitVec 16) : le16 (byteAt w 0) (byteAt w 1) = w :=
  (byteAt_append_below w 1).trans BitVec.extractLsb'_eq_self

theorem le24_byteAt (w : BitVec 24) : le24 (byteAt w 0) (byteAt w 1) (byteAt w 2) = w := by
  have h1 : byteAt w 1 ++ byteAt w 0 = w.extractLsb' 0 16 := byteAt_append_below w 1
  rw [le24, h1]
  exact (byteAt_append_below w 2).trans BitVec.extractLsb'_eq_self

theorem le32_byteAt (w : BitVec 32) :
    le32 (byteAt w 0) (byteAt w 1) (byteAt w 2) (byteAt w 3) = w := by
  have h1 : byteAt w 1 ++ byteAt w 0 = w.extractLsb' 0 16 := byteAt_append_below w 1
  have h2 : byteAt w 2 ++ w.extractLsb' 0 16 = w.extractLsb' 0 24 := byteAt_append_below w 2
  rw [le32, h1, h2]
  exact (byteAt_append_below w 3).trans BitVec.extractLsb'_eq_self

/-! ## The bytes of a word of bytes -/

theorem byteAt_append_top {w k : Nat} (hi : Byte) (lo : BitVec w) (h : w = 8 * k) :
    byteAt (hi ++ lo) k = hi := by
  subst h
  exact BitVec.extractLsb'_append_eq_left

theorem byteAt_append_of_le {w i : Nat} (hi : Byte) (lo : BitVec w) (h : 8 * (i + 1) ≤ w) :
    byteAt (hi ++ lo) i = byteAt lo i :=
  BitVec.extractLsb'_append_eq_of_add_le (by omega)

theorem bytes16_append (hi lo : Byte) : bytes16 (hi ++ lo) = [lo, hi] := by
  rw [bytes16, byteAt_append_of_le (i := 0) hi lo (by decide), byteAt_append_top hi lo rfl]
  exact congrArg (· :: [hi]) BitVec.extractLsb'_eq_self

theorem sizeBytes_append (hi : Byte) (lo : BitVec 16) : sizeBytes (hi ++ lo) = bytes16 lo ++ [hi] := by
  rw [sizeBytes, byteAt_append_of_le (i := 0) hi lo (by decide),
    byteAt_append_of_le (i := 1) hi lo (by decide), byteAt_append_top hi lo rfl]
  rfl

theorem bytes32_append (hi : Byte) (lo : BitVec 24) : bytes32 (hi ++ lo) = sizeBytes lo ++ [hi] := by
  rw [bytes32, byteAt_append_of_le (i := 0) hi lo (by decide),
    byteAt_append_of_le (i := 1) hi lo (by decide), byteAt_append_of_le (i := 2) hi lo (by decide),
    byteAt_append_top hi lo rfl]
  rfl

theorem bytes16_le16 (b0 b1 : Byte) : bytes16 (le16 b0 b1) = [b0, b1] := bytes16_append b1 b0

theorem sizeBytes_le24 (b0 b1 b2 : Byte) : sizeBytes (le24 b0 b1 b2) = [b0, b1, b2] := by
  rw [le24, sizeBytes_append, bytes16_append]
  rfl

theorem bytes32_le32 (b0 b1 b2 b3 : Byte) : bytes32 (le32 b0 b1 b2 b3) = [b0, b1, b2, b3] := by
  rw [le32, bytes32_append, sizeBytes_append, bytes16_append]
  rfl

theorem ctrlBytes_ctrl16 (be : Bool) (b0 b1 : Byte) : ctrlBytes be (ctrl16 be b0 b1) = [b0, b1] := by
  cases be with
  | false => exact bytes16_le16 b0 b1
  | true => exact congrArg List.reverse (bytes16_le16 b1 b0)

/-! ## A flag bit over a field -/

theorem ofBool_getLsbD {w : Nat} (c : BitVec w) (k : Nat) :
    BitVec.ofBool (c.getLsbD k) = c.extractLsb' k 1 := by
  ext i hi
  obtain rfl : i = 0 := by omega
  simp

theorem getLsbD_append_below {w : Nat} (c : BitVec w) (k : Nat) :
    BitVec.ofBool (c.getLsbD k) ++ c.extractLsb' 0 k = c.extractLsb' 0 (1 + k) := by
  rw [ofBool_getLsbD, BitVec.extractLsb'_append_extractLsb'_eq_extractLsb' (Nat.zero_add k).symm]

/-- A field of `n` bits under its flag. -/
theorem msb_append_low {n : Nat} (c : BitVec (1 + n)) :
    BitVec.ofBool c.msb ++ c.extractLsb' 0 n = c := by
  rw [BitVec.msb_eq_getLsbD_last, Nat.add_sub_cancel_left, getLsbD_append_below,
    BitVec.extractLsb'_eq_self]

theorem one_append_low {n : Nat} {c : BitVec (1 + n)} (h : c.msb = true) :
    1#1 ++ c.extractLsb' 0 n = c := by
  simpa [h] using msb_append_low c

theorem zero_append_low {n : Nat} {c : BitVec (1 + n)} (h : c.msb = false) :
    0#1 ++ c.extractLsb' 0 n = c := by
  simpa [h] using msb_append_low c

/-- A control field that is not its flag alone announces a length other than zero. -/
theorem low_ne_zero {n : Nat} {c : BitVec (1 + n)} {flag : BitVec 1}
    (hc : flag ++ c.extractLsb' 0 n = c) (h : c ≠ flag ++ 0#n) : c.extractLsb' 0 n ≠ 0#n :=
  fun hz => h (hz ▸ hc).symm

theorem nibbles_append (b : Byte) : b.extractLsb' 4 4 ++ b.extractLsb' 0 4 = b :=
  (BitVec.extractLsb'_append_extractLsb'_eq_extractLsb' rfl).trans BitVec.extractLsb'_eq_self

/-! ## Tokens and their bytes -/

/-- The control bytes `ctrl`, read in context `c`, hold exactly the token `i`. -/
structure IsTokenOf (be : Bool) (c : Ctx) (ctrl : List Byte) (i : Instr) : Prop where
  wf : i.wf = true
  ctx : ctxOf be i = c
  bytes : encode be i = ctrl

theorem decodeHeader_isTokenOf (be : Bool) (b0 : Byte) (size : BitVec 24) :
    IsTokenOf be .hdr (b0 :: sizeBytes size) (decodeHeader b0 size) := by
  unfold decodeHeader
  split
  next h => exact ⟨rfl, rfl, by rw [encode, ← h, nibbles_append]⟩
  split
  next h => exact ⟨rfl, rfl, by rw [encode, ← h, nibbles_append]⟩
  split
  next h => exact ⟨rfl, rfl, by rw [encode, ← h, nibbles_append]⟩
  split
  next h => exact ⟨rfl, rfl, by rw [encode, h]⟩
  split
  next h => exact ⟨rfl, rfl, by rw [encode, h]⟩
  next h1 h2 h3 h81 h82 => exact ⟨by simp [Instr.wf, legalHeaderByte, *], rfl, rfl⟩

theorem decodeWl4Type_isTokenOf (be : Bool) (t : Byte) :
    IsTokenOf be .wl4Type [t] (decodeWl4Type t) := by
  unfold decodeWl4Type
  split
  next h => exact ⟨rfl, rfl, by rw [encode, h]⟩
  split
  next h => exact ⟨rfl, rfl, by rw [encode, h]⟩
  next h1 h2 => exact ⟨by simp [Instr.wf, h1, h2], rfl, rfl⟩

theorem decodeRle_isTokenOf (be : Bool) (c : Byte) : IsTokenOf be .rle [c] (decodeRle c) := by
  unfold decodeRle
  split
  next h => exact ⟨rfl, rfl, congrArg (fun v : Byte => [v]) (one_append_low (n := 7) h)⟩
  next h =>
    exact ⟨rfl, rfl, congrArg (fun v : Byte => [v]) (zero_append_low (n := 7) (by simpa using h))⟩

theorem decodeW8_isTokenOf (be : Bool) (c : Byte) : IsTokenOf be .w8 [c] (decodeW8 c) := by
  unfold decodeW8
  split
  next h => exact ⟨rfl, rfl, by rw [encode, h]⟩
  split
  next h => exact ⟨rfl, rfl, by rw [encode, h]⟩
  next h0 h80 =>
  split
  next h =>
    have hc := one_append_low (n := 7) h
    exact ⟨by simpa [Instr.wf] using low_ne_zero hc h80, rfl, congrArg (fun v : Byte => [v]) hc⟩
  next h =>
    have hc := zero_append_low (n := 7) (by simpa using h)
    exact ⟨by simpa [Instr.wf] using low_ne_zero hc h0, rfl, congrArg (fun v : Byte => [v]) hc⟩

theorem decodeW16_isTokenOf (be : Bool) (c : BitVec 16) :
    IsTokenOf be (.w16 be) (ctrlBytes be c) (decodeW16 c) := by
  unfold decodeW16
  split
  next h => exact ⟨rfl, rfl, by rw [encode, h]⟩
  split
  next h => exact ⟨rfl, rfl, by rw [encode, h]⟩
  next h0 h80 =>
  split
  next h =>
    have hc := one_append_low (n := 15) h
    exact ⟨by simpa [Instr.wf] using low_ne_zero hc h80, rfl, congrArg (ctrlBytes be) hc⟩
  next h =>
    have hc := zero_append_low (n := 15) (by simpa using h)
    exact ⟨by simpa [Instr.wf] using low_ne_zero hc h0, rfl, congrArg (ctrlBytes be) hc⟩

theorem decodeRef_isTokenOf (be : Bool) (b0 b1 : Byte) :
    IsTokenOf be .lzRef [b0, b1] (decodeRef b0 b1) := by
  have hhi : BitVec.extractLsb' 8 4 (b0.extractLsb' 0 4 ++ b1) = b0.extractLsb' 0 4 :=
    BitVec.extractLsb'_append_eq_left
  have hlo : BitVec.extractLsb' 0 8 (b0.extractLsb' 0 4 ++ b1) = b1 :=
    BitVec.extractLsb'_append_eq_right
  refine ⟨rfl, rfl, ?_⟩
  rw [decodeRef, encode, hhi, hlo, nibbles_append]

theorem decodeBranch_isTokenOf (be : Bool) (b : Byte) :
    IsTokenOf be .treeBranch [b] (decodeBranch b) := by
  refine ⟨rfl, rfl, congrArg (fun v : Byte => [v]) ?_⟩
  rw [getLsbD_append_below b 6]
  exact (getLsbD_append_below b 7).trans BitVec.extractLsb'_eq_self

theorem decodeOne_isTokenOf {be : Bool} {c : Ctx} {f : Byte → Instr} {bs rest : List Byte} {i : Instr}
    (hf : ∀ b, IsTokenOf be c [b] (f b)) (h : decodeOne f bs = .token i rest) :
    ∃ ctrl, IsTokenOf be c ctrl i ∧ ctrl ++ rest = bs := by
  obtain ⟨b, rfl, rfl⟩ := decodeOne_token h
  exact ⟨[b], hf b, rfl⟩

theorem decodeTwo_isTokenOf {be : Bool} {c : Ctx} {f : Byte → Byte → Instr} {bs rest : List Byte}
    {i : Instr} (hf : ∀ b0 b1, IsTokenOf be c [b0, b1] (f b0 b1))
    (h : decodeTwo f bs = .token i rest) : ∃ ctrl, IsTokenOf be c ctrl i ∧ ctrl ++ rest = bs := by
  obtain ⟨b0, b1, rfl, rfl⟩ := decodeTwo_token h
  exact ⟨[b0, b1], hf b0 b1, rfl⟩

/-- Whatever the decoder gives is read from the token's own bytes: the control field's lemma, by context. -/
theorem decode_isTokenOf {be : Bool} {c : Ctx} {bs rest : List Byte} {i : Instr}
    (hbe : ∀ b, c = .w16 b → b = be) (h : decode c bs = .token i rest) :
    ∃ ctrl, IsTokenOf be c ctrl i ∧ ctrl ++ rest = bs := by
  cases c with
  | hdr =>
    obtain ⟨b0, b1, b2, b3, rfl, rfl⟩ := decode_hdr_token h
    exact ⟨_, decodeHeader_isTokenOf be b0 _, by rw [sizeBytes_le24]; rfl⟩
  | wl4Type =>
    obtain ⟨rfl, rfl, rfl⟩ | ⟨t, rfl, rfl⟩ := decode_wl4Type_token h
    · exact ⟨[], ⟨rfl, rfl, rfl⟩, rfl⟩
    · exact ⟨[t], decodeWl4Type_isTokenOf be t, rfl⟩
  | rle =>
    rw [decode] at h
    exact decodeOne_isTokenOf (decodeRle_isTokenOf be) h
  | diff8 | lzMask | lzLit | hufTSize | treeLeaf =>
    rw [decode] at h
    exact decodeOne_isTokenOf (fun _ => ⟨rfl, rfl, rfl⟩) h
  | diff16 =>
    rw [decode] at h
    exact decodeTwo_isTokenOf (f := fun b0 b1 => .d16W (le16 b0 b1))
      (fun b0 b1 => ⟨rfl, rfl, bytes16_le16 b0 b1⟩) h
  | lzRef =>
    rw [decode] at h
    exact decodeTwo_isTokenOf (decodeRef_isTokenOf be) h
  | hufTable | hufCheck =>
    rw [decode] at h
    cases h
    exact ⟨[], ⟨rfl, rfl, rfl⟩, rfl⟩
  | hufWord =>
    obtain ⟨b0, b1, b2, b3, rfl, rfl⟩ := decode_hufWord_token h
    exact ⟨_, ⟨rfl, rfl, bytes32_le32 b0 b1 b2 b3⟩, rfl⟩
  | hufBit top =>
    rw [decode] at h
    cases h
    exact ⟨[], by cases top <;> exact ⟨rfl, rfl, rfl⟩, rfl⟩
  | w8 =>
    rw [decode] at h
    exact decodeOne_isTokenOf (decodeW8_isTokenOf be) h
  | w16 b =>
    obtain rfl := hbe b rfl
    rw [decode] at h
    exact decodeTwo_isTokenOf
      (fun b0 b1 => ctrlBytes_ctrl16 b b0 b1 ▸ decodeW16_isTokenOf b (ctrl16 b b0 b1)) h
  | treeBranch =>
    rw [decode] at h
    exact decodeOne_isTokenOf (decodeBranch_isTokenOf be) h

/-! ## What the encoding of a token decodes to -/

theorem decode_hdr_sizeBytes (b : Byte) (size : BitVec 24) (rest : List Byte) :
    decode .hdr (b :: sizeBytes size ++ rest) = .token (decodeHeader b size) rest :=
  congrArg (fun n => Decoded.token (decodeHeader b n) rest) (le24_byteAt size)

/-- The first byte of a header, as its type and parameter nibbles. -/
theorem decodeHeader_append (type param : BitVec 4) (size : BitVec 24) :
    decodeHeader (type ++ param) size =
      if type = 1#4 then .hdrLz77 param size
      else if type = 2#4 then .hdrHuf param size
      else if type = 3#4 then .hdrRle param size
      else if type ++ param = 0x81#8 then .hdrDiff8 size
      else if type ++ param = 0x82#8 then .hdrDiff16 size
      else .hdrIllegal (type ++ param) size := by
  have hhi : BitVec.extractLsb' 4 4 (type ++ param) = type := BitVec.extractLsb'_append_eq_left
  have hlo : BitVec.extractLsb' 0 4 (type ++ param) = param := BitVec.extractLsb'_append_eq_right
  rw [decodeHeader, hhi, hlo]

theorem decodeHeader_hdrIllegal {b : Byte} (size : BitVec 24) (h : legalHeaderByte b = false) :
    decodeHeader b size = .hdrIllegal b size := by
  simp only [legalHeaderByte, Bool.or_eq_false_iff, beq_eq_false_iff_ne] at h
  simp [decodeHeader, h]

theorem decodeRle_append (flag : BitVec 1) (count : BitVec 7) :
    decodeRle (flag ++ count) = if flag.msb then .rleRep count else .rleLit count := by
  have hmsb : BitVec.msb (flag ++ count) = flag.msb := BitVec.msb_append
  have hlo : BitVec.extractLsb' 0 7 (flag ++ count) = count := BitVec.extractLsb'_append_eq_right
  rw [decodeRle, hmsb, hlo]

theorem append_ne_of_low_ne {n : Nat} {flag : BitVec 1} {low : BitVec n} {c : BitVec (1 + n)}
    (h : low ≠ c.extractLsb' 0 n) : flag ++ low ≠ c :=
  fun hc => h (hc ▸ BitVec.extractLsb'_append_eq_right.symm)

theorem decodeW8_append (flag : BitVec 1) {len : BitVec 7} (h : len ≠ 0#7) :
    decodeW8 (flag ++ len) = if flag.msb then .w8Rep len else .w8Lit len := by
  have hmsb : BitVec.msb (flag ++ len) = flag.msb := BitVec.msb_append
  have hlo : BitVec.extractLsb' 0 7 (flag ++ len) = len := BitVec.extractLsb'_append_eq_right
  rw [decodeW8, if_neg (append_ne_of_low_ne h), if_neg (append_ne_of_low_ne h), hmsb, hlo]

theorem decodeW16_append (flag : BitVec 1) {len : BitVec 15} (h : len ≠ 0#15) :
    decodeW16 (flag ++ len) = if flag.msb then .w16Rep len else .w16Lit len := by
  have hmsb : BitVec.msb (flag ++ len) = flag.msb := BitVec.msb_append
  have hlo : BitVec.extractLsb' 0 15 (flag ++ len) = len := BitVec.extractLsb'_append_eq_right
  rw [decodeW16, if_neg (append_ne_of_low_ne h), if_neg (append_ne_of_low_ne h), hmsb, hlo]

theorem decode_w16_ctrlBytes (be : Bool) (c : BitVec 16) (rest : List Byte) :
    decode (.w16 be) (ctrlBytes be c ++ rest) = .token (decodeW16 c) rest := by
  cases be <;> exact congrArg (fun v => Decoded.token (decodeW16 v) rest) (le16_byteAt c)

theorem decodeRef_bytes (len3 : BitVec 4) (disp : BitVec 12) :
    decodeRef (len3 ++ disp.extractLsb' 8 4) (disp.extractLsb' 0 8) = .lzRef len3 disp := by
  have hhi : BitVec.extractLsb' 4 4 (len3 ++ disp.extractLsb' 8 4) = len3 :=
    BitVec.extractLsb'_append_eq_left
  have hlo : BitVec.extractLsb' 0 4 (len3 ++ disp.extractLsb' 8 4) = disp.extractLsb' 8 4 :=
    BitVec.extractLsb'_append_eq_right
  rw [decodeRef, hhi, hlo]
  exact congrArg (Instr.lzRef len3)
    ((BitVec.extractLsb'_append_extractLsb'_eq_extractLsb' rfl).trans BitVec.extractLsb'_eq_self)

theorem decodeBranch_byte (leaf0 leaf1 : Bool) (base : BitVec 6) :
    decodeBranch (BitVec.ofBool leaf0 ++ (BitVec.ofBool leaf1 ++ base)) = .hufBr leaf0 leaf1 base := by
  have h7 : BitVec.getLsbD (BitVec.ofBool leaf0 ++ (BitVec.ofBool leaf1 ++ base)) 7 = leaf0 :=
    BitVec.getLsbD_append.trans (by simp)
  have h6 : BitVec.getLsbD (BitVec.ofBool leaf0 ++ (BitVec.ofBool leaf1 ++ base)) 6 = leaf1 :=
    BitVec.getLsbD_append.trans (BitVec.getLsbD_append.trans (by simp))
  have hbase : BitVec.extractLsb' 0 6 (BitVec.ofBool leaf0 ++ (BitVec.ofBool leaf1 ++ base)) = base :=
    (BitVec.extractLsb'_append_eq_of_add_le (by decide)).trans BitVec.extractLsb'_append_eq_right
  rw [decodeBranch, h7, h6, hbase]

/-! ## The assembler's operands as control fields (R84) -/

theorem zero_append_ofNat {n k : Nat} (h : k < 2 ^ n) :
    0#1 ++ BitVec.ofNat n k = BitVec.ofNat (1 + n) k := by
  apply BitVec.eq_of_toNat_eq
  have : k < 2 ^ (1 + n) := h.trans_le (Nat.pow_le_pow_right (by omega) (by omega))
  simp [Nat.mod_eq_of_lt, *]

theorem one_append_ofNat {n k : Nat} (h : k < 2 ^ n) :
    1#1 ++ BitVec.ofNat n k = 1#1 ++ 0#n ||| BitVec.ofNat (1 + n) k := by
  rw [← zero_append_ofNat h, BitVec.or_append]
  simp

theorem hufFirstByte_eq (p : BitVec 4) : 2#4 ++ p = 0x20#8 ||| p.setWidth 8 := by
  revert p
  decide

theorem branchByte_eq (leaf0 leaf1 : Bool) (base : BitVec 6) :
    BitVec.ofBool leaf0 ++ (BitVec.ofBool leaf1 ++ base) =
    (BitVec.ofBool leaf0).setWidth 8 <<< 7 ||| (BitVec.ofBool leaf1).setWidth 8 <<< 6
      ||| base.setWidth 8 := by
  ext i hi
  grind

theorem len3_append_dispHigh {l d : Nat} (hl : l < 16) (hd : d < 4096) :
    BitVec.ofNat 4 l ++ (BitVec.ofNat 12 d).extractLsb' 8 4 =
    BitVec.ofNat 8 l <<< 4 ||| BitVec.ofNat 8 (d / 256) := by
  have hl4 : (l <<< 4) % 256 = l <<< 4 := Nat.mod_eq_of_lt (by rw [Nat.shiftLeft_eq]; omega)
  have hd4 : (d >>> 8) % 16 = d / 256 := by rw [Nat.shiftRight_eq_div_pow]; omega
  refine BitVec.eq_of_toNat_eq ((BitVec.toNat_append _ _).trans ?_)
  simp [Nat.mod_eq_of_lt (show l < 256 by omega), Nat.mod_eq_of_lt (show d / 256 < 256 by omega),
    Nat.mod_eq_of_lt hl, Nat.mod_eq_of_lt hd, hl4, hd4]

theorem disp_lowByte (d : Nat) : (BitVec.ofNat 12 d).extractLsb' 0 8 = BitVec.ofNat 8 d := by
  apply BitVec.eq_of_toNat_eq
  simp

theorem ofNat_ne_zero {n k : Nat} (hk : 1 ≤ k) (h : k < 2 ^ n) : BitVec.ofNat n k ≠ 0#n := by
  intro hz
  have := congrArg BitVec.toNat hz
  simp [Nat.mod_eq_of_lt h] at this
  omega

theorem bounds_of_legal {lo hi k : Nat} (h : (decide (lo ≤ k) && decide (k ≤ hi)) = true) :
    lo ≤ k ∧ k ≤ hi := by simpa using h

/-- Line by line: the operand in its range is the control field's number. -/
theorem assemble_of_token {be : Bool} {l : AsmLine} {i : Instr} {payload : List Byte} (hl : l.legal = true)
    (ht : l.token = some (i, payload)) : i.wf = true ∧ assemble be l = encode be i ++ payload := by
  cases l with
  | hdrRaw | byte => cases ht
  | hdrHuf p size =>
    cases ht
    exact ⟨rfl, congrArg (· :: sizeBytes size) (hufFirstByte_eq p).symm⟩
  | rleLit _ =>
    cases ht
    have := bounds_of_legal hl
    exact ⟨rfl, congrArg (· :: payload) (zero_append_ofNat (n := 7) (by omega)).symm⟩
  | rleRep k v =>
    cases ht
    have := bounds_of_legal hl
    exact ⟨rfl, congrArg (· :: [v]) (one_append_ofNat (n := 7) (by omega)).symm⟩
  | lzRef off len =>
    cases ht
    simp only [AsmLine.legal, Bool.and_eq_true, decide_eq_true_eq] at hl
    refine ⟨rfl, ?_⟩
    rw [encode, len3_append_dispHigh (by omega) (by omega), disp_lowByte]
    rfl
  | hufBr leaf0 leaf1 base =>
    cases ht
    exact ⟨rfl, congrArg (fun b : Byte => [b]) (branchByte_eq leaf0 leaf1 base).symm⟩
  | w8Lit _ =>
    cases ht
    have := bounds_of_legal hl
    exact ⟨bne_iff_ne.2 (ofNat_ne_zero (by omega) (by omega)),
      congrArg (· :: payload) (zero_append_ofNat (n := 7) (by omega)).symm⟩
  | w8Rep k v =>
    cases ht
    have := bounds_of_legal hl
    exact ⟨bne_iff_ne.2 (ofNat_ne_zero (by omega) (by omega)),
      congrArg (· :: [v]) (one_append_ofNat (n := 7) (by omega)).symm⟩
  | w16Lit _ =>
    cases ht
    have := bounds_of_legal hl
    exact ⟨bne_iff_ne.2 (ofNat_ne_zero (by omega) (by omega)),
      congrArg (ctrlBytes be · ++ payload) (zero_append_ofNat (n := 15) (by omega)).symm⟩
  | w16Rep k v =>
    cases ht
    have := bounds_of_legal hl
    exact ⟨bne_iff_ne.2 (ofNat_ne_zero (by omega) (by omega)),
      congrArg (ctrlBytes be · ++ [v]) (one_append_ofNat (n := 15) (by omega)).symm⟩
  | w16End =>
    cases ht
    cases be <;> exact ⟨rfl, rfl⟩
  | hdrLz77 | hdrRle | hdrDiff8 | hdrDiff16 | wl4T8 | wl4T16 | d8W | d16W | lzMask | lzLit | hufTSize
  | hufLeaf | hufWord | w8End =>
    cases ht
    exact ⟨rfl, rfl⟩

/-! ## The round trip and the assembler -/

/-- Settles O2, token by token: the bytes join to the word they were cut from, and the field's lemma
reads it. -/
theorem decodeOfEncodeIsTheToken : Obligations.DecodeOfEncodeIsTheToken := by
  intro be i rest hwf hnone
  cases i with
  | hdrLz77 param size =>
    exact (decode_hdr_sizeBytes _ size rest).trans (by rw [decodeHeader_append]; rfl)
  | hdrHuf param size =>
    exact (decode_hdr_sizeBytes _ size rest).trans (by rw [decodeHeader_append]; rfl)
  | hdrRle param size =>
    exact (decode_hdr_sizeBytes _ size rest).trans (by rw [decodeHeader_append]; rfl)
  | hdrDiff8 size => exact decode_hdr_sizeBytes 0x81#8 size rest
  | hdrDiff16 size => exact decode_hdr_sizeBytes 0x82#8 size rest
  | hdrIllegal b size =>
    refine (decode_hdr_sizeBytes b size rest).trans ?_
    rw [decodeHeader_hdrIllegal size (by simpa [Instr.wf] using hwf)]
  | wl4TIllegal t =>
    cases t with
    | none => rw [hnone rfl]; rfl
    | some t =>
      obtain ⟨h1, h2⟩ : t ≠ 1#8 ∧ t ≠ 2#8 := by simpa [Instr.wf] using hwf
      exact congrArg (Decoded.token · rest) (by rw [decodeWl4Type, if_neg h1, if_neg h2])
  | rleLit count => exact congrArg (Decoded.token · rest) (decodeRle_append 0#1 count)
  | rleRep count => exact congrArg (Decoded.token · rest) (decodeRle_append 1#1 count)
  | d16W w => exact congrArg (fun v => Decoded.token (.d16W v) rest) (le16_byteAt w)
  | lzRef len3 disp => exact congrArg (Decoded.token · rest) (decodeRef_bytes len3 disp)
  | hufBr leaf0 leaf1 base =>
    exact congrArg (Decoded.token · rest) (decodeBranch_byte leaf0 leaf1 base)
  | hufWord w => exact congrArg (fun v => Decoded.token (.hufWord v) rest) (le32_byteAt w)
  | w8Lit len =>
    exact congrArg (Decoded.token · rest) (decodeW8_append 0#1 (by simpa [Instr.wf] using hwf))
  | w8Rep len =>
    exact congrArg (Decoded.token · rest) (decodeW8_append 1#1 (by simpa [Instr.wf] using hwf))
  | w16End => exact decode_w16_ctrlBytes be 0x0000#16 rest
  | w16Rsv => exact decode_w16_ctrlBytes be 0x8000#16 rest
  | w16Lit len =>
    refine (decode_w16_ctrlBytes be (0#1 ++ len) rest).trans ?_
    rw [decodeW16_append 0#1 (by simpa [Instr.wf] using hwf)]
    rfl
  | w16Rep len =>
    refine (decode_w16_ctrlBytes be (1#1 ++ len) rest).trans ?_
    rw [decodeW16_append 1#1 (by simpa [Instr.wf] using hwf)]
    rfl
  | wl4T8 | wl4T16 | d8W | lzMask | lzLit | hufTSize | hufTable | hufLeaf | hufCheck | hufBit0 | hufBit1
  | w8End | w8Rsv => rfl

/-- Settles O3, context by context (decode_isTokenOf). -/
theorem decodedTokensReencodeToTheirBytes : Obligations.DecodedTokensReencodeToTheirBytes := by
  intro be c bs i rest hbe h
  obtain ⟨ctrl, ⟨hwf, hctx, rfl⟩, hbs⟩ := decode_isTokenOf hbe h
  exact ⟨hwf, hctx, hbs⟩

/-- Settles O4: assemble_of_token for the lines with a token; the other two lines by definition. -/
theorem assemblerLinesAssembleToTheirTokens : Obligations.AssemblerLinesAssembleToTheirTokens := by
  refine ⟨fun be l i payload hl ht => assemble_of_token hl ht, fun be b b0 b1 b2 => ?_,
    fun _ _ _ _ => rfl, fun _ _ => rfl, fun l ht => ?_⟩
  · exact congrArg (b :: ·) (sizeBytes_le24 b0 b1 b2)
  · cases l with
    | hdrRaw b size => exact .inl ⟨b, size, rfl⟩
    | byte b => exact .inr ⟨b, rfl⟩
    | _ => cases ht

/-- Settles O1: closed words, read by running the decoder. -/
theorem specWordsDecodeToTheirTokens : Obligations.SpecWordsDecodeToTheirTokens := by
  unfold Obligations.SpecWordsDecodeToTheirTokens
  decide

/-! ## The step runs what it decodes -/

/-- The state reads a WL4 control word in the order of its parameter (R73). -/
theorem nextCtx_w16_order {s : State} {b : Bool} (h : s.nextCtx = .ctx (.w16 b)) :
    b = s.params.wl4Ctrl16BE := by
  unfold State.nextCtx at h
  cases hp : s.phase with
  | w16 => simpa [hp] using h.symm
  | diff | lzBlock | hufBits =>
    simp only [hp] at h
    split_ifs at h <;> cases h
  | _ => simp [hp] at h

theorem fetchAddr_eq (s : State) :
    s.fetchAddr = if s.phase = .hdr ∨ s.phase = .wl4Type then 0 else s.pc.toNat := by
  split_ifs with h
  · rcases h with hp | hp <;> simp [State.fetchAddr, hp]
  · exact fetchAddr_eq_pc (fun hp => h (.inl hp)) (fun hp => h (.inr hp))

/-- Settles O5: the decoder's token is well-formed (decode_isTokenOf) and is the one the step runs. -/
theorem stepRunsTheDecodedToken : Obligations.StepRunsTheDecodedToken := by
  intro s c i rest hc hd
  obtain ⟨_, htok, -⟩ := decode_isTokenOf (be := s.params.wl4Ctrl16BE)
    (fun b hb => nextCtx_w16_order (hb ▸ hc)) hd
  exact ⟨htok.wf, step_of_token hc hd, fetchAddr_eq s⟩

end Sys2Proof.Machine
end

section
/-! SUPPORT. The launch and the header step in one place (40_header_dispatch.md R90 to R101): the phase a call
starts in, which first bytes are legal, what an accepted header leaves, and the order of the checks. -/

namespace Sys2Proof.Machine

/-! ## The fields of a header -/

theorem typeNibble_toNat (b : Byte) : (b.extractLsb' 4 4).toNat = b.toNat / 16 := by
  rw [BitVec.extractLsb'_toNat, Nat.shiftRight_eq_div_pow]
  exact Nat.mod_eq_of_lt (by omega)

theorem paramNibble_toNat (b : Byte) : (b.extractLsb' 0 4).toNat = b.toNat % 16 := rfl

theorem le24_toNat (b0 b1 b2 : Byte) :
    (le24 b0 b1 b2).toNat = b0.toNat + 256 * b1.toNat + 65536 * b2.toNat := by
  rw [le24, BitVec.toNat_append, BitVec.toNat_append, ← Nat.shiftLeft_add_eq_or_of_lt b0.isLt,
    ← Nat.shiftLeft_add_eq_or_of_lt (by rw [Nat.shiftLeft_eq]; omega)]
  simp only [Nat.shiftLeft_eq]
  omega

/-- 30_encoding.md R76, in numbers. -/
theorem legalHeaderByte_iff (b : Byte) : legalHeaderByte b = true ↔
    b.toNat / 16 = 1 ∨ b.toNat / 16 = 2 ∨ b.toNat / 16 = 3 ∨ b.toNat = 0x81 ∨ b.toNat = 0x82 := by
  simp only [legalHeaderByte, Bool.or_eq_true, beq_iff_eq, ← BitVec.toNat_inj, typeNibble_toNat,
    or_assoc]
  rfl

theorem headerAccepted_iff (s : State) (ty : BitVec 4) :
    headerAccepted s ty = true ↔ 4 ≤ s.inLen.toNat ∧ (s.mode = 0#4 ∨ s.mode = ty) := by
  simp [headerAccepted]

theorem fitsCap_iff (s : State) (n : BitVec 24) :
    fitsCap s n = true ↔ n.toNat ≤ s.params.outCap.toNat := by
  simp [fitsCap]

/-! ## Accepted header tokens -/

/-- What every accepted header leaves, in whatever phase it goes on (R92). -/
theorem headerLatch_frame (s : State) (ty p : BitVec 4) (n : BitVec 24) (q : Phase) :
    let t := (headerLatch s ty p n).setPhase q
    Quiet s t ∧ SameOut s t ∧ SameTree s t ∧ t.pc.toNat = 4 ∧
      t.x = { s.x with type := ty, param := p, size := n } ∧ t.phase = q :=
  ⟨⟨sameHost_of_eq rfl rfl rfl rfl, rfl⟩, sameOut_of_eq rfl, sameTree_of_eq rfl, rfl, rfl, rfl⟩

/-- The phase after a header that may complete the call (R94, R96 to R98). -/
def headerPhase (s : State) (n : BitVec 24) (q : Phase) : Phase :=
  if s.x.outLen.toNat = n.toNat then .done else q

theorem headerLatch_finishOr (s : State) (ty p : BitVec 4) (n : BitVec 24) (q : Phase) :
    (headerLatch s ty p n).finishOr q = (headerLatch s ty p n).setPhase (headerPhase s n q) :=
  finishOr_eq _ q

section Accepted
variable {s : State} {n : BitVec 24} (hf : fitsCap s n = true)
include hf

theorem exec_hdrLz77_accepted (ha : headerAccepted s 1#4 = true) (p : BitVec 4) :
    exec (.hdrLz77 p n) s =
      .next ((headerLatch s 1#4 p n).setPhase (headerPhase s n .lzMask)) := by
  simp [exec, execHdrLz77, ha, hf, headerLatch_finishOr]

theorem exec_hdrHuf_accepted (ha : headerAccepted s 2#4 = true) (p : BitVec 4) :
    exec (.hdrHuf p n) s = .next ((headerLatch s 2#4 p n).setPhase .hufTSize) := by
  simp [exec, execHdrHuf, ha, hf]

theorem exec_hdrRle_accepted (ha : headerAccepted s 3#4 = true) (p : BitVec 4) :
    exec (.hdrRle p n) s = .next ((headerLatch s 3#4 p n).setPhase (headerPhase s n .rle)) := by
  simp [exec, execHdrRle, ha, hf, headerLatch_finishOr]

theorem exec_hdrDiff8_accepted (ha : headerAccepted s 8#4 = true) :
    exec (.hdrDiff8 n) s =
      .next ((headerLatch s 8#4 1#4 n).setPhase (headerPhase s n .diff)) := by
  simp [exec, execHdrDiff8, ha, hf, headerLatch_finishOr]

theorem exec_hdrDiff16_accepted (ha : headerAccepted s 8#4 = true) (he : n.getLsbD 0 = false) :
    exec (.hdrDiff16 n) s =
      .next ((headerLatch s 8#4 2#4 n).setPhase (headerPhase s n .diff)) := by
  rw [exec, execHdrDiff16, ha, he, hf, headerLatch_finishOr]
  rfl

end Accepted

theorem getLsbD_zero_iff (n : BitVec 24) : n.getLsbD 0 = false ↔ n.toNat % 2 = 0 := by
  simp [BitVec.getLsbD, Nat.testBit_zero]

/-- Settles O17: an accepted token is the latch (headerLatch_frame), then its phase. -/
theorem headerTokensComplete : Obligations.HeaderTokensComplete := by
  intro s p n h4 hcap latched orDone
  have hf : fitsCap s n = true := (fitsCap_iff s n).2 hcap
  have ha : ∀ {ty}, s.mode = 0#4 ∨ s.mode = ty → headerAccepted s ty = true :=
    fun hm => (headerAccepted_iff s _).2 ⟨h4, hm⟩
  exact ⟨fun hm => ⟨_, exec_hdrLz77_accepted hf (ha hm) p, headerLatch_frame ..⟩,
    fun hm => ⟨_, exec_hdrHuf_accepted hf (ha hm) p, headerLatch_frame ..⟩,
    fun hm => ⟨_, exec_hdrRle_accepted hf (ha hm) p, headerLatch_frame ..⟩,
    fun hm => ⟨_, exec_hdrDiff8_accepted hf (ha hm), headerLatch_frame ..⟩,
    fun hm he => ⟨_, exec_hdrDiff16_accepted hf (ha hm) ((getLsbD_zero_iff n).2 he),
      headerLatch_frame ..⟩⟩

/-! ## Illegal headers -/

/-- 40_header_dispatch.md R99: the first bytes of HDR.ILLEGAL are the illegal ones. -/
theorem decodeHeader_eq_hdrIllegal_iff (b0 : Byte) (size : BitVec 24) :
    (∃ b n, decodeHeader b0 size = .hdrIllegal b n) ↔ legalHeaderByte b0 = false := by
  refine ⟨fun ⟨b, n, h⟩ => ?_, fun h => ⟨_, _, decodeHeader_hdrIllegal size h⟩⟩
  obtain ⟨hwf, -, hbytes⟩ := decodeHeader_isTokenOf true b0 size
  rw [h] at hwf hbytes
  obtain rfl : b = b0 := (List.cons_eq_cons.1 hbytes).1
  simpa [Instr.wf] using hwf

/-- Settles O19: HDR.ILLEGAL raises by its meaning, and it is decoded from the bytes that
`legalHeaderByte` refuses. -/
theorem illegalHeadersRaiseInvalidFormat : Obligations.IllegalHeadersRaiseInvalidFormat := by
  refine ⟨fun b n s => rfl, fun b0 b1 b2 b3 => ?_⟩
  have hd : ∀ b n, decode .hdr [b0, b1, b2, b3] = .token (.hdrIllegal b n) [] ↔
      decodeHeader b0 (le24 b1 b2 b3) = .hdrIllegal b n := fun b n => by simp [decode]
  simp only [hd, decodeHeader_eq_hdrIllegal_iff, ← Bool.not_eq_true, legalHeaderByte_iff]
  omega

/-! ## The checks in order -/

/-- Checks 1 to 5 of R101 for a header of first byte `b` and size `n`. -/
def headerOk (s : State) (b : Byte) (n : BitVec 24) : Bool :=
  legalHeaderByte b && headerAccepted s (b.extractLsb' 4 4) && !(b == 0x82#8 && n.getLsbD 0)

/-- The phase an accepted header of first byte `b` goes on in (R94 to R98). -/
def openedPhase (s : State) (b : Byte) (n : BitVec 24) : Phase :=
  if b.extractLsb' 4 4 = 1#4 then headerPhase s n .lzMask
  else if b.extractLsb' 4 4 = 2#4 then .hufTSize
  else if b.extractLsb' 4 4 = 3#4 then headerPhase s n .rle
  else headerPhase s n .diff

theorem openedPhase_ne_fault (s : State) (b : Byte) (n : BitVec 24) : openedPhase s b n ≠ .fault :=
  have hdone : ∀ {q : Phase}, q ≠ .fault → headerPhase s n q ≠ .fault := ite_ne_fault (by decide)
  ite_ne_fault (hdone (by decide)) (ite_ne_fault (by decide)
    (ite_ne_fault (hdone (by decide)) (hdone (by decide))))

/-- R101: the whole header step. Checks 1 to 5 raise the same kind, the capacity is checked last. -/
theorem exec_decodeHeader (s : State) (b : Byte) (n : BitVec 24) :
    exec (decodeHeader b n) s =
      if !headerOk s b n then .next (s.raise .invalidFormat)
      else if !fitsCap s n then .next (s.raise .outOfBounds)
      else .next ((headerLatch s (b.extractLsb' 4 4) (b.extractLsb' 0 4) n).setPhase
        (openedPhase s b n)) := by
  have h82 : ∀ {ty}, b.extractLsb' 4 4 = ty → ty ≠ 8#4 → b ≠ 0x82#8 := by
    rintro _ rfl hne rfl
    exact hne rfl
  unfold decodeHeader
  split
  next ht =>
    simp [headerOk, legalHeaderByte, openedPhase, ht, h82 ht, exec, execHdrLz77, headerLatch_finishOr]
  split
  next ht => simp [headerOk, legalHeaderByte, openedPhase, ht, h82 ht, exec, execHdrHuf]
  split
  next ht =>
    simp [headerOk, legalHeaderByte, openedPhase, ht, h82 ht, exec, execHdrRle, headerLatch_finishOr]
  split
  next hb =>
    subst hb
    simp [headerOk, legalHeaderByte, openedPhase, exec, execHdrDiff8, headerLatch_finishOr]
  split
  next hb =>
    subst hb
    simp [headerOk, legalHeaderByte, openedPhase, exec, execHdrDiff16, headerLatch_finishOr, ite_or]
  next h1 h2 h3 h81 h82 => simp [headerOk, legalHeaderByte, exec, execHdrIllegal, *]

theorem headerOk_iff (s : State) (b : Byte) (n : BitVec 24) :
    headerOk s b n = true ↔
      (b.toNat / 16 = 1 ∨ b.toNat / 16 = 2 ∨ b.toNat / 16 = 3 ∨ b.toNat = 0x81 ∨ b.toNat = 0x82) ∧
      4 ≤ s.inLen.toNat ∧ (s.mode.toNat = 0 ∨ s.mode.toNat = b.toNat / 16) ∧
      (b.toNat = 0x82 → n.toNat % 2 = 0) := by
  rw [← legalHeaderByte_iff, ← typeNibble_toNat b]
  simp [headerOk, headerAccepted_iff, ← getLsbD_zero_iff, ← BitVec.toNat_inj, and_assoc,
    imp_iff_not_or]

/-- R92, R101: the header step of a call; fewer than 4 bytes fail the first check. -/
theorem step_hdr_checks {s : State} (hp : s.phase = .hdr) :
    step s =
      if !headerOk s (s.inAt 0) (le24 (s.inAt 1) (s.inAt 2) (s.inAt 3)) then
        .next (s.raise .invalidFormat)
      else if !fitsCap s (le24 (s.inAt 1) (s.inAt 2) (s.inAt 3)) then .next (s.raise .outOfBounds)
      else .next ((headerLatch s ((s.inAt 0).extractLsb' 4 4) ((s.inAt 0).extractLsb' 0 4)
        (le24 (s.inAt 1) (s.inAt 2) (s.inAt 3))).setPhase
          (openedPhase s (s.inAt 0) (le24 (s.inAt 1) (s.inAt 2) (s.inAt 3)))) := by
  rw [step_hdr hp, exec_decodeHeader]
  by_cases h4 : 4 ≤ s.inLen.toNat
  · exact if_pos h4
  · have hno : headerOk s (s.inAt 0) (le24 (s.inAt 1) (s.inAt 2) (s.inAt 3)) = false :=
      Bool.eq_false_iff.2 fun h => h4 ((headerOk_iff s _ _).1 h).2.1
    rw [if_neg h4, hno]
    rfl

/-- Settles O18: the header step's equation step_hdr_checks, its checks read as numbers. -/
theorem headerChecksInOrder : Obligations.HeaderChecksInOrder := by
  intro s hp t p n badFormat
  have hn : (le24 (s.inAt 1) (s.inAt 2) (s.inAt 3)).toNat = n := le24_toNat _ _ _
  have hok : headerOk s (s.inAt 0) (le24 (s.inAt 1) (s.inAt 2) (s.inAt 3)) = true ↔
      ¬ badFormat := by
    rw [headerOk_iff, hn]
    omega
  have hfit : fitsCap s (le24 (s.inAt 1) (s.inAt 2) (s.inAt 3)) = true ↔
      n ≤ s.params.outCap.toNat := by
    rw [fitsCap_iff, hn]
  rw [step_hdr_checks hp]
  refine ⟨fun hbad => ?_, fun hgood hbig => ?_, fun hgood hsmall => ?_⟩
  · rw [Bool.eq_false_iff.2 fun h => hok.1 h hbad]
    rfl
  · rw [hok.2 hgood, Bool.eq_false_iff.2 fun h => Nat.not_le.2 hbig (hfit.1 h)]
    rfl
  · rw [hok.2 hgood, hfit.2 hsmall]
    exact ⟨_, rfl, openedPhase_ne_fault s _ _, typeNibble_toNat _, paramNibble_toNat _, hn, rfl⟩

/-! ## The launch -/

/-- 10_state.md R17: the modes of the headered formats. -/
theorem startPhase_headered {mode : BitVec 4}
    (h : mode = 0#4 ∨ mode = 1#4 ∨ mode = 2#4 ∨ mode = 3#4 ∨ mode = 8#4) :
    startPhase mode = some .hdr := if_pos h

/-- 10_state.md R17: the modes no format has. -/
theorem startPhase_reserved {mode : BitVec 4}
    (h : mode = 5#4 ∨ mode = 6#4 ∨ mode = 7#4 ∨ 9 ≤ mode.toNat) : startPhase mode = none := by
  revert mode
  decide

/-- A mode that has a phase to start in launches a call in it (R90). -/
theorem start_of_phase_frame {s : State} {p : Phase} (h : s.status ≠ .busy)
    (hm : startPhase s.mode = some p) :
    s.start.phase = p ∧ s.start.pc = 0#32 ∧ s.start.err = .none ∧ (∀ i, s.start.x.read i = 0) ∧
      s.start.mode = s.mode ∧ s.start.inLen = s.inLen ∧ s.start.inMem = s.inMem ∧
      s.start.outMem = s.outMem ∧ s.start.treeMem = s.treeMem := by
  rw [start_of_phase h hm]
  exact ⟨rfl, rfl, rfl, Regs.read_zero, rfl, rfl, rfl, rfl, rfl⟩

/-- Settles O12: by `MODE`, a launch has a phase to start in or raises. -/
theorem startBeginsACall : Obligations.StartBeginsACall := by
  refine fun s => ⟨fun h => by simp [State.start, State.busy, h], fun h => ?_⟩
  have hwl4 : s.mode = 4#4 → startPhase s.mode = some .wl4Type := fun hm => by rw [hm]; rfl
  refine ⟨fun hm => (start_of_phase_frame h (startPhase_headered hm)).1,
    fun hm => (start_of_phase_frame h (hwl4 hm)).1, fun hm => ?_, fun hm => ?_⟩
  · obtain ⟨p, hp, hbusy⟩ : ∃ p, startPhase s.mode = some p ∧ p.status = .busy := by
      by_cases h4 : s.mode = 4#4
      · exact ⟨_, hwl4 h4, rfl⟩
      · exact ⟨_, startPhase_headered (by simpa [h4] using hm), rfl⟩
    obtain ⟨hphase, hrest⟩ := start_of_phase_frame h hp
    exact ⟨by rw [State.status, hphase, hbusy], hrest⟩
  · rw [start_of_reserved h (startPhase_reserved hm)]
    exact raised_raise s _

end Sys2Proof.Machine
end

section
/-! SUPPORT. `MODE` is read by the launch and by the header's check of the type alone (40_header_dispatch.md R90,
R93): a call under another `MODE` that accepts the type of the header in `IN` runs alike. -/

namespace Sys2Proof.Machine

/-! ## Another `MODE` -/

/-- The state with another `MODE`. -/
def State.withMode (s : State) (m : BitVec 4) : State := { s with mode := m }

theorem outBytesFrom_congr {s t : State} (h : t.outMem = s.outMem) (a n : Nat) :
    t.outBytesFrom a n = s.outBytesFrom a n := by
  induction n generalizing a with
  | zero => rfl
  | succ n ih => rw [State.outBytesFrom, State.outBytesFrom, State.outAt, State.outAt, h, ih]

section WithMode
variable (s : State) (m : BitVec 4)

@[simp] theorem withMode_params : (s.withMode m).params = s.params := rfl
@[simp] theorem withMode_inLen : (s.withMode m).inLen = s.inLen := rfl
@[simp] theorem withMode_phase : (s.withMode m).phase = s.phase := rfl
@[simp] theorem withMode_err : (s.withMode m).err = s.err := rfl
@[simp] theorem withMode_pc : (s.withMode m).pc = s.pc := rfl
@[simp] theorem withMode_x : (s.withMode m).x = s.x := rfl
@[simp] theorem withMode_inAt (a : Nat) : (s.withMode m).inAt a = s.inAt a := rfl
@[simp] theorem withMode_treeAt (a : Nat) : (s.withMode m).treeAt a = s.treeAt a := rfl
@[simp] theorem withMode_has (n : Nat) : (s.withMode m).has n = s.has n := rfl
@[simp] theorem withMode_tableLen : (s.withMode m).tableLen = s.tableLen := rfl
@[simp] theorem withMode_treeOk : (s.withMode m).treeOk = s.treeOk := rfl
@[simp] theorem withMode_fitsCap (n : BitVec 24) : fitsCap (s.withMode m) n = fitsCap s n := rfl
@[simp] theorem withMode_openedPhase (b : Byte) (n : BitVec 24) :
    openedPhase (s.withMode m) b n = openedPhase s b n := rfl
@[simp] theorem withMode_nextWord : (s.withMode m).nextWord = s.nextWord := rfl
@[simp] theorem withMode_nextCtx : (s.withMode m).nextCtx = s.nextCtx := rfl
@[simp] theorem withMode_busy : (s.withMode m).busy = s.busy := rfl

@[simp] theorem withMode_inBytes (a n : Nat) : (s.withMode m).inBytes a n = s.inBytes a n :=
  inBytes_congr (s := s) (t := s.withMode m) rfl a n

@[simp] theorem withMode_fetchBytes : (s.withMode m).fetchBytes = s.fetchBytes :=
  withMode_inBytes s m _ _

@[simp] theorem withMode_raise (k : Err) : (s.raise k).withMode m = (s.withMode m).raise k := rfl
@[simp] theorem withMode_setX (x : Regs) : (s.setX x).withMode m = (s.withMode m).setX x := rfl
@[simp] theorem withMode_setPc (a : Addr) : (s.setPc a).withMode m = (s.withMode m).setPc a := rfl
@[simp] theorem withMode_setPhase (p : Phase) :
    (s.setPhase p).withMode m = (s.withMode m).setPhase p := rfl
@[simp] theorem withMode_advance (n : Nat) : (s.advance n).withMode m = (s.withMode m).advance n := rfl
@[simp] theorem withMode_emit (v : Byte) : (s.emit v).withMode m = (s.withMode m).emit v := rfl
@[simp] theorem withMode_finishOr (p : Phase) :
    (s.finishOr p).withMode m = (s.withMode m).finishOr p := rfl
@[simp] theorem withMode_blockDone : s.blockDone.withMode m = (s.withMode m).blockDone := rfl
@[simp] theorem withMode_refill (w : BitVec 32) :
    (s.refill w).withMode m = (s.withMode m).refill w := rfl
@[simp] theorem withMode_headerLatch (t p : BitVec 4) (n : BitVec 24) :
    (headerLatch s t p n).withMode m = headerLatch (s.withMode m) t p n := rfl

@[simp] theorem withMode_loadTree (n : Nat) :
    (s.loadTree n).withMode m = (s.withMode m).loadTree n := by
  rw [State.loadTree, State.loadTree, withMode_pc, withMode_inBytes]
  rfl

@[simp] theorem withMode_emitAll (vs : List Byte) :
    (s.emitAll vs).withMode m = (s.withMode m).emitAll vs := by
  induction vs generalizing s with
  | nil => rfl
  | cons v vs ih => exact ih (s.emit v)

@[simp] theorem withMode_copyBack (off n : Nat) :
    (s.copyBack off n).withMode m = (s.withMode m).copyBack off n := by
  induction n generalizing s with
  | zero => rfl
  | succ n ih =>
    have hone : (s.copyOne off).withMode m = (s.withMode m).copyOne off := by
      rw [copyOne_eq, copyOne_eq]
      rfl
    rw [State.copyBack, ih, hone]
    rfl

@[simp] theorem withMode_output : (s.withMode m).output = s.output :=
  outBytesFrom_congr (s := s) (t := s.withMode m) rfl 0 _

@[simp] theorem withMode_result : (s.withMode m).result = s.result := by
  simp only [State.result, withMode_phase, withMode_output, withMode_err]

end WithMode

/-! ## Answers under another `MODE` -/

/-- The answer with another `MODE` in its next state, if it has one. -/
def answerWithMode (m : BitVec 4) : Answer → Answer
  | .next t => .next (t.withMode m)
  | .fault f => .fault f
  | .refused r => .refused r

section AnswerWithMode
variable (m : BitVec 4)

@[simp] theorem answerWithMode_next (t : State) :
    answerWithMode m (.next t) = .next (t.withMode m) := rfl
@[simp] theorem answerWithMode_fault (f : Fault) : answerWithMode m (.fault f) = .fault f := rfl

@[simp] theorem answerWithMode_ite {c : Prop} [Decidable c] (a b : Answer) :
    answerWithMode m (if c then a else b) =
      if c then answerWithMode m a else answerWithMode m b := apply_ite _ _ _ _

@[simp] theorem answerWithMode_produce (s t : State) (n : Nat) :
    answerWithMode m (produce s n t) = produce (s.withMode m) n (t.withMode m) :=
  answerWithMode_ite m _ _

@[simp] theorem answerResult_withMode (a : Answer) :
    answerResult (answerWithMode m a) = answerResult a := by
  cases a with
  | next t => exact withMode_result t m
  | fault f => rfl
  | refused r => rfl

end AnswerWithMode

/-! ## The tokens -/

section Tokens
variable (s : State) (m : BitVec 4)

theorem branchStep_withMode (l0 l1 : Bool) (base : BitVec 6) (bit : Bool) :
    branchStep l0 l1 base bit (s.withMode m) = answerWithMode m (branchStep l0 l1 base bit s) := by
  simp [branchStep, leafStep]
  rfl

theorem walkBit_withMode (bit : Bool) :
    walkBit bit (s.withMode m) = answerWithMode m (walkBit bit s) :=
  branchStep_withMode s.takeBit m _ _ _ _

theorem afterRefill_withMode {f : State → Answer}
    (hf : ∀ u : State, f (u.withMode m) = answerWithMode m (f u)) :
    afterRefill f (s.withMode m) = answerWithMode m (afterRefill f s) := by
  simp [afterRefill, ← hf]

theorem wl4TypeStep_withMode (v : BitVec 2) (p : Phase) :
    wl4TypeStep v p (s.withMode m) = answerWithMode m (wl4TypeStep v p s) := by
  simp [wl4TypeStep]

theorem wl4End_withMode (n : Nat) : wl4End n (s.withMode m) = answerWithMode m (wl4End n s) := by
  simp [wl4End]

theorem wl4Rsv_withMode (n : Nat) : wl4Rsv n (s.withMode m) = answerWithMode m (wl4Rsv n s) := by
  simp [wl4Rsv]

theorem wl4Lit_withMode (n k : Nat) (p : Phase) :
    wl4Lit n k p (s.withMode m) = answerWithMode m (wl4Lit n k p s) := by
  simp [wl4Lit]

theorem wl4Rep_withMode (n k : Nat) (p : Phase) :
    wl4Rep n k p (s.withMode m) = answerWithMode m (wl4Rep n k p s) := by
  simp [wl4Rep]

/-- No token but a header reads `MODE`. -/
theorem exec_withMode {be : Bool} {i : Instr} (h : ctxOf be i ≠ .hdr) :
    exec i (s.withMode m) = answerWithMode m (exec i s) := by
  cases i with
  | hdrLz77 | hdrHuf | hdrRle | hdrDiff8 | hdrDiff16 | hdrIllegal => exact absurd rfl h
  | wl4T8 | wl4T16 => exact wl4TypeStep_withMode s m _ _
  | wl4TIllegal => rfl
  | rleLit c => simp [exec, execRleLit]
  | rleRep c => simp [exec, execRleRep]
  | d8W w => simp [exec, execD8W]
  | d16W w => simp [exec, execD16W]
  | lzMask b => simp [exec, execLzMask]
  | lzLit v => simp [exec, execLzLit]
  | lzRef l d =>
    simp [exec, execLzRef]
    rfl
  | hufTSize n => simp [exec, execHufTSize]
  | hufTable => simp [exec, execHufTable]
  | hufBr l0 l1 base =>
    exact afterRefill_withMode (f := fun u => branchStep l0 l1 base u.x.bitWin.msb u.takeBit) s m
      fun u => branchStep_withMode u.takeBit m _ _ _ _
  | hufLeaf v => simp [exec, execHufLeaf, leafStep]
  | hufCheck => simp [exec, execHufCheck]
  | hufWord w => simp [exec, execHufWord, ← walkBit_withMode]
  | hufBit0 | hufBit1 => exact afterRefill_withMode s m fun u => walkBit_withMode u m _
  | w8End | w16End => exact wl4End_withMode s m _
  | w8Rsv | w16Rsv => exact wl4Rsv_withMode s m _
  | w8Lit | w16Lit => exact wl4Lit_withMode s m _ _ _
  | w8Rep | w16Rep => exact wl4Rep_withMode s m _ _ _

end Tokens

/-! ## The step -/

/-- Check 3 of 40_header_dispatch.md R101 passes under `MODE` `m`, for the header that stands in `IN`. -/
def State.AcceptsMode (s : State) (m : BitVec 4) : Prop :=
  m = 0#4 ∨ m = (s.inAt 0).extractLsb' 4 4

theorem nextCtx_hdr {s : State} (h : s.nextCtx = .ctx .hdr) : s.phase = .hdr := by
  unfold State.nextCtx at h
  cases hp : s.phase with
  | hdr => rfl
  | diff | lzBlock | hufBits =>
    simp only [hp] at h
    split_ifs at h <;> cases h
  | _ => simp [hp] at h

section Step
variable {s : State} {m : BitVec 4} (hs : s.AcceptsMode s.mode) (hm : s.AcceptsMode m)
include hs hm

theorem headerOk_withMode (n : BitVec 24) :
    headerOk (s.withMode m) (s.inAt 0) n = headerOk s (s.inAt 0) n := by
  have hacc : headerAccepted (s.withMode m) ((s.inAt 0).extractLsb' 4 4) =
      headerAccepted s ((s.inAt 0).extractLsb' 4 4) := by
    rw [Bool.eq_iff_iff, headerAccepted_iff, headerAccepted_iff]
    exact and_congr_right fun _ => iff_of_true hm hs
  rw [headerOk, headerOk, hacc]

/-- A step under two modes that both accept the header's type. -/
theorem step_withMode : step (s.withMode m) = answerWithMode m (step s) := by
  by_cases hp : s.phase = .hdr
  · rw [step_hdr_checks hp, step_hdr_checks (s := s.withMode m) hp]
    simp [headerOk_withMode hs hm]
  · cases hc : s.nextCtx with
    | nothing =>
      have hb := (nextCtx_nothing_iff s).1 hc
      rw [step_idle hb, step_idle (s := s.withMode m) hb]
      rfl
    | stop f => simp [step_eq, hc]
    | ctx c =>
      have hfetch := withMode_fetchBytes s m
      cases hd : decode c s.fetchBytes with
      | reject r =>
        rw [step_of_reject hc hd, step_of_reject (s := s.withMode m) hc (by rw [hfetch, hd])]
        rfl
      | token i rest =>
        obtain ⟨_, htok, -⟩ := decode_isTokenOf (be := s.params.wl4Ctrl16BE)
          (fun b hb => nextCtx_w16_order (hb ▸ hc)) hd
        have hne : ctxOf s.params.wl4Ctrl16BE i ≠ .hdr := fun he =>
          hp (nextCtx_hdr (by rw [hc, ← htok.ctx, he]))
        rw [step_of_token hc hd, step_of_token (s := s.withMode m) hc (by rw [hfetch, hd]),
          exec_withMode s m hne]

theorem runCall_withMode (n : Nat) : runCall n (s.withMode m) = answerWithMode m (runCall n s) := by
  induction n generalizing s with
  | zero => rfl
  | succ n ih =>
    simp only [runCall, withMode_busy, step_withMode hs hm]
    cases hb : s.busy with
    | false => rfl
    | true =>
      cases ht : step s with
      | fault f => rfl
      | refused r => rfl
      | next t =>
        obtain ⟨hin, hmode, -⟩ := step_keepsHost ht
        have hb0 : t.inAt 0 = s.inAt 0 := by rw [State.inAt, hin]; rfl
        exact ih (by rwa [State.AcceptsMode, hb0, hmode]) (by rwa [State.AcceptsMode, hb0])

end Step

/-! ## The call -/

/-- R92: the type that `headerOf` gives is the high nibble of the byte at address 0. -/
theorem type_of_headerOf {s : State} {t p : BitVec 4} {n : BitVec 24}
    (h : headerOf s.inputBytes = some (t, p, n)) : t = (s.inAt 0).extractLsb' 4 4 := by
  by_cases h4 : 4 ≤ s.inLen.toNat
  · rw [headerOf_inputBytes h4] at h
    cases h
    rfl
  · simp [headerOf, Nat.lt_of_not_le h4] at h

/-- A legal first byte has a known type (R93). -/
theorem knownType_of_legal {b : Byte} (h : legalHeaderByte b = true) :
    KnownType (b.extractLsb' 4 4) := by
  obtain (((h1 | h2) | h3) | rfl) | rfl := by
    simpa only [legalHeaderByte, Bool.or_eq_true, beq_iff_eq] using h
  · exact .inl h1
  · exact .inr (.inl h2)
  · exact .inr (.inr (.inl h3))
  · exact .inr (.inr (.inr rfl))
  · exact .inr (.inr (.inr rfl))

section Call
variable {s : State} {input : List Byte} (h : s.status ≠ .busy)
include h

/-- Two headered modes launch the same call but for `MODE` (R90). -/
theorem start_withMode {m m' : BitVec 4} (hm : startPhase m = some .hdr)
    (hm' : startPhase m' = some .hdr) :
    (s.loaded m input).start.withMode m' = (s.loaded m' input).start := by
  rw [start_of_phase (s := s.loaded m input) h hm, start_of_phase (s := s.loaded m' input) h hm']
  rfl

/-- R102: the call of a known type's header is the same under `AUTO` and under its own mode. -/
theorem decodeCall_auto_known (hlen : input.length < 2 ^ 32) {t p : BitVec 4} {n : BitVec 24}
    (hd : headerOf input = some (t, p, n)) (ht : KnownType t) :
    decodeCall s 0#4 input = decodeCall s t input := by
  have hok := launched_callOk (mode := 0#4) h hlen
  have hacc : (s.loaded 0#4 input).start.AcceptsMode t := .inr (type_of_headerOf (hok.input_eq ▸ hd))
  have hbound : stepBound 0#4 input = stepBound t input := by
    rcases ht with rfl | rfl | rfl | rfl <;> rfl
  simp only [decodeCall, runDecode, beginCall_loaded h hlen, ← hbound]
  rw [← start_withMode h (m := 0#4) rfl (startPhase_headered (.inr ht)),
    runCall_withMode (.inl hok.mode_eq) hacc, answerResult_withMode]

/-- R93: without a header of a known type the header step raises. -/
theorem decodeCall_auto_unknown (hlen : input.length < 2 ^ 32)
    (hd : ∀ t p n, headerOf input = some (t, p, n) → ¬ KnownType t) :
    decodeCall s 0#4 input = some (.error .invalidFormat) := by
  have hok := launched_callOk (mode := 0#4) h hlen
  have hp : (s.loaded 0#4 input).start.phase = .hdr := by
    rw [start_of_phase (s := s.loaded 0#4 input) (p := .hdr) h rfl]
  simp only [decodeCall, runDecode, beginCall_loaded h hlen]
  generalize (s.loaded 0#4 input).start = u at hok hp
  have hno : headerOk u (u.inAt 0) (le24 (u.inAt 1) (u.inAt 2) (u.inAt 3)) = false := by
    refine Bool.eq_false_iff.2 fun hk => ?_
    have h4 := ((headerOk_iff u _ _).1 hk).2.1
    simp only [headerOk, Bool.and_eq_true] at hk
    exact hd _ _ _ (hok.input_eq ▸ headerOf_inputBytes h4) (knownType_of_legal hk.1.1)
  have hstep : step u = .next (u.raise .invalidFormat) := by
    rw [step_hdr_checks hp, hno]
    rfl
  have hb : u.busy = true := by simp [State.busy, State.status, Phase.status, hp]
  rw [runCall_succ _ hb hstep, runCall_idle _ (raise_idle u _)]
  rfl

end Call

/-- Settles O55: after the launch only the header's check reads `MODE` (step_withMode), and `AUTO` and the
header's own type pass it. -/
theorem autoModeDispatchesOnTheType : Obligations.AutoModeDispatchesOnTheType :=
  fun _ _ h hlen => ⟨fun _ _ _ hd ht => decodeCall_auto_known h hlen hd ht,
    fun hd => decodeCall_auto_unknown h hlen hd⟩

end Sys2Proof.Machine
end

section
/-! SUPPORT. The control field of a run token as the flag and the exact values select it (41_rle.md R110,
45_wl4.md R173, R180). -/

namespace Sys2Proof.Machine

/-! ## Control fields -/

theorem decodeRle_flag (c : Byte) : decodeRle c =
    if c.getLsbD 7 = false then .rleLit (c.extractLsb' 0 7) else .rleRep (c.extractLsb' 0 7) := by
  rw [decodeRle, BitVec.msb_eq_getLsbD_last]
  cases c.getLsbD 7 <;> rfl

theorem decodeW8_flag (c : Byte) : decodeW8 c =
    if c = 0x00#8 then .w8End
    else if c = 0x80#8 then .w8Rsv
    else if c.getLsbD 7 = false then .w8Lit (c.extractLsb' 0 7)
    else .w8Rep (c.extractLsb' 0 7) := by
  rw [decodeW8, BitVec.msb_eq_getLsbD_last]
  cases c.getLsbD 7 <;> rfl

theorem decodeW16_flag (c : BitVec 16) : decodeW16 c =
    if c = 0x0000#16 then .w16End
    else if c = 0x8000#16 then .w16Rsv
    else if c.getLsbD 15 = false then .w16Lit (c.extractLsb' 0 15)
    else .w16Rep (c.extractLsb' 0 15) := by
  rw [decodeW16, BitVec.msb_eq_getLsbD_last]
  cases c.getLsbD 15 <;> rfl

theorem exec_ite {p : Prop} [Decidable p] (i j : Instr) (s : State) :
    exec (if p then i else j) s = if p then exec i s else exec j s :=
  apply_ite (exec · s) p i j

/-- Settles O7: each phase's step equation, with the decoder's token written by the flag. -/
theorem controlFieldsSelectTheRunToken : Obligations.ControlFieldsSelectTheRunToken := by
  refine ⟨fun s hp => ?_, fun s hp => ?_, fun s hp => ?_⟩
  · rw [step_rle hp, decodeRle_flag, exec_ite]
    exact ⟨fun hcut => if_neg (not_has hcut), fun hin => if_pos ((has_iff s 1).2 hin)⟩
  · rw [step_w8 hp, decodeW8_flag, exec_ite, exec_ite, exec_ite]
    exact ⟨fun hcut => if_neg (not_has hcut), fun hin => if_pos ((has_iff s 1).2 hin)⟩
  · rw [step_w16 hp, decodeW16_flag, exec_ite, exec_ite, exec_ite]
    exact ⟨fun hcut => if_neg (not_has hcut), fun hin => if_pos ((has_iff s 2).2 hin)⟩

end Sys2Proof.Machine
end

section
/-! SUPPORT. The two run tokens of 41_rle.md as one: the checks of R111 in order, then the run's bytes. -/

namespace Sys2Proof.Machine

/-- A run of the bytes `vs` by a token of `taken` bytes of `IN`, with the registers `x` (R111, R112). -/
def rleRun (x : Regs) (taken : Nat) (vs : List Byte) (s : State) : Answer :=
  if !s.has 1 then .next (s.raise .truncated)
  else if s.x.size.toNat < s.x.outLen.toNat + vs.length then .next (s.raise .outOfBounds)
  else if !s.has taken then .next (s.raise .truncated)
  else produce s vs.length ((((s.setX x).advance taken).emitAll vs).finishOr .rle)

theorem exec_rleLit (c : BitVec 7) (s : State) :
    exec (.rleLit c) s = rleRun { s.x with runLen := BitVec.ofNat 15 (rleLitLen c) }
      (1 + rleLitLen c) (s.inBytes (s.pc.toNat + 1) (rleLitLen c)) s := by
  simp only [exec, execRleLit, rleRun, inBytes_length]

theorem exec_rleRep (c : BitVec 7) (s : State) :
    exec (.rleRep c) s =
      rleRun { s.x with runLen := BitVec.ofNat 15 (rleRepLen c),
                        runVal := s.inAt (s.pc.toNat + 1) }
        2 (List.replicate (rleRepLen c) (s.inAt (s.pc.toNat + 1))) s := by
  simp only [exec, execRleRep, rleRun, List.length_replicate]

section Run
variable {s : State} {x : Regs} {taken : Nat} {vs : List Byte}

theorem rleRun_noControl (h : s.inLen.toNat < s.pc.toNat + 1) :
    rleRun x taken vs s = .next (s.raise .truncated) := by
  simp [rleRun, (has_false_iff s 1).2 h]

/-- The length is known from the control byte, so the size is tested before the payload is fetched. -/
theorem rleRun_tooLong (h1 : s.pc.toNat + 1 ≤ s.inLen.toNat)
    (hsz : s.x.size.toNat < s.x.outLen.toNat + vs.length) :
    rleRun x taken vs s = .next (s.raise .outOfBounds) := by
  simp [rleRun, (has_iff s 1).2 h1, hsz]

theorem rleRun_cutPayload (h : s.inLen.toNat < s.pc.toNat + taken)
    (hsz : s.x.outLen.toNat + vs.length ≤ s.x.size.toNat) :
    rleRun x taken vs s = .next (s.raise .truncated) := by
  simp [rleRun, (has_false_iff s taken).2 h, Nat.not_lt.2 hsz]

theorem rleRun_completes (hx : x.outLen = s.x.outLen) (h1 : 1 ≤ taken)
    (hin : s.pc.toNat + taken ≤ s.inLen.toNat)
    (hsz : s.x.outLen.toNat + vs.length ≤ s.x.size.toNat)
    (hcap : s.x.size.toNat ≤ s.params.outCap.toNat) :
    ∃ t, rleRun x taken vs s = .next t ∧ Produced s t taken vs x ∧ t.phase = phaseAfter t .rle := by
  have hfit : s.x.outLen.toNat + vs.length ≤ s.params.outCap.toNat := hsz.trans hcap
  refine ⟨_, ?_, produced_finishOr x taken vs .rle hx ((has_iff s taken).2 hin) (outLen_add_lt hfit)⟩
  simp [rleRun, (has_iff s 1).2 (by omega), (has_iff s taken).2 hin, Nat.not_lt.2 hsz,
    produce_of_le hfit]

end Run

theorem toNat_lt_iff_flag (b : Byte) : b.toNat < 128 ↔ b.getLsbD 7 = false := by
  rw [← BitVec.msb_eq_getLsbD_last, BitVec.msb_eq_false_iff_two_mul_lt]
  omega

theorem decode_rle_one (b : Byte) : decode .rle [b] = .token (decodeRle b) [] := by
  simp only [decode, decodeOne]

/-- Settles O20: RLE.LIT is a run of its payload (exec_rleLit). -/
theorem rleLiteralRun : Obligations.RleLiteralRun := by
  refine ⟨fun b hb => ?_, fun c s => ?_⟩
  · have hflag := (toNat_lt_iff_flag b).1 (by omega)
    rw [decode_rle_one, decodeRle_flag, if_pos hflag, BitVec.setWidth_eq_extractLsb' (by decide)]
  · have hlen : (s.inBytes (s.pc.toNat + 1) (rleLitLen c)).length = c.toNat + 1 := inBytes_length ..
    rw [exec_rleLit]
    refine ⟨fun hin hsz hcap => ?_, rleRun_noControl, fun h1 hsz => ?_, fun hcut hsz => ?_⟩
    · exact rleRun_completes rfl (by omega) (by rw [rleLitLen]; omega) (by rwa [hlen]) hcap
    · exact rleRun_tooLong h1 (by rwa [hlen])
    · exact rleRun_cutPayload (by rw [rleLitLen]; omega) (by rwa [hlen])

/-- Settles O21: RLE.REP is a run of copies of its payload byte (exec_rleRep). -/
theorem rleRepeatRun : Obligations.RleRepeatRun := by
  refine ⟨fun b hb => ?_, fun c s => ?_⟩
  · have hflag := (toNat_lt_iff_flag b).not.1 (by omega)
    rw [decode_rle_one, decodeRle_flag, if_neg hflag, BitVec.setWidth_eq_extractLsb' (by decide)]
  · have hlen : (List.replicate (rleRepLen c) (s.inAt (s.pc.toNat + 1))).length = c.toNat + 3 :=
      List.length_replicate
    rw [exec_rleRep]
    refine ⟨fun hin hsz hcap => ?_, rleRun_noControl, fun h1 hsz => ?_, fun hcut hsz => ?_⟩
    · exact rleRun_completes rfl (by omega) hin (by rwa [hlen]) hcap
    · exact rleRun_tooLong h1 (by rwa [hlen])
    · exact rleRun_cutPayload hcut (by rwa [hlen])

end Sys2Proof.Machine
end

section
/-! SUPPORT. A headered call computes a function of its input (40_header_dispatch.md R90 to R101): the result
that is still owed is the same in every state of the call. -/

namespace Sys2Proof.Machine

/-! ## What every state of a call keeps -/

section Keeps
variable {mode : BitVec 4} {input : List Byte} {P : State → Prop}
  (hstep : ∀ u v, CallOk mode input u → u.busy = true → P u → step u = .next v → P v)
include hstep

theorem runCall_keeps (n : Nat) {s t : State} (hok : CallOk mode input s) (hs : P s)
    (h : runCall n s = .next t) : P t := by
  induction n generalizing s with
  | zero => cases h; exact hs
  | succ n ih =>
    cases hb : s.busy with
    | false => rw [runCall_idle _ hb] at h; cases h; exact hs
    | true =>
      obtain ⟨u, hu, hok', -⟩ := hok.step hb
      rw [runCall_succ n hb hu] at h
      exact ih hok' (hstep s u hok hb hs hu) h

/-- A call whose states all keep `P`, which fixes the result of a state that is not `BUSY`. -/
theorem decodeCall_of_keeps {s : State} {r : DecodeResult} (h : s.status ≠ .busy)
    (hlen : input.length < 2 ^ 32) (hstart : P (s.loaded mode input).start)
    (hend : ∀ t, t.busy = false → P t → t.result = some r) :
    decodeCall s mode input = some r := by
  obtain ⟨t, ht, -, hb⟩ := runDecode_ends (mode := mode) h hlen
  have hrun := ht
  rw [runDecode, beginCall_loaded h hlen] at hrun
  rw [decodeCall, ht]
  exact hend t hb (runCall_keeps hstep _ (launched_callOk h hlen) hstart hrun)

end Keeps

/-! ## The result still owed -/

/-- The size the header in `IN` declares fits `OUT_CAP` (D18). -/
def State.DeclaredFits (s : State) : Prop :=
  ∀ t p n, headerOf s.inputBytes = some (t, p, n) → n.toNat ≤ s.params.outCap.toNat

/-- From `s` on, the call ends with `r`: before the header it is `f` of the whole input, in the body what
`Body` says, and once the call is over it is the result. -/
def CallRest (f : List Byte → DecodeResult) (Body : DecodeResult → State → Prop) (r : DecodeResult)
    (s : State) : Prop :=
  if s.phase = .hdr then f s.inputBytes = r ∧ s.DeclaredFits
  else if s.busy then Body r s
  else s.result = some r

section Rest
variable {f : List Byte → DecodeResult} {Body : DecodeResult → State → Prop} {r : DecodeResult}
  {s : State}

theorem callRest_hdr (hp : s.phase = .hdr) :
    CallRest f Body r s ↔ f s.inputBytes = r ∧ s.DeclaredFits := by rw [CallRest, if_pos hp]

theorem callRest_body (hp : s.phase ≠ .hdr) (hb : s.busy = true) :
    CallRest f Body r s ↔ Body r s := by rw [CallRest, if_neg hp, if_pos hb]

theorem callRest_over (hb : s.busy = false) : CallRest f Body r s ↔ s.result = some r := by
  have hp : s.phase ≠ .hdr := fun hp => by simp [State.busy, State.status, Phase.status, hp] at hb
  rw [CallRest, if_neg hp, hb]
  rfl

theorem callRest_raise {k : Err} (hr : .error k = r) : CallRest f Body r (s.raise k) := by
  rw [callRest_over (raise_idle s k), ← hr]
  rfl

theorem callRest_done (hp : s.phase = .done) (hr : .ok s.output = r) : CallRest f Body r s := by
  rw [callRest_over (busy_of_done hp), State.result, hp, ← hr]

/-- A headered call computes `f`, when the header's step turns `f` of the input into what the body owes,
and every step of the body keeps that. -/
theorem decodeCall_computes {mode : BitVec 4} {input : List Byte} (h : s.status ≠ .busy)
    (hlen : input.length < 2 ^ 32) (hm : startPhase mode = some .hdr)
    (hfit : ∀ t p n, headerOf input = some (t, p, n) → n.toNat ≤ s.params.outCap.toNat)
    (hopen : ∀ u v, CallOk mode input u → u.phase = .hdr → u.DeclaredFits → step u = .next v →
      CallRest f Body (f u.inputBytes) v)
    (hbody : ∀ r u v, CallOk mode input u → Body r u → step u = .next v → CallRest f Body r v) :
    decodeCall s mode input = some (f input) := by
  refine decodeCall_of_keeps (P := CallRest f Body (f input)) (fun u v hok hb hrest hv => ?_) h hlen ?_
    fun t hb ht => (callRest_over hb).1 ht
  · by_cases hp : u.phase = .hdr
    · obtain ⟨hf, hdecl⟩ := (callRest_hdr hp).1 hrest
      exact hf ▸ hopen u v hok hp hdecl hv
    · exact hbody _ u v hok ((callRest_body hp hb).1 hrest) hv
  · have hin := (launched_callOk (mode := mode) h hlen).input_eq
    obtain ⟨-, -, -, hparams⟩ := start_keepsHost (s.loaded mode input)
    refine (callRest_hdr ?_).2 ⟨congrArg f hin, fun t p n hd => ?_⟩
    · rw [start_of_phase (s := s.loaded mode input) h hm]
    · rw [hparams]
      exact hfit t p n (hin ▸ hd)

end Rest

/-! ## The header step under one format's `MODE` -/

/-- R93, R101: under its own mode a header of a format with one header token passes checks 1 to 5. -/
theorem headerOk_of_type {s : State} {ty p : BitVec 4} {n : BitVec 24}
    (hd : headerOf s.inputBytes = some (ty, p, n)) (hty : ty = 1#4 ∨ ty = 2#4 ∨ ty = 3#4)
    (hm : s.mode = ty) : headerOk s (s.inAt 0) n = true := by
  have h4 : 4 ≤ s.inLen.toNat := by
    by_contra h4
    simp [headerOf, Nat.lt_of_not_le h4] at hd
  have hnib := typeNibble_toNat (s.inAt 0)
  rw [← type_of_headerOf hd, ← hm] at hnib
  have hlegal : s.mode.toNat = 1 ∨ s.mode.toNat = 2 ∨ s.mode.toNat = 3 := by
    rw [hm]
    rcases hty with rfl | rfl | rfl <;> decide
  exact (headerOk_iff s _ _).2 ⟨by omega, h4, .inr hnib, fun h82 => by omega⟩

theorem phaseInv_hdr {s : State} (hp : s.phase = .hdr) :
    PhaseInv s ↔ s.pc = 0#32 ∧ s.x = Regs.zero ∧ startPhase s.mode = some .hdr := by rw [PhaseInv, hp]

section HeaderStep
variable {s : State} (hp : s.phase = .hdr)
include hp

/-- R93: under the mode of one format, a header of another type or of too few bytes raises. -/
theorem step_hdr_otherType (hm : s.mode ≠ 0#4)
    (hd : ∀ p n, headerOf s.inputBytes ≠ some (s.mode, p, n)) :
    step s = .next (s.raise .invalidFormat) := by
  have hno : headerOk s (s.inAt 0) (le24 (s.inAt 1) (s.inAt 2) (s.inAt 3)) = false := by
    refine Bool.eq_false_iff.2 fun hk => ?_
    simp only [headerOk, Bool.and_eq_true, headerAccepted_iff] at hk
    obtain ⟨⟨-, h4, hty⟩, -⟩ := hk
    exact hd _ _ (hty.resolve_left hm ▸ headerOf_inputBytes h4)
  rw [step_hdr_checks hp, hno]
  rfl

/-- R92: a header that passes the checks is latched. -/
theorem step_hdr_latches {ty p : BitVec 4} {n : BitVec 24}
    (hd : headerOf s.inputBytes = some (ty, p, n)) (hok : headerOk s (s.inAt 0) n = true)
    (hfit : s.DeclaredFits) :
    step s = .next ((headerLatch s ty p n).setPhase (openedPhase s (s.inAt 0) n)) := by
  have h4 := ((headerOk_iff s _ _).1 hok).2.1
  have hcap : fitsCap s n = true := (fitsCap_iff s n).2 (hfit _ _ _ hd)
  rw [headerOf_inputBytes h4] at hd
  cases hd
  rw [step_hdr_checks hp, hok, hcap]
  rfl

end HeaderStep

/-! ## The output and the input as lists -/

theorem output_length (s : State) : s.output.length = s.x.outLen.toNat := outBytesFrom_length s 0 _

/-- 20_memory.md R49: what a producing token appends, it appends to the output of the call. -/
theorem Appends.output {s t : State} {vs : List Byte} (h : Appends s t vs) :
    t.output = s.output ++ vs := by
  have hread : ∀ (u : State) i, i < u.x.outLen.toNat → u.output[i]? = some (u.outAt i) := fun u i hi => by
    rw [State.output, outBytesFrom_getElem? u 0 _ i hi, Nat.zero_add]
  have htlen := h.outLen
  refine List.ext_getElem? fun i => ?_
  by_cases hold : i < s.x.outLen.toNat
  · rw [List.getElem?_append_left (by rwa [output_length]), hread t i (by omega), hread s i hold,
      h.old i (.inl hold)]
  · rw [List.getElem?_append_right (by rw [output_length]; omega), output_length]
    by_cases hnew : i - s.x.outLen.toNat < vs.length
    · rw [hread t i (by omega), List.getElem?_eq_getElem hnew, ← h.new _ hnew,
        Nat.add_sub_cancel' (Nat.le_of_not_lt hold)]
    · rw [List.getElem?_eq_none (by rw [output_length]; omega), List.getElem?_eq_none (by omega)]

theorem sliceOf_inputBytes {s : State} {a n : Nat} (h : a + n ≤ s.inLen.toNat) :
    sliceOf s.inputBytes a n = s.inBytes a n := by
  obtain ⟨m, hm⟩ := Nat.exists_eq_add_of_le h
  rw [sliceOf, State.inputBytes, hm, Nat.add_assoc, inBytes_add, inBytes_add, Nat.zero_add,
    List.drop_left' (inBytes_length ..), List.take_left' (inBytes_length ..)]

end Sys2Proof.Machine
end

section
/-! SUPPORT. An RLE call and the loop of 41_rle.md R114, turn by turn. -/

namespace Sys2Proof.Machine

/-! ## The loop -/

/-- At the declared size the loop answers its output. -/
theorem rleLoop_full (b : List Byte) {size : Nat} (n pos : Nat) {out : List Byte}
    (h : size ≤ out.length) : rleLoop b size n pos out = .ok out := by
  cases n with
  | zero => rfl
  | succ n => rw [rleLoop, if_pos h]

theorem rleLoop_noControl {b : List Byte} {size : Nat} (n : Nat) {pos : Nat} {out : List Byte}
    (hlt : out.length < size) (hpos : b.length ≤ pos) :
    rleLoop b size (n + 1) pos out = .error .truncated := by
  rw [rleLoop, if_neg (Nat.not_le.2 hlt), if_pos hpos]

/-- The rest of a turn once the control byte has chosen a run: `taken` bytes that give the bytes `vs`. -/
def rleTurn (b : List Byte) (size n pos : Nat) (out : List Byte) (taken : Nat) (vs : List Byte) :
    DecodeResult :=
  if size < out.length + vs.length then .error .outOfBounds
  else if b.length < pos + taken then .error .truncated
  else rleLoop b size n (pos + taken) (out ++ vs)

theorem lowBits_toNat (c : Byte) : (c.extractLsb' 0 7).toNat = c.toNat % 128 := rfl

section Turn
variable {s : State} {size n pos : Nat} {out : List Byte} (hlt : out.length < size)
  (hpos : pos < s.inLen.toNat)
include hlt hpos

theorem rleLoop_lit (hc : (s.inAt pos).getLsbD 7 = false) :
    rleLoop s.inputBytes size (n + 1) pos out =
      rleTurn s.inputBytes size n pos out (1 + rleLitLen ((s.inAt pos).extractLsb' 0 7))
        (s.inBytes (pos + 1) (rleLitLen ((s.inAt pos).extractLsb' 0 7))) := by
  have hlit := (toNat_lt_iff_flag _).2 hc
  have hk : rleLitLen ((s.inAt pos).extractLsb' 0 7) = (s.inAt pos).toNat + 1 := by
    rw [rleLitLen, lowBits_toNat, Nat.mod_eq_of_lt hlit]
  rw [rleLoop, if_neg (Nat.not_le.2 hlt), if_neg (by simpa using hpos), byteOf_inputBytes hpos, hk,
    rleTurn, inBytes_length, ← Nat.add_assoc pos 1]
  refine (if_pos hlit).trans (if_congr Iff.rfl rfl ?_)
  split
  · rfl
  next hin => rw [sliceOf_inputBytes (by simpa using hin)]

theorem rleLoop_rep (hc : (s.inAt pos).getLsbD 7 ≠ false) :
    rleLoop s.inputBytes size (n + 1) pos out =
      rleTurn s.inputBytes size n pos out 2
        (List.replicate (rleRepLen ((s.inAt pos).extractLsb' 0 7)) (s.inAt (pos + 1))) := by
  have hrep := (toNat_lt_iff_flag _).not.2 hc
  have hk : rleRepLen ((s.inAt pos).extractLsb' 0 7) = (s.inAt pos).toNat - 128 + 3 := by
    rw [rleRepLen, lowBits_toNat]
    omega
  rw [rleLoop, if_neg (Nat.not_le.2 hlt), if_neg (by simpa using hpos), byteOf_inputBytes hpos, hk,
    rleTurn, List.length_replicate]
  refine (if_neg hrep).trans (if_congr Iff.rfl rfl (ite_congr ?_ (fun _ => rfl) fun hin => ?_))
  · exact propext Nat.lt_succ_iff.symm
  · rw [byteOf_inputBytes (by rw [inputBytes_length] at hin; omega)]

end Turn

/-! ## The call -/

/-- In the body of an RLE call the result owed is that of the loop, with turns enough for the bytes owed. -/
def RleBody (r : DecodeResult) (s : State) : Prop :=
  s.phase = .rle ∧
    ∃ n, s.owed ≤ n ∧ rleLoop s.inputBytes s.x.size.toNat n s.pc.toNat s.output = r

/-- What an RLE call owes. -/
abbrev RleRest (r : DecodeResult) (s : State) : Prop := CallRest rleDecompress RleBody r s

/-- A state that completes at the declared size and else goes on in the body. -/
theorem rleRest_of_loop {t : State} {n : Nat} {r : DecodeResult} (hp : t.phase = phaseAfter t .rle)
    (hn : t.owed ≤ n)
    (hr : rleLoop t.inputBytes t.x.size.toNat n t.pc.toNat t.output = r) : RleRest r t := by
  by_cases hl : t.x.outLen.toNat = t.x.size.toNat
  · rw [phaseAfter, if_pos hl] at hp
    refine callRest_done hp ?_
    rw [← hr, rleLoop_full _ _ _ (by rw [output_length, hl])]
  · rw [phaseAfter, if_neg hl] at hp
    exact (callRest_body (by simp [hp]) (by simp [State.busy, State.status, Phase.status, hp])).2
      ⟨hp, n, hn, hr⟩

/-- A run of the machine is the rest of a turn of the loop. -/
theorem rleRun_rleRest {s t : State} {x : Regs} {taken n : Nat} {vs : List Byte} {r : DecodeResult}
    (h : rleRun x taken vs s = .next t) (hk : KeepsHost s t) (h1 : s.has 1 = true)
    (hxl : x.outLen = s.x.outLen) (hxs : x.size = s.x.size) (htaken : 1 ≤ taken) (hvs : 1 ≤ vs.length)
    (hcap : s.x.size.toNat ≤ s.params.outCap.toNat) (hn : s.owed ≤ n + 1)
    (hr : rleTurn s.inputBytes s.x.size.toNat n s.pc.toNat s.output taken vs = r) : RleRest r t := by
  rw [rleTurn, output_length, inputBytes_length] at hr
  by_cases hsz : s.x.size.toNat < s.x.outLen.toNat + vs.length
  · rw [if_pos hsz] at hr
    rw [rleRun_tooLong ((has_iff s 1).1 h1) hsz] at h
    cases h
    exact callRest_raise hr
  rw [if_neg hsz] at hr
  by_cases hin : s.inLen.toNat < s.pc.toNat + taken
  · rw [if_pos hin] at hr
    rw [rleRun_cutPayload hin (Nat.le_of_not_lt hsz)] at h
    cases h
    exact callRest_raise hr
  rw [if_neg hin] at hr
  obtain ⟨u, hu, hprod, hphase⟩ := rleRun_completes hxl htaken (Nat.le_of_not_lt hin)
    (Nat.le_of_not_lt hsz) hcap
  rw [hu] at h
  cases h
  have hsize : t.x.size = s.x.size := by rw [hprod.regs]; exact hxs
  have hlen := hprod.out.outLen
  refine rleRest_of_loop (n := n) hphase ?_ ?_
  · rw [State.owed, hsize, hlen]
    rw [State.owed] at hn
    omega
  · rw [hk.inputBytes, hsize, hprod.pc, hprod.out.output, hr]

/-- 41_rle.md R110 to R112: a step of the body is a turn of the loop. -/
theorem step_rle_rleRest {s t : State} {r : DecodeResult} (hi : PhaseInv s) (hb : RleBody r s)
    (h : step s = .next t) : RleRest r t := by
  obtain ⟨hp, n, hn, hr⟩ := hb
  obtain ⟨hh, hlt⟩ := (phaseInv_rle hp).1 hi
  obtain ⟨n, rfl⟩ : ∃ m, n = m + 1 := Nat.exists_eq_add_of_le' ((owed_pos hlt).trans_le hn)
  have hout : s.output.length < s.x.size.toNat := by rwa [output_length]
  have hk := step_keepsHost h
  rw [step_rle hp] at h
  by_cases h1 : s.has 1 = true
  · rw [if_pos h1, decodeRle_flag, exec_ite] at h
    have hpos : s.pc.toNat < s.inLen.toNat := (has_iff s 1).1 h1
    by_cases hc : (s.inAt s.pc.toNat).getLsbD 7 = false
    · rw [if_pos hc, exec_rleLit] at h
      rw [rleLoop_lit hout hpos hc] at hr
      exact rleRun_rleRest h hk h1 rfl rfl (by omega) (by simp [rleLitLen]) hh.fits hn hr
    · rw [if_neg hc, exec_rleRep] at h
      rw [rleLoop_rep hout hpos hc] at hr
      exact rleRun_rleRest h hk h1 rfl rfl (by omega) (by simp [rleRepLen]) hh.fits hn hr
  · rw [if_neg h1] at h
    cases h
    rw [has_iff, Nat.not_le] at h1
    exact callRest_raise (by rw [← hr, rleLoop_noControl n hout (by simpa using Nat.le_of_lt_succ h1)])

/-- R96: in the RLE mode a header with the RLE type opens the loop at byte 4, and any other raises. -/
theorem step_hdr_rleRest {s t : State} (hi : PhaseInv s) (hp : s.phase = .hdr) (hm : s.mode = 3#4)
    (hfit : s.DeclaredFits) (h : step s = .next t) : RleRest (rleDecompress s.inputBytes) t := by
  by_cases hd : ∃ p n, headerOf s.inputBytes = some (3#4, p, n)
  · obtain ⟨p, n, hd⟩ := hd
    obtain ⟨-, hx, -⟩ := (phaseInv_hdr hp).1 hi
    have hin := (step_keepsHost h).inputBytes
    rw [step_hdr_latches hp hd (headerOk_of_type hd (.inr (.inr rfl)) hm) hfit] at h
    cases h
    refine rleRest_of_loop (n := n.toNat) ?_ (by rw [latch_owed hx]) ?_
    · rw [openedPhase, ← type_of_headerOf hd]
      rfl
    · rw [hin, rleDecompress, hd, State.output, setPhase_x, headerLatch_x, hx]
      rfl
  · have hd' : ∀ p n, headerOf s.inputBytes ≠ some (3#4, p, n) := fun p n he => hd ⟨p, n, he⟩
    rw [step_hdr_otherType hp (by rw [hm]; decide) (by rwa [hm])] at h
    cases h
    refine callRest_raise ?_
    unfold rleDecompress
    split
    · rfl
    next hsome => rw [if_neg fun he => hd' _ _ (he ▸ hsome)]

/-- Settles O50: the header opens the loop and every step of the body is one turn of it. -/
theorem rleCallComputesItsFunction : Obligations.RleCallComputesItsFunction :=
  fun _ _ h hlen hfit => decodeCall_computes (Body := RleBody) h hlen rfl hfit
    (fun _ _ hok hp hdecl hv => step_hdr_rleRest hok.phase hp hok.mode_eq hdecl hv)
    fun _ _ _ hok hb hv => step_rle_rleRest hok.phase hb hv

end Sys2Proof.Machine
end

section
/-! SUPPORT. The two word tokens of 42_diff.md as one: the word's bytes are fetched, and the bytes of the
accumulator's next value are emitted. -/

namespace Sys2Proof.Machine

theorem byteAt_zero (v : BitVec 16) : byteAt v 0 = v.setWidth 8 :=
  (BitVec.setWidth_eq_extractLsb' (by decide)).symm

theorem byteAt_eq_ofNat {w : Nat} (v : BitVec w) (i : Nat) :
    byteAt v i = BitVec.ofNat 8 (v.toNat / 2 ^ (8 * i)) := by
  refine BitVec.eq_of_toNat_eq ?_
  rw [byteAt, BitVec.extractLsb'_toNat, Nat.shiftRight_eq_div_pow, BitVec.toNat_ofNat]

theorem bytes16_eq_ofNat (v : BitVec 16) :
    bytes16 v = [BitVec.ofNat 8 v.toNat, BitVec.ofNat 8 (v.toNat / 256)] := by
  simp [bytes16, byteAt_eq_ofNat]

theorem le16_toNat (b0 b1 : Byte) : (le16 b0 b1).toNat = b0.toNat + 256 * b1.toNat := by
  rw [le16, BitVec.toNat_append, ← Nat.shiftLeft_add_eq_or_of_lt b0.isLt, Nat.shiftLeft_eq]
  omega

/-! ## The accumulator -/

theorem accNext8_toNat (x : Regs) (w : Byte) : (accNext8 x w).toNat =
    if x.outLen.toNat = 0 then w.toNat else (x.acc.toNat + w.toNat) % 256 := by
  have h0 : x.outLen = 0#24 ↔ x.outLen.toNat = 0 := BitVec.toNat_inj.symm
  rw [accNext8, apply_ite BitVec.toNat, if_congr h0 rfl rfl]
  have hw := w.isLt
  split
  · rw [BitVec.toNat_setWidth, Nat.mod_eq_of_lt (by omega)]
  · rw [BitVec.toNat_setWidth, BitVec.toNat_add, BitVec.toNat_setWidth]
    omega

theorem accNext16_toNat (x : Regs) (w : BitVec 16) : (accNext16 x w).toNat =
    if x.outLen.toNat = 0 then w.toNat else (x.acc.toNat + w.toNat) % 65536 := by
  have h0 : x.outLen = 0#24 ↔ x.outLen.toNat = 0 := BitVec.toNat_inj.symm
  rw [accNext16, apply_ite BitVec.toNat, if_congr h0 rfl (BitVec.toNat_add ..)]

/-! ## The token -/

/-- A word of as many bytes of `IN` as of output: `acc` is the accumulator's next value and `vs` its bytes
(R121, R122). -/
def diffWord (acc : BitVec 16) (vs : List Byte) (s : State) : Answer :=
  if !s.has vs.length then .next (s.raise .truncated)
  else produce s vs.length
    ((((s.setX { s.x with acc := acc }).advance vs.length).emitAll vs).finishOr .diff)

theorem exec_d8W (w : Byte) (s : State) :
    exec (.d8W w) s = diffWord (accNext8 s.x w) [byteAt (accNext8 s.x w) 0] s := rfl

theorem exec_d16W (w : BitVec 16) (s : State) :
    exec (.d16W w) s = diffWord (accNext16 s.x w) (bytes16 (accNext16 s.x w)) s := rfl

section Word
variable {s : State} {acc : BitVec 16} {vs : List Byte}

theorem diffWord_cut (h : s.inLen.toNat < s.pc.toNat + vs.length) :
    diffWord acc vs s = .next (s.raise .truncated) := by
  simp [diffWord, (has_false_iff s _).2 h]

/-- The step finds a cut word with the same error as the token's own check (R121, R122). -/
theorem eq_diffWord_of_ite {a : Answer}
    (h : a = if s.has vs.length then diffWord acc vs s else .next (s.raise .truncated)) :
    a = diffWord acc vs s :=
  h.trans (ite_eq_left_iff.2 fun hcut => by simp [diffWord, hcut])

theorem diffWord_completes (hin : s.pc.toNat + vs.length ≤ s.inLen.toNat)
    (hcap : s.x.outLen.toNat + vs.length ≤ s.params.outCap.toNat) :
    ∃ t, diffWord acc vs s = .next t ∧ Produced s t vs.length vs { s.x with acc := acc } ∧
      t.phase = phaseAfter t .diff := by
  have hn := (has_iff s vs.length).2 hin
  refine ⟨_, ?_, produced_finishOr _ vs.length vs .diff rfl hn (outLen_add_lt hcap)⟩
  simp [diffWord, hn, produce_of_le hcap]

end Word

/-- Settles O22: D8.W is a word of one byte (exec_d8W), its sum read as a number. -/
theorem delta8Word : Obligations.Delta8Word := by
  refine ⟨fun b => by simp only [decode, decodeOne], fun w s => ?_⟩
  rw [exec_d8W]
  refine ⟨fun hin hcap => ?_, fun hcut => diffWord_cut hcut⟩
  intro acc
  have hacc : acc = (accNext8 s.x w).toNat := (accNext8_toNat s.x w).symm
  rw [hacc, BitVec.ofNat_toNat, BitVec.ofNat_toNat, BitVec.setWidth_eq, ← byteAt_zero]
  exact diffWord_completes hin hcap

/-- Settles O23: D16.W is a word of two bytes (exec_d16W), its sum read as a number. -/
theorem delta16Word : Obligations.Delta16Word := by
  refine ⟨fun b0 b1 => ⟨le16 b0 b1, by simp only [decode, decodeTwo], le16_toNat b0 b1⟩,
    fun w s => ?_⟩
  rw [exec_d16W]
  refine ⟨fun hin hcap => ?_, fun hcut => diffWord_cut hcut⟩
  intro acc
  have hacc : acc = (accNext16 s.x w).toNat := (accNext16_toNat s.x w).symm
  rw [hacc, ← bytes16_eq_ofNat, BitVec.ofNat_toNat, BitVec.setWidth_eq]
  exact diffWord_completes hin hcap

end Sys2Proof.Machine
end

section
/-! SUPPORT. A DiffFilter call and the sums of 42_diff.md R125, word by word (R124). -/

namespace Sys2Proof.Machine

/-! ## The sums still owed -/

/-- The previous output word; before the first word 0, which leaves that word unchanged (R120). -/
def Regs.prevWord (x : Regs) (w : Nat) : BitVec w :=
  if x.outLen = 0#24 then 0#w else x.acc.setWidth w

/-- The output bytes that the body bytes `bs` still give (R125). -/
def Regs.sums (x : Regs) (bs : List Byte) : List Byte :=
  if x.param = 1#4 then prefixSumFrom (x.prevWord 8) bs
  else bytesOfWords (prefixSumFrom (x.prevWord 16) (wordsOf bs))

theorem prefixSum_eq {w : Nat} (vs : List (BitVec w)) : prefixSum vs = prefixSumFrom 0#w vs := by
  cases vs with
  | nil => rfl
  | cons v vs => simp [prefixSum, prefixSumFrom]

theorem accNext8_eq (x : Regs) (w : Byte) : accNext8 x w = (x.prevWord 8 + w).setWidth 16 := by
  unfold accNext8 Regs.prevWord
  split <;> simp

theorem accNext16_eq (x : Regs) (w : BitVec 16) : accNext16 x w = x.prevWord 16 + w := by
  unfold accNext16 Regs.prevWord
  split <;> simp

theorem sums_nil (x : Regs) : x.sums [] = [] := by
  unfold Regs.sums
  split <;> rfl

/-- Before the first word the sums are those of `diff_decompress`. -/
theorem sums_first {x : Regs} (h : x.outLen = 0#24) (bs : List Byte) : x.sums bs =
    if x.param = 1#4 then prefixSum bs else bytesOfWords (prefixSum (wordsOf bs)) := by
  simp only [Regs.sums, Regs.prevWord, if_pos h, prefixSum_eq]

/-- R121: an 8-bit word's output byte, then the sums from its accumulator. -/
theorem sums_word8 {x : Regs} (h1 : x.param = 1#4) {l : BitVec 24} (hl : l ≠ 0#24) (w : Byte)
    (bs : List Byte) : x.sums ([w] ++ bs) =
      [byteAt (accNext8 x w) 0] ++ { x with acc := accNext8 x w, outLen := l }.sums bs := by
  have hbyte : byteAt (accNext8 x w) 0 = x.prevWord 8 + w := by
    simp [byteAt_zero, accNext8_eq]
  have hprev : { x with acc := accNext8 x w, outLen := l }.prevWord 8 = x.prevWord 8 + w := by
    simp [Regs.prevWord, hl, accNext8_eq]
  rw [Regs.sums, Regs.sums, if_pos h1, if_pos h1, hbyte, hprev]
  rfl

/-- R122: a 16-bit word's output bytes, then the sums from its accumulator. -/
theorem sums_word16 {x : Regs} (h2 : x.param = 2#4) {l : BitVec 24} (hl : l ≠ 0#24) (b0 b1 : Byte)
    (bs : List Byte) : x.sums ([b0, b1] ++ bs) = bytes16 (accNext16 x (le16 b0 b1)) ++
      { x with acc := accNext16 x (le16 b0 b1), outLen := l }.sums bs := by
  have h1 : ¬ x.param = 1#4 := by rw [h2]; decide
  have hprev : { x with acc := accNext16 x (le16 b0 b1), outLen := l }.prevWord 16 =
      accNext16 x (le16 b0 b1) := by
    simp [Regs.prevWord, hl]
  rw [Regs.sums, Regs.sums, if_neg h1, if_neg h1, hprev, accNext16_eq]
  rfl

/-! ## The body -/

/-- The result a DiffFilter call owes in its body: all bytes of the body are there, or it is truncated. -/
def State.diffOwed (s : State) : DecodeResult :=
  if s.inLen.toNat < s.pc.toNat + s.owed then .error .truncated
  else .ok (s.output ++ s.x.sums (s.inBytes s.pc.toNat s.owed))

/-- In the body of a DiffFilter call the result owed is `r`. -/
def DiffBody (r : DecodeResult) (s : State) : Prop := s.phase = .diff ∧ s.diffOwed = r

/-- What a DiffFilter call owes. -/
abbrev DiffRest (r : DecodeResult) (s : State) : Prop := CallRest diffDecompress DiffBody r s

/-- A state that completes at the declared size and else goes on in the body. -/
theorem diffRest_of_owed {t : State} {r : DecodeResult} (hp : t.phase = phaseAfter t .diff)
    (hpc : t.pc.toNat ≤ t.inLen.toNat) (hr : t.diffOwed = r) : DiffRest r t := by
  by_cases hl : t.x.outLen.toNat = t.x.size.toNat
  · rw [phaseAfter, if_pos hl] at hp
    have howed : t.owed = 0 := by rw [State.owed, hl, Nat.sub_self]
    refine callRest_done hp ?_
    rw [← hr, State.diffOwed, howed, if_neg (by omega), State.inBytes, sums_nil, List.append_nil]
  · rw [phaseAfter, if_neg hl] at hp
    exact (callRest_body (by simp [hp]) (by simp [State.busy, State.status, Phase.status, hp])).2
      ⟨hp, hr⟩

/-- R124: a word whose bytes `vs` are the next sums leaves the rest of them owed, with the same error. -/
theorem diffWord_diffRest {s t : State} {acc : BitVec 16} {vs : List Byte} {r : DecodeResult}
    (h : diffWord acc vs s = .next t) (hk : KeepsHost s t) (hr : s.diffOwed = r)
    (hcap : s.x.size.toNat ≤ s.params.outCap.toNat) (hvs : 1 ≤ vs.length)
    (howed : vs.length ≤ s.owed)
    (hsums : ∀ (l : BitVec 24), l ≠ 0#24 → ∀ bs, s.x.sums (s.inBytes s.pc.toNat vs.length ++ bs) =
      vs ++ { s.x with acc := acc, outLen := l }.sums bs) : DiffRest r t := by
  by_cases hcut : s.inLen.toNat < s.pc.toNat + vs.length
  · rw [diffWord_cut hcut] at h
    cases h
    exact callRest_raise (by rw [← hr, State.diffOwed, if_pos (by omega)])
  have hin := Nat.le_of_not_lt hcut
  have hsize : s.x.outLen.toNat + s.owed = s.x.size.toNat := Nat.add_sub_cancel' (by
    rw [State.owed] at howed
    omega)
  obtain ⟨u, hu, hprod, hphase⟩ := diffWord_completes (acc := acc) hin (by omega)
  rw [hu] at h
  cases h
  have hlen := hprod.out.outLen
  have hinLen := hprod.quiet.host.inLen
  have hl : t.x.outLen ≠ 0#24 := fun h0 => by
    rw [h0] at hlen
    exact absurd hlen (by simp; omega)
  obtain ⟨m, hm⟩ := Nat.exists_eq_add_of_le howed
  have howed' : t.owed = m := by
    have hsz : t.x.size = s.x.size := by rw [hprod.regs]
    rw [State.owed, hsz, hlen]
    omega
  refine diffRest_of_owed hphase (by rw [hprod.pc, hinLen]; exact hin) ?_
  obtain ⟨hmem, -⟩ := hk
  rw [← hr, State.diffOwed, State.diffOwed, howed', hm, hinLen, hprod.pc, Nat.add_assoc, inBytes_add,
    hsums _ hl, ← hprod.regs, inBytes_congr hmem, hprod.out.output, List.append_assoc]

/-- R121, R122: a step of the body takes one word. -/
theorem step_diff_diffRest {s t : State} {r : DecodeResult} (hi : PhaseInv s) (hb : DiffBody r s)
    (h : step s = .next t) : DiffRest r t := by
  obtain ⟨hp, hr⟩ := hb
  obtain ⟨hh, hlt, hsize⟩ := (phaseInv_diff hp).1 hi
  have hk := step_keepsHost h
  have hpos := owed_pos hlt
  rcases hsize with ⟨h1, -⟩ | ⟨h2, hse, hle⟩
  · have hword := eq_diffWord_of_ite (vs := [_]) (exec_d8W _ s ▸ step_diff8 hp h1)
    exact diffWord_diffRest (hword.symm.trans h) hk hr hh.fits (by simp) hpos
      fun l hl bs => sums_word8 h1 hl _ bs
  · have howed : 2 ≤ s.owed := by
      rw [State.owed]
      omega
    have hword := eq_diffWord_of_ite (vs := [_, _]) (exec_d16W _ s ▸ step_diff16 hp h2)
    exact diffWord_diffRest (hword.symm.trans h) hk hr hh.fits (by simp) howed
      fun l hl bs => sums_word16 h2 hl _ _ bs

/-! ## The header -/

/-- R97, R98: a word size the filter has, and a declared size that is a whole number of words. -/
def WordSizeOk (p : BitVec 4) (n : BitVec 24) : Prop :=
  (p = 1#4 ∨ p = 2#4) ∧ ¬ (p = 2#4 ∧ n.toNat % 2 = 1)

theorem four_le_of_headerOf {s : State} {h : BitVec 4 × BitVec 4 × BitVec 24}
    (hd : headerOf s.inputBytes = some h) : 4 ≤ s.inLen.toNat := by
  by_contra h4
  simp [headerOf, Nat.lt_of_not_le h4] at hd

theorem headerOk_diff {s : State} {p : BitVec 4} {n : BitVec 24}
    (hd : headerOf s.inputBytes = some (8#4, p, n)) (hm : s.mode = 8#4) :
    headerOk s (s.inAt 0) n = true ↔ WordSizeOk p n := by
  have h4 := four_le_of_headerOf hd
  rw [headerOf_inputBytes h4, Option.some.injEq, Prod.mk.injEq, Prod.mk.injEq] at hd
  obtain ⟨ht, rfl, -⟩ := hd
  have htype := typeNibble_toNat (s.inAt 0)
  rw [ht] at htype
  simp only [WordSizeOk, headerOk_iff, hm, ← BitVec.toNat_inj, paramNibble_toNat,
    BitVec.toNat_ofNat] at htype ⊢
  omega

/-- R101: a header that fails checks 1 to 5 raises. -/
theorem step_hdr_refuses {s : State} {ty p : BitVec 4} {n : BitVec 24} (hp : s.phase = .hdr)
    (hd : headerOf s.inputBytes = some (ty, p, n)) (hno : ¬ headerOk s (s.inAt 0) n = true) :
    step s = .next (s.raise .invalidFormat) := by
  rw [headerOf_inputBytes (four_le_of_headerOf hd)] at hd
  cases hd
  rw [step_hdr_checks hp, Bool.eq_false_iff.2 hno]
  rfl

theorem diffDecompress_otherType {b : List Byte} (hd : ∀ p n, headerOf b ≠ some (8#4, p, n)) :
    diffDecompress b = .error .invalidFormat := by
  unfold diffDecompress
  split
  · rfl
  next hsome => rw [if_pos fun ht => hd _ _ (ht ▸ hsome)]

theorem diffDecompress_badWordSize {b : List Byte} {p : BitVec 4} {n : BitVec 24}
    (hd : headerOf b = some (8#4, p, n)) (h : ¬ WordSizeOk p n) :
    diffDecompress b = .error .invalidFormat := by
  simp only [diffDecompress, hd, ne_eq, not_true_eq_false, if_false]
  split
  · rfl
  next h12 => rw [if_pos (by by_contra hodd; exact h ⟨by tauto, hodd⟩)]

/-- R125: a state with an accepted header latched and the cursor behind it owes all of `diff_decompress`. -/
theorem diffOwed_opened {t : State} (hpc : t.pc = 4#32) (hl : t.x.outLen = 0#24)
    (hd : headerOf t.inputBytes = some (8#4, t.x.param, t.x.size))
    (hw : WordSizeOk t.x.param t.x.size) : t.diffOwed = diffDecompress t.inputBytes := by
  obtain ⟨hword, heven⟩ := hw
  have h12 : ¬ (t.x.param ≠ 1#4 ∧ t.x.param ≠ 2#4) := fun ⟨h1, h2⟩ => hword.elim h1 h2
  have howed : t.owed = t.x.size.toNat := by simp [State.owed, hl]
  simp only [diffDecompress, hd, ne_eq, not_true_eq_false, if_false, if_neg h12, if_neg heven,
    ← apply_ite Except.ok, ← sums_first hl, State.diffOwed, howed, hpc, inputBytes_length]
  refine ite_congr rfl (fun _ => rfl) fun hin => ?_
  rw [sliceOf_inputBytes (Nat.le_of_not_lt hin), State.output, hl]
  rfl

/-- R97, R98: in the DiffFilter mode an accepted DiffFilter header opens the sums at byte 4, and any other
header raises. -/
theorem step_hdr_diffRest {s t : State} (hi : PhaseInv s) (hp : s.phase = .hdr) (hm : s.mode = 8#4)
    (hfit : s.DeclaredFits) (h : step s = .next t) : DiffRest (diffDecompress s.inputBytes) t := by
  by_cases hd : ∃ p n, headerOf s.inputBytes = some (8#4, p, n)
  · obtain ⟨p, n, hd⟩ := hd
    by_cases hok : headerOk s (s.inAt 0) n = true
    · obtain ⟨-, hx, -⟩ := (phaseInv_hdr hp).1 hi
      obtain ⟨-, h4, -⟩ := (headerOk_iff s _ _).1 hok
      have hin := (step_keepsHost h).inputBytes
      rw [step_hdr_latches hp hd hok hfit] at h
      cases h
      refine diffRest_of_owed ?_ h4 ?_
      · rw [openedPhase, ← type_of_headerOf hd]
        rfl
      · rw [← hin]
        exact diffOwed_opened rfl (congrArg Regs.outLen hx) (hin ▸ hd) ((headerOk_diff hd hm).1 hok)
    · rw [step_hdr_refuses hp hd hok] at h
      cases h
      exact callRest_raise (diffDecompress_badWordSize hd (mt (headerOk_diff hd hm).2 hok)).symm
  · have hd' : ∀ p n, headerOf s.inputBytes ≠ some (8#4, p, n) := fun p n he => hd ⟨p, n, he⟩
    rw [step_hdr_otherType hp (by rw [hm]; decide) (by rwa [hm])] at h
    cases h
    exact callRest_raise (diffDecompress_otherType hd').symm

/-- Settles O51: the header opens the sums and every step of the body takes one word of them. -/
theorem diffCallComputesItsFunction : Obligations.DiffCallComputesItsFunction :=
  fun _ _ h hlen hfit => decodeCall_computes (Body := DiffBody) h hlen rfl hfit
    (fun _ _ hok hp hdecl hv => step_hdr_diffRest hok.phase hp hok.mode_eq hdecl hv)
    fun _ _ _ hok hb hv => step_diff_diffRest hok.phase hb hv

end Sys2Proof.Machine
end

section
/-! SUPPORT. The tokens of 43_lz77.md: the mask byte, and a block as an output phase followed by the tail of
R136, the same for the literal and the backreference. -/

namespace Sys2Proof.Machine

/-! ## The tail of a block (R136) -/

section Tail
variable {s u : State} {x : Regs} {taken : Nat} {vs : List Byte}

/-- The tail counts the block and touches nothing else that a producing token speaks of. -/
theorem Produced.blockDone (h : Produced s u taken vs x) :
    Produced s u.blockDone taken vs { x with slot := BitVec.ofNat 4 (x.slot.toNat + 1) } where
  quiet := ⟨⟨h.quiet.host.params, h.quiet.host.mode, h.quiet.host.inLen, h.quiet.host.inp⟩, h.quiet.err⟩
  tree := h.tree
  pc := h.pc
  out := ⟨h.out.outLen, h.out.new, h.out.old⟩
  regs := by
    rw [blockDone_x, h.regs, BitVec.ofNat_add, BitVec.ofNat_toNat, BitVec.setWidth_eq]

/-- The completion test comes first, then the end of the chunk. -/
theorem blockDone_phaseAfter (u : State) : u.blockDone.phase =
    phaseAfter u.blockDone (if u.blockDone.x.slot.toNat = 8 then .lzMask else .lzBlock) :=
  if_congr BitVec.toNat_inj.symm rfl (if_congr BitVec.toNat_inj.symm rfl rfl)

end Tail

/-! ## The mask byte and the literal block -/

theorem decode_lzMask_one (b : Byte) : decode .lzMask [b] = .token (.lzMask b) [] := by
  simp only [decode, decodeOne]

theorem decode_lzLit_one (b : Byte) : decode .lzLit [b] = .token (.lzLit b) [] := by
  simp only [decode, decodeOne]

section Tokens
variable {s : State}

theorem exec_lzMask_cut (m : Byte) (h : s.has 1 = false) :
    exec (.lzMask m) s = .next (s.raise .truncated) := by
  simp [exec, execLzMask, h]

/-- R131: the mask is latched and the chunk's first block is next. -/
theorem exec_lzMask_completes (m : Byte) (h : s.has 1 = true) : exec (.lzMask m) s =
    .next (((s.setX { s.x with mask := m, slot := 0#4 }).advance 1).setPhase .lzBlock) := by
  simp [exec, execLzMask, h]

theorem exec_lzLit_cut (v : Byte) (h8 : s.x.slot.toNat < 8) (h : s.has 1 = false) :
    exec (.lzLit v) s = .next (s.raise .truncated) := by
  simp [exec, execLzLit, h8, h]

/-- R132: the literal's byte is emitted, then the block is counted. -/
theorem exec_lzLit_completes (v : Byte) (h8 : s.x.slot.toNat < 8) (h : s.has 1 = true)
    (hcap : s.x.outLen.toNat + 1 ≤ s.params.outCap.toNat) :
    exec (.lzLit v) s = .next ((s.advance 1).emit v).blockDone := by
  simp [exec, execLzLit, h8, h, produce_of_le hcap]

theorem produced_literal (v : Byte) (h : s.has 1 = true)
    (hcap : s.x.outLen.toNat + 1 ≤ s.params.outCap.toNat) :
    Produced s ((s.advance 1).emit v) 1 [v] s.x :=
  produced_emitAll s.x 1 [v] _ rfl h (outLen_add_lt hcap) ⟨s.phase, rfl⟩

/-! ## The backreference -/

/-- The state of a backreference before its copy: both registers written, the token's bytes taken. -/
def State.refTaken (s : State) (l : BitVec 4) (d : BitVec 12) : State :=
  (s.setX { s.x with brLen := BitVec.ofNat 5 (refLen l), brOff := BitVec.ofNat 13 (refOff d) }).advance 2

/-- The state of a backreference when its bytes are copied, before the tail (R133). -/
def State.refCopied (s : State) (l : BitVec 4) (d : BitVec 12) : State :=
  (s.refTaken l d).copyBack (refOff d) (refLen l)

variable {l : BitVec 4} {d : BitVec 12}

theorem exec_lzRef_cut (h8 : s.x.slot.toNat < 8) (h : s.has 2 = false) :
    exec (.lzRef l d) s = .next (s.raise .truncated) := by
  simp [exec, execLzRef, h8, h]

/-- R135: a length beyond the declared size, or an offset beyond the output. -/
theorem exec_lzRef_outOfBounds (h8 : s.x.slot.toNat < 8) (h : s.has 2 = true)
    (hbad : s.x.size.toNat < s.x.outLen.toNat + refLen l ∨ s.x.outLen.toNat < refOff d) :
    exec (.lzRef l d) s = .next (s.raise .outOfBounds) := by
  by_cases hsz : s.x.size.toNat < s.x.outLen.toNat + refLen l
  · simp [exec, execLzRef, h8, h, hsz]
  · simp [exec, execLzRef, h8, h, hsz, hbad.resolve_left hsz]

theorem exec_lzRef_completes (h8 : s.x.slot.toNat < 8) (h : s.has 2 = true)
    (hsz : s.x.outLen.toNat + refLen l ≤ s.x.size.toNat) (hoff : refOff d ≤ s.x.outLen.toNat)
    (hcap : s.x.size.toNat ≤ s.params.outCap.toNat) :
    exec (.lzRef l d) s = .next (s.refCopied l d).blockDone := by
  simp [exec, execLzRef, State.refCopied, State.refTaken, h8, h, Nat.not_lt.2 hsz, Nat.not_lt.2 hoff,
    produce_of_le (hsz.trans hcap)]

/-- R133: the copy appends as many bytes as the reference is long. -/
theorem produced_refCopied (h : s.has 2 = true)
    (hcap : s.x.outLen.toNat + refLen l ≤ s.params.outCap.toNat) :
    Produced s (s.refCopied l d) 2 ((s.refCopied l d).outBytesFrom s.x.outLen.toNat (refLen l))
      { s.x with brLen := BitVec.ofNat 5 (refLen l), brOff := BitVec.ofNat 13 (refOff d) } where
  quiet := ⟨sameHost_of_eq (copyBack_params ..) (copyBack_mode ..) (copyBack_inLen ..)
    (copyBack_inMem ..), copyBack_err ..⟩
  tree := sameTree_of_eq (copyBack_treeMem ..)
  pc := (congrArg BitVec.toNat (copyBack_pc ..)).trans (advance_toNat h)
  out := by
    have hlt := outLen_add_lt hcap
    refine ⟨?_, fun i hi => ?_, fun a ha => ?_⟩
    · rw [outBytesFrom_length]
      exact copyBack_outLen (refOff d) (refLen l) hlt
    · refine (Option.some.inj ?_).symm
      rw [← List.getElem?_eq_getElem hi, outBytesFrom_getElem? _ _ _ _ (by simpa using hi)]
    · rw [outBytesFrom_length] at ha
      exact copyBack_outAt_old (s := s.refTaken l d) (refOff d) (refLen l) hlt a ha
  regs := by rw [State.refCopied, copyBack_x]; rfl

/-- R133, R134: without the hazard of R228 the bytes are the periodic extension of the last `off` ones. -/
theorem refCopied_outAt (hcap : s.x.outLen.toNat + refLen l ≤ s.params.outCap.toNat)
    (hz : s.hazard (refOff d) = false) (hoff : refOff d ≤ s.x.outLen.toNat) {i : Nat}
    (hi : i < refLen l) : (s.refCopied l d).outAt (s.x.outLen.toNat + i) =
      s.outAt (s.x.outLen.toNat - refOff d + i % refOff d) :=
  copyBack_periodic (s := s.refTaken l d) (refOff d) (refLen l) (outLen_add_lt hcap) hz (Nat.le_add_left 1 _)
    hoff i hi

end Tokens

theorem hazard_eq_false_iff (s : State) (off : Nat) :
    s.hazard off = false ↔ s.params.outCommit16 = false ∨ off ≠ 1 := by
  simp [State.hazard, imp_iff_not_or]

theorem dispField_toNat (b0 b1 : Byte) :
    (b0.extractLsb' 0 4 ++ b1).toNat = b0.toNat % 16 * 256 + b1.toNat := by
  rw [BitVec.toNat_append, ← Nat.shiftLeft_add_eq_or_of_lt b1.isLt, Nat.shiftLeft_eq, paramNibble_toNat]

/-! ## The statements about the tokens -/

/-- Settles O24: with its byte there LZ.MASK is a silent token. -/
theorem lzMaskByte : Obligations.LzMaskByte := by
  refine ⟨decode_lzMask_one, fun m s => ⟨fun hin => ?_, fun hcut => ?_⟩⟩
  · have h1 := (has_iff s 1).2 hin
    exact ⟨_, exec_lzMask_completes m h1, silent_of_eq _ 1 .lzBlock h1⟩
  · exact exec_lzMask_cut m ((has_false_iff s 1).2 hcut)

/-- Settles O25: LZ.LIT is one emitted byte and the tail of a block. -/
theorem lzLiteralBlock : Obligations.LzLiteralBlock := by
  refine ⟨decode_lzLit_one, fun v s h8 => ⟨fun hin hcap => ?_, fun hcut => ?_⟩⟩
  · have h1 := (has_iff s 1).2 hin
    exact ⟨_, exec_lzLit_completes v h8 h1 hcap, (produced_literal v h1 hcap).blockDone,
      blockDone_phaseAfter _⟩
  · exact exec_lzLit_cut v h8 ((has_false_iff s 1).2 hcut)

/-- Settles O26: LZ.REF is a copy and the tail of a block, after the two tests of R135. -/
theorem lzBackreference : Obligations.LzBackreference := by
  refine ⟨fun b0 b1 => ⟨b0.extractLsb' 4 4, b0.extractLsb' 0 4 ++ b1,
    by simp only [decode, decodeTwo, decodeRef], typeNibble_toNat b0, dispField_toNat b0 b1⟩,
    fun l d s h8 => ⟨fun hin hsz hoff hcap => ?_, fun hcut => ?_, fun hin hbad => ?_⟩⟩
  · have h2 := (has_iff s 2).2 hin
    have hfit := hsz.trans hcap
    refine ⟨_, _, exec_lzRef_completes h8 h2 hsz hoff hcap, outBytesFrom_length ..,
      (produced_refCopied h2 hfit).blockDone, blockDone_phaseAfter _, fun hz i hi => ?_⟩
    rw [outBytesFrom_getElem? _ _ _ i hi,
      refCopied_outAt hfit ((hazard_eq_false_iff s _).2 hz) hoff hi]
    rfl
  · exact exec_lzRef_cut h8 ((has_false_iff s 2).2 hcut)
  · exact exec_lzRef_outOfBounds h8 ((has_iff s 2).2 hin) hbad

/-! ## Which token a body phase reads -/

/-- Settles O8: each phase's step equation, with the control field there. -/
theorem bodyPhasesReadTheirTokens : Obligations.BodyPhasesReadTheirTokens := by
  refine ⟨fun s hp hin => ?_, fun s hp h8 hm hin => ?_, fun s hp h8 hm hin => ?_, fun s hp h1 hin => ?_,
    fun s hp h2 hin => ?_, fun s hp hin => ?_, fun s hp => step_hufTable hp, fun s hp => step_hufCheck hp,
    fun s hp h0 _ => ?_, fun s hp h0 => ?_⟩
  · rw [step_lzMask hp, if_pos ((has_iff s 1).2 hin)]
  · rw [step_lzLit hp h8 hm, if_pos ((has_iff s 1).2 hin)]
  · rw [step_lzRef hp h8 hm, if_pos ((has_iff s 2).2 hin), decodeRef]
  · rw [step_diff8 hp h1, if_pos ((has_iff s 1).2 hin)]
  · rw [step_diff16 hp h2, if_pos ((has_iff s 2).2 hin), le16]
  · rw [step_hufTSize hp, if_pos ((has_iff s 1).2 hin)]
  · exact (step_hufBits hp).trans (if_pos h0)
  · rw [step_hufBits hp, afterRefill, if_neg h0, BitVec.msb_eq_getLsbD_last]
    cases s.x.bitWin.getLsbD 31 <;> simp [exec, execHufBit0, execHufBit1, afterRefill, h0]

end Sys2Proof.Machine
end

section
/-! SUPPORT. An LZ77 call and the loops of 43_lz77.md R138, block by block. -/

namespace Sys2Proof.Machine

/-! ## The loops -/

/-- The rest of the current chunk, of mask `m` and with `k` blocks left, and then `n` turns of the loop. -/
def lzChunkThen (b : List Byte) (size : Nat) (m : Byte) (k n pos : Nat) (out : List Byte) : DecodeResult :=
  (lzChunk b size m k pos out).bind fun q => lzLoop b size n q.1 q.2

section Loops
variable {b : List Byte} {size : Nat} {m : Byte} {k pos : Nat} {out : List Byte}

/-- At the declared size the loop answers its output. -/
theorem lzLoop_full (n : Nat) (h : size ≤ out.length) : lzLoop b size n pos out = .ok out := by
  cases n with
  | zero => rfl
  | succ n => rw [lzLoop, if_pos h]

/-- At the declared size the blocks of a chunk that are left are not read. -/
theorem lzChunkThen_full (n : Nat) (h : size ≤ out.length) :
    lzChunkThen b size m k n pos out = .ok out := by
  have hchunk : lzChunk b size m k pos out = .ok (pos, out) := by
    cases k with
    | zero => rfl
    | succ k => rw [lzChunk, if_pos h]
  rw [lzChunkThen, hchunk]
  exact lzLoop_full n h

theorem lzChunkThen_zero (n : Nat) : lzChunkThen b size m 0 n pos out = lzLoop b size n pos out := rfl

variable (hlt : out.length < size)
include hlt

/-- A turn of the loop is a mask byte and the eight blocks it announces. -/
theorem lzLoop_succ (n : Nat) : lzLoop b size (n + 1) pos out =
    if b.length ≤ pos then .error .truncated
    else lzChunkThen b size (byteOf b pos) 8 n (pos + 1) out := by
  rw [lzLoop, if_neg (Nat.not_le.2 hlt), lzChunkThen]
  refine if_congr Iff.rfl rfl ?_
  cases lzChunk b size (byteOf b pos) 8 (pos + 1) out <;> rfl

theorem lzChunkThen_lit (n : Nat) (hm : m.getLsbD k = false) :
    lzChunkThen b size m (k + 1) n pos out =
      if b.length ≤ pos then .error .truncated
      else lzChunkThen b size m k n (pos + 1) (out ++ [byteOf b pos]) := by
  rw [lzChunkThen, lzChunk, if_neg (Nat.not_le.2 hlt), if_pos hm]
  split <;> rfl

theorem lzChunkThen_ref (n : Nat) (hm : m.getLsbD k = true) {len off : Nat}
    (hlen : len = (byteOf b pos).toNat / 16 + 3)
    (hoff : off = (byteOf b pos).toNat % 16 * 256 + (byteOf b (pos + 1)).toNat + 1) :
    lzChunkThen b size m (k + 1) n pos out =
      if b.length < pos + 2 then .error .truncated
      else if size < out.length + len ∨ out.length < off then .error .outOfBounds
      else lzChunkThen b size m k n (pos + 2) (copyList out off len) := by
  have hbit : ¬ m.getLsbD k = false := by rw [hm]; decide
  rw [lzChunkThen, lzChunk, if_neg (Nat.not_le.2 hlt), if_neg hbit, ← hlen, ← hoff, ite_or]
  dsimp only
  split
  · rfl
  split
  · rfl
  split <;> rfl

end Loops

/-! ## The copy on lists -/

theorem output_congr {s t : State} (hm : t.outMem = s.outMem) (hl : t.x.outLen = s.x.outLen) :
    t.output = s.output := by
  rw [State.output, hl]
  exact outBytesFrom_congr hm 0 _

theorem byteOf_output {s : State} {i : Nat} (h : i < s.x.outLen.toNat) : byteOf s.output i = s.outAt i := by
  rw [byteOf, List.getD_eq_getElem?_getD, State.output, outBytesFrom_getElem? s 0 _ i h, Nat.zero_add]
  rfl

section Copy
variable {s : State} {off : Nat} (hz : s.hazard off = false) (h1 : 1 ≤ off) (h2 : off ≤ s.x.outLen.toNat)
include hz h1 h2

theorem copyOne_output (h : s.x.outLen.toNat + 1 < 2 ^ 24) :
    (s.copyOne off).output = s.output ++ [byteOf s.output (s.output.length - off)] := by
  have happ : Appends s (s.copyOne off) [s.copySource off] :=
    appends_emitAll (u := s) _ rfl rfl (copyOne_outMem ..) (congrArg Regs.outLen (copyOne_x ..)) h
  have hsource : s.copySource off = s.outAt (s.x.outLen.toNat - off) :=
    if_neg (Bool.eq_false_iff.1 hz)
  rw [happ.output, hsource, output_length, byteOf_output (by omega)]

/-- R133, R138: the copy loop of the machine is that of the function, byte by byte. -/
theorem copyBack_output (n : Nat) (h : s.x.outLen.toNat + n < 2 ^ 24) :
    (s.copyBack off n).output = copyList s.output off n := by
  induction n generalizing s with
  | zero => rfl
  | succ n ih =>
    have hl : (s.copyOne off).x.outLen.toNat = s.x.outLen.toNat + 1 := by
      rw [copyOne_x]
      exact emit_outLen (s.copySource off) (by omega)
    have hz' : (s.copyOne off).hazard off = false := by rw [State.hazard, copyOne_params]; exact hz
    rw [State.copyBack, copyList, ih hz' (by omega) (by omega), copyOne_output hz h1 h2 (by omega)]

end Copy

theorem refCopied_output {s : State} {l : BitVec 4} {d : BitVec 12} (hz : s.hazard (refOff d) = false)
    (hoff : refOff d ≤ s.x.outLen.toNat)
    (hcap : s.x.outLen.toNat + refLen l ≤ s.params.outCap.toNat) :
    (s.refCopied l d).output = copyList s.output (refOff d) (refLen l) := by
  have hstart : (s.refTaken l d).output = s.output := output_congr rfl rfl
  rw [← hstart]
  exact copyBack_output (s := s.refTaken l d) hz (Nat.le_add_left 1 _) hoff _ (outLen_add_lt hcap)

/-! ## The call -/

/-- A step that leaves the phase `p` unless the declared size is reached. -/
theorem callRest_of_phaseAfter {f : List Byte → DecodeResult} {Body : DecodeResult → State → Prop}
    {r : DecodeResult} {t : State} {p : Phase} (hp : t.phase = phaseAfter t p)
    (hbusy : p.status = .busy) (hhdr : p ≠ .hdr)
    (hfull : t.x.size.toNat ≤ t.output.length → .ok t.output = r) (hgo : t.phase = p → Body r t) :
    CallRest f Body r t := by
  by_cases hl : t.x.outLen.toNat = t.x.size.toNat
  · rw [phaseAfter, if_pos hl] at hp
    exact callRest_done hp (hfull (by rw [output_length, hl]))
  · rw [phaseAfter, if_neg hl] at hp
    have hb : t.busy = true := by rw [State.busy, State.status, hp, hbusy]; rfl
    exact (callRest_body (by rwa [hp]) hb).2 (hgo hp)

/-- In the body of an LZ77 call the result owed is that of the loops, with turns enough for the bytes owed:
a chunk emits at least one byte for each of its blocks. -/
def LzBody (r : DecodeResult) (s : State) : Prop := ∃ n,
  (s.phase = .lzMask ∧ s.owed ≤ n ∧
    lzLoop s.inputBytes s.x.size.toNat n s.pc.toNat s.output = r) ∨
  (s.phase = .lzBlock ∧ s.owed + s.x.slot.toNat ≤ n + 1 ∧
    lzChunkThen s.inputBytes s.x.size.toNat s.x.mask (8 - s.x.slot.toNat) n s.pc.toNat s.output = r)

/-- What an LZ77 call owes. -/
abbrev LzRest (r : DecodeResult) (s : State) : Prop := CallRest lz77Decompress LzBody r s

section Step
variable {s t : State} {n : Nat} {r : DecodeResult}

/-- A state between two chunks. -/
theorem lzRest_of_loop (hp : t.phase = phaseAfter t .lzMask) (hn : t.owed ≤ n)
    (hr : lzLoop t.inputBytes t.x.size.toNat n t.pc.toNat t.output = r) : LzRest r t :=
  callRest_of_phaseAfter hp rfl (by decide) (fun hfull => by rw [← hr, lzLoop_full n hfull])
    fun hpt => ⟨n, .inl ⟨hpt, hn, hr⟩⟩

/-- A state behind a block: the chunk goes on, or its eight blocks are read. -/
theorem lzRest_of_chunk
    (hp : t.phase = phaseAfter t (if t.x.slot.toNat = 8 then .lzMask else .lzBlock))
    (hn : t.owed + t.x.slot.toNat ≤ n + 1)
    (hr : lzChunkThen t.inputBytes t.x.size.toNat t.x.mask (8 - t.x.slot.toNat) n t.pc.toNat t.output = r) :
    LzRest r t := by
  by_cases h8 : t.x.slot.toNat = 8
  · rw [if_pos h8] at hp
    rw [h8, Nat.sub_self, lzChunkThen_zero] at hr
    exact lzRest_of_loop hp (by omega) hr
  · rw [if_neg h8] at hp
    exact callRest_of_phaseAfter hp rfl (by decide) (fun hfull => by rw [← hr, lzChunkThen_full n hfull])
      fun hpt => ⟨n, .inr ⟨hpt, hn, hr⟩⟩

/-- R131: the mask byte opens a chunk. -/
theorem step_lzMask_lzRest (hp : s.phase = .lzMask) (hi : PhaseInv s) (hn : s.owed ≤ n)
    (hr : lzLoop s.inputBytes s.x.size.toNat n s.pc.toNat s.output = r) (h : step s = .next t) :
    LzRest r t := by
  obtain ⟨-, hlt⟩ := (phaseInv_lzMask hp).1 hi
  obtain ⟨n, rfl⟩ : ∃ m, n = m + 1 := Nat.exists_eq_add_of_le' ((owed_pos hlt).trans_le hn)
  have hk := step_keepsHost h
  rw [lzLoop_succ (by rwa [output_length]), inputBytes_length] at hr
  rw [step_lzMask hp] at h
  by_cases h1 : s.has 1 = true
  · have hpos : s.pc.toNat < s.inLen.toNat := (has_iff s 1).1 h1
    rw [if_neg (Nat.not_le.2 hpos), byteOf_inputBytes hpos] at hr
    rw [if_pos h1, exec_lzMask_completes _ h1] at h
    cases h
    refine (callRest_body (by simp) rfl).2 ⟨n, .inr ⟨rfl, hn, ?_⟩⟩
    have hout : (((s.setX { s.x with mask := s.inAt s.pc.toNat, slot := 0#4 }).advance 1).setPhase
      .lzBlock).output = s.output := output_congr rfl rfl
    rw [hk.inputBytes, hout, ← hr]
    exact congrArg (lzChunkThen _ _ _ _ _ · _) (advance_toNat h1)
  · rw [if_neg h1] at h
    cases h
    rw [has_iff, Nat.not_le] at h1
    exact callRest_raise (by rw [← hr, if_pos (Nat.le_of_lt_succ h1)])

/-- R136: behind a block that appended `vs` the chunk goes on with one block less. -/
theorem blockDone_lzRest {u : State} {bl : BitVec 5} {bo : BitVec 13} {taken : Nat} {vs : List Byte}
    (h : Produced s u taken vs { s.x with brLen := bl, brOff := bo }) (hk : KeepsHost s u.blockDone)
    (h8 : s.x.slot.toNat < 8) (hvs : 1 ≤ vs.length) (hlt : s.x.outLen.toNat < s.x.size.toNat)
    (hn : s.owed + s.x.slot.toNat ≤ n + 1)
    (hr : lzChunkThen s.inputBytes s.x.size.toNat s.x.mask (7 - s.x.slot.toNat) n (s.pc.toNat + taken)
      (s.output ++ vs) = r) : LzRest r u.blockDone := by
  have hb := h.blockDone
  have hlen := hb.out.outLen
  have hregs := hb.regs
  have hsize : u.blockDone.x.size = s.x.size := by rw [hregs]
  have hmask : u.blockDone.x.mask = s.x.mask := by rw [hregs]
  have hslot : u.blockDone.x.slot.toNat = s.x.slot.toNat + 1 := by
    rw [hregs]
    show (BitVec.ofNat 4 (s.x.slot.toNat + 1)).toNat = _
    rw [BitVec.toNat_ofNat]
    omega
  refine lzRest_of_chunk (n := n) (blockDone_phaseAfter u) ?_ ?_
  · rw [State.owed, hsize, hlen, hslot]
    rw [State.owed] at hn
    omega
  · rw [hk.inputBytes, hsize, hmask, hslot, hb.pc, hb.out.output, ← hr, Nat.add_comm _ 1,
      ← Nat.sub_sub]

/-- R133, R135: a backreference whose bytes are there ends a turn of the chunk as R138 says. -/
theorem exec_lzRef_lzRest {l : BitVec 4} {d : BitVec 12} (hi : PhaseInv s) (hp : s.phase = .lzBlock)
    (hc : s.params.outCommit16 = false) (hn : s.owed + s.x.slot.toNat ≤ n + 1) (hk : KeepsHost s t)
    (h2 : s.has 2 = true) (h : exec (.lzRef l d) s = .next t)
    (hr : (if s.x.size.toNat < s.x.outLen.toNat + refLen l ∨ s.x.outLen.toNat < refOff d then
        .error .outOfBounds
      else lzChunkThen s.inputBytes s.x.size.toNat s.x.mask (7 - s.x.slot.toNat) n (s.pc.toNat + 2)
        (copyList s.output (refOff d) (refLen l))) = r) : LzRest r t := by
  obtain ⟨hh, hlt, h8⟩ := (phaseInv_lzBlock hp).1 hi
  by_cases hbad : s.x.size.toNat < s.x.outLen.toNat + refLen l ∨ s.x.outLen.toNat < refOff d
  · rw [if_pos hbad] at hr
    rw [exec_lzRef_outOfBounds h8 h2 hbad] at h
    cases h
    exact callRest_raise hr
  · rw [if_neg hbad] at hr
    rw [not_or, Nat.not_lt, Nat.not_lt] at hbad
    obtain ⟨hsz, hoff⟩ := hbad
    have hcap := hsz.trans hh.fits
    have hprod := produced_refCopied (d := d) h2 hcap
    rw [exec_lzRef_completes h8 h2 hsz hoff hh.fits] at h
    cases h
    rw [← refCopied_output ((hazard_eq_false_iff s _).2 (.inl hc)) hoff hcap, hprod.out.output] at hr
    exact blockDone_lzRest hprod hk h8 (by simp [refLen]) hlt hn hr

section Block
variable (hp : s.phase = .lzBlock) (hi : PhaseInv s) (hn : s.owed + s.x.slot.toNat ≤ n + 1)
  (hr : lzChunkThen s.inputBytes s.x.size.toNat s.x.mask (7 - s.x.slot.toNat + 1) n s.pc.toNat
    s.output = r) (h : step s = .next t)
include hp hi hn hr h

/-- R132: a literal block is one turn of the chunk. -/
theorem step_lzLit_lzRest (hm : s.x.mask.getLsbD (7 - s.x.slot.toNat) = false) : LzRest r t := by
  obtain ⟨hh, hlt, h8⟩ := (phaseInv_lzBlock hp).1 hi
  have hcap : s.x.outLen.toNat + 1 ≤ s.params.outCap.toNat := le_trans hlt hh.fits
  have hk := step_keepsHost h
  rw [lzChunkThen_lit (by rwa [output_length]) n hm, inputBytes_length] at hr
  rw [step_lzLit hp h8 hm] at h
  by_cases h1 : s.has 1 = true
  · have hpos : s.pc.toNat < s.inLen.toNat := (has_iff s 1).1 h1
    rw [if_neg (Nat.not_le.2 hpos), byteOf_inputBytes hpos] at hr
    rw [if_pos h1, exec_lzLit_completes _ h8 h1 hcap] at h
    cases h
    exact blockDone_lzRest (produced_literal _ h1 hcap) hk h8 le_rfl hlt hn hr
  · rw [if_neg h1] at h
    cases h
    rw [has_iff, Nat.not_le] at h1
    exact callRest_raise (by rw [← hr, if_pos (Nat.le_of_lt_succ h1)])

/-- R67, R133: a backreference is one turn of the chunk. -/
theorem step_lzRef_lzRest (hm : s.x.mask.getLsbD (7 - s.x.slot.toNat) = true)
    (hc : s.params.outCommit16 = false) : LzRest r t := by
  obtain ⟨-, hlt, h8⟩ := (phaseInv_lzBlock hp).1 hi
  have hout : s.output.length < s.x.size.toNat := by rwa [output_length]
  have hk := step_keepsHost h
  rw [lzChunkThen_ref hout n hm rfl rfl, inputBytes_length, output_length] at hr
  rw [step_lzRef hp h8 hm] at h
  by_cases h2 : s.has 2 = true
  · have hpos := (has_iff s 2).1 h2
    rw [if_neg (Nat.not_lt.2 hpos), byteOf_inputBytes (by omega), byteOf_inputBytes (by omega),
      ← typeNibble_toNat, ← dispField_toNat] at hr
    rw [if_pos h2] at h
    exact exec_lzRef_lzRest hi hp hc hn hk h2 h hr
  · rw [if_neg h2] at h
    cases h
    rw [has_iff, Nat.not_le] at h2
    exact callRest_raise (by rw [← hr, if_pos h2])

end Block

/-- A step of the body of an LZ77 call is a mask byte or a block. -/
theorem step_lz_lzRest (hi : PhaseInv s) (hc : s.params.outCommit16 = false) (hb : LzBody r s)
    (h : step s = .next t) : LzRest r t := by
  obtain ⟨n, ⟨hp, hn, hr⟩ | ⟨hp, hn, hr⟩⟩ := hb
  · exact step_lzMask_lzRest hp hi hn hr h
  · obtain ⟨-, -, h8⟩ := (phaseInv_lzBlock hp).1 hi
    rw [show 8 - s.x.slot.toNat = 7 - s.x.slot.toNat + 1 by omega] at hr
    cases hm : s.x.mask.getLsbD (7 - s.x.slot.toNat) with
    | false => exact step_lzLit_lzRest hp hi hn hr h hm
    | true => exact step_lzRef_lzRest hp hi hn hr h hm hc

end Step

/-! ## The header -/

/-- R93, R101: under the mode of a format with one header token the step latches a header of that type, and
raises for any other. -/
theorem step_hdr_ownType {s t : State} {ty : BitVec 4} (hp : s.phase = .hdr) (hm : s.mode = ty)
    (hty : ty = 1#4 ∨ ty = 2#4 ∨ ty = 3#4) (hfit : s.DeclaredFits) (h : step s = .next t) :
    (∃ p n, headerOf s.inputBytes = some (ty, p, n) ∧
      t = (headerLatch s ty p n).setPhase (openedPhase s (s.inAt 0) n)) ∨
    ((∀ p n, headerOf s.inputBytes ≠ some (ty, p, n)) ∧ t = s.raise .invalidFormat) := by
  by_cases hd : ∃ p n, headerOf s.inputBytes = some (ty, p, n)
  · obtain ⟨p, n, hd⟩ := hd
    rw [step_hdr_latches hp hd (headerOk_of_type hd hty hm) hfit] at h
    cases h
    exact .inl ⟨p, n, hd, rfl⟩
  · have hno : ∀ p n, headerOf s.inputBytes ≠ some (ty, p, n) := fun p n he => hd ⟨p, n, he⟩
    have h0 : s.mode ≠ 0#4 := by
      rw [hm]
      rcases hty with rfl | rfl | rfl <;> decide
    rw [step_hdr_otherType hp h0 (by rwa [hm])] at h
    cases h
    exact .inr ⟨hno, rfl⟩

theorem lz77Decompress_otherType {b : List Byte} (hd : ∀ p n, headerOf b ≠ some (1#4, p, n)) :
    lz77Decompress b = .error .invalidFormat := by
  unfold lz77Decompress
  split
  · rfl
  next hsome => rw [if_neg fun ht => hd _ _ (ht ▸ hsome)]

/-- R94: in the LZ77 mode a header with the LZ77 type opens the loop at byte 4, and any other raises. -/
theorem step_hdr_lzRest {s t : State} (hi : PhaseInv s) (hp : s.phase = .hdr) (hm : s.mode = 1#4)
    (hfit : s.DeclaredFits) (h : step s = .next t) : LzRest (lz77Decompress s.inputBytes) t := by
  have hin := (step_keepsHost h).inputBytes
  obtain ⟨p, n, hd, rfl⟩ | ⟨hno, rfl⟩ := step_hdr_ownType hp hm (.inl rfl) hfit h
  · obtain ⟨-, hx, -⟩ := (phaseInv_hdr hp).1 hi
    refine lzRest_of_loop (n := n.toNat) ?_ (by rw [latch_owed hx]) ?_
    · rw [openedPhase, ← type_of_headerOf hd]
      rfl
    · rw [hin, lz77Decompress, hd, State.output, setPhase_x, headerLatch_x, hx]
      rfl
  · exact callRest_raise (lz77Decompress_otherType hno).symm

/-! ## The call in the normative configuration -/

/-- At its launch a headered call owes its function of the input. -/
theorem callRest_launched {f : List Byte → DecodeResult} {Body : DecodeResult → State → Prop} {s : State}
    {mode : BitVec 4} {input : List Byte} (h : s.status ≠ .busy) (hlen : input.length < 2 ^ 32)
    (hm : startPhase mode = some .hdr)
    (hfit : ∀ t p n, headerOf input = some (t, p, n) → n.toNat ≤ s.params.outCap.toNat) :
    CallRest f Body (f input) (s.loaded mode input).start := by
  have hin := (launched_callOk (mode := mode) h hlen).input_eq
  obtain ⟨-, -, -, hparams⟩ := start_keepsHost (s.loaded mode input)
  refine (callRest_hdr ?_).2 ⟨congrArg f hin, fun t p n hd => ?_⟩
  · rw [start_of_phase (s := s.loaded mode input) h hm]
  · rw [hparams]
    exact hfit t p n (hin ▸ hd)

/-- What an LZ77 call owes where no copy reads an uncommitted byte (R228): the configuration is a parameter,
so `decodeCall_computes`, which speaks of the input alone, does not carry it. -/
def NormativeLzRest (r : DecodeResult) (s : State) : Prop := s.params.outCommit16 = false ∧ LzRest r s

theorem step_normativeLzRest {input : List Byte} {s t : State} (hok : CallOk 1#4 input s)
    (hb : s.busy = true) (hs : NormativeLzRest (lz77Decompress input) s) (h : step s = .next t) :
    NormativeLzRest (lz77Decompress input) t := by
  obtain ⟨hc, hrest⟩ := hs
  obtain ⟨-, -, -, hparams⟩ := step_keepsHost h
  refine ⟨by rwa [hparams], ?_⟩
  by_cases hp : s.phase = .hdr
  · obtain ⟨-, hdecl⟩ := (callRest_hdr hp).1 hrest
    exact hok.input_eq ▸ step_hdr_lzRest hok.phase hp hok.mode_eq hdecl h
  · exact step_lz_lzRest hok.phase hc ((callRest_body hp hb).1 hrest) h

/-- Settles O52: the header opens the loops and every step of the body is a mask byte or a block of them. -/
theorem lzCallComputesItsFunction : Obligations.LzCallComputesItsFunction := by
  intro s input h hlen hc hfit
  obtain ⟨-, -, -, hparams⟩ := start_keepsHost (s.loaded 1#4 input)
  refine decodeCall_of_keeps (P := NormativeLzRest (lz77Decompress input))
    (fun _ _ hok hb hs hv => step_normativeLzRest hok hb hs hv) h hlen
    ⟨?_, callRest_launched h hlen rfl hfit⟩ fun t hb ht => (callRest_over hb).1 ht.2
  rw [hparams]
  exact hc

end Sys2Proof.Machine
end

section
/-! SUPPORT. The table of 44_huffman.md: the child offsets, the tokens that read it and load it, and the check
as a statement about the offsets the walk may stand on. -/

namespace Sys2Proof.Machine

/-! ## The child offsets -/

/-- Settles O30: the rounding `(o + 3) / 2 * 2` by the parity of `o`. -/
theorem hufChildOffsets : Obligations.HufChildOffsets := by
  intro o base
  have hbase := base.isLt
  simp only [childOf, child0, Config.treeBytes]
  refine ⟨by omega, by omega, by omega, by omega, by omega, fun k hk => by omega, rfl, rfl⟩

/-! ## The tree-size byte and the table -/

section Load
variable {s : State}

theorem exec_hufTSize_cut (n : Byte) (h : s.has 1 = false) :
    exec (.hufTSize n) s = .next (s.raise .truncated) := by
  simp [exec, execHufTSize, h]

/-- R146: the size byte is latched and the table is next. -/
theorem exec_hufTSize_completes (n : Byte) (h : s.has 1 = true) : exec (.hufTSize n) s =
    .next (((s.setX { s.x with treeN := n }).advance 1).setPhase .hufTable) := by
  simp [exec, execHufTSize, h]

theorem exec_hufTable_cut (h : s.has s.tableLen = false) :
    exec .hufTable s = .next (s.raise .truncated) := by
  simp [exec, execHufTable, h]

/-- R147: the table is loaded and the check is next. -/
theorem exec_hufTable_completes (h : s.has s.tableLen = true) : exec .hufTable s =
    .next (((s.loadTree s.tableLen).advance s.tableLen).setPhase .hufCheck) := by
  simp [exec, execHufTable, h]

end Load

/-- Settles O27: with its byte there HUF.TSIZE is a silent token. -/
theorem hufTreeSizeByte : Obligations.HufTreeSizeByte := by
  refine ⟨fun b => by simp only [decode, decodeOne], fun n s => ⟨fun hin => ?_, fun hcut => ?_⟩⟩
  · have h1 := (has_iff s 1).2 hin
    exact ⟨_, exec_hufTSize_completes n h1, silent_of_eq _ 1 .hufTable h1⟩
  · exact exec_hufTSize_cut n ((has_false_iff s 1).2 hcut)

/-- Settles O28: what `TREE` holds after the load is loadTree_treeAt. -/
theorem hufTableLoad : Obligations.HufTableLoad := by
  refine fun s => ⟨fun hin => ?_, fun hcut => ?_⟩
  · have hT := (has_iff s s.tableLen).2 hin
    refine ⟨_, exec_hufTable_completes hT, ⟨sameHost_of_eq rfl rfl rfl rfl, rfl⟩,
      sameOut_of_eq rfl, rfl, advance_toNat hT, rfl, fun o ho => ?_, fun o ho => ?_⟩
    · exact (loadTree_treeAt s s.tableLen o).trans (if_pos ho)
    · exact (loadTree_treeAt s s.tableLen o).trans (if_neg (Nat.not_lt.2 ho))
  · exact exec_hufTable_cut ((has_false_iff s s.tableLen).2 hcut)

/-! ## The check -/

section Check
variable {tab : Nat → Byte} {T : Nat}

/-- R150, one call of `check`: both children in the table, and each of them a leaf or checked. -/
theorem treeCheck_succ_iff {fuel o : Nat} : treeCheck tab T (fuel + 1) o = true ↔
    child0 o (branchBase (tab o)) + 1 < T ∧ ∀ bit, branchLeaf (tab o) bit = true ∨
      treeCheck tab T fuel (childOf o (branchBase (tab o)) bit) = true := by
  have hlt : child0 o (branchBase (tab o)) < T ∧ child0 o (branchBase (tab o)) + 1 < T ↔
      child0 o (branchBase (tab o)) + 1 < T := by omega
  simp [treeCheck, hlt, childOf, and_assoc]

theorem lt_childOf (o : Nat) (base : BitVec 6) (bit : Bool) : o < childOf o base bit :=
  Nat.lt_add_right _ (child0_gt o base)

/-- The check of a reached offset passes when every reached branch has its children in the table: offsets
rise along a path (R155), so `T - o` calls are deep enough. -/
theorem treeCheck_of_reach
    (hgood : ∀ o, BranchReach tab o → child0 o (branchBase (tab o)) + 1 < T) (fuel : Nat) {o : Nat}
    (hr : BranchReach tab o) (hdeep : T ≤ o + fuel) : treeCheck tab T fuel o = true := by
  induction fuel generalizing o with
  | zero =>
    have hin := hgood o hr
    have hgt := child0_gt o (branchBase (tab o))
    omega
  | succ fuel ih =>
    refine treeCheck_succ_iff.2 ⟨hgood o hr, fun bit => ?_⟩
    cases hl : branchLeaf (tab o) bit with
    | true => exact .inl rfl
    | false =>
      have hgt := lt_childOf o (branchBase (tab o)) bit
      exact .inr (ih (.child bit hr hl) (by omega))

/-- R150: the check of the root passes exactly when every reached branch has its children in the table. -/
theorem treeCheck_root_iff : treeCheck tab T T 0 = true ↔
    ∀ o, BranchReach tab o →
      child0 o (branchBase (tab o)) < T ∧ child0 o (branchBase (tab o)) + 1 < T :=
  ⟨fun h _ hr => treeCheck_good (treeCheck_reach h hr),
    fun h => treeCheck_of_reach (fun o hr => (h o hr).2) T .root (Nat.le_add_left T 0)⟩

end Check

section CheckToken
variable {s : State}

theorem exec_hufCheck_fails (h : s.treeOk = false) :
    exec .hufCheck s = .next (s.raise .outOfBounds) := by
  simp [exec, execHufCheck, h]

/-- R150: after the check the walk stands at the root, with an empty window. -/
theorem exec_hufCheck_completes (h : s.treeOk = true) : exec .hufCheck s =
    .next ((s.setX { s.x with node := 0#10, bitCnt := 0#6 }).finishOr .hufBits) := by
  simp [exec, execHufCheck, h]

end CheckToken

/-- Settles O29: the check is reachability, treeCheck_root_iff. -/
theorem hufCheckVisitsEveryReachableBranch : Obligations.HufCheckVisitsEveryReachableBranch := by
  intro s T good
  have hok : s.treeOk = true ↔ good := treeCheck_root_iff
  refine ⟨fun hgood => ?_, fun hbad => ?_⟩
  · refine ⟨_, exec_hufCheck_completes (hok.2 hgood), ?_⟩
    rw [finishOr_eq]
    exact ⟨⟨sameHost_of_eq rfl rfl rfl rfl, rfl⟩, sameOut_of_eq rfl, sameTree_of_eq rfl, rfl, rfl, rfl⟩
  · exact exec_hufCheck_fails (Bool.eq_false_iff.2 (mt hok.1 hbad))

end Sys2Proof.Machine
end

section
/-! SUPPORT. The deserialised tree of 44_huffman.md R156 and the table it was made of. -/

namespace Sys2Proof.Machine

section Deserialise
variable {tab : Nat → Byte} {T : Nat}

/-- The child of a branch that `deserialise` makes for bit `bit`. -/
def childTree (tab : Nat → Byte) (T fuel o : Nat) (bit : Bool) : Option HufTree :=
  if branchLeaf (tab o) bit then some (.leaf (tab (childOf o (branchBase (tab o)) bit)))
  else deserialise tab T fuel (childOf o (branchBase (tab o)) bit)

/-- R150, R156: one call of `deserialise`. -/
theorem deserialise_succ (fuel o : Nat) : deserialise tab T (fuel + 1) o =
    if T ≤ child0 o (branchBase (tab o)) ∨ T ≤ child0 o (branchBase (tab o)) + 1 then none
    else (childTree tab T fuel o false).bind fun l => (childTree tab T fuel o true).map (.branch l) := by
  rw [deserialise]
  refine if_congr Iff.rfl rfl ?_
  change (match childTree tab T fuel o false, childTree tab T fuel o true with
    | some l, some r => some (HufTree.branch l r)
    | _, _ => none) = _
  cases childTree tab T fuel o false <;> cases childTree tab T fuel o true <;> rfl

theorem deserialise_succ_eq_some {fuel o : Nat} {tree : HufTree} :
    deserialise tab T (fuel + 1) o = some tree ↔
      child0 o (branchBase (tab o)) + 1 < T ∧ ∃ l r, tree = .branch l r ∧
        childTree tab T fuel o false = some l ∧ childTree tab T fuel o true = some r := by
  have hin : ¬ (T ≤ child0 o (branchBase (tab o)) ∨ T ≤ child0 o (branchBase (tab o)) + 1) ↔
      child0 o (branchBase (tab o)) + 1 < T := by omega
  rw [deserialise_succ, Option.ite_none_left_eq_some, hin]
  simp only [Option.bind_eq_some_iff, Option.map_eq_some_iff]
  exact and_congr_right fun _ => ⟨fun ⟨l, hl, r, hr, h⟩ => ⟨l, r, h.symm, hl, hr⟩,
    fun ⟨l, r, h, hl, hr⟩ => ⟨l, hl, r, hr, h.symm⟩⟩

/-- R156: deserialising succeeds exactly when the check passes, branch by branch. -/
theorem deserialise_isSome_iff (fuel : Nat) {o : Nat} :
    (deserialise tab T fuel o).isSome ↔ treeCheck tab T fuel o = true := by
  induction fuel generalizing o with
  | zero => simp [deserialise, treeCheck]
  | succ fuel ih =>
    have hchild : ∀ bit, (childTree tab T fuel o bit).isSome ↔ branchLeaf (tab o) bit = true ∨
        treeCheck tab T fuel (childOf o (branchBase (tab o)) bit) = true := fun bit => by
      cases hl : branchLeaf (tab o) bit <;> simp [childTree, hl, ih]
    simp only [treeCheck_succ_iff, Option.isSome_iff_exists, deserialise_succ_eq_some, ← hchild,
      Bool.forall_bool]
    constructor
    · rintro ⟨-, hin, l, r, -, hl, hr⟩
      exact ⟨hin, ⟨l, hl⟩, r, hr⟩
    · rintro ⟨hin, ⟨l, hl⟩, r, hr⟩
      exact ⟨_, hin, l, r, rfl, hl, hr⟩

/-- R152, R156: following bits in the tree made from offset `o` is walking the table from there. -/
theorem follow_eq_walkTable (fuel : Nat) {o : Nat} {tree : HufTree}
    (h : deserialise tab T fuel o = some tree) (bits : List Bool) :
    tree.follow bits = walkTable tab o bits := by
  induction fuel generalizing o tree bits with
  | zero => simp [deserialise] at h
  | succ fuel ih =>
    obtain ⟨-, l, r, rfl, hl, hr⟩ := deserialise_succ_eq_some.1 h
    cases bits with
    | nil => rfl
    | cons bit bits =>
      have hchild : childTree tab T fuel o bit = some (if bit then r else l) := by
        cases bit
        · exact hl
        · exact hr
      rw [HufTree.follow, walkTable]
      rw [childTree] at hchild
      split at hchild
      next hleaf =>
        rw [if_pos hleaf, ← Option.some.inj hchild, HufTree.follow]
      next hleaf =>
        rw [if_neg hleaf]
        exact ih hchild bits

end Deserialise

/-- Settles O35: by the depth of the recursion, deserialise_isSome_iff and follow_eq_walkTable. -/
theorem tableWalkEqualsDeserialisedTree : Obligations.TableWalkEqualsDeserialisedTree := by
  refine fun tab n => ⟨?_, fun tree h => follow_eq_walkTable _ h⟩
  rw [← Bool.not_eq_true, ← deserialise_isSome_iff, Option.not_isSome_iff_eq_none]

end Sys2Proof.Machine
end

section
/-! SUPPORT. A bit step of 44_huffman.md R151 to R153 in its two parts: the refill, and one bit taken at a
branch, which is the frame `BitStep`. -/

namespace Sys2Proof.Machine

/-! ## The refill (R151) -/

section Refill
variable {f : State → Answer} {s : State}

theorem afterRefill_of_bit (h : s.x.bitCnt ≠ 0#6) : afterRefill f s = f s := if_neg h

theorem afterRefill_of_word (h0 : s.x.bitCnt = 0#6) (h4 : s.has 4 = true) :
    afterRefill f s = f (s.refill s.nextWord) := by simp [afterRefill, h0, h4]

theorem afterRefill_cut (h0 : s.x.bitCnt = 0#6) (h4 : s.has 4 = false) :
    afterRefill f s = .next (s.raise .truncated) := by simp [afterRefill, h0, h4]

/-- A bit step from a state with the window refilled is one from the state before the refill. -/
theorem BitStep.of_refill {t : State} {w : BitVec 32} {leaf : Bool} {child : Nat}
    (h : BitStep (s.refill w) t w 32 0 leaf child) (h4 : s.has 4 = true) :
    BitStep s t w 32 4 leaf child where
  quiet := ⟨⟨h.quiet.host.params, h.quiet.host.mode, h.quiet.host.inLen, h.quiet.host.inp⟩, h.quiet.err⟩
  tree := h.tree
  pc := h.pc.trans (advance_toNat h4)
  bitWin := h.bitWin
  bitCnt := h.bitCnt
  atLeaf hl := by
    obtain ⟨⟨hlen, hnew, hold⟩, hrest⟩ := h.atLeaf hl
    exact ⟨⟨hlen, hnew, hold⟩, hrest⟩
  atBranch := h.atBranch
  regs := h.regs

end Refill

/-! ## One bit (R152, R153) -/

theorem bitCnt_takeBit {s : State} (h : s.x.bitCnt ≠ 0#6) :
    s.takeBit.x.bitCnt.toNat + 1 = s.x.bitCnt.toNat := by
  have hpos : s.x.bitCnt.toNat ≠ 0 := fun h0 => h (BitVec.eq_of_toNat_eq h0)
  have hone : (1#6).toNat ≤ s.x.bitCnt.toNat := Nat.pos_of_ne_zero hpos
  rw [takeBit_x, BitVec.toNat_sub_of_le hone]
  exact Nat.sub_add_cancel hone

section Branch
variable {l0 l1 bit : Bool} {base : BitVec 6} {s : State} (hnode : s.x.node.toNat < s.tableLen)
include hnode

theorem branchStep_of_leaf (hleaf : (if bit then l1 else l0) = true)
    (hchild : childOf s.x.node.toNat base bit < s.tableLen)
    (hcap : s.x.outLen.toNat + 1 ≤ s.params.outCap.toNat) : branchStep l0 l1 base bit s =
      .next (((s.setX { s.x with node := 0#10 }).emit
        (s.treeAt (childOf s.x.node.toNat base bit))).finishOr .hufBits) := by
  rw [branchStep, if_neg (Nat.not_le.2 hnode), hleaf]
  exact (if_pos hchild).trans (produce_of_le hcap)

theorem branchStep_of_branch (hleaf : (if bit then l1 else l0) = false) : branchStep l0 l1 base bit s =
    .next ((s.setX { s.x with node := BitVec.ofNat 10 (childOf s.x.node.toNat base bit) }).setPhase
      .hufBits) := by
  rw [branchStep, if_neg (Nat.not_le.2 hnode), hleaf]
  rfl

end Branch

section Bit
variable {s : State} (hcnt : s.x.bitCnt ≠ 0#6) (hnode : s.x.node.toNat < s.tableLen)
  (hcap : s.x.outLen.toNat + 1 ≤ s.params.outCap.toNat)
include hcnt hnode hcap

/-- With a bit in the window, the step at a branch whose child lies in the table. -/
theorem branchStep_bitStep (l0 l1 : Bool) (base : BitVec 6) (bit : Bool)
    (hchild : childOf s.x.node.toNat base bit < s.tableLen) :
    ∃ t, branchStep l0 l1 base bit s.takeBit = .next t ∧
      BitStep s t s.x.bitWin s.x.bitCnt.toNat 0 (if bit then l1 else l0)
        (childOf s.x.node.toNat base bit) := by
  cases hleaf : (if bit then l1 else l0) with
  | true =>
    refine ⟨_, branchStep_of_leaf (s := s.takeBit) hnode hleaf hchild hcap, ?_⟩
    rw [finishOr_eq]
    exact ⟨⟨sameHost_of_eq rfl rfl rfl rfl, rfl⟩, sameTree_of_eq rfl, rfl, rfl, bitCnt_takeBit hcnt,
      fun _ => ⟨appends_emitAll [_] rfl rfl rfl rfl (outLen_add_lt hcap), rfl, rfl⟩, nofun, rfl⟩
  | false =>
    have hT := tableLen_le s
    rw [Config.treeBytes] at hT
    have hwidth : childOf s.x.node.toNat base bit < 2 ^ 10 := by omega
    exact ⟨_, branchStep_of_branch (s := s.takeBit) hnode hleaf, ⟨sameHost_of_eq rfl rfl rfl rfl, rfl⟩,
      sameTree_of_eq rfl, rfl, rfl, bitCnt_takeBit hcnt, nofun,
      fun _ => ⟨sameOut_of_eq rfl, rfl, (BitVec.toNat_ofNat ..).trans (Nat.mod_eq_of_lt hwidth), rfl⟩,
      rfl⟩

/-- The step at the branch the walk stands on. -/
theorem walkBit_bitStep (bit : Bool)
    (hchild : childOf s.x.node.toNat (branchBase (s.treeAt s.x.node.toNat)) bit < s.tableLen) :
    ∃ t, walkBit bit s = .next t ∧
      BitStep s t s.x.bitWin s.x.bitCnt.toNat 0 (branchLeaf (s.treeAt s.x.node.toNat) bit)
        (childOf s.x.node.toNat (branchBase (s.treeAt s.x.node.toNat)) bit) := by
  have hleaf : branchLeaf (s.treeAt s.x.node.toNat) bit =
      if bit then branchLeaf (s.treeAt s.x.node.toNat) true
      else branchLeaf (s.treeAt s.x.node.toNat) false := by cases bit <;> rfl
  rw [hleaf]
  exact branchStep_bitStep hcnt hnode hcap _ _ _ bit hchild

end Bit

theorem bitCnt_refill_ne_zero (s : State) (w : BitVec 32) : (s.refill w).x.bitCnt ≠ 0#6 := by
  show 32#6 ≠ 0#6
  decide

/-! ## The tokens -/

theorem exec_hufBit (bit : Bool) (s : State) :
    exec (if bit then .hufBit1 else .hufBit0) s = afterRefill (walkBit bit) s := by
  cases bit <;> rfl

theorem exec_hufBr (l0 l1 : Bool) (base : BitVec 6) (s : State) : exec (.hufBr l0 l1 base) s =
    afterRefill (fun t => branchStep l0 l1 base t.x.bitWin.msb t.takeBit) s := rfl

/-- Settles O31: a bit token is a refill, then a bit step at the branch byte. -/
theorem hufBitTokens : Obligations.HufBitTokens := by
  refine fun bit s => ⟨fun hnode hchild hcap => ⟨fun h0 hin => ?_, fun h0 => ?_⟩, fun h0 hcut => ?_⟩
  · have h4 := (has_iff s 4).2 hin
    obtain ⟨t, ht, hbit⟩ := walkBit_bitStep (bitCnt_refill_ne_zero s s.nextWord) hnode hcap bit hchild
    exact ⟨t, by rw [exec_hufBit, afterRefill_of_word h0 h4, ht], hbit.of_refill h4⟩
  · obtain ⟨t, ht, hbit⟩ := walkBit_bitStep h0 hnode hcap bit hchild
    exact ⟨t, by rw [exec_hufBit, afterRefill_of_bit h0, ht], hbit⟩
  · rw [exec_hufBit, afterRefill_cut h0 ((has_false_iff s 4).2 hcut)]

/-- Settles O32: HUF.WORD is the refill with its word, then a bit step with the word's top bit. -/
theorem hufWordRefillsAndTakesItsFirstBit : Obligations.HufWordRefillsAndTakesItsFirstBit := by
  refine fun w s => ⟨fun hnode hchild hcap hin => ?_, fun hcut => ?_⟩
  · have h4 := (has_iff s 4).2 hin
    obtain ⟨t, ht, hbit⟩ := walkBit_bitStep (bitCnt_refill_ne_zero s w) hnode hcap _ hchild
    refine ⟨t, ?_, hbit.of_refill h4⟩
    simpa [exec, execHufWord, h4, BitVec.msb_eq_getLsbD_last] using ht
  · simp [exec, execHufWord, (has_false_iff s 4).2 hcut]

/-- HUF.LEAF emits its value and returns the walk to the root (R149). -/
theorem exec_hufLeaf_produces (v : Byte) {s : State}
    (hcap : s.x.outLen.toNat + 1 ≤ s.params.outCap.toNat) :
    ∃ t, exec (.hufLeaf v) s = .next t ∧ Produced s t 0 [v] { s.x with node := 0#10 } ∧
      t.phase = phaseAfter t .hufBits := by
  refine ⟨_, produce_of_le hcap, ?_⟩
  rw [finishOr_eq]
  exact ⟨⟨⟨sameHost_of_eq rfl rfl rfl rfl, rfl⟩, sameTree_of_eq rfl, rfl,
    appends_emitAll [v] rfl rfl rfl rfl (outLen_add_lt hcap), rfl⟩, rfl⟩

/-- Settles O33: HUF.BR is a refill, then a bit step at the token's own fields. -/
theorem hufTreeBytesAct : Obligations.HufTreeBytesAct := by
  refine ⟨fun l0 l1 base s => ?_, fun v s => exec_hufLeaf_produces v⟩
  intro word empty hnode hcap
  refine ⟨fun h0 hchild => ?_, fun h0 hin hchild => ?_, fun h0 hcut => ?_⟩
  · obtain ⟨t, ht, hbit⟩ := branchStep_bitStep (s := s) h0 hnode hcap l0 l1 base _ hchild
    exact ⟨t, by rw [exec_hufBr, afterRefill_of_bit h0, BitVec.msb_eq_getLsbD_last]; exact ht, hbit⟩
  · have h4 := (has_iff s 4).2 hin
    obtain ⟨t, ht, hbit⟩ := branchStep_bitStep (bitCnt_refill_ne_zero s s.nextWord) hnode hcap l0 l1 base
      _ hchild
    exact ⟨t, by rw [exec_hufBr, afterRefill_of_word h0 h4, BitVec.msb_eq_getLsbD_last]; exact ht,
      hbit.of_refill h4⟩
  · rw [exec_hufBr, afterRefill_cut h0 ((has_false_iff s 4).2 hcut)]

/-- Settles O34: both are the bit step at the fields of the byte at `NODE`. -/
theorem bitStepsAreTheBranchTokenAtNode : Obligations.BitStepsAreTheBranchTokenAtNode := by
  intro s i rest h0 hd
  obtain ⟨b, hb, rfl⟩ := decodeOne_token (f := decodeBranch) (by simpa only [decode] using hd)
  obtain ⟨rfl, -⟩ := List.cons_eq_cons.1 hb
  rw [exec_hufBit, decodeBranch, exec_hufBr, afterRefill_of_bit h0, afterRefill_of_bit h0,
    BitVec.msb_eq_getLsbD_last]
  rfl

end Sys2Proof.Machine
end

section
/-! SUPPORT. A Huffman call and the function of 44_huffman.md R157: the tree's checks in order, then the loop,
bit by bit. -/

namespace Sys2Proof.Machine

/-! ## The function -/

/-- The table of `huffman_decompress`, behind the header and the size byte (R145). -/
def tableOf (b : List Byte) (o : Nat) : Byte := byteOf b (5 + o)

/-- The checks of R157 behind a header of the Huffman type. -/
theorem huffmanDecompress_eq {b : List Byte} {p : BitVec 4} {size : BitVec 24}
    (hd : headerOf b = some (2#4, p, size)) :
    huffmanDecompress b =
      if b.length < 5 then .error .truncated
      else if b.length < 5 + tableLen (byteOf b 4) then .error .truncated
      else if !treeCheck (tableOf b) (tableLen (byteOf b 4)) (tableLen (byteOf b 4)) 0 then
        .error .outOfBounds
      else hufLoop b size.toNat (tableOf b) (510 * size.toNat) (5 + tableLen (byteOf b 4)) 0 0#32 0 [] := by
  simp only [huffmanDecompress, hd, ne_eq, not_true_eq_false, if_false]
  rfl

theorem huffmanDecompress_otherType {b : List Byte} (hd : ∀ p n, headerOf b ≠ some (2#4, p, n)) :
    huffmanDecompress b = .error .invalidFormat := by
  unfold huffmanDecompress
  split
  · rfl
  next hsome => rw [if_pos fun ht => hd _ _ (ht ▸ hsome)]

section Loop
variable {b : List Byte} {size : Nat} {tab : Nat → Byte} {pos node cnt : Nat} {win : BitVec 32}
  {out : List Byte}

/-- At the declared size the loop answers its output. -/
theorem hufLoop_full (n : Nat) (h : size ≤ out.length) :
    hufLoop b size tab n pos node win cnt out = .ok out := by
  cases n with
  | zero => rfl
  | succ n => rw [hufLoop, if_pos h]

/-- An empty window is not read. -/
theorem hufLoop_window (n : Nat) (win' : BitVec 32) :
    hufLoop b size tab n pos node win 0 out = hufLoop b size tab n pos node win' 0 out := by
  cases n with
  | zero => rfl
  | succ n => simp only [hufLoop, if_true]

variable (hlt : out.length < size)
include hlt

theorem hufLoop_cut (n : Nat) (h : b.length < pos + 4) :
    hufLoop b size tab (n + 1) pos node win 0 out = .error .truncated := by
  rw [hufLoop, if_neg (Nat.not_le.2 hlt), if_pos ⟨rfl, h⟩]

/-- R151: a refill is no turn of its own. -/
theorem hufLoop_refill (n : Nat) (h : pos + 4 ≤ b.length) :
    hufLoop b size tab (n + 1) pos node win 0 out =
      hufLoop b size tab (n + 1) (pos + 4) node
        (le32 (byteOf b pos) (byteOf b (pos + 1)) (byteOf b (pos + 2)) (byteOf b (pos + 3))) 32 out := by
  simp [hufLoop, Nat.not_le.2 hlt, Nat.not_lt.2 h]

/-- R152, R153: a turn with a bit in the window. -/
theorem hufLoop_bit (n : Nat) (hcnt : cnt ≠ 0) :
    hufLoop b size tab (n + 1) pos node win cnt out =
      if branchLeaf (tab node) win.msb then
        hufLoop b size tab n pos 0 (win <<< 1) (cnt - 1)
          (out ++ [tab (childOf node (branchBase (tab node)) win.msb)])
      else hufLoop b size tab n pos (childOf node (branchBase (tab node)) win.msb) (win <<< 1) (cnt - 1)
        out := by
  simp [hufLoop, Nat.not_le.2 hlt, hcnt]

end Loop

/-! ## The result still owed -/

/-- `TREE` holds the table of the input (R147). -/
def State.TableRead (s : State) : Prop := ∀ o, o < s.tableLen → s.treeAt o = tableOf s.inputBytes o

/-- What the bit loop makes of the state in `n` turns. -/
def State.hufOwed (s : State) (n : Nat) : DecodeResult :=
  hufLoop s.inputBytes s.x.size.toNat (tableOf s.inputBytes) n s.pc.toNat s.x.node.toNat s.x.bitWin
    s.x.bitCnt.toNat s.output

/-- While the tree is read, the size byte and the table are those of the input; in the bit phase the result
owed is that of the loop, with turns enough for the steps left. -/
def HufBody (r : DecodeResult) (s : State) : Prop :=
  (s.phase = .hufTSize ∧ s.pc.toNat = 4 ∧ huffmanDecompress s.inputBytes = r) ∨
  (s.phase = .hufTable ∧ s.pc.toNat = 5 ∧ s.x.treeN = byteOf s.inputBytes 4 ∧
    huffmanDecompress s.inputBytes = r) ∨
  (s.phase = .hufCheck ∧ s.pc.toNat = 5 + s.tableLen ∧ s.x.treeN = byteOf s.inputBytes 4 ∧ s.TableRead ∧
    huffmanDecompress s.inputBytes = r) ∨
  (s.phase = .hufBits ∧ s.TableRead ∧ ∃ n, s.stepsLeft ≤ n ∧ s.hufOwed n = r)

/-- What a Huffman call owes. -/
abbrev HufRest (r : DecodeResult) (s : State) : Prop := CallRest huffmanDecompress HufBody r s

theorem State.TableRead.of_sameTree {s t : State} (h : s.TableRead) (ht : SameTree s t)
    (hn : t.x.treeN = s.x.treeN) (hin : t.inputBytes = s.inputBytes) : t.TableRead := fun o ho => by
  rw [State.tableLen, hn] at ho
  rw [ht o, hin, h o ho]

/-- A state that completes at the declared size and else goes on in the bit phase. -/
theorem hufRest_of_loop {t : State} {n : Nat} {r : DecodeResult} (hp : t.phase = phaseAfter t .hufBits)
    (htab : t.TableRead) (hn : t.phase = .hufBits → t.stepsLeft ≤ n) (hr : t.hufOwed n = r) :
    HufRest r t :=
  callRest_of_phaseAfter hp rfl (by decide)
    (fun hfull => by rw [← hr, State.hufOwed, hufLoop_full n hfull])
    fun hpt => .inr (.inr (.inr ⟨hpt, htab, n, hn hpt, hr⟩))

/-! ## A bit step is a turn of the loop -/

section Bit
variable {s : State} (hlt : s.x.outLen.toNat < s.x.size.toNat)
include hlt

theorem hufOwed_refill (n : Nat) (h0 : s.x.bitCnt = 0#6) (h4 : s.has 4 = true) :
    (s.refill s.nextWord).hufOwed (n + 1) = s.hufOwed (n + 1) := by
  have hpos := (has_iff s 4).1 h4
  have hin : (s.refill s.nextWord).inputBytes = s.inputBytes :=
    KeepsHost.inputBytes ⟨rfl, rfl, rfl, rfl⟩
  have hout : (s.refill s.nextWord).output = s.output := output_congr rfl rfl
  have hword : s.nextWord = le32 (byteOf s.inputBytes s.pc.toNat) (byteOf s.inputBytes (s.pc.toNat + 1))
      (byteOf s.inputBytes (s.pc.toNat + 2)) (byteOf s.inputBytes (s.pc.toNat + 3)) := by
    rw [byteOf_inputBytes (by omega), byteOf_inputBytes (by omega), byteOf_inputBytes (by omega),
      byteOf_inputBytes (by omega), State.nextWord]
  rw [State.hufOwed, State.hufOwed, h0, hin, hout, refill_pc, advance_toNat h4]
  refine (Eq.trans ?_ (hufLoop_refill (by rwa [output_length]) n (by rwa [inputBytes_length])).symm)
  rw [← hword]
  rfl

variable {t : State} (hcnt : s.x.bitCnt ≠ 0#6) (htab : s.TableRead) (hin : t.inputBytes = s.inputBytes)
  (hnode : s.x.node.toNat < s.tableLen)
  (hchild : childOf s.x.node.toNat (branchBase (s.treeAt s.x.node.toNat)) s.x.bitWin.msb < s.tableLen)
include hcnt htab hin hnode hchild

theorem hufOwed_of_bitStep (n : Nat) (h : BitStep s t s.x.bitWin s.x.bitCnt.toNat 0
      (branchLeaf (s.treeAt s.x.node.toNat) s.x.bitWin.msb)
      (childOf s.x.node.toNat (branchBase (s.treeAt s.x.node.toNat)) s.x.bitWin.msb)) :
    t.hufOwed n = s.hufOwed (n + 1) := by
  have hcnt' : s.x.bitCnt.toNat ≠ 0 := fun h0 => hcnt (BitVec.eq_of_toNat_eq h0)
  have hleft : t.x.bitCnt.toNat = s.x.bitCnt.toNat - 1 := by rw [← h.bitCnt]; rfl
  have hsize : t.x.size = s.x.size := by rw [h.regs]
  rw [State.hufOwed, State.hufOwed, hufLoop_bit (by rwa [output_length]) n hcnt', ← htab _ hnode,
    ← htab _ hchild, hin, hsize, h.pc, h.bitWin, hleft]
  cases hleaf : branchLeaf (s.treeAt s.x.node.toNat) s.x.bitWin.msb with
  | true =>
    obtain ⟨happ, hroot, -⟩ := h.atLeaf hleaf
    rw [hroot, happ.output]
    rfl
  | false =>
    obtain ⟨hsame, hlen, hdown, -⟩ := h.atBranch hleaf
    have happ : Appends s t [] := ⟨congrArg BitVec.toNat hlen, nofun, fun a _ => hsame a⟩
    rw [hdown, happ.output, List.append_nil]
    rfl

theorem walkBit_hufRest {n : Nat} (hcap : s.x.size.toNat ≤ s.params.outCap.toNat)
    (hfew : t.phase = .hufBits → t.stepsLeft ≤ n) (h : walkBit s.x.bitWin.msb s = .next t) :
    HufRest (s.hufOwed (n + 1)) t := by
  obtain ⟨u, hu, hbit⟩ := walkBit_bitStep hcnt hnode (hlt.trans_le hcap) _ hchild
  rw [hu] at h
  cases h
  have htab' : t.TableRead := htab.of_sameTree hbit.tree (by rw [hbit.regs]) hin
  have hphase : t.phase = phaseAfter t .hufBits := by
    cases hleaf : branchLeaf (s.treeAt s.x.node.toNat) s.x.bitWin.msb with
    | true => exact (hbit.atLeaf hleaf).2.2
    | false =>
      obtain ⟨-, hlen, -, hp⟩ := hbit.atBranch hleaf
      rw [phaseAfter, if_neg (by rw [hbit.regs, hlen]; exact hlt.ne), hp]
  exact hufRest_of_loop hphase htab' hfew (hufOwed_of_bitStep hlt hcnt htab hin hnode hchild n hbit)

end Bit

/-! ## The steps of the body -/

section Step
variable {input : List Byte} {s t : State} {r : DecodeResult} (hok : CallOk 2#4 input s)
  (h : step s = .next t)
include hok

/-- In the body the header in `IN` is of the Huffman type and declares the size owed. -/
theorem huffman_header (hh : Headered s 2#4) (hp : s.phase ≠ .hdr) (hf : s.phase ≠ .fault) :
    headerOf s.inputBytes = some (2#4, s.x.param, s.x.size) := by
  rw [hok.input_eq, (hok.declared (by decide) hp hf).1, hh.type]

include h

/-- R146: the size byte. -/
theorem step_hufTSize_hufRest (hp : s.phase = .hufTSize) (hpc : s.pc.toNat = 4)
    (hr : huffmanDecompress s.inputBytes = r) : HufRest r t := by
  have hin := (step_keepsHost h).inputBytes
  obtain ⟨hh, -⟩ := (phaseInv_hufTSize hp).1 hok.phase
  rw [step_hufTSize hp] at h
  by_cases h1 : s.has 1 = true
  · have hpos := (has_iff s 1).1 h1
    rw [if_pos h1, exec_hufTSize_completes _ h1] at h
    cases h
    refine (callRest_body (by simp) rfl).2 (.inr (.inl ⟨rfl, ?_, ?_, by rw [hin, hr]⟩))
    · exact (advance_toNat h1).trans (by rw [hpc])
    · rw [hin, byteOf_inputBytes (by omega), ← hpc]
      rfl
  · rw [if_neg h1] at h
    cases h
    rw [has_iff] at h1
    rw [huffmanDecompress_eq (huffman_header hok hh (by simp [hp]) (by simp [hp])), inputBytes_length,
      if_pos (by omega)] at hr
    exact callRest_raise hr

/-- R147: the table. -/
theorem step_hufTable_hufRest (hp : s.phase = .hufTable) (hpc : s.pc.toNat = 5)
    (htn : s.x.treeN = byteOf s.inputBytes 4) (hr : huffmanDecompress s.inputBytes = r) : HufRest r t := by
  have hin := (step_keepsHost h).inputBytes
  obtain ⟨hh, -⟩ := (phaseInv_hufTable hp).1 hok.phase
  have hcur := hok.cursor (by rw [State.busy, State.status, hp]; rfl)
  rw [step_hufTable hp] at h
  by_cases hT : s.has s.tableLen = true
  · have hpos := (has_iff s _).1 hT
    rw [exec_hufTable_completes hT] at h
    cases h
    refine (callRest_body (by simp) rfl).2 (.inr (.inr (.inl ⟨rfl, ?_, by rw [hin]; exact htn,
      fun o ho => ?_, by rw [hin, hr]⟩)))
    · exact (advance_toNat hT).trans (by rw [hpc]; rfl)
    · have ho' : o < s.tableLen := ho
      rw [hin, tableOf, byteOf_inputBytes (by omega), ← hpc]
      exact (loadTree_treeAt s s.tableLen o).trans (if_pos ho)
  · rw [exec_hufTable_cut (by simpa using hT)] at h
    cases h
    rw [has_iff, State.tableLen, htn] at hT
    rw [huffmanDecompress_eq (huffman_header hok hh (by simp [hp]) (by simp [hp])), inputBytes_length,
      if_neg (by omega), if_pos (by omega)] at hr
    exact callRest_raise hr

/-- R150: the check, and the loop that starts behind it. -/
theorem step_hufCheck_hufRest (hp : s.phase = .hufCheck) (hpc : s.pc.toNat = 5 + s.tableLen)
    (htn : s.x.treeN = byteOf s.inputBytes 4) (htab : s.TableRead)
    (hr : huffmanDecompress s.inputBytes = r) : HufRest r t := by
  have hin := (step_keepsHost h).inputBytes
  obtain ⟨hh, hl, -⟩ := (phaseInv_hufCheck hp).1 hok.phase
  have hcur := hok.cursor (by rw [State.busy, State.status, hp]; rfl)
  have htl : tableLen (byteOf s.inputBytes 4) = s.tableLen := by rw [← htn]; rfl
  have hcheck : treeCheck (tableOf s.inputBytes) s.tableLen s.tableLen 0 = s.treeOk :=
    treeCheck_congr (fun o ho => (htab o ho).symm) _ (tableLen_pos s)
  rw [huffmanDecompress_eq (huffman_header hok hh (by simp [hp]) (by simp [hp])), inputBytes_length, htl,
    if_neg (by omega), if_neg (by omega), hcheck] at hr
  rw [step_hufCheck hp] at h
  cases hT : s.treeOk with
  | false =>
    rw [hT] at hr
    rw [exec_hufCheck_fails hT] at h
    cases h
    exact callRest_raise hr
  | true =>
    rw [hT] at hr
    rw [exec_hufCheck_completes hT] at h
    cases h
    have hout : ((s.setX { s.x with node := 0#10, bitCnt := 0#6 }).finishOr .hufBits).output = [] :=
      List.eq_nil_of_length_eq_zero (by rw [output_length, finishOr_x, setX_x, hl]; rfl)
    refine hufRest_of_loop (n := 510 * s.x.size.toNat) (by rw [finishOr_eq]; rfl)
      (htab.of_sameTree (sameTree_of_eq rfl) rfl hin) (fun hpt => ?_) ?_
    · rw [stepsLeft_hufBits hpt, State.owed, finishOr_x, setX_x]
      dsimp only
      omega
    · rw [State.hufOwed, hin, hout, finishOr_pc, setX_pc, hpc, ← hr]
      exact hufLoop_window _ _

/-- R151 to R153: a bit step, refilled or not. -/
theorem step_hufBits_hufRest {n : Nat} (hp : s.phase = .hufBits) (htab : s.TableRead)
    (hn : s.stepsLeft ≤ n) (hr : s.hufOwed n = r) : HufRest r t := by
  have hi := hok.phase
  have hb : s.busy = true := by rw [State.busy, State.status, hp]; rfl
  have hin := (step_keepsHost h).inputBytes
  obtain ⟨hh, hlt, -, -, hnode, -⟩ := (phaseInv_hufBits hp).1 hi
  obtain ⟨n, rfl⟩ : ∃ m, n = m + 1 := Nat.exists_eq_add_of_le' ((stepsLeft_pos hi hb).trans_le hn)
  have hfew : t.phase = .hufBits → t.stepsLeft ≤ n := fun hpt => by
    obtain ⟨u, hu, hgo⟩ := step_hufBits_advances hp hi (hok.cursor hb)
    rw [h] at hu
    cases hu
    exact Nat.le_of_lt_succ (((hgo.resolve_left (by simp [hpt])).fewer).trans_le hn)
  have hchild : ∀ bit, childOf s.x.node.toNat (branchBase (s.treeAt s.x.node.toNat)) bit < s.tableLen :=
    fun bit => (node_child_bounds hp hi bit).1
  rw [step_hufBits hp] at h
  rw [← hr]
  by_cases h0 : s.x.bitCnt = 0#6
  · by_cases h4 : s.has 4 = true
    · rw [afterRefill_of_word h0 h4] at h
      have hinR : (s.refill s.nextWord).inputBytes = s.inputBytes :=
        KeepsHost.inputBytes ⟨rfl, rfl, rfl, rfl⟩
      rw [← hufOwed_refill hlt n h0 h4]
      exact walkBit_hufRest (s := s.refill s.nextWord) hlt (bitCnt_refill_ne_zero s _)
        (htab.of_sameTree (sameTree_of_eq rfl) rfl hinR) (hin.trans hinR.symm) hnode (hchild _) hh.fits hfew h
    · rw [afterRefill_cut h0 (by simpa using h4)] at h
      cases h
      rw [has_iff, Nat.not_le] at h4
      refine callRest_raise ?_
      rw [State.hufOwed, h0]
      exact (hufLoop_cut (by rwa [output_length]) n (by rwa [inputBytes_length])).symm
  · rw [afterRefill_of_bit h0] at h
    exact walkBit_hufRest hlt h0 htab hin hnode (hchild _) hh.fits hfew h

/-- Every step of the body keeps the result owed. -/
theorem step_huf_hufRest (hb : HufBody r s) : HufRest r t := by
  obtain ⟨hp, hpc, hr⟩ | ⟨hp, hpc, htn, hr⟩ | ⟨hp, hpc, htn, htab, hr⟩ | ⟨hp, htab, n, hn, hr⟩ := hb
  · exact step_hufTSize_hufRest hok h hp hpc hr
  · exact step_hufTable_hufRest hok h hp hpc htn hr
  · exact step_hufCheck_hufRest hok h hp hpc htn htab hr
  · exact step_hufBits_hufRest hok h hp htab hn hr

/-- R95: in the Huffman mode a header with the Huffman type opens the tree, whatever size it declares, and any
other raises. -/
theorem step_hdr_hufRest (hp : s.phase = .hdr) (hfit : s.DeclaredFits) :
    HufRest (huffmanDecompress s.inputBytes) t := by
  have hin := (step_keepsHost h).inputBytes
  obtain ⟨p, n, hd, rfl⟩ | ⟨hno, rfl⟩ := step_hdr_ownType hp hok.mode_eq (.inr (.inl rfl)) hfit h
  · have hopen : openedPhase s (s.inAt 0) n = .hufTSize := by
      rw [openedPhase, ← type_of_headerOf hd]
      rfl
    rw [hopen] at hin ⊢
    exact (callRest_body (by simp) rfl).2 (.inl ⟨rfl, rfl, by rw [hin]⟩)
  · exact callRest_raise (huffmanDecompress_otherType hno).symm

end Step

/-- Settles O53: the header opens the tree, the tree's steps are the function's checks, and every bit step is
a turn of its loop. -/
theorem huffmanCallComputesItsFunction : Obligations.HuffmanCallComputesItsFunction :=
  fun _ _ h hlen hfit => decodeCall_computes (Body := HufBody) h hlen rfl hfit
    (fun _ _ hok hp hdecl hv => step_hdr_hufRest hok hv hp hdecl)
    fun _ _ _ hok hb hv => step_huf_hufRest hok hv hb

end Sys2Proof.Machine
end

section
/-! SUPPORT. The tokens of 45_wl4.md, the same for both control widths: the terminator, the reserved control,
and a run with the checks of R170 in order. -/

namespace Sys2Proof.Machine

/-! ## The type byte (R166 to R168) -/

theorem wl4TypeStep_opens {s : State} (v : BitVec 2) (p : Phase) (h : 1 ≤ s.inLen.toNat) :
    wl4TypeStep v p s = .next (((s.setX { s.x with wl4T := v }).setPc 1#32).setPhase p) :=
  if_neg (Nat.not_lt.2 h)

theorem exec_decodeWl4Type (b : Byte) (s : State) : exec (decodeWl4Type b) s =
    if b = 1#8 then exec .wl4T8 s else if b = 2#8 then exec .wl4T16 s
      else .next (s.raise .invalidFormat) := by
  rw [decodeWl4Type, exec_ite, exec_ite]
  rfl

theorem step_wl4Type_none {s : State} (hp : s.phase = .wl4Type) (h : s.inLen.toNat = 0) :
    step s = .next (s.raise .invalidFormat) := by
  rw [step_wl4Type hp, if_neg (by omega)]
  rfl

theorem step_wl4Type_byte {s : State} (hp : s.phase = .wl4Type) (h : 1 ≤ s.inLen.toNat) :
    step s = exec (decodeWl4Type (s.inAt 0)) s := by
  rw [step_wl4Type hp, if_pos h]

/-- Settles O36: the two legal type bytes open their phase (wl4TypeStep_opens), and the step reads the byte. -/
theorem wl4TypeBytes : Obligations.Wl4TypeBytes := by
  intro s
  have hopen (v : BitVec 2) (p : Phase) (h : 1 ≤ s.inLen.toNat) :
      ∃ t, wl4TypeStep v p s = .next t ∧ Quiet s t ∧ SameOut s t ∧ SameTree s t ∧
        t.pc.toNat = 1 ∧ t.x = { s.x with wl4T := v } ∧ t.phase = p :=
    ⟨_, wl4TypeStep_opens v p h, ⟨sameHost_of_eq rfl rfl rfl rfl, rfl⟩, sameOut_of_eq rfl,
      sameTree_of_eq rfl, rfl, rfl, rfl⟩
  refine ⟨fun h => ⟨hopen 1#2 .w8 h, hopen 2#2 .w16 h⟩, fun _ => rfl,
    fun hp => ⟨step_wl4Type_none hp, fun h => ?_⟩⟩
  rw [step_wl4Type_byte hp h, exec_decodeWl4Type]

/-! ## The terminator and the reserved control -/

section Exact
variable {s : State} {n : Nat}

theorem wl4End_completes (h : s.has n = true) :
    wl4End n s = .next ((s.advance n).setPhase .done) := by simp [wl4End, h]

theorem wl4End_cut (h : s.has n = false) : wl4End n s = .next (s.raise .truncated) := by
  simp [wl4End, h]

theorem wl4Rsv_refuses (h : s.has n = true) : wl4Rsv n s = .next (s.raise .invalidFormat) := by
  simp [wl4Rsv, h]

theorem wl4Rsv_cut (h : s.has n = false) : wl4Rsv n s = .next (s.raise .truncated) := by
  simp [wl4Rsv, h]

end Exact

/-- Settles O37: closed words for the decoder, and each meaning with its control field there or cut. -/
theorem wl4TerminatorsAndReservedControls : Obligations.Wl4TerminatorsAndReservedControls := by
  refine ⟨by decide, fun s => ?_⟩
  have hthere (n : Nat) (h : s.pc.toNat + n ≤ s.inLen.toNat) :
      (∃ t, wl4End n s = .next t ∧ Silent s t n s.x .done) ∧
        wl4Rsv n s = .next (s.raise .invalidFormat) := by
    have hn := (has_iff s n).2 h
    exact ⟨⟨_, wl4End_completes hn, silent_of_eq s.x n .done hn⟩, wl4Rsv_refuses hn⟩
  have hcut (n : Nat) (h : s.inLen.toNat < s.pc.toNat + n) :
      wl4End n s = .next (s.raise .truncated) ∧ wl4Rsv n s = .next (s.raise .truncated) := by
    have hn := (has_false_iff s n).2 h
    exact ⟨wl4End_cut hn, wl4Rsv_cut hn⟩
  exact ⟨hthere 1, hthere 2, hcut 1, hcut 2⟩

/-! ## A run (R170, R171) -/

/-- A run of the bytes `vs` by a token of `taken` bytes of `IN`, `n` of them its control field, with the
registers `x` and the next phase `p`. -/
def wl4Run (n taken : Nat) (x : Regs) (vs : List Byte) (p : Phase) (s : State) : Answer :=
  if !s.has n then .next (s.raise .truncated)
  else if s.params.outCap.toNat < s.x.outLen.toNat + vs.length then .next (s.raise .outOfBounds)
  else if !s.has taken then .next (s.raise .truncated)
  else produce s vs.length ((((s.setX x).advance taken).emitAll vs).setPhase p)

theorem wl4Lit_eq_wl4Run (n k : Nat) (p : Phase) (s : State) : wl4Lit n k p s =
    wl4Run n (n + k) { s.x with runLen := BitVec.ofNat 15 k } (s.inBytes (s.pc.toNat + n) k) p s := by
  simp only [wl4Lit, wl4Run, inBytes_length]

theorem wl4Rep_eq_wl4Run (n k : Nat) (p : Phase) (s : State) : wl4Rep n k p s =
    wl4Run n (n + 1)
      { s.x with runLen := BitVec.ofNat 15 k, runVal := s.inAt (s.pc.toNat + n) }
      (List.replicate k (s.inAt (s.pc.toNat + n))) p s := by
  simp only [wl4Rep, wl4Run, List.length_replicate]

section Run
variable {s : State} {n taken : Nat} {x : Regs} {vs : List Byte} {p : Phase}

/-- The length is known from the control field, so the capacity is tested before the payload is fetched. -/
theorem wl4Run_tooLong (hn : s.pc.toNat + n ≤ s.inLen.toNat)
    (hcap : s.params.outCap.toNat < s.x.outLen.toNat + vs.length) :
    wl4Run n taken x vs p s = .next (s.raise .outOfBounds) := by
  simp [wl4Run, (has_iff s n).2 hn, hcap]

theorem wl4Run_cut (h : s.inLen.toNat < s.pc.toNat + taken)
    (hcap : s.x.outLen.toNat + vs.length ≤ s.params.outCap.toNat) :
    wl4Run n taken x vs p s = .next (s.raise .truncated) := by
  simp [wl4Run, (has_false_iff s taken).2 h, Nat.not_lt.2 hcap]

theorem wl4Run_completes (hx : x.outLen = s.x.outLen) (hn : n ≤ taken)
    (hin : s.pc.toNat + taken ≤ s.inLen.toNat)
    (hcap : s.x.outLen.toNat + vs.length ≤ s.params.outCap.toNat) :
    ∃ t, wl4Run n taken x vs p s = .next t ∧ t.phase = p ∧ Produced s t taken vs x := by
  have htaken := (has_iff s taken).2 hin
  refine ⟨_, ?_, rfl, produced_emitAll x taken vs _ hx htaken (outLen_add_lt hcap) ⟨p, rfl⟩⟩
  simp [wl4Run, (has_iff s n).2 (by omega), htaken, Nat.not_lt.2 hcap, produce_of_le hcap]

end Run

section Outcomes
variable (n k : Nat) (p : Phase) (s : State)

/-- R170 in both widths: the run, the capacity, the payload. -/
theorem wl4Lit_outcomes :
    (s.pc.toNat + n + k ≤ s.inLen.toNat → s.x.outLen.toNat + k ≤ s.params.outCap.toNat →
      ∃ t, wl4Lit n k p s = .next t ∧ t.phase = p ∧
        Produced s t (n + k) (s.inBytes (s.pc.toNat + n) k)
          { s.x with runLen := BitVec.ofNat 15 k }) ∧
    (s.pc.toNat + n ≤ s.inLen.toNat → s.params.outCap.toNat < s.x.outLen.toNat + k →
      wl4Lit n k p s = .next (s.raise .outOfBounds)) ∧
    (s.inLen.toNat < s.pc.toNat + n + k → s.x.outLen.toNat + k ≤ s.params.outCap.toNat →
      wl4Lit n k p s = .next (s.raise .truncated)) := by
  have hlen : (s.inBytes (s.pc.toNat + n) k).length = k := inBytes_length ..
  rw [wl4Lit_eq_wl4Run, Nat.add_assoc]
  exact ⟨fun hin hcap => wl4Run_completes rfl (Nat.le_add_right n k) hin (by rwa [hlen]),
    fun hn hcap => wl4Run_tooLong hn (by rwa [hlen]), fun hcut hcap => wl4Run_cut hcut (by rwa [hlen])⟩

/-- R171 in both widths: as wl4Lit_outcomes, with one payload byte. -/
theorem wl4Rep_outcomes :
    (s.pc.toNat + (n + 1) ≤ s.inLen.toNat → s.x.outLen.toNat + k ≤ s.params.outCap.toNat →
      ∃ t, wl4Rep n k p s = .next t ∧ t.phase = p ∧
        Produced s t (n + 1) (List.replicate k (s.inAt (s.pc.toNat + n)))
          { s.x with runLen := BitVec.ofNat 15 k, runVal := s.inAt (s.pc.toNat + n) }) ∧
    (s.pc.toNat + n ≤ s.inLen.toNat → s.params.outCap.toNat < s.x.outLen.toNat + k →
      wl4Rep n k p s = .next (s.raise .outOfBounds)) ∧
    (s.inLen.toNat < s.pc.toNat + (n + 1) → s.x.outLen.toNat + k ≤ s.params.outCap.toNat →
      wl4Rep n k p s = .next (s.raise .truncated)) := by
  have hlen : (List.replicate k (s.inAt (s.pc.toNat + n))).length = k := List.length_replicate
  rw [wl4Rep_eq_wl4Run]
  exact ⟨fun hin hcap => wl4Run_completes rfl (Nat.le_add_right n 1) hin (by rwa [hlen]),
    fun hn hcap => wl4Run_tooLong hn (by rwa [hlen]), fun hcut hcap => wl4Run_cut hcut (by rwa [hlen])⟩

end Outcomes

/-! ## The tokens a control field decodes to -/

/-- The run flag is the top bit: the values below half the range have it clear. -/
theorem ite_msb {α : Sort _} {w : Nat} (c : BitVec (w + 1)) (a b : α) :
    (if c.msb then a else b) = if c.toNat < 2 ^ w then b else a := by
  have hflag : c.toNat < 2 ^ w ↔ c.msb = false := by
    rw [BitVec.msb_eq_false_iff_two_mul_lt, Nat.pow_succ]
    omega
  rw [if_congr hflag rfl rfl]
  cases c.msb <;> rfl

/-- 45_wl4.md R180: the token by the value of the control byte. -/
theorem decodeW8_toNat (c : Byte) : decodeW8 c =
    if c.toNat = 0 then .w8End
    else if c.toNat = 128 then .w8Rsv
    else if c.toNat < 128 then .w8Lit (c.setWidth 7)
    else .w8Rep (c.setWidth 7) := by
  rw [decodeW8, BitVec.setWidth_eq_extractLsb' (by decide)]
  exact if_congr BitVec.toNat_inj.symm rfl (if_congr BitVec.toNat_inj.symm rfl (ite_msb c _ _))

/-- 45_wl4.md R173: the token by the value of the control word. -/
theorem decodeW16_toNat (c : BitVec 16) : decodeW16 c =
    if c.toNat = 0 then .w16End
    else if c.toNat = 32768 then .w16Rsv
    else if c.toNat < 32768 then .w16Lit (c.setWidth 15)
    else .w16Rep (c.setWidth 15) := by
  rw [decodeW16, BitVec.setWidth_eq_extractLsb' (by decide)]
  exact if_congr BitVec.toNat_inj.symm rfl (if_congr BitVec.toNat_inj.symm rfl (ite_msb c _ _))

theorem decode_w8_one (b : Byte) : decode .w8 [b] = .token (decodeW8 b) [] := decode_w8 [b]

/-- The two byte orders write the same control word. -/
theorem decode_w16_two (hi lo : Byte) :
    decode (.w16 true) [hi, lo] = .token (decodeW16 (hi ++ lo)) [] ∧
      decode (.w16 false) [lo, hi] = .token (decodeW16 (hi ++ lo)) [] :=
  ⟨decode_w16 true [hi, lo], decode_w16 false [lo, hi]⟩

theorem append_toNat (hi lo : Byte) : (hi ++ lo).toNat = 256 * hi.toNat + lo.toNat :=
  (le16_toNat lo hi).trans (Nat.add_comm _ _)

/-- Settles O38: WL4 literal runs in both widths, wl4Lit_outcomes. -/
theorem wl4LiteralRuns : Obligations.Wl4LiteralRuns := by
  refine ⟨fun b h1 h2 => ?_, fun hi lo h1 h2 => ?_, fun len s => wl4Lit_outcomes 1 len.toNat .w8 s,
    fun len s => wl4Lit_outcomes 2 len.toNat .w16 s⟩
  · rw [decode_w8_one, decodeW8_toNat, if_neg (by omega), if_neg (by omega), if_pos (by omega)]
  · have hc := append_toNat hi lo
    have hdec : decodeW16 (hi ++ lo) = .w16Lit ((hi ++ lo).setWidth 15) := by
      rw [decodeW16_toNat, if_neg (by omega), if_neg (by omega), if_pos (by omega)]
    exact hdec ▸ decode_w16_two hi lo

/-- Settles O39: WL4 repeat runs in both widths, wl4Rep_outcomes. -/
theorem wl4RepeatRuns : Obligations.Wl4RepeatRuns := by
  refine ⟨fun b h1 => ?_, fun hi lo h1 => ?_, fun len s => wl4Rep_outcomes 1 len.toNat .w8 s,
    fun len s => wl4Rep_outcomes 2 len.toNat .w16 s⟩
  · rw [decode_w8_one, decodeW8_toNat, if_neg (by omega), if_neg (by omega), if_neg (by omega)]
  · have hc := append_toNat hi lo
    have hdec : decodeW16 (hi ++ lo) = .w16Rep ((hi ++ lo).setWidth 15) := by
      rw [decodeW16_toNat, if_neg (by omega), if_neg (by omega), if_neg (by omega)]
    exact hdec ▸ decode_w16_two hi lo

end Sys2Proof.Machine
end

section
/-! SUPPORT. A WL4 call and the loop of 45_wl4.md R179, turn by turn, in both control widths at once: the
width in bytes is the stream type (R165). -/

namespace Sys2Proof.Machine

/-! ## The control field at the cursor (R173, R180) -/

/-- The value of the control field of `W` bytes at the cursor. -/
def State.wl4Control (s : State) (W : Nat) : Nat :=
  if W = 1 then (s.inAt s.pc.toNat).toNat
  else (ctrl16 s.params.wl4Ctrl16BE (s.inAt s.pc.toNat) (s.inAt (s.pc.toNat + 1))).toNat

/-- The control value with the flag bit alone set. -/
def wl4Top (W : Nat) : Nat := if W = 1 then 128 else 32768

theorem Wl4Phase.width {p : Phase} {v : BitVec 2} (hv : Wl4Phase p v) : v.toNat = 1 ∨ v.toNat = 2 :=
  hv.imp (fun ⟨_, h⟩ => congrArg BitVec.toNat h) (fun ⟨_, h⟩ => congrArg BitVec.toNat h)

/-- The meaning that the control value at the cursor selects in phase `p`. -/
def wl4Token (W : Nat) (p : Phase) (s : State) : Answer :=
  if s.wl4Control W = 0 then wl4End W s
  else if s.wl4Control W = wl4Top W then wl4Rsv W s
  else if s.wl4Control W < wl4Top W then wl4Lit W (s.wl4Control W % wl4Top W) p s
  else wl4Rep W (s.wl4Control W % wl4Top W) p s

theorem step_wl4 {s : State} {v : BitVec 2} (hv : Wl4Phase s.phase v) : step s =
    if s.has v.toNat then wl4Token v.toNat s.phase s else .next (s.raise .truncated) := by
  rcases hv with ⟨hp, rfl⟩ | ⟨hp, rfl⟩
  · rw [step_w8 hp, decodeW8_toNat, exec_ite, exec_ite, exec_ite, hp]
    rfl
  · rw [step_w16 hp, decodeW16_toNat, exec_ite, exec_ite, exec_ite, hp]
    rfl

/-! ## The loop -/

/-- What the loop of `n` turns gives from the cursor and the output on. -/
def State.wl4Owed (s : State) (W n : Nat) : DecodeResult :=
  wl4Loop s.params.wl4Ctrl16BE s.params.outCap.toNat s.inputBytes W n s.pc.toNat s.output

/-- What a turn gives once its control field has chosen a run: `taken` bytes that give the bytes `vs`. -/
def State.wl4RunOwed (s : State) (W n taken : Nat) (vs : List Byte) : DecodeResult :=
  if s.params.outCap.toNat < s.x.outLen.toNat + vs.length then .error .outOfBounds
  else if s.inLen.toNat < s.pc.toNat + taken then .error .truncated
  else wl4Loop s.params.wl4Ctrl16BE s.params.outCap.toNat s.inputBytes W n (s.pc.toNat + taken)
    (s.output ++ vs)

section Loop
variable {s : State} {W : Nat} (n : Nat)

theorem wl4Owed_cut (h : ¬ s.has W = true) : s.wl4Owed W (n + 1) = .error .truncated := by
  rw [has_iff, Nat.not_le] at h
  rw [State.wl4Owed, wl4Loop, inputBytes_length, if_pos h]

/-- The control value the loop reads. -/
theorem wl4Control_eq (hW : W = 1 ∨ W = 2) (h : s.has W = true) :
    (if W = 1 then (byteOf s.inputBytes s.pc.toNat).toNat
      else (ctrl16 s.params.wl4Ctrl16BE (byteOf s.inputBytes s.pc.toNat)
        (byteOf s.inputBytes (s.pc.toNat + 1))).toNat) = s.wl4Control W := by
  rw [has_iff] at h
  rcases hW with rfl | rfl
  · rw [byteOf_inputBytes (by omega)]
    rfl
  · rw [byteOf_inputBytes (by omega), byteOf_inputBytes (by omega)]
    rfl

/-- A turn of the loop: the branches of wl4Token. -/
theorem wl4Owed_succ (hW : W = 1 ∨ W = 2) (h : s.has W = true) : s.wl4Owed W (n + 1) =
    if s.wl4Control W = 0 then .ok s.output
    else if s.wl4Control W = wl4Top W then .error .invalidFormat
    else if s.wl4Control W < wl4Top W then
      s.wl4RunOwed W n (W + s.wl4Control W % wl4Top W)
        (s.inBytes (s.pc.toNat + W) (s.wl4Control W % wl4Top W))
    else s.wl4RunOwed W n (W + 1)
      (List.replicate (s.wl4Control W % wl4Top W) (s.inAt (s.pc.toNat + W))) := by
  have hin := (has_iff s W).1 h
  rw [State.wl4Owed, wl4Loop, inputBytes_length, if_neg (Nat.not_lt.2 hin), wl4Control_eq hW h, output_length]
  refine if_congr Iff.rfl rfl (if_congr Iff.rfl rfl ?_)
  by_cases hlit : s.wl4Control W < wl4Top W
  · rw [if_pos hlit, State.wl4RunOwed, inBytes_length, ← Nat.add_assoc]
    refine if_congr Iff.rfl rfl ((if_pos hlit).trans (ite_congr rfl (fun _ => rfl) fun hfull => ?_))
    rw [← sliceOf_inputBytes (Nat.le_of_not_lt hfull)]
    rfl
  · rw [if_neg hlit, State.wl4RunOwed, List.length_replicate]
    refine if_congr Iff.rfl rfl ((if_neg hlit).trans
      (ite_congr (propext Nat.lt_succ_iff.symm) (fun _ => rfl) fun hfull => ?_))
    rw [byteOf_inputBytes (by omega)]
    rfl

end Loop

/-! ## The result of the call -/

/-- The call in state `s` will end with the result `r`. -/
inductive Wl4Rest (r : DecodeResult) (s : State) : Prop where
  /-- Before the type byte `r` is the function of the whole input. -/
  | opening (hp : s.phase = .wl4Type)
      (hr : wl4Decompress s.params.wl4Ctrl16BE s.params.outCap.toNat s.inputBytes = r)
  /-- In the body `r` is that of the loop, with turns enough for the steps left. -/
  | running {v : BitVec 2} {n : Nat} (hv : Wl4Phase s.phase v) (hn : s.stepsLeft ≤ n)
      (hr : s.wl4Owed v.toNat n = r)
  /-- Once the call is over `r` is its result. -/
  | ended (hr : s.result = some r)

section Rest
variable {s t : State} {v : BitVec 2} {r : DecodeResult}

theorem wl4Rest_raise {k : Err} (hr : .error k = r) : Wl4Rest r (s.raise k) := .ended (congrArg some hr)

theorem Wl4Rest.result_of_idle (hs : Wl4Rest r s) (hb : s.busy = false) : s.result = some r := by
  cases hs with
  | opening hp hr => simp [State.busy, State.status, Phase.status, hp] at hb
  | running hv hn hr =>
    rcases hv with ⟨hp, -⟩ | ⟨hp, -⟩ <;> simp [State.busy, State.status, Phase.status, hp] at hb
  | ended hr => exact hr

theorem result_of_busy (hb : s.busy = true) : s.result = none := by
  unfold State.result
  cases hp : s.phase <;> simp_all [State.busy, State.status, Phase.status]

/-- A run of the machine is the rest of a turn of the loop. -/
theorem wl4Run_wl4Rest {x : Regs} {taken n : Nat} {vs : List Byte}
    (h : wl4Run v.toNat taken x vs s.phase s = .next t) (hv : Wl4Phase s.phase v) (hk : KeepsHost s t)
    (hthere : s.has v.toNat = true) (hxl : x.outLen = s.x.outLen) (htaken : v.toNat ≤ taken)
    (hn : t.stepsLeft ≤ n) (hr : s.wl4RunOwed v.toNat n taken vs = r) : Wl4Rest r t := by
  rw [State.wl4RunOwed] at hr
  by_cases hcap : s.params.outCap.toNat < s.x.outLen.toNat + vs.length
  · rw [if_pos hcap] at hr
    rw [wl4Run_tooLong ((has_iff s _).1 hthere) hcap] at h
    cases h
    exact wl4Rest_raise hr
  rw [if_neg hcap] at hr
  by_cases hin : s.inLen.toNat < s.pc.toNat + taken
  · rw [if_pos hin] at hr
    rw [wl4Run_cut hin (Nat.le_of_not_lt hcap)] at h
    cases h
    exact wl4Rest_raise hr
  rw [if_neg hin] at hr
  obtain ⟨u, hu, hphase, hprod⟩ := wl4Run_completes (p := s.phase) hxl htaken (Nat.le_of_not_lt hin)
    (Nat.le_of_not_lt hcap)
  rw [hu] at h
  cases h
  refine .running (hphase ▸ hv) hn ?_
  rw [State.wl4Owed, hprod.quiet.host.params, hk.inputBytes, hprod.pc, hprod.out.output, hr]

/-- 45_wl4.md R169 to R177: a token of the body is a turn of the loop. -/
theorem wl4Token_wl4Rest {n : Nat} (h : wl4Token v.toNat s.phase s = .next t) (hv : Wl4Phase s.phase v)
    (hk : KeepsHost s t) (hthere : s.has v.toNat = true) (hn : t.stepsLeft ≤ n)
    (hr : s.wl4Owed v.toNat (n + 1) = r) : Wl4Rest r t := by
  rw [wl4Owed_succ n hv.width hthere] at hr
  rw [wl4Token] at h
  by_cases hend : s.wl4Control v.toNat = 0
  · rw [if_pos hend] at h hr
    rw [wl4End_completes hthere] at h
    cases h
    have hout : ((s.advance v.toNat).setPhase .done).output = s.output := output_congr rfl rfl
    exact .ended (congrArg some (hout ▸ hr))
  rw [if_neg hend] at h hr
  by_cases hrsv : s.wl4Control v.toNat = wl4Top v.toNat
  · rw [if_pos hrsv] at h hr
    rw [wl4Rsv_refuses hthere] at h
    cases h
    exact wl4Rest_raise hr
  rw [if_neg hrsv] at h hr
  by_cases hlit : s.wl4Control v.toNat < wl4Top v.toNat
  · rw [if_pos hlit] at h hr
    rw [wl4Lit_eq_wl4Run] at h
    exact wl4Run_wl4Rest h hv hk hthere rfl (Nat.le_add_right ..) hn hr
  · rw [if_neg hlit] at h hr
    rw [wl4Rep_eq_wl4Run] at h
    exact wl4Run_wl4Rest h hv hk hthere rfl (Nat.le_add_right ..) hn hr

/-- R166, R167: a legal type byte opens the loop at byte 1, with the byte's value as the control width. -/
theorem wl4TypeStep_wl4Rest {p : Phase} (h : wl4TypeStep v p s = .next t) (hv : Wl4Phase p v)
    (hl : 1 ≤ s.inLen.toNat) (hx : s.x = Regs.zero)
    (hr : wl4Loop s.params.wl4Ctrl16BE s.params.outCap.toNat s.inputBytes v.toNat s.inLen.toNat 1 [] = r) :
    Wl4Rest r t := by
  have hin := (wl4TypeStep_keepsHost h).inputBytes
  rw [wl4TypeStep_opens v p hl] at h
  cases h
  refine .running (n := s.inLen.toNat) hv ?_ ?_
  · rw [stepsLeft_wl4 hv]
    exact (Nat.sub_add_cancel hl).le
  · rw [State.wl4Owed, hin, State.output, setPhase_x, setPc_x, setX_x, hx]
    exact hr

theorem phaseInv_wl4Type (hp : s.phase = .wl4Type) :
    PhaseInv s ↔ s.pc = 0#32 ∧ s.x = Regs.zero ∧ s.mode = 4#4 := by rw [PhaseInv, hp]

/-- R166 to R168: the type step. -/
theorem step_wl4Type_wl4Rest (hi : PhaseInv s) (hp : s.phase = .wl4Type)
    (hr : wl4Decompress s.params.wl4Ctrl16BE s.params.outCap.toNat s.inputBytes = r)
    (h : step s = .next t) : Wl4Rest r t := by
  obtain ⟨-, hx, -⟩ := (phaseInv_wl4Type hp).1 hi
  rw [wl4Decompress, inputBytes_length] at hr
  by_cases hl : s.inLen.toNat < 1
  · rw [if_pos hl] at hr
    rw [step_wl4Type_none hp (Nat.lt_one_iff.1 hl)] at h
    cases h
    exact wl4Rest_raise hr
  rw [if_neg hl, byteOf_inputBytes (by omega)] at hr
  rw [step_wl4Type_byte hp (Nat.le_of_not_lt hl), exec_decodeWl4Type] at h
  by_cases h8 : s.inAt 0 = 1#8
  · rw [if_pos h8] at h hr
    exact wl4TypeStep_wl4Rest h (.inl ⟨rfl, rfl⟩) (Nat.le_of_not_lt hl) hx hr
  rw [if_neg h8] at h hr
  by_cases h16 : s.inAt 0 = 2#8
  · rw [if_pos h16] at h hr
    exact wl4TypeStep_wl4Rest h (.inr ⟨rfl, rfl⟩) (Nat.le_of_not_lt hl) hx hr
  · rw [if_neg h16] at h hr
    cases h
    exact wl4Rest_raise hr

/-- Every step of a WL4 call keeps the result still owed. -/
theorem step_wl4Rest {input : List Byte} (hok : CallOk 4#4 input s) (hb : s.busy = true)
    (hs : Wl4Rest r s) (h : step s = .next t) : Wl4Rest r t := by
  cases hs with
  | opening hp hr => exact step_wl4Type_wl4Rest hok.phase hp hr h
  | @running v n hv hn hr =>
    obtain ⟨u, hu, -, hless⟩ := hok.step hb
    obtain rfl : u = t := by rw [hu] at h; cases h; rfl
    obtain ⟨n, rfl⟩ : ∃ m, n = m + 1 := Nat.exists_eq_add_of_le' ((Nat.zero_lt_of_lt hless).trans_le hn)
    have hk := step_keepsHost h
    rw [step_wl4 hv] at h
    by_cases hthere : s.has v.toNat = true
    · rw [if_pos hthere] at h
      exact wl4Token_wl4Rest h hv hk hthere (by omega) hr
    · rw [if_neg hthere] at h
      cases h
      exact wl4Rest_raise (by rw [← hr, wl4Owed_cut n hthere])
  | ended hr => simp [result_of_busy hb] at hr

end Rest

/-- Settles O54: the type byte opens the loop and every step of the body is one turn of it. -/
theorem wl4CallComputesItsFunction : Obligations.Wl4CallComputesItsFunction := by
  intro s input h hlen
  have hin := (launched_callOk (mode := 4#4) h hlen).input_eq
  obtain ⟨-, -, -, hparams⟩ := start_keepsHost (s.loaded 4#4 input)
  refine decodeCall_of_keeps (P := Wl4Rest _) (fun _ _ hok hb hs hv => step_wl4Rest hok hb hs hv) h hlen
    (.opening ?_ ?_) fun t hb ht => ht.result_of_idle hb
  · rw [start_of_phase (s := s.loaded 4#4 input) h rfl]
  · rw [hin, hparams]
    rfl

end Sys2Proof.Machine
end

section
/-! SUPPORT. The streams of 48_reference_encoders.md as a decoder reads them: what stands at a position of a
list, the header of a compressed stream (R182), and the round trip of a compressor that is a function. -/

namespace Sys2Proof.Machine

/-! ## The list from a position on -/

section Position
variable {b rest : List Byte} {pos : Nat}

theorem length_of_drop {v : Byte} (h : b.drop pos = v :: rest) : b.length = pos + (rest.length + 1) := by
  have hlen := congrArg List.length h
  rw [List.length_drop, List.length_cons] at hlen
  omega

theorem add_length_le_of_drop {vs : List Byte} (h : b.drop pos = vs ++ rest) (hvs : 1 ≤ vs.length) :
    pos + vs.length ≤ b.length := by
  have hlen := congrArg List.length h
  rw [List.length_drop, List.length_append] at hlen
  omega

theorem drop_succ_of_drop {v : Byte} (h : b.drop pos = v :: rest) : b.drop (pos + 1) = rest := by
  rw [← List.drop_drop, h]
  rfl

theorem drop_add_of_drop {vs : List Byte} (h : b.drop pos = vs ++ rest) :
    b.drop (pos + vs.length) = rest := by
  rw [← List.drop_drop, h, List.drop_left]

theorem byteOf_of_drop {v : Byte} (h : b.drop pos = v :: rest) : byteOf b pos = v := by
  rw [byteOf, List.getD_eq_getElem?_getD, ← List.head?_drop, h]
  rfl

theorem sliceOf_of_drop {vs : List Byte} (h : b.drop pos = vs ++ rest) :
    sliceOf b pos vs.length = vs := by
  rw [sliceOf, h, List.take_left]

end Position

/-! ## Fields of a control byte or word -/

/-- A run's length under its flag bit. -/
theorem flag_or_length {w k : Nat} (h : k < 2 ^ w) :
    BitVec.twoPow (w + 1) w ||| BitVec.ofNat (w + 1) k = BitVec.ofNat (w + 1) (2 ^ w + k) := by
  have hadd : 2 ^ w ||| k = 2 ^ w + k := by simpa using (Nat.two_pow_add_eq_or_of_lt h 1).symm
  refine BitVec.eq_of_toNat_eq ?_
  rw [BitVec.toNat_or, BitVec.toNat_twoPow, BitVec.toNat_ofNat, BitVec.toNat_ofNat,
    Nat.mod_eq_of_lt (Nat.pow_lt_pow_succ (by decide)), Nat.mod_eq_of_lt (by omega), hadd,
    Nat.mod_eq_of_lt (by omega)]

/-! ## The header of a stream -/

/-- A header with its fields in range, and the body behind it. -/
def headedStream (type : BitVec 4) (parameter size : Nat) (body : List Byte) : List Byte :=
  (type ++ BitVec.ofNat 4 parameter) :: (sizeBytes (BitVec.ofNat 24 size) ++ body)

section Headed
variable {type : BitVec 4} {parameter size : Nat} {body : List Byte}

/-- R182: with both fields in range writing the header does not fail. -/
theorem withHeader_eq_ok (hp : parameter ≤ 0xF) (hn : size ≤ 0xFFFFFF) :
    withHeader type parameter size body = .ok (headedStream type parameter size body) := by
  rw [withHeader, writeHeader, if_neg (by omega)]
  rfl

theorem headedStream_length : (headedStream type parameter size body).length = body.length + 4 := rfl

theorem headedStream_drop : (headedStream type parameter size body).drop 4 = body := rfl

/-- R92 reads the fields that R182 writes. -/
theorem headerOf_headedStream : headerOf (headedStream type parameter size body) =
    some (type, BitVec.ofNat 4 parameter, BitVec.ofNat 24 size) := by
  have hhi : BitVec.extractLsb' 4 4 (type ++ BitVec.ofNat 4 parameter) = type :=
    BitVec.extractLsb'_append_eq_left
  have hlo : BitVec.extractLsb' 0 4 (type ++ BitVec.ofNat 4 parameter) = BitVec.ofNat 4 parameter :=
    BitVec.extractLsb'_append_eq_right
  rw [headerOf, if_neg (by rw [headedStream_length]; omega)]
  exact congrArg some (Prod.ext hhi (Prod.ext hlo (le24_byteAt _)))

/-- A stream of data that fits the capacity declares a size that fits it. -/
theorem headedStream_declares {cap : Nat} (hn : size ≤ 0xFFFFFF) (hcap : size ≤ cap) :
    ∀ t p n, headerOf (headedStream type parameter size body) = some (t, p, n) → n.toNat ≤ cap := by
  intro t p n h
  rw [headerOf_headedStream] at h
  cases h
  rwa [BitVec.toNat_ofNat, Nat.mod_eq_of_lt (by omega)]

end Headed

/-! ## The round trip of a compressor that is a function -/

/-- R193: the one stream that a reference compressor makes of the data decodes to the data. -/
theorem roundTrips_of_compress {s : State} {c : CodecPair} {d b : List Byte}
    {compress : List Byte → DecodeResult}
    (hc : ∀ x, c.Compresses s.params.wl4Ctrl16BE d x ↔ compress d = .ok x)
    (hb : compress d = .ok b) (hcall : decodeCall s c.mode b = some (.ok d)) : s.RoundTrips c d := by
  refine ⟨⟨b, (hc b).2 hb⟩, fun x hx => ?_⟩
  obtain rfl : b = x := Except.ok.inj (hb.symm.trans ((hc x).1 hx))
  exact hcall

end Sys2Proof.Machine
end

section
/-! SUPPORT. The runs of the reference RLE compressor (48_reference_encoders.md R183), read back by the loop of
41_rle.md R114 run by run. -/

namespace Sys2Proof.Machine

/-! ## The cut into runs -/

theorem countEq_le (v : Byte) (n : Nat) (ws : List Byte) : countEq v n ws ≤ n := by
  induction n generalizing ws with
  | zero => exact Nat.le_refl 0
  | succ n ih =>
    cases ws with
    | nil => exact Nat.zero_le _
    | cons w ws =>
      rw [countEq]
      split
      · exact Nat.succ_le_succ (ih ws)
      · exact Nat.zero_le _

/-- What is counted is a run. -/
theorem replicate_countEq_append (v : Byte) (n : Nat) (ws : List Byte) :
    List.replicate (countEq v n ws) v ++ ws.drop (countEq v n ws) = ws := by
  induction n generalizing ws with
  | zero => rfl
  | succ n ih =>
    cases ws with
    | nil => rfl
    | cons w ws =>
      rw [countEq]
      split
      next h => rw [h, List.replicate_succ, List.cons_append, List.drop_succ_cons, ih ws]
      · rfl

theorem literalAt_le (n : Nat) (d : List Byte) : literalAt n d ≤ n ∧ literalAt n d ≤ d.length := by
  induction n generalizing d with
  | zero => exact ⟨Nat.le_refl 0, Nat.zero_le _⟩
  | succ n ih =>
    cases d with
    | nil => exact ⟨Nat.zero_le _, Nat.le_refl 0⟩
    | cons v vs =>
      rw [literalAt]
      split
      · exact ⟨Nat.succ_le_succ (ih vs).1, Nat.succ_le_succ (ih vs).2⟩
      · exact ⟨Nat.zero_le _, Nat.zero_le _⟩

/-- R183, R194: the stream of nonempty data begins with a repeat run of 3 to 130 or a literal run of 1 to
128, and goes on with the stream of the data behind that run. -/
theorem rleRuns_cases (k : Nat) {d : List Byte} (hd : d ≠ []) :
    (∃ (r : Nat) (v : Byte) (rest : List Byte), 3 ≤ r ∧ r ≤ 130 ∧ d = List.replicate r v ++ rest ∧
      rleRuns (k + 1) d = (0x80#8 ||| BitVec.ofNat 8 (r - 3)) :: v :: rleRuns k rest) ∨
    (∃ lit rest : List Byte, 1 ≤ lit.length ∧ lit.length ≤ 128 ∧ d = lit ++ rest ∧
      rleRuns (k + 1) d = BitVec.ofNat 8 (lit.length - 1) :: (lit ++ rleRuns k rest)) := by
  cases d with
  | nil => exact absurd rfl hd
  | cons v vs =>
    rw [rleRuns]
    by_cases hr : 3 ≤ runAt (v :: vs)
    · refine .inl ⟨runAt (v :: vs), v, (v :: vs).drop (runAt (v :: vs)), hr,
        Nat.succ_le_succ (countEq_le v 129 vs), ?_, if_pos hr⟩
      exact (congrArg (v :: ·) (replicate_countEq_append v 129 vs)).symm
    · obtain ⟨h128, hlen⟩ := literalAt_le 128 (v :: vs)
      have htake : ((v :: vs).take (literalAt 128 (v :: vs))).length = literalAt 128 (v :: vs) :=
        List.length_take_of_le hlen
      have hpos : 1 ≤ literalAt 128 (v :: vs) := by
        rw [literalAt, if_pos (Nat.lt_of_not_le hr)]
        exact Nat.le_add_left 1 _
      refine .inr ⟨(v :: vs).take (literalAt 128 (v :: vs)), (v :: vs).drop (literalAt 128 (v :: vs)),
        by rwa [htake], by rwa [htake], (List.take_append_drop _ _).symm, ?_⟩
      rw [htake]
      exact if_neg hr

/-- A run takes at most two bytes per byte of data. -/
theorem rleRuns_length_le (k : Nat) (d : List Byte) : (rleRuns k d).length ≤ 2 * d.length := by
  induction k generalizing d with
  | zero => exact Nat.zero_le _
  | succ k ih =>
    by_cases hd : d = []
    · subst hd
      exact Nat.le_refl 0
    · obtain ⟨r, v, rest, h3, -, rfl, hrun⟩ | ⟨lit, rest, h1, -, rfl, hrun⟩ := rleRuns_cases k hd
      all_goals
        have hrest := ih rest
        rw [hrun]
        simp only [List.length_cons, List.length_append, List.length_replicate]
        omega

/-! ## The runs read back -/

section Turn
variable {b rest out : List Byte} {size pos : Nat} (n : Nat)

/-- A turn of the loop at a literal run. -/
theorem rleLoop_literal {lit : List Byte} (h1 : 1 ≤ lit.length) (h128 : lit.length ≤ 128)
    (hb : b.drop pos = BitVec.ofNat 8 (lit.length - 1) :: (lit ++ rest))
    (hfit : out.length + lit.length ≤ size) :
    rleLoop b size (n + 1) pos out = rleLoop b size n (pos + 1 + lit.length) (out ++ lit) := by
  have hc : (byteOf b pos).toNat = lit.length - 1 := by
    rw [byteOf_of_drop hb, BitVec.toNat_ofNat]
    omega
  have hlen := length_of_drop hb
  rw [List.length_append] at hlen
  rw [rleLoop, if_neg (by omega), if_neg (by omega)]
  dsimp only
  rw [hc, Nat.sub_add_cancel h1, if_pos (by omega), if_neg (by omega), if_neg (by omega),
    sliceOf_of_drop (drop_succ_of_drop hb)]

/-- A turn of the loop at a repeat run. -/
theorem rleLoop_repeat {r : Nat} {v : Byte} (h3 : 3 ≤ r) (h130 : r ≤ 130)
    (hb : b.drop pos = (0x80#8 ||| BitVec.ofNat 8 (r - 3)) :: v :: rest) (hfit : out.length + r ≤ size) :
    rleLoop b size (n + 1) pos out = rleLoop b size n (pos + 2) (out ++ List.replicate r v) := by
  have hc : (byteOf b pos).toNat = 128 + (r - 3) := by
    have hflag : 0x80#8 ||| BitVec.ofNat 8 (r - 3) = BitVec.ofNat 8 (128 + (r - 3)) :=
      flag_or_length (w := 7) (by omega)
    rw [byteOf_of_drop hb, hflag, BitVec.toNat_ofNat]
    omega
  have hlen := length_of_drop hb
  rw [List.length_cons] at hlen
  have hr : 128 + (r - 3) - 128 + 3 = r := by omega
  rw [rleLoop, if_neg (by omega), if_neg (by omega)]
  dsimp only
  rw [hc, hr, if_neg (by omega), if_neg (by omega), if_neg (by omega),
    byteOf_of_drop (drop_succ_of_drop hb)]

end Turn

/-- The loop appends the data whose runs stand at the cursor. -/
theorem rleLoop_rleRuns {b : List Byte} {size : Nat} (k : Nat) {n pos : Nat} {d out : List Byte}
    (hk : d.length ≤ k) (hn : d.length ≤ n) (hb : b.drop pos = rleRuns k d)
    (hsize : out.length + d.length = size) : rleLoop b size n pos out = .ok (out ++ d) := by
  induction k generalizing n pos d out with
  | zero =>
    obtain rfl : d = [] := List.eq_nil_of_length_eq_zero (Nat.le_zero.1 hk)
    rw [rleLoop_full _ _ _ hsize.ge, List.append_nil]
  | succ k ih =>
    by_cases hd : d = []
    · subst hd
      rw [rleLoop_full _ _ _ hsize.ge, List.append_nil]
    · have hpos := List.length_pos_iff.2 hd
      obtain ⟨n, rfl⟩ := Nat.exists_eq_add_of_le' (hpos.trans_le hn)
      obtain ⟨r, v, rest, h3, h130, rfl, hrun⟩ | ⟨lit, rest, h1, h128, rfl, hrun⟩ := rleRuns_cases k hd
      · rw [hrun] at hb
        simp only [List.length_append, List.length_replicate] at hk hn hsize
        rw [rleLoop_repeat n h3 h130 hb (by omega), ← List.append_assoc]
        refine ih (by omega) (by omega) (drop_succ_of_drop (drop_succ_of_drop hb)) ?_
        rw [List.length_append, List.length_replicate]
        omega
      · rw [hrun] at hb
        simp only [List.length_append] at hk hn hsize
        rw [rleLoop_literal n h1 h128 hb (by omega), ← List.append_assoc]
        refine ih (by omega) (by omega) (drop_add_of_drop (drop_succ_of_drop hb)) ?_
        rw [List.length_append]
        omega

/-! ## The round trip -/

section RoundTrip
variable {d : List Byte} (hd : d.length ≤ 0xFFFFFF)
include hd

theorem rleCompress_eq_ok :
    rleCompress d = .ok (headedStream 3#4 0 d.length (rleRuns d.length d)) :=
  withHeader_eq_ok (by decide) hd

theorem rleDecompress_rleRuns :
    rleDecompress (headedStream 3#4 0 d.length (rleRuns d.length d)) = .ok d := by
  have hsize : (BitVec.ofNat 24 d.length).toNat = d.length := Nat.mod_eq_of_lt (by omega)
  rw [rleDecompress, headerOf_headedStream]
  dsimp only
  rw [if_pos rfl, hsize]
  exact rleLoop_rleRuns d.length le_rfl le_rfl rfl (Nat.zero_add _)

end RoundTrip

/-- Settles O56: every run of the compressor is one turn of the loop, and the call computes the loop (O50). -/
theorem rleRoundTrip : Obligations.RleRoundTrip := by
  refine fun d hd => ⟨⟨_, rleCompress_eq_ok hd, rleDecompress_rleRuns hd⟩, fun s hs hcap => ?_⟩
  refine roundTrips_of_compress (c := .rle) (fun _ => Iff.rfl) (rleCompress_eq_ok hd) ?_
  have hlen := rleRuns_length_le d.length d
  rw [← rleDecompress_rleRuns hd]
  exact rleCallComputesItsFunction s _ hs (by rw [headedStream_length]; omega)
    (headedStream_declares hd hcap)

end Sys2Proof.Machine
end

section
/-! SUPPORT. The deltas of the reference delta filter (48_reference_encoders.md R184), summed back by the sums of
42_diff.md R125. -/

namespace Sys2Proof.Machine

/-! ## Deltas and sums -/

theorem prefixSumFrom_deltasFrom {w : Nat} (prev : BitVec w) (vs : List (BitVec w)) :
    prefixSumFrom prev (deltasFrom prev vs) = vs := by
  induction vs generalizing prev with
  | nil => rfl
  | cons v vs ih =>
    have hsum : prev + (v - prev) = v := by rw [BitVec.add_comm, BitVec.sub_add_cancel]
    rw [deltasFrom, prefixSumFrom, hsum, ih]

theorem prefixSum_deltas {w : Nat} (vs : List (BitVec w)) : prefixSum (deltas vs) = vs := by
  cases vs with
  | nil => rfl
  | cons v vs => exact congrArg (v :: ·) (prefixSumFrom_deltasFrom v vs)

theorem deltasFrom_length {w : Nat} (prev : BitVec w) (vs : List (BitVec w)) :
    (deltasFrom prev vs).length = vs.length := by
  induction vs generalizing prev with
  | nil => rfl
  | cons v vs ih => exact congrArg (· + 1) (ih v)

theorem deltas_length {w : Nat} (vs : List (BitVec w)) : (deltas vs).length = vs.length := by
  cases vs with
  | nil => rfl
  | cons v vs => exact congrArg (· + 1) (deltasFrom_length v vs)

/-! ## Words and bytes -/

theorem wordsOf_bytesOfWords (ws : List (BitVec 16)) : wordsOf (bytesOfWords ws) = ws := by
  induction ws with
  | nil => rfl
  | cons w ws ih => rw [bytesOfWords, wordsOf, le16_byteAt, ih]

theorem bytesOfWords_length (ws : List (BitVec 16)) : (bytesOfWords ws).length = 2 * ws.length := by
  induction ws with
  | nil => rfl
  | cons w ws ih => rw [bytesOfWords, List.length_cons, List.length_cons, ih, List.length_cons, Nat.mul_succ]

/-- Only an odd last byte belongs to no word. -/
theorem bytesOfWords_wordsOf {d : List Byte} (h : d.length % 2 = 0) : bytesOfWords (wordsOf d) = d := by
  induction d using wordsOf.induct with
  | case1 b0 b1 rest ih =>
    have hbytes : [byteAt (le16 b0 b1) 0, byteAt (le16 b0 b1) 1] = [b0, b1] := bytes16_le16 b0 b1
    have hrest : rest.length % 2 = 0 := by simpa [Nat.add_assoc] using h
    rw [wordsOf, bytesOfWords, ih hrest]
    exact congrArg (· ++ rest) hbytes
  | case2 b => exact absurd h (by simp)
  | case3 => rfl

/-- The delta words of 16-bit data take as many bytes as the data. -/
theorem deltaBytes16_length {d : List Byte} (h : d.length % 2 = 0) :
    (bytesOfWords (deltas (wordsOf d))).length = d.length := by
  rw [bytesOfWords_length, deltas_length, ← bytesOfWords_length, bytesOfWords_wordsOf h]

/-! ## The functions -/

/-- R125 on a stream whose body has the declared size. -/
theorem diffDecompress_headedStream {p : Nat} {body : List Byte} (hp : p = 1 ∨ p = 2)
    (hn : body.length ≤ 0xFFFFFF) (heven : p = 2 → body.length % 2 = 0) :
    diffDecompress (headedStream 8#4 p body.length body) = .ok
      (if p = 1 then prefixSum body else bytesOfWords (prefixSum (wordsOf body))) := by
  have hsize : (BitVec.ofNat 24 body.length).toNat = body.length := Nat.mod_eq_of_lt (by omega)
  have hbody : sliceOf (headedStream 8#4 p body.length body) 4 body.length = body :=
    sliceOf_of_drop (headedStream_drop.trans (List.append_nil body).symm)
  have hlen : ¬ (headedStream 8#4 p body.length body).length < 4 + body.length := by
    rw [headedStream_length]
    omega
  rw [diffDecompress, headerOf_headedStream]
  dsimp only
  rw [hsize, hbody, if_neg (not_not.2 rfl)]
  rcases hp with rfl | rfl
  · rw [if_neg (by decide), if_neg (by simp), if_neg hlen, if_pos rfl, if_pos rfl]
  · rw [if_neg (by decide), if_neg (by simpa using heven rfl), if_neg hlen, if_neg (by decide),
      if_neg (by decide)]

section RoundTrip
variable {d : List Byte} (hd : d.length ≤ 0xFFFFFF)
include hd

theorem diffCompress8_eq_ok : diffCompress8 d = .ok (headedStream 8#4 1 d.length (deltas d)) :=
  withHeader_eq_ok (by decide) hd

theorem diffDecompress_deltas8 : diffDecompress (headedStream 8#4 1 d.length (deltas d)) = .ok d := by
  have hlen := deltas_length d
  rw [← hlen, diffDecompress_headedStream (.inl rfl) (by rwa [hlen]) nofun, if_pos rfl, prefixSum_deltas]

theorem diffCompress16_eq_ok (heven : d.length % 2 = 0) : diffCompress16 d =
    .ok (headedStream 8#4 2 d.length (bytesOfWords (deltas (wordsOf d)))) := by
  rw [diffCompress16, if_neg (by omega)]
  exact withHeader_eq_ok (by decide) hd

theorem diffDecompress_deltas16 (heven : d.length % 2 = 0) :
    diffDecompress (headedStream 8#4 2 d.length (bytesOfWords (deltas (wordsOf d)))) = .ok d := by
  have hlen := deltaBytes16_length heven
  rw [← hlen, diffDecompress_headedStream (.inr rfl) (by rwa [hlen]) fun _ => by rwa [hlen],
    if_neg (by decide), wordsOf_bytesOfWords, prefixSum_deltas, bytesOfWords_wordsOf heven]

/-- A delta stream of the data's length is decoded by the call as by the function. -/
theorem decodeCall_deltas {s : State} (hs : s.status ≠ .busy) (hcap : d.length ≤ s.params.outCap.toNat)
    {p : Nat} {body : List Byte} (hlen : body.length = d.length)
    (hdec : diffDecompress (headedStream 8#4 p d.length body) = .ok d) :
    decodeCall s 8#4 (headedStream 8#4 p d.length body) = some (.ok d) := by
  rw [← hdec]
  exact diffCallComputesItsFunction s _ hs (by rw [headedStream_length]; omega)
    (headedStream_declares hd hcap)

end RoundTrip

/-- Settles O57: the sums of the deltas are the words, and the call computes the sums (O51). -/
theorem diffRoundTrip : Obligations.DiffRoundTrip := by
  refine fun d hd => ⟨⟨_, diffCompress8_eq_ok hd, diffDecompress_deltas8 hd⟩,
    fun heven => ⟨_, diffCompress16_eq_ok hd heven, diffDecompress_deltas16 hd heven⟩,
    fun hodd => if_pos hodd, fun s hs hcap => ⟨?_, fun heven => ?_⟩⟩
  · exact roundTrips_of_compress (c := .diff8) (fun _ => Iff.rfl) (diffCompress8_eq_ok hd)
      (decodeCall_deltas hd hs hcap (deltas_length d) (diffDecompress_deltas8 hd))
  · exact roundTrips_of_compress (c := .diff16) (fun _ => Iff.rfl) (diffCompress16_eq_ok hd heven)
      (decodeCall_deltas hd hs hcap (deltaBytes16_length heven) (diffDecompress_deltas16 hd heven))

end Sys2Proof.Machine
end

section
/-! SUPPORT. The reference LZ77 compressor's blocks are legal (48_reference_encoders.md R185, R187, R194). -/

namespace Sys2Proof.Machine

/-! ## The match search (R185) -/

section Match
variable (d : List Byte) (p : Nat)

theorem matchFrom_le (off n k : Nat) : matchFrom d p off n k ≤ n := by
  induction n generalizing k with
  | zero => exact Nat.le_refl 0
  | succ n ih =>
    rw [matchFrom]
    split
    · exact Nat.succ_le_succ (ih _)
    · exact Nat.zero_le _

/-- All of a match matches. -/
theorem matchFrom_self (off n k : Nat) : matchFrom d p off (matchFrom d p off n k) k = matchFrom d p off n k := by
  induction n generalizing k with
  | zero => rfl
  | succ n ih =>
    rw [matchFrom]
    split
    next h => rw [matchFrom, if_pos h, ih]
    · rfl

theorem matchLen_le (off : Nat) : matchLen d p off ≤ min 18 (d.length - p) := matchFrom_le d p off _ 0

/-- A candidate of the search, if it matches at all, is the match at an offset from `minOff` up and below
`top`. -/
def IsMatchBelow (minOff top : Nat) (best : Nat × Nat) : Prop :=
  1 ≤ best.2 → minOff ≤ best.1 ∧ best.1 < top ∧ best.2 = matchLen d p best.1

theorem bestMatch_isMatchBelow {minOff top : Nat} (n : Nat) {off : Nat} {best : Nat × Nat}
    (hmin : minOff ≤ off) (hn : n ≤ top - off) (hbest : IsMatchBelow d p minOff top best) :
    IsMatchBelow d p minOff top (bestMatch d p n off best) := by
  induction n generalizing off best with
  | zero => exact hbest
  | succ n ih =>
    refine ih (by omega) (by omega) ?_
    split
    · exact fun _ => ⟨hmin, by omega, rfl⟩
    · exact hbest

end Match

/-! ## The blocks (R187) -/

/-- R187 for a backreference at the head of the blocks. -/
theorem lzLegal_ref_iff {d : List Byte} {m p off len : Nat} {bs : List Block} :
    lzLegal d m p (.ref off len :: bs) = true ↔
      m ≤ off ∧ off ≤ min 4096 p ∧ 3 ≤ len ∧ len ≤ 18 ∧ p + len ≤ d.length ∧
        matchFrom d p off len 0 = len ∧ lzLegal d m (p + len) bs = true := by
  simp only [lzLegal, Bool.and_eq_true, decide_eq_true_eq, beq_iff_eq, and_assoc]

/-- R187 for a literal at the head of the blocks. -/
theorem lzLegal_lit_iff {d : List Byte} {m p : Nat} {v : Byte} {bs : List Block} :
    lzLegal d m p (.lit v :: bs) = true ↔
      p < d.length ∧ byteOf d p = v ∧ lzLegal d m (p + 1) bs = true := by
  simp only [lzLegal, Bool.and_eq_true, decide_eq_true_eq, beq_iff_eq, and_assoc]

theorem lzLegal_nil_iff {d : List Byte} {m p : Nat} : lzLegal d m p [] = true ↔ p = d.length := by
  rw [lzLegal, beq_iff_eq]

theorem lzLegal_lzBlocks (d : List Byte) (m n : Nat) {p : Nat} (hp : p ≤ d.length)
    (hn : d.length ≤ p + n) : lzLegal d m p (lzBlocks d m n p) = true := by
  induction n generalizing p with
  | zero => exact lzLegal_nil_iff.2 (by omega)
  | succ n ih =>
    rw [lzBlocks]
    split
    next hend => exact lzLegal_nil_iff.2 (by omega)
    next hmore =>
      dsimp only
      split
      next h3 =>
        obtain ⟨hlo, hhi, hlen⟩ := bestMatch_isMatchBelow d p (minOff := m) (top := min 4096 p + 1) _ le_rfl
          le_rfl (best := (0, 0)) nofun (by omega)
        have hmax := matchLen_le d p (bestMatch d p (min 4096 p + 1 - m) m (0, 0)).1
        rw [← hlen] at hmax
        refine lzLegal_ref_iff.2 ⟨hlo, Nat.le_of_lt_succ hhi, h3, by omega, by omega, ?_,
          ih (by omega) (by omega)⟩
        rw [hlen]
        exact matchFrom_self d p _ _ 0
      · exact lzLegal_lit_iff.2 ⟨by omega, rfl, ih (by omega) (by omega)⟩

/-- Settles O59: the best match is a match at a legal offset, and it covers at least one byte. -/
theorem referenceLzBlocksAreLegal : Obligations.ReferenceLzBlocksAreLegal :=
  fun d m _ => lzLegal_lzBlocks d m d.length (Nat.zero_le _) (Nat.le_add_left ..)

end Sys2Proof.Machine
end

section
/-! SUPPORT. A legal block sequence (48_reference_encoders.md R187), emitted in the groups of R186 and read back
by the loops of 43_lz77.md R138 block by block. -/

namespace Sys2Proof.Machine

/-! ## The data below a position -/

section Below
variable {d : List Byte} {p : Nat}

theorem byteOf_take {j : Nat} (h : j < p) : byteOf (d.take p) j = byteOf d j := by
  rw [byteOf, byteOf, List.getD_eq_getElem?_getD, List.getD_eq_getElem?_getD, List.getElem?_take_of_lt h]

theorem take_append_byteOf (h : p < d.length) : d.take p ++ [byteOf d p] = d.take (p + 1) := by
  rw [byteOf, List.getD_eq_getElem?_getD, List.getElem?_eq_getElem h, Option.getD_some,
    List.take_append_getElem]

/-- The copy of a match from its index `k` on is the data, overlapping or not (43_lz77.md R134). -/
theorem copyList_match {off : Nat} (h1 : 1 ≤ off) (hp : off ≤ p) (n : Nat) {k : Nat}
    (hfit : p + k + n ≤ d.length) (hmatch : matchFrom d p off n k = n) :
    copyList (d.take (p + k)) off n = d.take (p + k + n) := by
  induction n generalizing k with
  | zero => rfl
  | succ n ih =>
    rw [matchFrom] at hmatch
    split at hmatch
    next heq =>
      have hsource : byteOf (d.take (p + k)) (p + k - off) = byteOf d (p + k) := by
        rw [byteOf_take (by omega), ← heq, Nat.sub_add_comm hp]
      have hend : p + k + (n + 1) = p + (k + 1) + n := by omega
      rw [copyList, List.length_take_of_le (by omega), hsource, take_append_byteOf (by omega), hend]
      exact ih (by omega) (Nat.succ.inj hmatch)
    · exact absurd hmatch (Nat.succ_ne_zero n).symm

end Below

/-! ## The bytes of a block (R186) -/

/-- The number of bytes a block stands for. -/
def Block.len : Block → Nat
  | .lit _ => 1
  | .ref _ len => len

/-- A legal block covers at least one byte of the data, and the blocks behind it are legal. -/
theorem lzLegal_tail {d : List Byte} {m p : Nat} {blk : Block} {bs : List Block}
    (h : lzLegal d m p (blk :: bs) = true) :
    1 ≤ blk.len ∧ p + blk.len ≤ d.length ∧ lzLegal d m (p + blk.len) bs = true := by
  cases blk with
  | lit v =>
    obtain ⟨hp, -, hrest⟩ := lzLegal_lit_iff.1 h
    exact ⟨Nat.le_refl 1, hp, hrest⟩
  | ref off len =>
    obtain ⟨-, -, h3, -, hfit, -, hrest⟩ := lzLegal_ref_iff.1 h
    exact ⟨Nat.le_of_lt (Nat.lt_of_succ_lt h3), hfit, hrest⟩

/-- 30_encoding.md R67, R74: a backreference in range is read as it was written. -/
theorem ref_bytes_fields {off len : Nat} (h3 : 3 ≤ len) (h18 : len ≤ 18) (h1 : 1 ≤ off)
    (h4096 : off ≤ 4096) :
    ∃ b0 b1 : Byte, (Block.ref off len).bytes = [b0, b1] ∧ len = b0.toNat / 16 + 3 ∧
      off = b0.toNat % 16 * 256 + b1.toNat + 1 := by
  refine ⟨_, _, rfl, ?_, ?_⟩
  · rw [← typeNibble_toNat, BitVec.extractLsb'_append_eq_left, BitVec.toNat_ofNat]
    omega
  · rw [← paramNibble_toNat, BitVec.extractLsb'_append_eq_right, BitVec.toNat_ofNat, BitVec.toNat_ofNat]
    omega

/-- A block of a chunk, read back. -/
theorem lzChunkThen_block {d b rest : List Byte} {m p pos k : Nat} {mask : Byte} {blk : Block}
    {bs : List Block} (n : Nat) (hm : 1 ≤ m) (hlegal : lzLegal d m p (blk :: bs) = true)
    (hmask : mask.getLsbD k = blk.isRef) (hb : b.drop pos = blk.bytes ++ rest) :
    lzChunkThen b d.length mask (k + 1) n pos (d.take p) =
      lzChunkThen b d.length mask k n (pos + blk.bytes.length) (d.take (p + blk.len)) := by
  obtain ⟨hpos, hfit, -⟩ := lzLegal_tail hlegal
  have hout : (d.take p).length = p := List.length_take_of_le (by omega)
  have hlt : (d.take p).length < d.length := by omega
  cases blk with
  | lit v =>
    obtain ⟨hp, hv, -⟩ := lzLegal_lit_iff.1 hlegal
    have hlen := length_of_drop hb
    rw [lzChunkThen_lit hlt n hmask, if_neg (by omega), byteOf_of_drop hb, ← hv, take_append_byteOf hp]
    rfl
  | ref off len =>
    obtain ⟨hmin, hmax, h3, h18, hfit, hmatch, -⟩ := lzLegal_ref_iff.1 hlegal
    obtain ⟨b0, b1, hbytes, hl, ho⟩ := ref_bytes_fields h3 h18 (hm.trans hmin) (by omega)
    rw [hbytes] at hb
    have hlen := length_of_drop (drop_succ_of_drop hb)
    rw [← byteOf_of_drop hb] at hl ho
    rw [← byteOf_of_drop (drop_succ_of_drop hb)] at ho
    rw [lzChunkThen_ref hlt n hmask hl ho, if_neg (by omega), if_neg (by rw [hout]; omega)]
    exact congrArg _ (copyList_match (k := 0) (hm.trans hmin) (by omega) len hfit hmatch)

/-! ## The groups (R186) -/

/-- Bit `7 - i` of a group's mask is the flag of its block `i`. -/
theorem groupMask_getLsbD (g : List Block) {i : Nat} (hi : i < 8) :
    (groupMask g).getLsbD (7 - i) = (g.map Block.isRef).getD i false := by
  unfold groupMask
  interval_cases i <;> simp only [BitVec.getLsbD_append] <;> simp

/-- With `k` blocks of the chunk left, the mask gives the flags of the next `k` blocks. -/
def Announces (mask : Byte) (k : Nat) (bs : List Block) : Prop :=
  ∀ i, i < k → mask.getLsbD (k - 1 - i) = (bs.map Block.isRef).getD i false

theorem Announces.head {mask : Byte} {k : Nat} {blk : Block} {bs : List Block}
    (h : Announces mask (k + 1) (blk :: bs)) : mask.getLsbD k = blk.isRef := h 0 (Nat.succ_pos k)

theorem Announces.tail {mask : Byte} {k : Nat} {blk : Block} {bs : List Block}
    (h : Announces mask (k + 1) (blk :: bs)) : Announces mask k bs := fun i hi => by
  have hbit : k - 1 - i = k + 1 - 1 - (i + 1) := by omega
  rw [hbit]
  exact h (i + 1) (Nat.succ_lt_succ hi)

theorem announces_groupMask (bs : List Block) : Announces (groupMask (bs.take 8)) 8 bs := fun i hi => by
  rw [groupMask_getLsbD _ hi, List.map_take, List.getD_eq_getElem?_getD, List.getElem?_take_of_lt hi,
    ← List.getD_eq_getElem?_getD]

/-- The bytes of the blocks with `k` blocks of the chunk left. -/
def blocksStream (groups k : Nat) (bs : List Block) : List Byte :=
  (bs.take k).flatMap Block.bytes ++ lzGroups groups (bs.drop k)

theorem blocksStream_succ (groups k : Nat) (blk : Block) (bs : List Block) :
    blocksStream groups (k + 1) (blk :: bs) = blk.bytes ++ blocksStream groups k bs :=
  List.append_assoc ..

theorem blocksStream_zero (groups : Nat) (blk : Block) (bs : List Block) :
    blocksStream (groups + 1) 0 (blk :: bs) =
      groupMask ((blk :: bs).take 8) :: blocksStream groups 8 (blk :: bs) := rfl

/-- R187: the loops complete the data whose legal blocks stand at the cursor. -/
theorem lzChunkThen_legal {d b : List Byte} {m : Nat} (hm : 1 ≤ m) (bs : List Block)
    {p pos k n groups : Nat} {mask : Byte} (hlegal : lzLegal d m p bs = true)
    (hmask : Announces mask k bs) (hb : b.drop pos = blocksStream groups k bs)
    (hgroups : bs.length ≤ groups + k) (hn : d.length ≤ p + (n + k)) :
    lzChunkThen b d.length mask k n pos (d.take p) = .ok d := by
  induction bs generalizing p pos k n groups mask with
  | nil =>
    obtain rfl := lzLegal_nil_iff.1 hlegal
    rw [List.take_length, lzChunkThen_full n (Nat.le_refl _)]
  | cons blk bs ih =>
    obtain ⟨hpos, hfit, hrest⟩ := lzLegal_tail hlegal
    have hblock {pos k n groups : Nat} {mask : Byte} (hmask : Announces mask (k + 1) (blk :: bs))
        (hb : b.drop pos = blocksStream groups (k + 1) (blk :: bs))
        (hgroups : bs.length ≤ groups + k) (hn : d.length ≤ p + 1 + (n + k)) :
        lzChunkThen b d.length mask (k + 1) n pos (d.take p) = .ok d := by
      rw [blocksStream_succ] at hb
      rw [lzChunkThen_block n hm hlegal hmask.head hb]
      exact ih hrest hmask.tail (drop_add_of_drop hb) hgroups (by omega)
    cases k with
    | succ k =>
      rw [List.length_cons] at hgroups
      exact hblock hmask hb (by omega) (by omega)
    | zero =>
      rw [List.length_cons] at hgroups
      obtain ⟨n, rfl⟩ : ∃ j, n = j + 1 := Nat.exists_eq_add_of_le' (by omega)
      obtain ⟨groups, rfl⟩ : ∃ j, groups = j + 1 := Nat.exists_eq_add_of_le' (by omega)
      rw [blocksStream_zero] at hb
      have hlen := length_of_drop hb
      have hout : (d.take p).length < d.length := by
        rw [List.length_take_of_le (by omega)]
        omega
      rw [lzChunkThen_zero, lzLoop_succ hout, if_neg (by omega), byteOf_of_drop hb]
      exact hblock (announces_groupMask _) (drop_succ_of_drop hb) (by omega) (by omega)

/-! ## The stream -/

theorem blockBytes_length_le (g : List Block) : (g.flatMap Block.bytes).length ≤ 2 * g.length := by
  induction g with
  | nil => exact Nat.le_refl 0
  | cons blk g ih =>
    have hblk : blk.bytes.length ≤ 2 := by cases blk <;> simp [Block.bytes]
    rw [List.flatMap_cons, List.length_append, List.length_cons]
    omega

/-- A block takes at most two bytes, and a group one more. -/
theorem lzGroups_length_le (n : Nat) (bs : List Block) : (lzGroups n bs).length ≤ 3 * bs.length := by
  induction n generalizing bs with
  | zero => exact Nat.zero_le _
  | succ n ih =>
    cases bs with
    | nil => exact Nat.le_refl 0
    | cons blk bs =>
      have hgroup := blockBytes_length_le ((blk :: bs).take 8)
      have hrest := ih ((blk :: bs).drop 8)
      rw [lzGroups, List.length_cons, List.length_append]
      rw [List.length_take] at hgroup
      rw [List.length_drop] at hrest
      rw [List.length_cons] at hgroup hrest ⊢
      omega

theorem lzLegal_length_le {d : List Byte} {m p : Nat} {bs : List Block} (h : lzLegal d m p bs = true) :
    p + bs.length ≤ d.length := by
  induction bs generalizing p with
  | nil => exact (lzLegal_nil_iff.1 h).le
  | cons blk bs ih =>
    obtain ⟨hpos, -, hrest⟩ := lzLegal_tail h
    have hlen := ih hrest
    rw [List.length_cons]
    omega

section RoundTrip
variable {d : List Byte} (hd : d.length ≤ 0xFFFFFF)
include hd

theorem lzStream_eq_ok (bs : List Block) : lzStream d.length bs =
    .ok (headedStream 1#4 0 d.length (lzGroups bs.length bs)) :=
  withHeader_eq_ok (by decide) hd

variable {m : Nat} {bs : List Block} (hm : 1 ≤ m) (h : lzLegal d m 0 bs = true)
include hm h

theorem lz77Decompress_legal :
    lz77Decompress (headedStream 1#4 0 d.length (lzGroups bs.length bs)) = .ok d := by
  have hsize : (BitVec.ofNat 24 d.length).toNat = d.length := Nat.mod_eq_of_lt (by omega)
  rw [lz77Decompress, headerOf_headedStream]
  dsimp only
  rw [if_pos rfl, hsize, ← lzChunkThen_zero (m := 0#8)]
  exact lzChunkThen_legal hm bs h (fun i hi => absurd hi (Nat.not_lt_zero i)) headedStream_drop
    (Nat.le_refl _) (Nat.le_add_left ..)

theorem decodeCall_legal {s : State} (hs : s.status ≠ .busy) (hcap : d.length ≤ s.params.outCap.toNat)
    (hc : s.params.outCommit16 = false) :
    decodeCall s 1#4 (headedStream 1#4 0 d.length (lzGroups bs.length bs)) = some (.ok d) := by
  have hgroups := lzGroups_length_le bs.length bs
  have hblocks := lzLegal_length_le h
  rw [← lz77Decompress_legal hd hm h]
  exact lzCallComputesItsFunction s _ hs (by rw [headedStream_length]; omega) hc
    (headedStream_declares hd hcap)

end RoundTrip

/-- Settles O58: every legal block is a block of the loops, and the call computes the loops (O52). -/
theorem lzRoundTripForEveryLegalPolicy : Obligations.LzRoundTripForEveryLegalPolicy := by
  refine ⟨fun d m bs hd hm h => ⟨_, lzStream_eq_ok hd bs, lz77Decompress_legal hd hm h,
    fun s hs hcap hc => decodeCall_legal hd hm h hs hcap hc⟩, fun d m s hd hm hs hcap hc => ?_⟩
  exact roundTrips_of_compress (c := .lz77 m) (fun _ => Iff.rfl) (compress := (lz77Compress · m))
    (lzStream_eq_ok hd _) (decodeCall_legal hd (by omega) (referenceLzBlocksAreLegal d m hm) hs hcap hc)

end Sys2Proof.Machine
end

section
/-! SUPPORT. The legal WL4 streams (48_reference_encoders.md R190, R191), read back by the loop of 45_wl4.md
R179 run by run, in both control widths at once: the width in bytes is the stream type (R165). -/

namespace Sys2Proof.Machine

/-! ## Control fields (R173, R180) -/

/-- A control field of `W` bytes with the value `c`. -/
def wl4ControlBytes (be : Bool) (W c : Nat) : List Byte :=
  if W = 1 then [BitVec.ofNat 8 c] else ctrlBytes be (BitVec.ofNat 16 c)

/-- The value of the control field of `W` bytes at a position. -/
def wl4ControlAt (be : Bool) (b : List Byte) (W pos : Nat) : Nat :=
  if W = 1 then (byteOf b pos).toNat else (ctrl16 be (byteOf b pos) (byteOf b (pos + 1))).toNat

theorem one_lt_wl4Top (W : Nat) : 1 < wl4Top W := by
  unfold wl4Top
  split <;> decide

/-- 20_memory.md R45: the two bytes of a control word are read as they are written. -/
theorem ctrlBytes_fields (be : Bool) (c : BitVec 16) :
    ∃ b0 b1, ctrlBytes be c = [b0, b1] ∧ ctrl16 be b0 b1 = c := by
  cases be with
  | false => exact ⟨_, _, rfl, le16_byteAt c⟩
  | true => exact ⟨_, _, rfl, le16_byteAt c⟩

section Width
variable {W : Nat} (hW : W = 1 ∨ W = 2)
include hW

theorem wl4ControlBytes_length (be : Bool) (c : Nat) : (wl4ControlBytes be W c).length = W := by
  rcases hW with rfl | rfl
  · rfl
  · cases be <;> rfl

theorem wl4ControlAt_bytes {be : Bool} {b rest : List Byte} {pos c : Nat} (hc : c < 2 * wl4Top W)
    (hb : b.drop pos = wl4ControlBytes be W c ++ rest) : wl4ControlAt be b W pos = c := by
  rcases hW with rfl | rfl
  · have hbyte : byteOf b pos = BitVec.ofNat 8 c := byteOf_of_drop hb
    rw [wl4ControlAt, if_pos rfl, hbyte, BitVec.toNat_ofNat]
    exact Nat.mod_eq_of_lt hc
  · obtain ⟨b0, b1, hbytes, hword⟩ := ctrlBytes_fields be (BitVec.ofNat 16 c)
    have hdrop : b.drop pos = b0 :: b1 :: rest := hb.trans (congrArg (· ++ rest) hbytes)
    rw [wl4ControlAt, if_neg (by decide), byteOf_of_drop hdrop, byteOf_of_drop (drop_succ_of_drop hdrop),
      hword, BitVec.toNat_ofNat]
    exact Nat.mod_eq_of_lt hc

end Width

/-! ## The bytes of a run -/

/-- The value of a run's control field: its length, under the flag for a repeat run. -/
def Wl4Run.control (W : Nat) : Wl4Run → Nat
  | .lit vs => vs.length
  | .rep k _ => wl4Top W + k

/-- The bytes behind a run's control field. -/
def Wl4Run.payload : Wl4Run → List Byte
  | .lit vs => vs
  | .rep _ v => [v]

/-- A run's form with control fields of `W` bytes. -/
def Wl4Run.bytes (be : Bool) (W : Nat) (r : Wl4Run) : List Byte :=
  if W = 1 then r.bytes8 else r.bytes16 be

theorem Wl4Run.expand_length (r : Wl4Run) : r.expand.length = r.len := by
  cases r with
  | lit vs => rfl
  | rep k v => exact List.length_replicate

theorem Wl4Run.payload_length_le {r : Wl4Run} (h : 1 ≤ r.len) : r.payload.length ≤ r.len := by
  cases r with
  | lit vs => exact Nat.le_refl _
  | rep k v => exact h

theorem Wl4Run.control_lt {W : Nat} {r : Wl4Run} (hr : r.len < wl4Top W) : r.control W < 2 * wl4Top W := by
  cases r with
  | lit vs => exact hr.trans_le (Nat.le_mul_of_pos_left _ (by decide))
  | rep k v => exact (Nat.add_lt_add_left hr _).trans_eq (Nat.two_mul _).symm

/-- A run's control value is neither the terminator nor the reserved one, and it gives the length. -/
theorem Wl4Run.control_isRun {W : Nat} {r : Wl4Run} (h1 : 1 ≤ r.len) (hr : r.len < wl4Top W) :
    r.control W ≠ 0 ∧ r.control W ≠ wl4Top W ∧ r.control W % wl4Top W = r.len := by
  cases r with
  | lit vs => exact ⟨Nat.ne_of_gt h1, Nat.ne_of_lt hr, Nat.mod_eq_of_lt hr⟩
  | rep k v =>
    have hlt : wl4Top W < wl4Top W + k := Nat.lt_add_of_pos_right h1
    exact ⟨Nat.ne_zero_of_lt hlt, hlt.ne', (Nat.add_mod_left _ _).trans (Nat.mod_eq_of_lt hr)⟩

section Width
variable {W : Nat} (hW : W = 1 ∨ W = 2) {r : Wl4Run} (hr : r.len < wl4Top W)
include hW hr

theorem Wl4Run.bytes_eq (be : Bool) : r.bytes be W = wl4ControlBytes be W (r.control W) ++ r.payload := by
  cases r with
  | lit vs => rcases hW with rfl | rfl <;> rfl
  | rep k v =>
    rcases hW with rfl | rfl
    · exact congrArg (fun c => [c, v]) (flag_or_length (w := 7) hr)
    · exact congrArg (fun c => ctrlBytes be c ++ [v]) (flag_or_length (w := 15) hr)

theorem Wl4Run.bytes_length (be : Bool) : (r.bytes be W).length = W + r.payload.length := by
  rw [Wl4Run.bytes_eq hW hr, List.length_append, wl4ControlBytes_length hW]

end Width

/-! ## The runs read back -/

section Turn
variable {be : Bool} {cap W : Nat} {b rest out : List Byte} {pos : Nat} (n : Nat) (hW : W = 1 ∨ W = 2)
include hW

theorem wl4Width_pos : 1 ≤ W := by
  rcases hW with rfl | rfl <;> decide

/-- A turn of the loop at a run. -/
theorem wl4Loop_run {r : Wl4Run} (h1 : 1 ≤ r.len) (hr : r.len < wl4Top W)
    (hb : b.drop pos = r.bytes be W ++ rest) (hcap : out.length + r.len ≤ cap) :
    wl4Loop be cap b W (n + 1) pos out =
      wl4Loop be cap b W n (pos + (r.bytes be W).length) (out ++ r.expand) := by
  have hpos := wl4Width_pos hW
  have hlen := Wl4Run.bytes_length hW hr be
  have hin := add_length_le_of_drop hb (by omega)
  rw [Wl4Run.bytes_eq hW hr, List.append_assoc] at hb
  have hpayload : b.drop (pos + W) = r.payload ++ rest := by
    rw [← wl4ControlBytes_length hW be (r.control W)]
    exact drop_add_of_drop hb
  have hc := wl4ControlAt_bytes hW (Wl4Run.control_lt hr) hb
  have htop : (if W = 1 then 128 else 32768) = wl4Top W := rfl
  obtain ⟨hend, hrsv, hk⟩ := Wl4Run.control_isRun h1 hr
  rw [wl4ControlAt] at hc
  rw [wl4Loop, if_neg (by omega)]
  dsimp only
  rw [hc, htop, hk, if_neg hend, if_neg hrsv, if_neg (Nat.not_lt.2 hcap)]
  rw [hlen, ← Nat.add_assoc] at hin ⊢
  cases r with
  | lit vs =>
    refine (if_pos hr).trans ((if_neg (Nat.not_lt.2 hin)).trans ?_)
    exact congrArg (fun vs => wl4Loop be cap b W n _ (out ++ vs)) (sliceOf_of_drop hpayload)
  | rep k v =>
    refine (if_neg (Nat.not_lt.2 (Nat.le_add_right _ k))).trans ((if_neg (Nat.not_le.2 hin)).trans ?_)
    exact congrArg (fun v => wl4Loop be cap b W n _ (out ++ List.replicate k v)) (byteOf_of_drop hpayload)

/-- The loop ends at the terminator. -/
theorem wl4Loop_terminator (hb : b.drop pos = wl4ControlBytes be W 0 ++ rest) :
    wl4Loop be cap b W (n + 1) pos out = .ok out := by
  have hlen := wl4ControlBytes_length hW be 0
  have hin := add_length_le_of_drop hb (by rw [hlen]; exact wl4Width_pos hW)
  have htop := one_lt_wl4Top W
  have hc := wl4ControlAt_bytes hW (by omega) hb
  rw [wl4ControlAt] at hc
  rw [wl4Loop, if_neg (by omega)]
  dsimp only
  rw [hc, if_pos rfl]

/-- The loop appends what the runs at the cursor stand for. -/
theorem wl4Loop_runs {runs : List Wl4Run} (hruns : ∀ r ∈ runs, 1 ≤ r.len ∧ r.len < wl4Top W)
    (hb : b.drop pos = runs.flatMap (Wl4Run.bytes be W) ++ wl4ControlBytes be W 0)
    (hn : b.length < pos + n) (hcap : out.length + (runs.flatMap Wl4Run.expand).length ≤ cap) :
    wl4Loop be cap b W n pos out = .ok (out ++ runs.flatMap Wl4Run.expand) := by
  have hpos := wl4Width_pos hW
  induction runs generalizing pos n out with
  | nil =>
    have hend : b.drop pos = wl4ControlBytes be W 0 ++ [] := hb.trans (List.append_nil _).symm
    have hin := add_length_le_of_drop hend (by rwa [wl4ControlBytes_length hW])
    obtain ⟨n, rfl⟩ : ∃ j, n = j + 1 := Nat.exists_eq_add_of_le' (by omega)
    rw [wl4Loop_terminator n hW hend, List.flatMap_nil, List.append_nil]
  | cons r runs ih =>
    obtain ⟨⟨h1, hr⟩, hrest⟩ := List.forall_mem_cons.1 hruns
    have hlen := Wl4Run.bytes_length hW hr be
    rw [List.flatMap_cons, List.append_assoc] at hb
    rw [List.flatMap_cons, List.length_append, Wl4Run.expand_length] at hcap
    have hin := add_length_le_of_drop hb (by omega)
    obtain ⟨n, rfl⟩ : ∃ j, n = j + 1 := Nat.exists_eq_add_of_le' (by omega)
    rw [wl4Loop_run n hW h1 hr hb (by omega), List.flatMap_cons, ← List.append_assoc]
    refine ih n hrest (drop_add_of_drop hb) (by omega) ?_
    rw [List.length_append, Wl4Run.expand_length]
    omega

end Turn

/-! ## The streams -/

/-- The legal streams of R190 of stream type `W`, in either sub-format. -/
def Wl4StreamOf (be : Bool) (W : Nat) (d out : List Byte) : Prop :=
  ∃ runs : List Wl4Run, (∀ r ∈ runs, 1 ≤ r.len ∧ r.len < wl4Top W) ∧ runs.flatMap Wl4Run.expand = d ∧
    out = BitVec.ofNat 8 W :: (runs.flatMap (Wl4Run.bytes be W) ++ wl4ControlBytes be W 0)

theorem wl4StreamOf_one_iff (be : Bool) (d out : List Byte) :
    Wl4StreamOf be 1 d out ↔ Wl4Compressed8 d out :=
  exists_congr fun _ => and_congr_left' (forall₂_congr fun _ _ => and_congr_right' Nat.lt_succ_iff)

theorem wl4StreamOf_two_iff (be : Bool) (d out : List Byte) :
    Wl4StreamOf be 2 d out ↔ Wl4Compressed16 be d out := by
  have hend : wl4ControlBytes be 2 0 = [0x00#8, 0x00#8] := by cases be <;> rfl
  unfold Wl4StreamOf
  rw [hend]
  exact exists_congr fun _ => and_congr_left' (forall₂_congr fun _ _ => and_congr_right' Nat.lt_succ_iff)

/-- R191: the combined codec keeps one of the two streams. -/
theorem Wl4Compressed.eq_or {be : Bool} {d out : List Byte} (h : Wl4Compressed be d out) :
    Wl4Compressed8 d out ∨ Wl4Compressed16 be d out := by
  obtain ⟨o8, o16, h8, h16, rfl⟩ := h
  split
  · exact .inl h8
  · exact .inr h16

/-- Every legal stream is one of the two sub-formats. -/
theorem exists_wl4StreamOf {be : Bool} {d out : List Byte}
    (h : Wl4Compressed8 d out ∨ Wl4Compressed16 be d out ∨ Wl4Compressed be d out) :
    ∃ W, (W = 1 ∨ W = 2) ∧ Wl4StreamOf be W d out := by
  have h2 : Wl4Compressed8 d out ∨ Wl4Compressed16 be d out :=
    h.elim .inl fun h => h.elim .inr Wl4Compressed.eq_or
  exact h2.elim (fun h8 => ⟨1, .inl rfl, (wl4StreamOf_one_iff be d out).2 h8⟩)
    fun h16 => ⟨2, .inr rfl, (wl4StreamOf_two_iff be d out).2 h16⟩

/-- The cut of the data into single literals is legal. -/
theorem exists_wl4Stream (be : Bool) (W : Nat) (d : List Byte) :
    ∃ out, Wl4StreamOf be W d out := by
  refine ⟨_, d.map fun v => .lit [v], fun r hr => ?_, ?_, rfl⟩
  · obtain ⟨v, -, rfl⟩ := List.mem_map.1 hr
    exact ⟨Nat.le_refl 1, one_lt_wl4Top W⟩
  · rw [List.flatMap_map]
    exact List.flatMap_singleton' d

section Streams
variable {be : Bool} {W : Nat} {d : List Byte} (hW : W = 1 ∨ W = 2)
include hW

/-- A run of `k` bytes takes at most `k + 2` bytes. -/
theorem Wl4StreamOf.length_le {out : List Byte} (h : Wl4StreamOf be W d out) :
    out.length ≤ 3 * d.length + 3 := by
  obtain ⟨runs, hruns, rfl, rfl⟩ := h
  have hbody : (runs.flatMap (Wl4Run.bytes be W)).length ≤ 3 * (runs.flatMap Wl4Run.expand).length := by
    induction runs with
    | nil => exact Nat.le_refl 0
    | cons r runs ih =>
      obtain ⟨⟨h1, hr⟩, hrest⟩ := List.forall_mem_cons.1 hruns
      have hpayload := Wl4Run.payload_length_le h1
      have htail := ih hrest
      rw [List.flatMap_cons, List.flatMap_cons, List.length_append, List.length_append,
        Wl4Run.bytes_length hW hr, Wl4Run.expand_length]
      omega
  rw [List.length_cons, List.length_append, wl4ControlBytes_length hW]
  omega

/-- R179 on a legal stream. -/
theorem Wl4StreamOf.decompress {cap : Nat} {out : List Byte} (h : Wl4StreamOf be W d out)
    (hcap : d.length ≤ cap) : wl4Decompress be cap out = .ok d := by
  obtain ⟨runs, hruns, rfl, rfl⟩ := h
  have hloop {b : List Byte}
      (hb : b.drop 1 = runs.flatMap (Wl4Run.bytes be W) ++ wl4ControlBytes be W 0) :
      wl4Loop be cap b W b.length 1 [] = .ok (runs.flatMap Wl4Run.expand) :=
    wl4Loop_runs _ hW hruns hb (Nat.lt_add_of_pos_left Nat.one_pos) (by simpa using hcap)
  rcases hW with rfl | rfl <;> exact hloop rfl

/-- A WL4 call decodes a legal stream of data that fits `OUT`. -/
theorem Wl4StreamOf.decodeCall {s : State} (hs : s.status ≠ .busy)
    (hcap : d.length ≤ s.params.outCap.toNat) {out : List Byte}
    (h : Wl4StreamOf s.params.wl4Ctrl16BE W d out) : decodeCall s 4#4 out = some (.ok d) := by
  have hlen := h.length_le hW
  rw [← h.decompress hW hcap]
  exact wl4CallComputesItsFunction s out hs (by omega)

end Streams

/-- Settles O60: every run of a legal stream is one turn of the loop, and the call computes the loop (O54). -/
theorem wl4RoundTrip : Obligations.Wl4RoundTrip := by
  refine ⟨fun be cap d out hcap h => ?_, fun s d hs hcap => ?_⟩
  · obtain ⟨W, hW, hstream⟩ := exists_wl4StreamOf h
    exact hstream.decompress hW hcap
  · have hcall {out : List Byte} (h : Wl4Compressed8 d out ∨ Wl4Compressed16 s.params.wl4Ctrl16BE d out ∨
        Wl4Compressed s.params.wl4Ctrl16BE d out) : decodeCall s 4#4 out = some (.ok d) := by
      obtain ⟨W, hW, hstream⟩ := exists_wl4StreamOf h
      exact hstream.decodeCall hW hs hcap
    obtain ⟨o8, h8⟩ := exists_wl4Stream s.params.wl4Ctrl16BE 1 d
    obtain ⟨o16, h16⟩ := exists_wl4Stream s.params.wl4Ctrl16BE 2 d
    rw [wl4StreamOf_one_iff] at h8
    rw [wl4StreamOf_two_iff] at h16
    exact ⟨⟨⟨o8, h8⟩, fun _ h => hcall (.inl h)⟩, ⟨⟨o16, h16⟩, fun _ h => hcall (.inr (.inl h))⟩,
      ⟨⟨_, o8, o16, h8, h16, rfl⟩, fun _ h => hcall (.inr (.inr h))⟩⟩

end Sys2Proof.Machine
end

section
/-! SUPPORT. Under the invariant the step never stops (70_reset_and_hazards.md R227), and every host act keeps
the invariant (R222 to R224). -/

namespace Sys2Proof.Machine

/-! ## The step never stops -/

/-- Settles O42: a block that is not running keeps its state, a header opens its body or raises, and every
other step of a call continues it or raises. -/
theorem stepNeverStops : Obligations.StepNeverStops := by
  intro s h
  cases hb : s.busy
  · exact ⟨s, step_idle hb⟩
  · have hi := (h.callInv hb).phase
    by_cases hp : s.phase = .hdr
    · obtain ⟨t, ht, -⟩ := step_hdr_opens hi hp
      exact ⟨t, ht⟩
    · obtain ⟨t, ht, -⟩ := step_advances hi (h.cursor hb) hb hp
      exact ⟨t, ht⟩

/-! ## Host acts keep the invariant -/

/-- A call that is over implies nothing of `MODE`, `IN_LEN` and the spaces. -/
theorem phaseInv_done_congr {s t : State} (hs : s.phase = .done) (ht : t.phase = .done)
    (hx : t.x = s.x) (hi : PhaseInv s) : PhaseInv t := by
  rw [PhaseInv, hs] at hi
  rw [PhaseInv, ht, hx]
  exact hi

theorem phase_of_status_done {s : State} (h : s.status = .done) : s.phase = .done := by
  revert h
  rw [State.status]
  cases s.phase <;> decide

theorem hostWrite_mode {s : State} (hb : s.busy = false) (v : BitVec 32) :
    s.hostWrite .mode v = { s with mode := v.setWidth 4 } := by simp [State.hostWrite, hb]

theorem hostWrite_inLen {s : State} (hb : s.busy = false) (v : BitVec 32) :
    s.hostWrite .inLen v = { s with inLen := v } := by simp [State.hostWrite, hb]

namespace Inv

variable {s : State}

/-- 70_reset_and_hazards.md R223: while no call runs `MODE`, `IN_LEN` and `IN` are the host's. -/
theorem of_hostEdit (h : Inv s) (hb : s.busy = false) (mode : BitVec 4) (len : Addr) {m : Memory}
    (hwf : m.wf = true) (hin : ∀ a, (m.get a).isSome → a < 2 ^ Config.addrW) :
    Inv { s with mode := mode, inLen := len, inMem := m } where
  mem := { h.mem with inWf := hwf, inInside := hin }
  err := h.err
  noUnimplemented := h.noUnimplemented
  cursor hb' := absurd (hb.symm.trans hb') (by decide)
  call hc := by
    have hd : s.status = .done := hc.resolve_left ((busy_eq_false_iff s).1 hb)
    have hp := phase_of_status_done hd
    obtain ⟨hcap, hslot, hcnt, hnode, hbl, hbo, hw, hi⟩ := h.call (.inr hd)
    exact ⟨hcap, hslot, hcnt, hnode, hbl, hbo, hw, phaseInv_done_congr hp hp rfl hi⟩

/-- A launched call: all registers are 0 and nothing has been produced. -/
theorem of_launch (h : Inv s) {p : Phase} (hs : s.status ≠ .busy) (hm : startPhase s.mode = some p) :
    Inv s.start := by
  have hok := start_callOk hs
  rw [start_of_phase hs hm] at hok ⊢
  have hp : p ≠ .fault := by
    rintro rfl
    rcases startPhase_cases s.mode with ⟨h', -⟩ | ⟨h', -⟩ | ⟨h', -⟩ <;> cases hm.symm.trans h'
  exact
    { mem := { h.mem with }
      err := by simp [hp]
      noUnimplemented := by simp
      cursor := hok.cursor
      call := fun _ =>
        { outCap := Nat.zero_le _
          slot := Nat.zero_le _
          bitCnt := Nat.zero_le _
          node := Nat.zero_le _
          brLen := .inl rfl
          brOff := .inl rfl
          written := fun a ha => absurd ha (Nat.not_lt_zero a)
          phase := hok.phase } }

/-- 40_header_dispatch.md R90: `CTRL.START` is ignored, begins a call or raises InvalidFormat. -/
theorem start (h : Inv s) : Inv s.start := by
  by_cases hs : s.status = .busy
  · have hb : s.busy = true := by simp [State.busy, hs]
    have hsame : s.start = s := hostWrite_busy hb .ctrl 1#32
    rwa [hsame]
  · cases hm : startPhase s.mode with
    | some p => exact h.of_launch hs hm
    | none =>
      rw [start_of_reserved hs hm]
      exact h.raise (.inl rfl)

theorem hostWrite (h : Inv s) (r : CtrlReg) (v : BitVec 32) : Inv (s.hostWrite r v) := by
  cases hb : s.busy
  · cases r with
    | ctrl =>
      show Inv (if v.getLsbD 0 then s.start else s)
      split
      · exact h.start
      · exact h
    | mode =>
      rw [hostWrite_mode hb]
      exact h.of_hostEdit hb _ s.inLen h.mem.inWf h.mem.inInside
    | inLen =>
      rw [hostWrite_inLen hb]
      exact h.of_hostEdit hb s.mode v h.mem.inWf h.mem.inInside
    | status | err | phase | inPos | outLen | hdr => exact h
  · rwa [hostWrite_busy hb]

/-- 10_state.md R21: outside `BUSY` the host writes a byte of `IN`, at an address of `ADDR_W` bits. -/
theorem hostWriteIn (h : Inv s) (hb : s.busy = false) (a : Addr) (v : Byte) :
    Inv { s with inMem := s.inMem.write a.toNat v } := by
  refine h.of_hostEdit hb s.mode s.inLen (Memory.write_wf _ _ h.mem.inWf) fun b hsome => ?_
  by_cases hba : b = a.toNat
  · rw [hba]
    exact a.isLt
  · rw [Memory.get_write_other _ _ hba] at hsome
    exact h.mem.inInside b hsome

end Inv

/-- 70_reset_and_hazards.md R220: after a reset nothing is listed in a space, and no call runs. -/
theorem hostReset_inv (s : State) : Inv s.hostReset where
  mem :=
    have hnone : ∀ {n a : Nat}, ((Memory.unspecified s.draws).get a).isSome → a < n := fun h => by
      simp at h
    ⟨rfl, rfl, rfl, fun _ => hnone, fun _ => hnone, fun _ => hnone⟩
  err := by simp [State.hostReset, State.reset]
  noUnimplemented := by simp [State.hostReset, State.reset]
  cursor h := by cases h
  call h := by rcases h with h | h <;> cases h

/-- Settles O43, act by act: a host write changes registers that nothing is claimed of, starts a call from
zeroed registers, or writes an address of `IN`; a reset empties the machine. -/
theorem hostActsKeepTheInvariant : Obligations.HostActsKeepTheInvariant := by
  intro s h
  refine ⟨h.hostWrite, h.start, hostReset_inv s, fun a v hs => ?_⟩
  have hb := (busy_eq_false_iff s).2 hs
  exact ⟨_, by simp [State.hostWriteIn, hb], h.hostWriteIn hb a v⟩

end Sys2Proof.Machine
end

section
/-! SUPPORT. A token that faults leaves nothing but the raise (60_exceptions.md R206, R208), and while no call
runs a step does nothing (R209, R219). -/

namespace Sys2Proof.Machine

/-- A token's end: an error of the state before it, or a state that is no fault. -/
def RaisesOrGoesOn (s t : State) : Prop := (∃ k, TokenError k ∧ t = s.raise k) ∨ t.phase ≠ .fault

theorem raisesOrGoesOn_invalidFormat (s : State) : RaisesOrGoesOn s (s.raise .invalidFormat) :=
  .inl ⟨_, .inl rfl, rfl⟩

theorem raisesOrGoesOn_outOfBounds (s : State) : RaisesOrGoesOn s (s.raise .outOfBounds) :=
  .inl ⟨_, .inr (.inl rfl), rfl⟩

theorem raisesOrGoesOn_truncated (s : State) : RaisesOrGoesOn s (s.raise .truncated) :=
  .inl ⟨_, .inr (.inr rfl), rfl⟩

section Raises
variable {s t : State}

/-- The three ends of a header token (40_header_dispatch.md R101). -/
theorem header_raisesOrGoesOn {P Q Q' R R' : Prop} {u : State}
    (h : (P ∧ t = s.raise .invalidFormat) ∨ (Q ∧ R ∧ t = s.raise .outOfBounds) ∨
      (Q' ∧ R' ∧ t = u)) (hu : u.phase ≠ .fault) : RaisesOrGoesOn s t := by
  rcases h with ⟨-, rfl⟩ | ⟨-, -, rfl⟩ | ⟨-, -, rfl⟩
  · exact raisesOrGoesOn_invalidFormat s
  · exact raisesOrGoesOn_outOfBounds s
  · exact .inr hu

theorem wl4TypeStep_raisesOrGoesOn {v : BitVec 2} {p : Phase} (hp : p ≠ .fault)
    (h : wl4TypeStep v p s = .next t) : RaisesOrGoesOn s t := by
  rcases wl4TypeStep_cases h with ⟨-, rfl⟩ | ⟨-, rfl⟩
  · exact raisesOrGoesOn_invalidFormat s
  · exact .inr hp

theorem wl4End_raisesOrGoesOn {n : Nat} (h : wl4End n s = .next t) : RaisesOrGoesOn s t := by
  rcases wl4End_cases h with ⟨-, rfl⟩ | ⟨-, rfl⟩
  · exact raisesOrGoesOn_truncated s
  · exact .inr (by simp)

theorem wl4Rsv_raisesOrGoesOn {n : Nat} (h : wl4Rsv n s = .next t) : RaisesOrGoesOn s t := by
  rcases wl4Rsv_cases h with ⟨-, rfl⟩ | ⟨-, rfl⟩
  · exact raisesOrGoesOn_truncated s
  · exact raisesOrGoesOn_invalidFormat s

theorem wl4Lit_raisesOrGoesOn {n k : Nat} {p : Phase} (hp : p ≠ .fault)
    (h : wl4Lit n k p s = .next t) : RaisesOrGoesOn s t := by
  rcases wl4Lit_cases h with ⟨rfl, -⟩ | ⟨-, -, rfl⟩ | ⟨-, -, rfl⟩
  · exact raisesOrGoesOn_truncated s
  · exact raisesOrGoesOn_outOfBounds s
  · exact .inr hp

theorem wl4Rep_raisesOrGoesOn {n k : Nat} {p : Phase} (hp : p ≠ .fault)
    (h : wl4Rep n k p s = .next t) : RaisesOrGoesOn s t := by
  rcases wl4Rep_cases h with ⟨rfl, -⟩ | ⟨-, -, rfl⟩ | ⟨-, -, rfl⟩
  · exact raisesOrGoesOn_truncated s
  · exact raisesOrGoesOn_outOfBounds s
  · exact .inr hp

/-- The walk itself never raises: every error of a bit step comes before it (44_huffman.md R151, R152). -/
theorem branchStep_ne_fault {l0 l1 : Bool} {base : BitVec 6} {bit : Bool}
    (h : branchStep l0 l1 base bit s = .next t) : t.phase ≠ .fault := by
  obtain ⟨-, ⟨-, -, -, rfl⟩ | ⟨-, rfl⟩⟩ := branchStep_cases h
  · exact finishOr_ne_fault _ (by decide)
  · simp

/-- A bit step raises only where its refill is cut short. -/
theorem afterRefill_raisesOrGoesOn {f : State → Answer}
    (hf : ∀ u, f u = .next t → t.phase ≠ .fault) (h : afterRefill f s = .next t) :
    RaisesOrGoesOn s t := by
  rcases afterRefill_cases h with ⟨-, h⟩ | ⟨-, -, rfl⟩ | ⟨-, -, h⟩
  · exact .inr (hf _ h)
  · exact raisesOrGoesOn_truncated s
  · exact .inr (hf _ h)

/-- 60_exceptions.md R206, R208: in any state a token raises from the state before it, or is no fault. -/
theorem exec_raisesOrGoesOn {i : Instr} (h : exec i s = .next t) : RaisesOrGoesOn s t := by
  cases i with
  | hdrLz77 p n =>
    exact header_raisesOrGoesOn (execHdrLz77_cases h) (finishOr_ne_fault _ (by decide))
  | hdrHuf p n => exact header_raisesOrGoesOn (execHdrHuf_cases h) (by simp)
  | hdrRle p n => exact header_raisesOrGoesOn (execHdrRle_cases h) (finishOr_ne_fault _ (by decide))
  | hdrDiff8 n =>
    exact header_raisesOrGoesOn (execHdrDiff8_cases h) (finishOr_ne_fault _ (by decide))
  | hdrDiff16 n =>
    rcases execHdrDiff16_cases h with ⟨-, rfl⟩ | ⟨-, -, -, rfl⟩ | ⟨-, -, -, rfl⟩
    · exact raisesOrGoesOn_invalidFormat s
    · exact raisesOrGoesOn_outOfBounds s
    · exact .inr (finishOr_ne_fault _ (by decide))
  | hdrIllegal b n => cases h; exact raisesOrGoesOn_invalidFormat s
  | wl4T8 => exact wl4TypeStep_raisesOrGoesOn (by decide) h
  | wl4T16 => exact wl4TypeStep_raisesOrGoesOn (by decide) h
  | wl4TIllegal b => cases h; exact raisesOrGoesOn_invalidFormat s
  | rleLit c =>
    rcases execRleLit_cases h with ⟨rfl, -⟩ | ⟨-, -, rfl⟩ | ⟨-, -, -, rfl⟩
    · exact raisesOrGoesOn_truncated s
    · exact raisesOrGoesOn_outOfBounds s
    · exact .inr (finishOr_ne_fault _ (by decide))
  | rleRep c =>
    rcases execRleRep_cases h with ⟨rfl, -⟩ | ⟨-, -, rfl⟩ | ⟨-, -, -, rfl⟩
    · exact raisesOrGoesOn_truncated s
    · exact raisesOrGoesOn_outOfBounds s
    · exact .inr (finishOr_ne_fault _ (by decide))
  | d8W w =>
    rcases execD8W_cases h with ⟨-, rfl⟩ | ⟨-, -, rfl⟩
    · exact raisesOrGoesOn_truncated s
    · exact .inr (finishOr_ne_fault _ (by decide))
  | d16W w =>
    rcases execD16W_cases h with ⟨-, rfl⟩ | ⟨-, -, rfl⟩
    · exact raisesOrGoesOn_truncated s
    · exact .inr (finishOr_ne_fault _ (by decide))
  | lzMask m =>
    rcases execLzMask_cases h with ⟨-, rfl⟩ | ⟨-, rfl⟩
    · exact raisesOrGoesOn_truncated s
    · exact .inr (by simp)
  | lzLit v =>
    obtain ⟨-, ⟨-, rfl⟩ | ⟨-, -, rfl⟩⟩ := execLzLit_cases h
    · exact raisesOrGoesOn_truncated s
    · exact .inr (blockDone_ne_fault _)
  | lzRef l d =>
    obtain ⟨-, ⟨-, rfl⟩ | ⟨-, -, rfl⟩ | ⟨-, -, -, -, rfl⟩⟩ := execLzRef_cases h
    · exact raisesOrGoesOn_truncated s
    · exact raisesOrGoesOn_outOfBounds s
    · exact .inr (blockDone_ne_fault _)
  | hufTSize n =>
    rcases execHufTSize_cases h with ⟨-, rfl⟩ | ⟨-, rfl⟩
    · exact raisesOrGoesOn_truncated s
    · exact .inr (by simp)
  | hufTable =>
    rcases execHufTable_cases h with ⟨-, rfl⟩ | ⟨-, rfl⟩
    · exact raisesOrGoesOn_truncated s
    · exact .inr (by simp)
  | hufBr l0 l1 base =>
    rw [exec, execHufBr] at h
    exact afterRefill_raisesOrGoesOn (fun _ => branchStep_ne_fault) h
  | hufLeaf v =>
    obtain ⟨-, rfl⟩ := leafStep_cases h
    exact .inr (finishOr_ne_fault _ (by decide))
  | hufCheck =>
    rcases execHufCheck_cases h with ⟨-, rfl⟩ | ⟨-, rfl⟩
    · exact raisesOrGoesOn_outOfBounds s
    · exact .inr (finishOr_ne_fault _ (by decide))
  | hufWord w =>
    rcases execHufWord_cases h with ⟨-, rfl⟩ | ⟨-, h⟩
    · exact raisesOrGoesOn_truncated s
    · exact .inr (branchStep_ne_fault h)
  | hufBit0 => exact afterRefill_raisesOrGoesOn (f := walkBit false) (fun _ => branchStep_ne_fault) h
  | hufBit1 => exact afterRefill_raisesOrGoesOn (f := walkBit true) (fun _ => branchStep_ne_fault) h
  | w8End => exact wl4End_raisesOrGoesOn h
  | w8Rsv => exact wl4Rsv_raisesOrGoesOn h
  | w8Lit len => exact wl4Lit_raisesOrGoesOn (by decide) h
  | w8Rep len => exact wl4Rep_raisesOrGoesOn (by decide) h
  | w16End => exact wl4End_raisesOrGoesOn h
  | w16Rsv => exact wl4Rsv_raisesOrGoesOn h
  | w16Lit len => exact wl4Lit_raisesOrGoesOn (by decide) h
  | w16Rep len => exact wl4Rep_raisesOrGoesOn (by decide) h

end Raises

/-- Settles O11: of the two ends of a token only the raise is a fault. -/
theorem faultingTokensLeaveOnlyTheRaise : Obligations.FaultingTokensLeaveOnlyTheRaise :=
  fun _ _ _ h hf => (exec_raisesOrGoesOn h).resolve_right fun hne => hne hf

/-- Settles O6: in the three phases no call runs. -/
theorem idleBlockDoesNothing : Obligations.IdleBlockDoesNothing := by
  rintro s (hp | hp | hp)
  · exact step_idle (by rw [State.busy, State.status, hp]; rfl)
  · exact step_idle (busy_of_done hp)
  · exact step_idle (busy_of_fault hp)

/-- Settles O10: the fields are those of `State.raise`, and in `P_FAULT` the block does nothing (O6). -/
theorem raiseEntersTheFaultState : Obligations.RaiseEntersTheFaultState := fun s k =>
  ⟨raised_raise s k, rfl, rfl, rfl, idleBlockDoesNothing (s.raise k) (.inr (.inr rfl))⟩

end Sys2Proof.Machine
end

section
/-! SUPPORT. What the host reads, row by row of the interaction table (70_reset_and_hazards.md R223). -/

namespace Sys2Proof.Machine

theorem hostReadOut_busy {s : State} (hb : s.busy = true) (a : Nat) :
    s.hostReadOut a = .refused .hostBufferAccessWhileBusy := by simp [State.hostReadOut, hb]

/-- 20_memory.md R48: outside `DONE` no byte of `OUT` has a value for the host. -/
theorem hostReadOut_of_not_done {s : State} (hb : s.busy = false) (hd : s.status ≠ .done) (a : Nat) :
    s.hostReadOut a = .unspecified := by simp [State.hostReadOut, hb, hd]

theorem hostReadOut_done {s : State} (hd : s.status = .done) (a : Nat) : s.hostReadOut a =
    if a < s.x.outLen.toNat then .value (s.outAt a) else .unspecified := by
  simp [State.hostReadOut, State.busy, hd]

/-- 70_reset_and_hazards.md R223: `HDR` has a value at `DONE`, at `IDLE` (log 21) and after the header step. -/
theorem hostRead_hdr {s : State}
    (h : s.status = .done ∨ s.status = .idle ∨ s.phase.afterHeader = true) :
    s.hostRead .hdr = .value (s.x.type ++ (s.x.param ++ s.x.size)) := if_pos h

theorem afterHeader_of_mem : ∀ p ∈ [Phase.rle, .diff, .lzMask, .lzBlock, .hufTSize, .hufTable,
    .hufCheck, .hufBits], p.afterHeader = true := by decide

theorem not_afterHeader_of_mem : ∀ p ∈ [Phase.hdr, .wl4Type, .w8, .w16],
    ¬ (p.status = .done ∨ p.status = .idle ∨ p.afterHeader = true) := by decide

/-- The header step is over in phases of `BUSY` only. -/
theorem afterHeader_busy {p : Phase} : p.afterHeader = true → p.status = .busy := by
  cases p <;> decide

/-- Settles O14, row by row; a row whose test is of `STATUS` is read off that status. -/
theorem hostReadsFollowTheInteractionTable : Obligations.HostReadsFollowTheInteractionTable := by
  refine fun s => ⟨rfl, rfl, rfl, rfl, rfl, rfl, fun _ => rfl,
    fun hs => hostReadIn_idle ((busy_eq_false_iff s).2 hs), fun hs => if_neg hs,
    fun hs => ?idle, fun hs => ?done, fun hs => ?fault, fun hs => ?busy,
    fun hp => hostRead_hdr (.inr (.inr (afterHeader_of_mem _ hp))),
    fun hp => if_neg (not_afterHeader_of_mem _ hp)⟩
  case idle =>
    have hb : s.busy = false := by simp [State.busy, hs]
    exact ⟨if_pos (.inr hs), hostRead_hdr (.inr (.inl hs)), hostReadOut_of_not_done hb (by simp [hs])⟩
  case done =>
    refine ⟨if_pos (.inl hs), hostRead_hdr (.inl hs), fun a ha => ?_, fun a ha => ?_⟩
    · rw [hostReadOut_done hs, if_pos ha]
    · rw [hostReadOut_done hs, if_neg (Nat.not_lt.2 ha)]
  case fault =>
    have hb : s.busy = false := by simp [State.busy, hs]
    have ha : ¬ s.phase.afterHeader = true := fun h =>
      absurd (hs.symm.trans (afterHeader_busy h)) (by decide)
    exact ⟨if_pos hs, if_neg (by simp [hs]), if_neg (by simp [hs, ha]),
      hostReadOut_of_not_done hb (by simp [hs])⟩
  case busy =>
    have hb : s.busy = true := by simp [State.busy, hs]
    exact ⟨if_neg (by simp [hs]), hostReadIn_busy hb, hostReadOut_busy hb⟩

end Sys2Proof.Machine
end
